-- ==== Sys2Proof/Word.lean ====
section
/-! DEFINITION. The word types of MDPSM (R10: bit 0 is the least significant bit, every value is unsigned). -/

namespace Sys2Proof

/-- A ByteValue: an 8-bit unsigned quantity (R63). -/
abbrev Byte := BitVec 8

/-- The 24-bit address field of a request and of a NOR frame (R100, R108). -/
abbrev Addr := BitVec 24

/-- The 7-bit device address of the two-wire bus (R110). -/
abbrev DevAddr := BitVec 7

end Sys2Proof
end

