-- ==== Sys2Proof/Config.lean ====
section
/-! DEFINITION. The configuration table of R8, the constraints of R9, and the free values (values that no rule fixes). -/

namespace Sys2Proof

/-- The fifteen NOR command bytes of R109. The defaults are the spec's, marked there as general knowledge. -/
structure Commands where
  wren : Byte
  wrdi : Byte
  rdsr1 : Byte
  rdsr2 : Byte
  rdsr3 : Byte
  wrsr1 : Byte
  pp : Byte
  se : Byte
  be64 : Byte
  ce : Byte
  rdid : Byte
  wake : Byte
  rsten : Byte
  rst : Byte
  read : Byte
  deriving DecidableEq, Repr

/-- The fifteen bytes as a list, in the order of R109. -/
def Commands.all (c : Commands) : List Byte :=
  [c.wren, c.wrdi, c.rdsr1, c.rdsr2, c.rdsr3, c.wrsr1, c.pp, c.se, c.be64, c.ce, c.rdid, c.wake, c.rsten, c.rst, c.read]

/-- The default command bytes of R109. -/
def Commands.default : Commands where
  wren := 0x06
  wrdi := 0x04
  rdsr1 := 0x05
  rdsr2 := 0x35
  rdsr3 := 0x15
  wrsr1 := 0x01
  pp := 0x02
  se := 0x20
  be64 := 0xD8
  ce := 0xC7
  rdid := 0x9F
  wake := 0xAB
  rsten := 0x66
  rst := 0x99
  read := 0x03

/-- `FAIL_POLICY` (R8, R242). -/
inductive FailPolicy where
  | abort
  | collect
  deriving DecidableEq, Repr

/-- The configuration of R8: every constant of the block as a parameter, fixed for the life of a configuration, and
after them the parameters of the reference devices that U3 and U4 ask for and the device side of `T_SETTLE` (R268).
Durations are in one unit of time, which no rule of the block reads. -/
structure Config where
  /-- `NOR_ADDR_BITS`, `NOR_CAPACITY`, `NOR_PAGE`, `NOR_SECTOR`, `NOR_BLOCK`. -/
  norAddrBits : Nat
  norCapacity : Nat
  norPage : Nat
  norSector : Nat
  norBlock : Nat
  norEraseValue : Byte
  /-- `NOR_EXPECTED_ID`, OPEN in the spec. -/
  norExpectedId : BitVec 24
  norProtMask : Byte
  norAlignErase : Bool
  cmd : Commands
  tIdRetry : Nat
  parAddrBits : Nat
  parCapacity : Nat
  /-- `PAR_RETRY_BUDGET`, OPEN in the spec. -/
  parRetryBudget : Nat
  tWritePulse : Nat
  tRetry : Nat
  failPolicy : FailPolicy
  parEraseValue : Byte
  seeAddrBits : Nat
  seeCapacity : Nat
  seePage : Nat
  /-- `SEE_DEV_ADDR`, OPEN in the spec. -/
  seeDevAddr : DevAddr
  tSettle : Nat
  seeEraseValue : Byte
  /-- `PROGRESS_EVERY`; 0 means no progress events. -/
  progressEvery : Nat
  /-- `BUS_CLOCK`; no rule reads it (R8). -/
  busClock : Nat
  /-- Device: `true` adopts R84's law `new = old & data` for a byte that is not erased; `false` leaves it free (U4). -/
  norAndLaw : Bool
  /-- Device: the set of addresses a `BP` value protects, indexed by the value, as the union of ranges (start, length);
  missing means none (U3, R87). -/
  norProtected : List (List (Nat × Nat))
  /-- Device: whether a status write is honoured (U3, R88). -/
  norStatusWritable : Bool
  /-- Device: the longest internal write cycle of the serial EEPROM (R92, R268). -/
  seeWriteCycle : Nat
  deriving DecidableEq, Repr

/-- The defaults of R8. For the OPEN parameters: the spec's own examples 0xEF4018 and 0x50, the budget 3 of
`95_test_vectors.md`, and nominal durations (DESIGN CHOICE, unsafe, log 2). -/
def Config.default : Config where
  norAddrBits := 24
  norCapacity := 16777216
  norPage := 256
  norSector := 4096
  norBlock := 65536
  norEraseValue := 0xFF
  norExpectedId := 0xEF4018
  norProtMask := 0x9C
  norAlignErase := false
  cmd := Commands.default
  tIdRetry := 1000
  parAddrBits := 11
  parCapacity := 2048
  parRetryBudget := 3
  tWritePulse := 1
  tRetry := 100
  failPolicy := .abort
  parEraseValue := 0xFF
  seeAddrBits := 15
  seeCapacity := 32768
  seePage := 64
  seeDevAddr := 0x50
  tSettle := 5000
  seeEraseValue := 0xFF
  progressEvery := 500
  busClock := 0
  norAndLaw := false
  norProtected := []
  norStatusWritable := true
  seeWriteCycle := 5000

/-- The constraints of R9, the pairwise distinct command bytes of R109, and two that R111 (address lines `A0` to
`A10`) and R210 (bit 7 of the first address byte is 0) imply: `PAR_ADDR_BITS ≤ 11`, `SEE_ADDR_BITS ≤ 15`
(DEDUCED, safe, log 25). -/
abbrev Config.wf (c : Config) : Prop :=
  c.norCapacity = 2 ^ c.norAddrBits ∧ c.parCapacity = 2 ^ c.parAddrBits ∧ c.seeCapacity = 2 ^ c.seeAddrBits ∧
  c.norPage ∣ c.norSector ∧ c.norSector ∣ c.norBlock ∧ c.norBlock ∣ c.norCapacity ∧ c.seePage ∣ c.seeCapacity ∧
  1 ≤ c.parRetryBudget ∧ c.parRetryBudget < 2 ^ 32 ∧
  c.norAddrBits ≤ 24 ∧ c.parAddrBits ≤ 11 ∧ c.seeAddrBits ≤ 15 ∧ c.cmd.all.Nodup

/-- A byte that no rule fixes: applied to the counter `World.free`, which every use advances (log 35). -/
opaque Config.freeByte : Nat → BitVec 8

/-- A bit that no rule fixes: applied to the counter `World.free`, which every use advances (log 35). -/
opaque Config.freeBit : Nat → Bool

/-- What the result port gives for `NOR_IDENT` while `NOR_IDENT_VALID` is 0: unspecified (R34, R41, log 7). -/
opaque Config.unspecifiedIdent : BitVec 24

end Sys2Proof
end

