-- ==== Sys2Proof/Syntax.lean ====
section
/-! DEFINITION. The instructions: one constructor per row of `spec/opcode_table.json`. -/

namespace Sys2Proof

/-- The 23 requests (R102, R104), the 15 NOR command frames (R108, R109) and the 3 two-wire frames (R110). A request
carries the fields its operation uses; `arg` is the whole 32-bit field and `data` is the buffer `DIN`. A frame that
reads carries the number of bytes the master reads where the format does not fix it. -/
inductive Instr where
  | norInit
  | norWriteEnable
  | norWriteDisable
  | norReadStatus1
  | norReadStatus2
  | norReadStatus3
  | norWritePage (addr : Addr) (arg : BitVec 32) (data : List Byte)
  | norSectorErase (addr : Addr)
  | norBlockErase64k (addr : Addr)
  | norChipErase
  | norRead (addr : Addr) (arg : BitVec 32)
  | wpDisableProtection
  | parInit
  | parWriteByte (addr : Addr) (arg : BitVec 32)
  | parReadByte (addr : Addr)
  | parBulkRead (addr : Addr) (arg : BitVec 32)
  | parBulkWrite (addr : Addr) (arg : BitVec 32) (data : List Byte)
  | seeInit
  | seeWriteByte (addr : Addr) (arg : BitVec 32)
  | seeWritePage (addr : Addr) (arg : BitVec 32) (data : List Byte)
  | seeReadByte (addr : Addr)
  | seeReadBytes (addr : Addr) (arg : BitVec 32)
  | seeBulkErase (arg : BitVec 32)
  | cmdWren
  | cmdWrdi
  | cmdRdsr1
  | cmdRdsr2
  | cmdRdsr3
  | cmdWrsr1 (value : Byte)
  | cmdPp (addr : Addr) (data : List Byte)
  | cmdSe (addr : Addr)
  | cmdBe64 (addr : Addr)
  | cmdCe
  | cmdRdid
  | cmdWake
  | cmdRsten
  | cmdRst
  | cmdRead (addr : Addr) (count : Nat)
  | i2cAD (addr : BitVec 15) (data : List Byte)
  | i2cA (addr : BitVec 15)
  | i2cRN (count : Nat)
  deriving DecidableEq, Repr

/-- The mnemonic of an instruction, as the opcode table spells it (R102, R109, R110). -/
def Instr.mnemonic : Instr → String
  | .norInit => "NOR_INIT"
  | .norWriteEnable => "NOR_WRITE_ENABLE"
  | .norWriteDisable => "NOR_WRITE_DISABLE"
  | .norReadStatus1 => "NOR_READ_STATUS1"
  | .norReadStatus2 => "NOR_READ_STATUS2"
  | .norReadStatus3 => "NOR_READ_STATUS3"
  | .norWritePage _ _ _ => "NOR_WRITE_PAGE"
  | .norSectorErase _ => "NOR_SECTOR_ERASE"
  | .norBlockErase64k _ => "NOR_BLOCK_ERASE_64K"
  | .norChipErase => "NOR_CHIP_ERASE"
  | .norRead _ _ => "NOR_READ"
  | .wpDisableProtection => "WP_DISABLE_PROTECTION"
  | .parInit => "PAR_INIT"
  | .parWriteByte _ _ => "PAR_WRITE_BYTE"
  | .parReadByte _ => "PAR_READ_BYTE"
  | .parBulkRead _ _ => "PAR_BULK_READ"
  | .parBulkWrite _ _ _ => "PAR_BULK_WRITE"
  | .seeInit => "SEE_INIT"
  | .seeWriteByte _ _ => "SEE_WRITE_BYTE"
  | .seeWritePage _ _ _ => "SEE_WRITE_PAGE"
  | .seeReadByte _ => "SEE_READ_BYTE"
  | .seeReadBytes _ _ => "SEE_READ_BYTES"
  | .seeBulkErase _ => "SEE_BULK_ERASE"
  | .cmdWren => "CMD_WREN"
  | .cmdWrdi => "CMD_WRDI"
  | .cmdRdsr1 => "CMD_RDSR1"
  | .cmdRdsr2 => "CMD_RDSR2"
  | .cmdRdsr3 => "CMD_RDSR3"
  | .cmdWrsr1 _ => "CMD_WRSR1"
  | .cmdPp _ _ => "CMD_PP"
  | .cmdSe _ => "CMD_SE"
  | .cmdBe64 _ => "CMD_BE64"
  | .cmdCe => "CMD_CE"
  | .cmdRdid => "CMD_RDID"
  | .cmdWake => "CMD_WAKE"
  | .cmdRsten => "CMD_RSTEN"
  | .cmdRst => "CMD_RST"
  | .cmdRead _ _ => "CMD_READ"
  | .i2cAD _ _ => "I2C_A_D"
  | .i2cA _ => "I2C_A"
  | .i2cRN _ => "I2C_RN"

end Sys2Proof
end

