-- ==== Sys2Proof/Decode.lean ====
section
/-! DEFINITION. The decoder and the encoder of requests (R100 to R105), of NOR command frames (R107 to R109) and of
two-wire frames (R110), with the byte-order helpers of R11 and R64. -/

namespace Sys2Proof

/-- `be24(a)`: the address bytes of a NOR frame, most significant first (R11, R64). -/
def be24 (a : BitVec 24) : List Byte :=
  [a.extractLsb' 16 8, a.extractLsb' 8 8, a.extractLsb' 0 8]

/-- `be16(a)`: the address bytes of a serial EEPROM frame, most significant first (R11, R64). -/
def be16 (a : BitVec 16) : List Byte :=
  [a.extractLsb' 8 8, a.extractLsb' 0 8]

/-- Three bytes, most significant first, as one 24-bit number: the inverse of `be24` (R14 (e), R155). -/
def ofBe24 (h m l : Byte) : BitVec 24 := h ++ m ++ l

/-- What is presented to the machine from outside: a request with its buffer (R100), a frame on the 4-wire bus with
the number of bytes read in it (R107), a write or a read frame on the two-wire bus (R110). -/
inductive Wire where
  | request (word : BitVec 64) (din : List Byte)
  | spi (tx : List Byte) (count : Nat)
  | i2cWrite (dev : DevAddr) (bytes : List Byte)
  | i2cRead (dev : DevAddr) (count : Nat)
  deriving DecidableEq, Repr

/-- Why a word or a frame is no instruction. -/
inductive DecodeError where
  /-- `op` is not in R102 (R103). -/
  | illegalOperation (op : BitVec 8)
  /-- A frame without a byte; R141: a frame's first byte is a command byte. -/
  | emptyFrame
  /-- A first byte that is no command of R109. -/
  | unknownCommand (command : Byte)
  /-- A frame whose length is not the one R108 or R110 gives its format. -/
  | badFrameLength
  /-- A program frame with more than `NOR_PAGE` payload bytes (R104, R108). -/
  | payloadTooLong
  /-- A read count that is not the one the frame's format fixes (R108). -/
  | badReadCount (count : Nat)
  /-- A two-wire frame to another device than `SEE_DEV_ADDR` (R110). -/
  | otherDevice (dev : DevAddr)
  /-- Bit 7 of the first address byte of a two-wire frame is not 0 (R64, R110). -/
  | addressBit15
  deriving DecidableEq, Repr

/-- The commands a NOR device receives: the first byte of a frame and what follows it (R80, R108). -/
inductive NorCmd where
  | wren
  | wrdi
  | rdsr1
  | rdsr2
  | rdsr3
  | wrsr1 (value : Byte)
  | pp (addr : Addr) (data : List Byte)
  | se (addr : Addr)
  | be64 (addr : Addr)
  | ce
  | rdid
  | wake
  | rsten
  | rst
  | read (addr : Addr)
  deriving DecidableEq, Repr

/-- The outgoing bytes of a NOR command frame: the formats of R108. -/
def NorCmd.bytes (c : Config) : NorCmd → List Byte
  | .wren => [c.cmd.wren]
  | .wrdi => [c.cmd.wrdi]
  | .rdsr1 => [c.cmd.rdsr1]
  | .rdsr2 => [c.cmd.rdsr2]
  | .rdsr3 => [c.cmd.rdsr3]
  | .wrsr1 v => [c.cmd.wrsr1, v]
  | .pp a data => c.cmd.pp :: (be24 a ++ data)
  | .se a => c.cmd.se :: be24 a
  | .be64 a => c.cmd.be64 :: be24 a
  | .ce => [c.cmd.ce]
  | .rdid => [c.cmd.rdid]
  | .wake => [c.cmd.wake]
  | .rsten => [c.cmd.rsten]
  | .rst => [c.cmd.rst]
  | .read a => c.cmd.read :: be24 a

/-- A command that takes nothing after its byte (formats `SPI_C`, `SPI_C_R1`, `SPI_C_R3` of R108). -/
def bareCommand (rest : List Byte) (cmd : NorCmd) : Except DecodeError NorCmd :=
  match rest with
  | [] => .ok cmd
  | _ :: _ => .error .badFrameLength

/-- A command with exactly a 3-byte address after its byte (formats `SPI_C_A`, `SPI_C_A_RN` of R108). -/
def addressCommand (rest : List Byte) (cmd : Addr → NorCmd) : Except DecodeError NorCmd :=
  match rest with
  | [h, m, l] => .ok (cmd (ofBe24 h m l))
  | _ => .error .badFrameLength

/-- The status write carries exactly one data byte (format `SPI_C_D1` of R108). -/
def statusCommand (rest : List Byte) : Except DecodeError NorCmd :=
  match rest with
  | [v] => .ok (.wrsr1 v)
  | _ => .error .badFrameLength

/-- The program command: a 3-byte address and 0 to `NOR_PAGE` payload bytes (format `SPI_C_A_D` of R108). -/
def programCommand (c : Config) (rest : List Byte) : Except DecodeError NorCmd :=
  match rest with
  | h :: m :: l :: data =>
    if data.length ≤ c.norPage then .ok (.pp (ofBe24 h m l) data) else .error .payloadTooLong
  | _ => .error .badFrameLength

/-- The command a frame carries: the first byte selects it (R80, R109). -/
def decodeNor (c : Config) : List Byte → Except DecodeError NorCmd
  | [] => .error .emptyFrame
  | b :: rest =>
    if b = c.cmd.wren then bareCommand rest .wren
    else if b = c.cmd.wrdi then bareCommand rest .wrdi
    else if b = c.cmd.rdsr1 then bareCommand rest .rdsr1
    else if b = c.cmd.rdsr2 then bareCommand rest .rdsr2
    else if b = c.cmd.rdsr3 then bareCommand rest .rdsr3
    else if b = c.cmd.wrsr1 then statusCommand rest
    else if b = c.cmd.pp then programCommand c rest
    else if b = c.cmd.se then addressCommand rest .se
    else if b = c.cmd.be64 then addressCommand rest .be64
    else if b = c.cmd.ce then bareCommand rest .ce
    else if b = c.cmd.rdid then bareCommand rest .rdid
    else if b = c.cmd.wake then bareCommand rest .wake
    else if b = c.cmd.rsten then bareCommand rest .rsten
    else if b = c.cmd.rst then bareCommand rest .rst
    else if b = c.cmd.read then addressCommand rest .read
    else .error (.unknownCommand b)

/-- The read count a frame's format fixes (R108). -/
def fixedRead (want count : Nat) (i : Instr) : Except DecodeError Instr :=
  if count = want then .ok i else .error (.badReadCount count)

/-- A NOR command with the number of bytes read in its frame, as a row of the opcode table (R108). The `n bytes` of a
`CMD_READ` frame may be none (DESIGN CHOICE, log 28). -/
def frameInstr (count : Nat) : NorCmd → Except DecodeError Instr
  | .wren => fixedRead 0 count .cmdWren
  | .wrdi => fixedRead 0 count .cmdWrdi
  | .rdsr1 => fixedRead 1 count .cmdRdsr1
  | .rdsr2 => fixedRead 1 count .cmdRdsr2
  | .rdsr3 => fixedRead 1 count .cmdRdsr3
  | .wrsr1 v => fixedRead 0 count (.cmdWrsr1 v)
  | .pp a data => fixedRead 0 count (.cmdPp a data)
  | .se a => fixedRead 0 count (.cmdSe a)
  | .be64 a => fixedRead 0 count (.cmdBe64 a)
  | .ce => fixedRead 0 count .cmdCe
  | .rdid => fixedRead 3 count .cmdRdid
  | .wake => fixedRead 0 count .cmdWake
  | .rsten => fixedRead 0 count .cmdRsten
  | .rst => fixedRead 0 count .cmdRst
  | .read a => .ok (.cmdRead a count)

/-- `op`, bits 63 to 56 of the request word (R100). -/
def opField (word : BitVec 64) : BitVec 8 := word.extractLsb' 56 8

/-- `addr`, bits 55 to 32 of the request word (R100). -/
def addrField (word : BitVec 64) : Addr := word.extractLsb' 32 24

/-- `arg`, bits 31 to 0 of the request word (R100). -/
def argField (word : BitVec 64) : BitVec 32 := word.extractLsb' 0 32

/-- The request decoder: it tests `op` alone (R102); the other 233 values are illegal (R103). -/
def decodeRequest (word : BitVec 64) (din : List Byte) : Except DecodeError Instr :=
  match opField word with
  | 0x10#8 => .ok .norInit
  | 0x11#8 => .ok .norWriteEnable
  | 0x12#8 => .ok .norWriteDisable
  | 0x13#8 => .ok .norReadStatus1
  | 0x14#8 => .ok .norReadStatus2
  | 0x15#8 => .ok .norReadStatus3
  | 0x16#8 => .ok (.norWritePage (addrField word) (argField word) din)
  | 0x17#8 => .ok (.norSectorErase (addrField word))
  | 0x18#8 => .ok (.norBlockErase64k (addrField word))
  | 0x19#8 => .ok .norChipErase
  | 0x1A#8 => .ok (.norRead (addrField word) (argField word))
  | 0x20#8 => .ok .wpDisableProtection
  | 0x30#8 => .ok .parInit
  | 0x31#8 => .ok (.parWriteByte (addrField word) (argField word))
  | 0x32#8 => .ok (.parReadByte (addrField word))
  | 0x33#8 => .ok (.parBulkRead (addrField word) (argField word))
  | 0x34#8 => .ok (.parBulkWrite (addrField word) (argField word) din)
  | 0x40#8 => .ok .seeInit
  | 0x41#8 => .ok (.seeWriteByte (addrField word) (argField word))
  | 0x42#8 => .ok (.seeWritePage (addrField word) (argField word) din)
  | 0x43#8 => .ok (.seeReadByte (addrField word))
  | 0x44#8 => .ok (.seeReadBytes (addrField word) (argField word))
  | 0x45#8 => .ok (.seeBulkErase (argField word))
  | op => .error (.illegalOperation op)

/-- A two-wire write frame: the address bytes, bit 7 of the first 0, then the data (R110, R210). -/
def decodeI2cWrite (c : Config) (dev : DevAddr) (bytes : List Byte) : Except DecodeError Instr :=
  if dev ≠ c.seeDevAddr then .error (.otherDevice dev)
  else
    match bytes with
    | hi :: lo :: data =>
      if hi.getLsbD 7 then .error .addressBit15
      else if data = [] then .ok (.i2cA ((hi ++ lo).setWidth 15))
      else .ok (.i2cAD ((hi ++ lo).setWidth 15) data)
    | _ => .error .badFrameLength

/-- A two-wire read frame of `count` bytes (R110), which may be none (DESIGN CHOICE, log 28). -/
def decodeI2cRead (c : Config) (dev : DevAddr) (count : Nat) : Except DecodeError Instr :=
  if dev ≠ c.seeDevAddr then .error (.otherDevice dev) else .ok (.i2cRN count)

/-- The decoder of all three layers of the opcode table: total, and it rejects by name. -/
def decode (c : Config) : Wire → Except DecodeError Instr
  | .request word din => decodeRequest word din
  | .spi tx count =>
    match decodeNor c tx with
    | .ok cmd => frameInstr count cmd
    | .error e => .error e
  | .i2cWrite dev bytes => decodeI2cWrite c dev bytes
  | .i2cRead dev count => decodeI2cRead c dev count

/-- The request word `op * 2^56 + addr * 2^32 + arg` (R100). -/
def requestWord (op : BitVec 8) (addr : Addr) (arg : BitVec 32) : BitVec 64 := op ++ addr ++ arg

/-- A request without a payload. -/
def plainRequest (op : BitVec 8) (addr : Addr) (arg : BitVec 32) : Wire := .request (requestWord op addr arg) []

/-- A frame on the 4-wire bus that carries a command. -/
def norWire (c : Config) (cmd : NorCmd) (count : Nat) : Wire := .spi (cmd.bytes c) count

/-- The encoder: what has to be presented for an instruction (R100, R102, R108, R110). Fields that an operation
ignores encode as 0 (R116). -/
def encode (c : Config) : Instr → Wire
  | .norInit => plainRequest 0x10 0 0
  | .norWriteEnable => plainRequest 0x11 0 0
  | .norWriteDisable => plainRequest 0x12 0 0
  | .norReadStatus1 => plainRequest 0x13 0 0
  | .norReadStatus2 => plainRequest 0x14 0 0
  | .norReadStatus3 => plainRequest 0x15 0 0
  | .norWritePage addr arg data => .request (requestWord 0x16 addr arg) data
  | .norSectorErase addr => plainRequest 0x17 addr 0
  | .norBlockErase64k addr => plainRequest 0x18 addr 0
  | .norChipErase => plainRequest 0x19 0 0
  | .norRead addr arg => plainRequest 0x1A addr arg
  | .wpDisableProtection => plainRequest 0x20 0 0
  | .parInit => plainRequest 0x30 0 0
  | .parWriteByte addr arg => plainRequest 0x31 addr arg
  | .parReadByte addr => plainRequest 0x32 addr 0
  | .parBulkRead addr arg => plainRequest 0x33 addr arg
  | .parBulkWrite addr arg data => .request (requestWord 0x34 addr arg) data
  | .seeInit => plainRequest 0x40 0 0
  | .seeWriteByte addr arg => plainRequest 0x41 addr arg
  | .seeWritePage addr arg data => .request (requestWord 0x42 addr arg) data
  | .seeReadByte addr => plainRequest 0x43 addr 0
  | .seeReadBytes addr arg => plainRequest 0x44 addr arg
  | .seeBulkErase arg => plainRequest 0x45 0 arg
  | .cmdWren => norWire c .wren 0
  | .cmdWrdi => norWire c .wrdi 0
  | .cmdRdsr1 => norWire c .rdsr1 1
  | .cmdRdsr2 => norWire c .rdsr2 1
  | .cmdRdsr3 => norWire c .rdsr3 1
  | .cmdWrsr1 v => norWire c (.wrsr1 v) 0
  | .cmdPp addr data => norWire c (.pp addr data) 0
  | .cmdSe addr => norWire c (.se addr) 0
  | .cmdBe64 addr => norWire c (.be64 addr) 0
  | .cmdCe => norWire c .ce 0
  | .cmdRdid => norWire c .rdid 3
  | .cmdWake => norWire c .wake 0
  | .cmdRsten => norWire c .rsten 0
  | .cmdRst => norWire c .rst 0
  | .cmdRead addr count => norWire c (.read addr) count
  | .i2cAD addr data => .i2cWrite c.seeDevAddr (be16 (addr.setWidth 16) ++ data)
  | .i2cA addr => .i2cWrite c.seeDevAddr (be16 (addr.setWidth 16))
  | .i2cRN count => .i2cRead c.seeDevAddr count

/-- The payload that stands for "operand words of zeros" behind a request word: as many zero bytes as `arg` asks for,
for the three operations that take a payload (R104, R105). -/
def zeroPayload (word : BitVec 64) : List Byte :=
  if opField word = 0x16 ∨ opField word = 0x34 ∨ opField word = 0x42 then
    List.replicate (argField word).toNat 0
  else []

/-- The operand bytes of zeros behind a command byte, and the number of bytes its frame reads (R108); a `CMD_READ`
frame reads one byte. -/
def tableOperand (c : Config) (b : Byte) : Nat × Nat :=
  if b = c.cmd.rdsr1 ∨ b = c.cmd.rdsr2 ∨ b = c.cmd.rdsr3 then (0, 1)
  else if b = c.cmd.rdid then (0, 3)
  else if b = c.cmd.wrsr1 then (1, 0)
  else if b = c.cmd.pp ∨ b = c.cmd.se ∨ b = c.cmd.be64 then (3, 0)
  else if b = c.cmd.read then (3, 1)
  else (0, 0)

/-- What a word of `spec/opcode_table.json` stands for, by its width: 64 bits a request, 8 bits a command byte on the
4-wire bus, 16 bits the address word of a two-wire write frame (first byte high, R64), 0 bits a two-wire read of one
byte. The rows `I2C_A_D` and `I2C_A` have the same word; the word alone is the address-only frame (log 3). -/
def tableWire (c : Config) (nbits w : Nat) : Option Wire :=
  if nbits = 64 then some (.request (BitVec.ofNat 64 w) (zeroPayload (BitVec.ofNat 64 w)))
  else if nbits = 8 then
    some (.spi (BitVec.ofNat 8 w :: List.replicate (tableOperand c (BitVec.ofNat 8 w)).1 0)
      (tableOperand c (BitVec.ofNat 8 w)).2)
  else if nbits = 16 then some (.i2cWrite c.seeDevAddr (be16 (BitVec.ofNat 16 w)))
  else if nbits = 0 then some (.i2cRead c.seeDevAddr 1)
  else none

/-- The instruction the decoder reads from a word of the opcode table, at the default configuration. -/
def decodeTableWord (nbits w : Nat) : Option Instr :=
  match tableWire Config.default nbits w with
  | some wire => (decode Config.default wire).toOption
  | none => none

end Sys2Proof
end

