-- ==== Sys2Proof/Machine/State.lean ====
section
/-! DEFINITION. The state of MDPSM as plain data: the block (R20 to R41), the environment behind its transports (R39,
R80 to R97, R111), and the model's own fields; the events of R12; faults and refusals; the state after reset. -/

namespace Sys2Proof.Machine

/-- `NOR_PHASE` (R24). -/
inductive NorPhase where
  | idle
  | writeEnableAsserted
  | commandIssued
  | busy
  deriving DecidableEq, Repr

/-- `PAR_DIR` (R32). -/
inductive ParDir where
  | unknown
  | input
  | output
  deriving DecidableEq, Repr

/-- The direction a `LineDir` event sets (R12, R111). -/
inductive LineDirection where
  | input
  | output
  deriving DecidableEq, Repr

/-- The four duration parameters a `Delay` event names (R118, R244). -/
inductive DelayName where
  | writePulse
  | retry
  | settle
  | idRetry
  deriving DecidableEq, Repr

/-- The labels of a `Progress` event (R118). -/
inductive ProgressLabel where
  | read
  | write
  | erase
  deriving DecidableEq, Repr

/-- The kinds of a `Warn` event (R118). -/
inductive WarnKind where
  | deviceIdentityMismatch
  | busScanWarning
  deriving DecidableEq, Repr

/-- The event alphabet (R12). An event that asks stands in the trace with the answer it was given. -/
inductive Event where
  | sel
  | rel
  | spiW (bytes : List Byte)
  | spiR (count : Nat) (answer : List Byte)
  | i2cW (dev : DevAddr) (bytes : List Byte)
  | i2cR (dev : DevAddr) (count : Nat) (answer : List Byte)
  | i2cScan (answer : List DevAddr)
  | lineSet (id : Nat) (level : Bool)
  | lineGet (id : Nat) (answer : Bool)
  | lineDir (id : Nat) (dir : LineDirection)
  | delay (name : DelayName)
  | progress (label : ProgressLabel) (addr : Addr)
  | warn (kind : WarnKind)
  | fail (addr : Addr) (expected observed : Byte)
  | done (code : BitVec 8)
  deriving DecidableEq, Repr

/-- The error an operation ends with, and the context it records (R230 to R235). -/
inductive OpError where
  | verifyFailure (addr : Addr) (expected observed : Byte)
  | writeProtected (addr : Addr) (observed : Byte)
  | pageBoundary (addr : Addr)
  | argument (addr : Addr)
  | illegalOperation
  deriving DecidableEq, Repr

/-- A byte memory: (address, byte) pairs with rising addresses, and no pair that says what an unlisted address reads as
anyway (`Memory.wf`). -/
abbrev Memory := List Host.Cell

/-- What an internal operation of the NOR device does when it ends (R83 to R88): program payload bytes from an address,
erase a region, write the SR1 settings, or nothing (a program frame without payload, U8). -/
inductive NorEffect where
  | program (addr : Nat) (data : List Byte)
  | erase (start len : Nat)
  | writeStatus (value : Byte)
  | nothing
  deriving DecidableEq, Repr

/-- The internal operation in progress (R80, R82): its effect, and how many more SR1 reads find it busy (`none`: for
ever). -/
structure NorJob where
  effect : NorEffect
  left : Option Nat
  deriving DecidableEq, Repr

/-- The NOR device (R80). SR1 is not stored whole: `status` holds bits 7 to 2 in place (bits 1 and 0 are 0), `WEL` is
`wel`, and `BUSY` is set exactly while `job` is there (R36, R82). -/
structure NorDevice where
  mem : Memory
  status : Byte
  wel : Bool
  sr2 : Byte
  sr3 : Byte
  ident : BitVec 24
  /-- Powered down, that is sleeping (R80, R89). -/
  asleep : Bool
  /-- Time until the device has powered up; 0 means powered up (R80, R89). -/
  powerUpLeft : Nat
  job : Option NorJob
  /-- The last command was the reset-enable command (R89). -/
  resetArmed : Bool
  /-- The hardware write-protect condition that keeps `WEL` clear (R75, R81). -/
  wpPin : Bool
  /-- How many SR1 reads find the next internal operation busy; `none` means it never ends (R82). -/
  busyPolls : Option Nat
  deriving DecidableEq, Repr

/-- The serial EEPROM (R90 to R93): its bytes, its address pointer, the time its write cycle still lasts, and whether a
bus scan finds it. -/
structure SeeDevice where
  mem : Memory
  pointer : Nat
  cycleLeft : Nat
  present : Bool
  deriving DecidableEq, Repr

/-- The parallel EEPROM's write cycle in progress (R95): what it stores and how many more samples find it unfinished
(`none`: it never ends). -/
structure ParCycle where
  addr : Nat
  data : Byte
  left : Option Nat
  deriving DecidableEq, Repr

/-- The parallel EEPROM (R94 to R96) and its lines (R111): per line number a level and the direction last set; a line
in neither `inputs` nor `outputs` has had no direction set. -/
structure ParDevice where
  mem : Memory
  cycle : Option ParCycle
  /-- How many samples find the next write cycle unfinished; `none` means it never ends (R95). -/
  cycleSamples : Option Nat
  level : BitVec 27
  inputs : BitVec 27
  outputs : BitVec 27
  /-- The byte a read cycle has sampled from the data lines (R96). -/
  drive : Byte
  deriving DecidableEq, Repr

/-- Everything outside the block: the trace of what the block did (R12), the devices, the answers that replace theirs
(`spiIn` and `i2cIn` byte by byte, `samples` one per parallel read cycle, `scans` one per bus scan; R11, U10), and the
counter of free values. -/
structure World where
  trace : List Event
  nor : NorDevice
  see : SeeDevice
  par : ParDevice
  spiIn : List Byte
  i2cIn : List Byte
  samples : List Byte
  scans : List (List DevAddr)
  free : Nat
  deriving DecidableEq, Repr

/-- What an operation does after its mutating command has completed: end (`NOR_WRITE_PAGE`, the erases,
`WP_DISABLE_PROTECTION`) or read the identity (`NOR_INIT`, R156). -/
inductive After where
  | finish
  | identify
  deriving DecidableEq, Repr

/-- The position in the running procedure (R23): idle, or in a busy poll that has not yet read not-busy (R143, R249).
`firstPoll` and `finalPoll` are the polls of `Mutate` (R145) for the command frame `tx`; `readPoll` is the poll of
`NOR_READ` (R157). -/
inductive Seq where
  | idle
  | firstPoll (tx : List Byte) (opAddr : Addr) (after : After)
  | finalPoll (tx : List Byte) (after : After)
  | readPoll (addr : Addr) (count : Nat)
  deriving DecidableEq, Repr

/-- What comes to the block from outside: a request or a lone frame, the reset line (R260), or a request and then the reset
line, when the operation has emitted `count` events. -/
inductive Input where
  | wire (w : Wire)
  | reset
  | cut (word : BitVec 64) (din : List Byte) (count : Nat)
  deriving DecidableEq, Repr

/-- The machine. The fields from `reqOp` to `parDir` are the registers and buffers of R20; `cfg`, `caller`, `rx`,
`phaseLog` and the answers and counter in `world` are the model's own. -/
structure State where
  /-- The configuration (R8); no step changes it. -/
  cfg : Config
  /-- `REQ_OP`, `REQ_ADDR`, `REQ_ARG`: the request latch (R21). -/
  reqOp : BitVec 8
  reqAddr : Addr
  reqArg : BitVec 32
  /-- `DIN` and `DOUT` (R22). -/
  din : List Byte
  dout : List Byte
  /-- The position in the running procedure (R23). -/
  seq : Seq
  /-- `NOR_PHASE` (R24). -/
  norPhase : NorPhase
  /-- `ATTEMPTS` (R33). -/
  attempts : Nat
  /-- The result registers (R25 to R29). -/
  resCode : BitVec 8
  resAddr : Addr
  resExpected : Byte
  resObserved : Byte
  resAttempts : BitVec 32
  failCount : BitVec 32
  resLen : BitVec 32
  /-- `WARN` (R30). -/
  warn : BitVec 8
  /-- `NOR_IDENT` and `NOR_IDENT_VALID` (R31). -/
  norIdent : BitVec 24
  norIdentValid : Bool
  /-- `PAR_DIR` (R32). -/
  parDir : ParDir
  /-- The world outside the block (R39). -/
  world : World
  /-- What comes from outside next, in order (R15, R158). -/
  caller : List Input
  /-- The bytes the last lone frame read (R141). -/
  rx : List Byte
  /-- The values `NOR_PHASE` has taken since reset, oldest first (R140). -/
  phaseLog : List NorPhase
  deriving DecidableEq, Repr

/-- Faults. One: the spec gives the block no way to stop (its errors are outcome codes, R230). -/
inductive Fault where
  /-- Raised by a lone bus frame (no request) that carries an address the device does not have (R62: each space runs
  from 0 to its capacity less 1). Safe: the model stops where the spec gives the access no meaning. -/
  | addressOutsideDevice
  deriving DecidableEq, Repr

/-- Refusals: situations to which the spec gives no meaning. -/
inductive Refusal where
  /-- An instruction without a meaning, by its mnemonic. Safe. No arm of `exec` answers it any more. -/
  | notModelled (mnemonic : String)
  /-- Raised by `step` when the configuration breaks a constraint of R9 ("refused by the model"). Safe. -/
  | badConfiguration
  /-- Raised by every request presented while an operation runs (R274, U13: refuse). Safe. -/
  | operationRunning
  /-- Raised by every lone frame put on a bus while an operation runs: a second master (R72, R272, U1: refuse). Safe. -/
  | busOwned
  /-- Raised by a two-wire frame that reaches the serial EEPROM inside its write cycle (U5: refuse). Safe. -/
  | insideWriteCycle
  /-- Raised by `step` for a lone frame that is no frame of R108 or R110; the block never sends one. Safe. -/
  | noSuchFrame (why : DecodeError)
  deriving DecidableEq, Repr

/-- The NOR device the model starts with: the spec does not say what a device holds when the block is reset (R41, R260);
erased, unprotected, awake, powered up and idle, with the identity R8 gives as its example, and with operations that one SR1
read finds busy (R82 bounds none) (DESIGN CHOICE, unsafe, logs 8 and 23). -/
def NorDevice.initial : NorDevice where
  mem := []
  status := 0
  wel := false
  sr2 := 0
  sr3 := 0
  ident := 0xEF4018
  asleep := false
  powerUpLeft := 0
  job := none
  resetArmed := false
  wpPin := false
  busyPolls := some 1

/-- The serial EEPROM the model starts with (DESIGN CHOICE, unsafe, log 8). -/
def SeeDevice.initial : SeeDevice where
  mem := []
  pointer := 0
  cycleLeft := 0
  present := true

/-- The parallel EEPROM the model starts with, its control lines released and no line's direction set (DESIGN CHOICE,
unsafe, logs 8, 10, 24). -/
def ParDevice.initial : ParDevice where
  mem := []
  cycle := none
  cycleSamples := some 0
  level := 0x7000000
  inputs := 0
  outputs := 0
  drive := 0

/-- The world before the block has done anything. -/
def World.initial : World where
  trace := []
  nor := NorDevice.initial
  see := SeeDevice.initial
  par := ParDevice.initial
  spiIn := []
  i2cIn := []
  samples := []
  scans := []
  free := 0

/-- The machine after reset: the values of R41; where R41 says unspecified (`REQ_OP`, `REQ_ADDR`, `REQ_ARG`, `DIN`,
`NOR_IDENT`, `ATTEMPTS`) zero or empty (DESIGN CHOICE, unsafe, log 6). -/
def State.reset : State where
  cfg := Config.default
  reqOp := 0
  reqAddr := 0
  reqArg := 0
  din := []
  dout := []
  seq := .idle
  norPhase := .idle
  attempts := 0
  resCode := 0
  resAddr := 0
  resExpected := 0
  resObserved := 0
  resAttempts := 0
  failCount := 0
  resLen := 0
  warn := 0
  norIdent := 0
  norIdentValid := false
  parDir := .unknown
  world := World.initial
  caller := []
  rx := []
  phaseLog := []

end Sys2Proof.Machine
end

