-- ==== Sys2Proof/Machine/Flags.lean ====
section
/-! DEFINITION. The flags: the fields of an SR1 byte as the block reads them (R36), the protection predicate and the byte
that clears it (R180, R183), and the two bits of `WARN` (R30). No operation sets a flag as a side effect (R38). -/

namespace Sys2Proof.Machine

/-- `BUSY`, bit 0 of SR1 (R36, R143). -/
def busyFlag (s : Byte) : Bool := s.getLsbD 0

/-- `WEL`, bit 1 of SR1 (R36, R144). -/
def latchFlag (s : Byte) : Bool := s.getLsbD 1

/-- `BP`, bits 4 to 2 of SR1 (R36). -/
def protectField (s : Byte) : BitVec 3 := s.extractLsb' 2 3

/-- `SRP`, bit 7 of SR1 (R36). -/
def statusProtectFlag (s : Byte) : Bool := s.getLsbD 7

/-- `protected(s1) = (s1 & NOR_PROT_MASK) != 0` (R180). -/
def protectedStatus (c : Config) (s : Byte) : Bool := decide (s &&& c.norProtMask ≠ 0)

/-- The byte the status write carries: `s1 & ~NOR_PROT_MASK` (R183). -/
def clearedStatus (c : Config) (s : Byte) : Byte := s &&& ~~~c.norProtMask

/-- `WARN[0]`, `ID_MISMATCH` (R30). -/
def idMismatch : BitVec 8 := 0x01

/-- `WARN[1]`, `SCAN_ABSENT` (R30). -/
def scanAbsent : BitVec 8 := 0x02

/-- `reg.WARN[i] <- 0` for the bit a mask names (R30). -/
def State.clearWarn (bit : BitVec 8) (s : State) : State := { s with warn := s.warn &&& ~~~bit }

/-- `reg.WARN[i] <- 1` for the bit a mask names (R30). -/
def State.setWarn (bit : BitVec 8) (s : State) : State := { s with warn := s.warn ||| bit }

end Sys2Proof.Machine
end

