-- ==== Sys2Proof/Machine/Operands.lean ====
section
/-! DEFINITION. The operand forms: addresses, lengths, byte values, page and alignment arithmetic (R14, R61, R63, R66, R101,
R105, R212). All of it is on natural numbers that do not wrap. -/

namespace Sys2Proof.Machine

/-- `align(a, n) = a - (a mod n)` (R14 (c), R66). -/
def alignDown (a n : Nat) : Nat := a - a % n

/-- An `addr` field with a bit above the unit's width: the address is not below the capacity (R61, R101, R234). -/
def overWide (capacity : Nat) (addr : Addr) : Bool := decide (capacity ≤ addr.toNat)

/-- A range past the end of the device: `start + len > CAPACITY`, computed exactly (R14 (a), R234). -/
def pastEnd (capacity : Nat) (addr : Addr) (len : BitVec 32) : Bool := decide (capacity < addr.toNat + len.toNat)

/-- A buffer whose length differs from `arg` (R105). -/
def payloadMismatch (data : List Byte) (len : BitVec 32) : Bool := decide (data.length ≠ len.toNat)

/-- A ByteValue that comes in `arg`: bits 7 to 0; the rest is ignored (R63). -/
def byteValue (arg : BitVec 32) : Byte := arg.setWidth 8

/-- The page-boundary predicate (R212). -/
def crosses (page a len : Nat) : Bool := decide (0 < len ∧ a / page ≠ (a + len - 1) / page)

/-- Where payload byte `i` of a page write at address `a` is aimed: the device wraps in the page (R85, R91). -/
def wrapInPage (page a i : Nat) : Nat := alignDown a page + (a % page + i) % page

/-- Whether a progress event precedes unit `i` (R197, R218, R247). -/
def progressDue (c : Config) (i : Nat) : Bool := decide (0 < c.progressEvery ∧ i % c.progressEvery = 0)

/-- A natural number as an address of an event or register, 24 bits (R26, R118). -/
def addrOf (a : Nat) : Addr := BitVec.ofNat 24 a

/-- The address an erase frame carries: as given, or rounded down to the region if `NOR_ALIGN_ERASE` is 1 (R152, R153). -/
def eraseAddress (c : Config) (region : Nat) (addr : Addr) : Addr :=
  if c.norAlignErase then addrOf (alignDown addr.toNat region) else addr

/-- The address bytes of a two-wire frame (R64, R210). -/
def frameAddress (a : Nat) : List Byte := be16 (BitVec.ofNat 16 a)

end Sys2Proof.Machine
end

