-- ==== Sys2Proof/Machine/Ops.lean ====
section
/-! DEFINITION. The operations over memories, the trace and the registers: reading and writing a byte memory, emitting an
event, beginning and ending an operation, taking an error (R240), and the result port (R34). -/

namespace Sys2Proof.Machine

/-- What an unlisted address reads as: the erased value 0xFF. The spec gives a device's contents no initial value
(DESIGN CHOICE, unsafe, log 9). -/
def Memory.unlisted : Byte := 0xFF

/-- The byte at an address. -/
def Memory.read : Memory → Nat → Byte
  | [], _ => Memory.unlisted
  | (k, v) :: rest, a => if k = a then v else Memory.read rest a

/-- Store one byte, keeping the canonical form. -/
def Memory.write : Memory → Nat → Byte → Memory
  | [], a, b => if b = Memory.unlisted then [] else [(a, b)]
  | (k, v) :: rest, a, b =>
    if a < k then (if b = Memory.unlisted then (k, v) :: rest else (a, b) :: (k, v) :: rest)
    else if a = k then (if b = Memory.unlisted then rest else (a, b) :: rest)
    else (k, v) :: Memory.write rest a b

/-- Set every byte from `start` on, `len` of them, to one value. -/
def Memory.fill (m : Memory) (start len : Nat) (v : Byte) : Memory :=
  m.filter (fun c => decide (c.1 < start)) ++
    ((if v = Memory.unlisted then [] else (List.range len).map (fun j => (start + j, v))) ++
      m.filter (fun c => decide (start + len ≤ c.1)))

/-- Give every byte from `start` on, `len` of them, a free value, counted from `k`. -/
def Memory.scramble (m : Memory) (start len k : Nat) : Memory :=
  (List.range len).foldl (fun m j => Memory.write m (start + j) (Config.freeByte (k + j))) m

/-- The canonical form: rising addresses, and no entry equal to what an unlisted address reads as. -/
abbrev Memory.wf (m : Memory) : Prop :=
  m.Pairwise (fun x y => x.1 < y.1) ∧ ∀ x ∈ m, x.2 ≠ Memory.unlisted

/-- Every listed address lies below a capacity (R61, R62). -/
abbrev Memory.below (m : Memory) (capacity : Nat) : Prop := ∀ x ∈ m, x.1 < capacity

/-- `n` free bytes, counted from `k` (log 35). -/
def freeBytes (k n : Nat) : List Byte := (List.range n).map (fun j => Config.freeByte (k + j))

/-- Append an event to the trace (R12). -/
def World.emit (e : Event) (w : World) : World := { w with trace := w.trace ++ [e] }

/-- The length of a delay (R118, R244). -/
def duration (c : Config) : DelayName → Nat
  | .writePulse => c.tWritePulse
  | .retry => c.tRetry
  | .settle => c.tSettle
  | .idRetry => c.tIdRetry

/-- `emit Delay(T)` (R12, R244), and the time that passes for the devices: it shortens the serial EEPROM's write cycle
(R92, R268) and the NOR device's power-up (R89) (log 13, log 33). -/
def World.delay (c : Config) (t : DelayName) (w : World) : World :=
  { w with
    trace := w.trace ++ [.delay t]
    see := { w.see with cycleLeft := w.see.cycleLeft - duration c t }
    nor := { w.nor with powerUpLeft := w.nor.powerUpLeft - duration c t } }

/-- Append an event to the trace of a state. -/
def State.emit (e : Event) (s : State) : State := { s with world := s.world.emit e }

/-- Emit a delay. -/
def State.delay (t : DelayName) (s : State) : State := { s with world := s.world.delay s.cfg t }

/-- `reg.NOR_PHASE <- p` (R24, R140); the log records a change. -/
def State.setPhase (p : NorPhase) (s : State) : State :=
  { s with norPhase := p, phaseLog := if s.norPhase = p then s.phaseLog else s.phaseLog ++ [p] }

/-- What every operation of any unit does first: `DOUT` empty (R22), `FAIL_COUNT <- 0` (R28, R241). -/
def State.beginOperation (s : State) : State := { s with dout := [], failCount := 0 }

/-- The end of an operation: `RES_LEN <- len(DOUT)` (R29, C13), `RES_CODE <- code` and `Done(code)` in one step (R25); the
block is idle again. -/
def State.complete (code : BitVec 8) (s : State) : State :=
  { s with
    resLen := BitVec.ofNat 32 s.dout.length
    resCode := code
    seq := .idle
    world := s.world.emit (.done code) }

/-- `return ok` (R11): the code of success (R230). -/
def State.returnOk (s : State) : State := s.complete 0x00

/-- The outcome codes of R230. -/
def OpError.code : OpError → BitVec 8
  | .verifyFailure _ _ _ => 0x01
  | .writeProtected _ _ => 0x02
  | .pageBoundary _ => 0x03
  | .argument _ => 0x04
  | .illegalOperation => 0x05

/-- The context registers an error writes (R231 to R235). -/
def State.recordContext (e : OpError) (s : State) : State :=
  match e with
  | .verifyFailure a x o => { s with resAddr := a, resExpected := x, resObserved := o }
  | .writeProtected a o => { s with resAddr := a, resObserved := o }
  | .pageBoundary a => { s with resAddr := a }
  | .argument a => { s with resAddr := a }
  | .illegalOperation => s

/-- Error entry, `raise E(info)` (R240): context registers, `NOR_PHASE <- Idle`, `RES_LEN`, `RES_CODE`, `Done(code)`. The
block takes every error here. There is no return from one (R241): the next request starts clean. -/
def State.raise (e : OpError) (s : State) : State :=
  ((s.recordContext e).setPhase .idle).complete e.code

/-- A request: it is accepted only when no operation runs (R158, R274; presented early it is refused, U13), clears `DOUT`
and `FAIL_COUNT`, and runs its procedure. -/
def State.request (s : State) (procedure : State → State) : Host.Outcome State Fault Refusal :=
  if s.seq = .idle then .next (procedure s.beginOperation) else .refused .operationRunning

/-- A request whose procedure can reach a situation the spec refuses (the two-wire frames, U5). -/
def State.requestOrRefuse (s : State) (procedure : State → Except Refusal State) : Host.Outcome State Fault Refusal :=
  if s.seq = .idle then
    match procedure s.beginOperation with
    | .ok t => .next t
    | .error r => .refused r
  else .refused .operationRunning

/-- A request with an illegal `op` (R103, R235): `DOUT` and `FAIL_COUNT` are cleared as for any operation, and it ends
with `IllegalOperation`. -/
def illegalRequest (s : State) : Host.Outcome State Fault Refusal :=
  s.request (fun s => s.raise .illegalOperation)

/-- `NOR_PHASE` as its 2-bit register reads (R24). -/
def NorPhase.code : NorPhase → BitVec 2
  | .idle => 0
  | .writeEnableAsserted => 1
  | .commandIssued => 2
  | .busy => 3

/-- `PAR_DIR` as its register reads (R34). -/
def ParDir.code : ParDir → BitVec 2
  | .unknown => 0
  | .input => 1
  | .output => 2

/-- The code of a progress label (R118). -/
def ProgressLabel.code : ProgressLabel → BitVec 2
  | .read => 0
  | .write => 1
  | .erase => 2

/-- The kind number of a warning (R118). -/
def WarnKind.code : WarnKind → Nat
  | .deviceIdentityMismatch => 0
  | .busScanWarning => 1

/-- The result port (R34): what the caller reads under a register number, zero-extended. A number that is not in the table
reads 0; `NOR_IDENT` while its valid bit is 0 is unspecified. Reading changes nothing. -/
def State.resultPort (s : State) (number : Nat) : BitVec 32 :=
  match number with
  | 0x00 => s.resCode.setWidth 32
  | 0x01 => s.resAddr.setWidth 32
  | 0x02 => s.resExpected.setWidth 32
  | 0x03 => s.resObserved.setWidth 32
  | 0x04 => s.resAttempts
  | 0x05 => s.failCount
  | 0x06 => s.resLen
  | 0x07 => s.warn.setWidth 32
  | 0x08 => if s.norIdentValid then s.norIdent.setWidth 32 else Config.unspecifiedIdent.setWidth 32
  | 0x09 => if s.norIdentValid then 1 else 0
  | 0x0A => s.norPhase.code.setWidth 32
  | 0x0B => s.parDir.code.setWidth 32
  | _ => 0

end Sys2Proof.Machine
end

