-- ==== Sys2Proof/Machine/NorDevice.lean ====
section
/-! DEFINITION. The reference NOR flash device (R80 to R89) and one frame on the 4-wire bus (R107, R141). Where the rules
leave a value open the device takes free values: `k` is the counter they are counted from, and every function here that
uses some returns the advanced counter. -/

namespace Sys2Proof.Machine

/-- SR1 as a status read returns it (R36, R80): the settings, `WEL`, and `BUSY` while an internal operation runs (R82). -/
def NorDevice.sr1 (d : NorDevice) : Byte :=
  (d.status &&& 0xFC#8) ||| (if d.wel then 0x02#8 else 0#8) ||| (if d.job.isSome then 0x01#8 else 0#8)

/-- The set of addresses the device protects now, as ranges (start, length): a parameter indexed by `BP`; with `BP` = 0
nothing (U3, R87, log 15). -/
def NorDevice.protectedRanges (c : Config) (d : NorDevice) : List (Nat × Nat) :=
  if protectField d.status = 0 then [] else c.norProtected.getD (protectField d.status).toNat []

/-- Whether an address lies in one of some ranges. -/
def inRanges (ranges : List (Nat × Nat)) (a : Nat) : Bool := ranges.any (fun r => decide (r.1 ≤ a ∧ a < r.1 + r.2))

/-- Program one byte: a protected byte stays (R87), an erased byte takes the new value (R84), any other byte takes the
bitwise and if the configuration adopts that law, else a free value (U4). -/
def programByte (c : Config) (prot : List (Nat × Nat)) (m : Memory) (k a : Nat) (b : Byte) : Memory × Nat :=
  if inRanges prot a then (m, k)
  else if m.read a = c.norEraseValue then (m.write a b, k)
  else if c.norAndLaw then (m.write a (m.read a &&& b), k)
  else (m.write a (Config.freeByte k), k + 1)

/-- Program payload bytes number `i` on of a page program at address `a`; each is aimed where R85 says. -/
def programBytes (c : Config) (prot : List (Nat × Nat)) (a : Nat) : List Byte → Nat → Memory → Nat → Memory × Nat
  | [], _, m, k => (m, k)
  | b :: rest, i, m, k =>
    programBytes c prot a rest (i + 1) (programByte c prot m k (wrapInPage c.norPage a i) b).1
      (programByte c prot m k (wrapInPage c.norPage a i) b).2

/-- What is left of some segments (first address, address after the last) outside a range: a segment falls into the part
below the range and the part above it, either of which may be empty. -/
def cutRange (r : Nat × Nat) (segments : List (Nat × Nat)) : List (Nat × Nat) :=
  segments.flatMap (fun g => [(g.1, min g.2 r.1), (max g.1 (r.1 + r.2), g.2)])

/-- The segments of a region that no protected range holds. -/
def unprotected (prot : List (Nat × Nat)) (start len : Nat) : List (Nat × Nat) :=
  prot.foldl (fun segments r => cutRange r segments) [(start, start + len)]

/-- Erase a region but for what the protected ranges hold (R86, R87). -/
def eraseRegion (c : Config) (prot : List (Nat × Nat)) (start len : Nat) (m : Memory) : Memory :=
  (unprotected prot start len).foldl (fun m g => m.fill g.1 (g.2 - g.1) c.norEraseValue) m

/-- What an internal operation does to memory when it ends (R84 to R87). The settings of a status write have changed when
it was accepted (`acceptStatus`). -/
def NorDevice.applyEffect (c : Config) (d : NorDevice) (k : Nat) : NorEffect → NorDevice × Nat
  | .program a data =>
    ({ d with mem := (programBytes c (d.protectedRanges c) a data 0 d.mem k).1 },
      (programBytes c (d.protectedRanges c) a data 0 d.mem k).2)
  | .erase start len => ({ d with mem := eraseRegion c (d.protectedRanges c) start len d.mem }, k)
  | .writeStatus _ => (d, k)
  | .nothing => (d, k)

/-- The end of an internal operation: its effect, `BUSY` clears and `WEL` clears (R81, R83). -/
def NorDevice.finishJob (c : Config) (d : NorDevice) (k : Nat) (e : NorEffect) : NorDevice × Nat :=
  ({ (d.applyEffect c k e).1 with job := none, wel := false }, (d.applyEffect c k e).2)

/-- What an SR1 read does to the operation in progress: one that is due ends before the byte is read, any other is found
busy once more (R82, R83, log 23). -/
def NorDevice.tick (c : Config) (d : NorDevice) (k : Nat) : NorDevice × Nat :=
  match d.job with
  | none => (d, k)
  | some ⟨e, some 0⟩ => d.finishJob c k e
  | some ⟨e, some (n + 1)⟩ => ({ d with job := some ⟨e, some n⟩ }, k)
  | some ⟨_, none⟩ => (d, k)

/-- Give everything an effect aims at a free value: the page of a program, the region of an erase, the SR1 settings and
latch of a status write (U6, and R82 where the reaction is not stated). -/
def NorDevice.spoil (c : Config) (d : NorDevice) (k : Nat) : NorEffect → NorDevice × Nat
  | .program a _ => ({ d with mem := d.mem.scramble (alignDown a c.norPage) c.norPage k }, k + c.norPage)
  | .erase start len => ({ d with mem := d.mem.scramble start len k }, k + len)
  | .writeStatus _ => ({ d with status := Config.freeByte k &&& 0xFC#8, wel := Config.freeBit k }, k + 1)
  | .nothing => (d, k)

/-- The effect a command asks for (R84 to R88). The device has `NOR_ADDR_BITS` address bits (log 27). -/
def commandEffect (c : Config) : NorCmd → Option NorEffect
  | .pp a data =>
    some (if data = [] then .nothing else .program (a.toNat % c.norCapacity) data)
  | .se a => some (.erase (alignDown (a.toNat % c.norCapacity) c.norSector) c.norSector)
  | .be64 a => some (.erase (alignDown (a.toNat % c.norCapacity) c.norBlock) c.norBlock)
  | .ce => some (.erase 0 c.norCapacity)
  | .wrsr1 v => some (.writeStatus v)
  | .wren => none
  | .wrdi => none
  | .rdsr1 => none
  | .rdsr2 => none
  | .rdsr3 => none
  | .rdid => none
  | .wake => none
  | .rsten => none
  | .rst => none
  | .read _ => none

/-- Accept a program or an erase: only with the latch set (R81); the device becomes busy (R82). How long an operation lasts
is open; that every operation of one device is found busy by the same number `busyPolls` of SR1 reads, which no step
changes, is the model's choice (DESIGN CHOICE, log 23). -/
def NorDevice.accept (d : NorDevice) (k : Nat) (e : NorEffect) : NorDevice × Nat :=
  if d.wel then ({ d with job := some ⟨e, d.busyPolls⟩ }, k) else (d, k)

/-- Accept a status write: only with `WEL` set; SR1 bits 7 to 2 take the bits of the data byte, if the device honours it
(U3), bits 1 and 0 are not writable, and a busy cycle runs (R88). That one which the device does not honour still runs its busy
cycle, and clears `WEL` at its end, is the model's choice (DESIGN CHOICE, log 15). Program P4 of `95_test_vectors.md` shows the new settings
in the first busy poll. -/
def NorDevice.acceptStatus (c : Config) (d : NorDevice) (k : Nat) (v : Byte) : NorDevice × Nat :=
  if d.wel then
    ({ d with
        status := if c.norStatusWritable then v &&& 0xFC#8 else d.status
        job := some ⟨.writeStatus v, d.busyPolls⟩ }, k)
  else (d, k)

/-- A program frame without payload: whether the device becomes busy and whether it clears the latch are free; memory is
unchanged (U8). -/
def NorDevice.acceptEmpty (d : NorDevice) (k : Nat) : NorDevice × Nat :=
  if d.wel then
    ({ d with
        job := if Config.freeBit k then some ⟨.nothing, d.busyPolls⟩ else none
        wel := Config.freeBit (k + 1) }, k + 2)
  else (d, k)

/-- The reset command after the reset-enable command: the power-on condition, `WEL` clear and no operation in progress;
the protection bits survive (R89). That SR1 bits 6 and 5, SR2 and SR3 survive too, and that what an operation in progress
aimed at becomes free, are the model's choices (DESIGN CHOICE, log 22). -/
def NorDevice.powerOn (c : Config) (d : NorDevice) (k : Nat) : NorDevice × Nat :=
  match d.job with
  | none => ({ d with wel := false, job := none, resetArmed := false }, k)
  | some j =>
    ({ (d.spoil c k j.effect).1 with wel := false, job := none, resetArmed := false }, (d.spoil c k j.effect).2)

/-- The reaction of an awake, powered and idle device (R81, R82, R86, R88, R89). -/
def NorDevice.perform (c : Config) (d : NorDevice) (k : Nat) : NorCmd → NorDevice × Nat
  | .wren => ({ d with wel := if d.wpPin then d.wel else true, resetArmed := false }, k)
  | .wrdi => ({ d with wel := false, resetArmed := false }, k)
  | .wrsr1 v => NorDevice.acceptStatus c { d with resetArmed := false } k v
  | .pp a data =>
    if data = [] then NorDevice.acceptEmpty { d with resetArmed := false } k
    else NorDevice.accept { d with resetArmed := false } k (.program (a.toNat % c.norCapacity) data)
  | .se a =>
    NorDevice.accept { d with resetArmed := false } k
      (.erase (alignDown (a.toNat % c.norCapacity) c.norSector) c.norSector)
  | .be64 a =>
    NorDevice.accept { d with resetArmed := false } k
      (.erase (alignDown (a.toNat % c.norCapacity) c.norBlock) c.norBlock)
  | .ce => NorDevice.accept { d with resetArmed := false } k (.erase 0 c.norCapacity)
  | .rsten => ({ d with resetArmed := true }, k)
  | .rst => if d.resetArmed then d.powerOn c k else (d, k)
  | .wake => ({ d with resetArmed := false }, k)
  | .rdsr1 => ({ d with resetArmed := false }, k)
  | .rdsr2 => ({ d with resetArmed := false }, k)
  | .rdsr3 => ({ d with resetArmed := false }, k)
  | .rdid => ({ d with resetArmed := false }, k)
  | .read _ => ({ d with resetArmed := false }, k)

/-- The reaction of a device that is busy or has not yet powered up, which the spec does not state (R82, U2, U10): the
latch after a latch command is free; a program, erase or status write leaves what it aims at and the latch free; whether a
reset is heeded is free; reads, the wake command and the passing of a command change nothing else (log 14). -/
def NorDevice.disturb (c : Config) (d : NorDevice) (k : Nat) (cmd : NorCmd) : NorDevice × Nat :=
  match commandEffect c cmd with
  | some e => ({ (d.spoil c (k + 1) e).1 with wel := Config.freeBit k }, (d.spoil c (k + 1) e).2)
  | none =>
    if cmd = .wren ∨ cmd = .wrdi then ({ d with wel := Config.freeBit k }, k + 1)
    else if cmd = .rsten then ({ d with resetArmed := Config.freeBit k }, k + 1)
    else if cmd = .rst then
      if d.resetArmed && Config.freeBit k then d.powerOn c (k + 1) else (d, k + 1)
    else (d, k)

/-- What a whole frame does to the device at its end (R80, R82). A frame that is no command does nothing; a sleeping
device ignores every command but `CMD_WAKE` (R89). A device that is both asleep and not yet powered up reacts as a sleeping one
(DESIGN CHOICE, log 20). -/
def NorDevice.react (c : Config) (d : NorDevice) (k : Nat) (tx : List Byte) : NorDevice × Nat :=
  match decodeNor c tx with
  | .error _ => (d, k)
  | .ok cmd =>
    if d.asleep then (if cmd = .wake then { d with asleep := false } else d, k)
    else if d.powerUpLeft ≠ 0 ∨ d.job.isSome then d.disturb c k cmd
    else d.perform c k cmd

/-- `n` bytes that begin with known ones and go on with free ones. -/
def padFree (known : List Byte) (n k : Nat) : List Byte × Nat :=
  ((known ++ freeBytes k (n - known.length)).take n, k + (n - known.length))

/-- The bytes a memory read gives from an address upward, up to the end of the device (R89). -/
def norReadBytes (c : Config) (d : NorDevice) (a n : Nat) : List Byte :=
  (List.range (min n (c.norCapacity - a))).map (fun j => d.mem.read (a + j))

/-- The `n` bytes the device answers in a frame (R36, R80, R82, R89), and the device after an SR1 read. A sleeping device, a
command that returns nothing and a busy device asked for anything but its status answer free bytes (U10, R82); a device
that has not yet powered up answers an all-zero identity (R89) and free bytes to all else; one that is asleep as well answers as a
sleeping one (DESIGN CHOICE, log 20). -/
def NorDevice.answer (c : Config) (d : NorDevice) (k : Nat) (tx : List Byte) (n : Nat) : List Byte × NorDevice × Nat :=
  match decodeNor c tx with
  | .error _ => ((padFree [] n k).1, d, (padFree [] n k).2)
  | .ok cmd =>
    if d.asleep then ((padFree [] n k).1, d, (padFree [] n k).2)
    else if d.powerUpLeft ≠ 0 then
      let known := if cmd = .rdid then [0, 0, 0] else []
      ((padFree known n k).1, d, (padFree known n k).2)
    else if cmd = .rdsr1 then
      let t := d.tick c k
      ((padFree [t.1.sr1] n t.2).1, t.1, (padFree [t.1.sr1] n t.2).2)
    else
      let known :=
        if cmd = .rdsr2 then [d.sr2]
        else if cmd = .rdsr3 then [d.sr3]
        else if d.job.isSome then []
        else match cmd with
          | .rdid => be24 d.ident
          | .read a => norReadBytes c d a.toNat n
          | _ => []
      ((padFree known n k).1, d, (padFree known n k).2)

/-- `SpiFrame(tx, n)` (R141): `Sel`, `SpiW(tx)`, then `SpiR(n)` if `n > 0`, then `Rel`; the bytes read. Answers given from
outside (`spiIn`) come before the device's own (log 5). -/
def World.spiFrame (c : Config) (tx : List Byte) (n : Nat) (w : World) : List Byte × World :=
  if n = 0 then
    ([], { w with
      trace := w.trace ++ [.sel, .spiW tx, .rel]
      nor := (w.nor.react c w.free tx).1
      free := (w.nor.react c w.free tx).2 })
  else
    let a := w.nor.answer c w.free tx n
    let rx := w.spiIn.take n ++ a.1.drop w.spiIn.length
    (rx, { w with
      trace := w.trace ++ [.sel, .spiW tx, .spiR n rx, .rel]
      nor := (a.2.1.react c a.2.2 tx).1
      free := (a.2.1.react c a.2.2 tx).2
      spiIn := w.spiIn.drop n })

/-- What a command does to the device if it is accepted: nothing for one that asks for no effect (R84 to R88). -/
def asksFor (c : Config) (cmd : NorCmd) : NorEffect := (commandEffect c cmd).getD .nothing

/-- What a command frame does to the device if it is accepted. -/
def frameEffect (c : Config) (tx : List Byte) : NorEffect :=
  match decodeNor c tx with
  | .error _ => .nothing
  | .ok cmd => asksFor c cmd

/-- What an operation whose command has not been sent aimed at (U6): its page or region, but not SR1, which is free only if a
status write was under way. -/
def NorEffect.unsent : NorEffect → NorEffect
  | .program a data => .program a data
  | .erase start len => .erase start len
  | .writeStatus _ => .nothing
  | .nothing => .nothing

/-- What an operation abandoned by a reset of the block aimed at in the NOR device becomes free (U6, log 17). If the device
is carrying it out, it goes on to its end, but to no definite effect. -/
def NorDevice.abandon (c : Config) (d : NorDevice) (k : Nat) (e : NorEffect) : NorDevice × Nat :=
  ({ (d.spoil c k e).1 with job := d.job.map (fun j => if j.effect = e then { j with effect := .nothing } else j) },
    (d.spoil c k e).2)

/-- The world with what an abandoned operation aimed at in the NOR device free (U6). -/
def World.abandonNor (c : Config) (e : NorEffect) (w : World) : World :=
  { w with nor := (w.nor.abandon c w.free e).1, free := (w.nor.abandon c w.free e).2 }

end Sys2Proof.Machine
end

