-- ==== Sys2Proof/Machine/Nor.lean ====
section
/-! DEFINITION. The NOR unit: the shared procedures of R141 to R145 and R155, and the operations of R146 to R157. A busy
poll that has not read not-busy when the answers it can be given run out leaves the block waiting in that poll (R249);
`resume` goes on from there. -/

namespace Sys2Proof.Machine

/-- One frame of the block (R141). -/
def State.spi (tx : List Byte) (n : Nat) (s : State) : List Byte × State :=
  ((s.world.spiFrame s.cfg tx n).1, { s with world := (s.world.spiFrame s.cfg tx n).2 })

/-- One frame that reads nothing (R141). -/
def State.spiSend (tx : List Byte) (s : State) : State := (s.spi tx 0).2

/-- `ReadStatus(k)`, by the command byte of register `k` (R142). -/
def State.readStatus (command : Byte) (s : State) : Byte × State :=
  (((s.spi [command] 1).1).headD 0, (s.spi [command] 1).2)

/-- How many polls suffice to see a busy condition end if its end is in sight: one for each answer given from outside, one
for each poll the device's operation still lasts, and one more. -/
def pollFuel (w : World) : Nat :=
  w.spiIn.length +
    (match w.nor.job with
      | some ⟨_, some n⟩ => n
      | _ => 0) + 1

/-- `WaitNotBusy()` for at most `fuel` polls: whether a poll read bit 0 clear (R143). Only bit 0 is tested, there is no
delay between polls. -/
def waitNotBusy : Nat → State → Bool × State
  | 0, s => (false, s)
  | fuel + 1, s =>
    if busyFlag (s.readStatus s.cfg.cmd.rdsr1).1 then waitNotBusy fuel (s.readStatus s.cfg.cmd.rdsr1).2
    else (true, (s.readStatus s.cfg.cmd.rdsr1).2)

/-- The busy poll of the block (R143). -/
def State.poll (s : State) : Bool × State := waitNotBusy (pollFuel s.world) s

/-- `EnsureWriteEnabled` (R144): assert write-enable and verify the latch, once again if it is clear; the second status
byte if it is still clear. -/
def ensureWriteEnabled (s : State) : Option Byte × State :=
  let r1 := ((s.setPhase .writeEnableAsserted).spiSend [s.cfg.cmd.wren]).readStatus s.cfg.cmd.rdsr1
  if latchFlag r1.1 then (none, r1.2)
  else
    let r2 := (r1.2.spiSend [s.cfg.cmd.wren]).readStatus s.cfg.cmd.rdsr1
    if latchFlag r2.1 then (none, r2.2) else (some r2.1, r2.2)

/-- `ReadIdentity()` (R155). -/
def State.readIdentity (s : State) : BitVec 24 × State :=
  let r := s.spi [s.cfg.cmd.rdid] 3
  (ofBe24 (r.1.getD 0 0) (r.1.getD 1 0) (r.1.getD 2 0), r.2)

/-- What `NOR_INIT` does with the identity it has read (R156, R236): `NOR_IDENT`, `DOUT`, and the warning if it is not the
expected one. -/
def State.storeIdentity (id : BitVec 24) (s : State) : State :=
  let t := { s with norIdent := id, norIdentValid := true, dout := be24 id }
  if id = s.cfg.norExpectedId then t
  else (t.setWarn idMismatch).emit (.warn .deviceIdentityMismatch)

/-- The last part of `NOR_INIT` (R156): read the identity, once more after a delay if it is all zero. -/
def identify (s : State) : State :=
  let r := s.readIdentity
  if r.1 = 0 then
    let r2 := (r.2.delay .idRetry).readIdentity
    (r2.2.storeIdentity r2.1).returnOk
  else (r.2.storeIdentity r.1).returnOk

/-- What follows the protection step or the mutating command of an operation. -/
def continueAfter (after : After) (s : State) : State :=
  match after with
  | .finish => s.returnOk
  | .identify => identify s

/-- The last part of `Mutate` (R145): the final busy poll, `NOR_PHASE <- Idle`, and what follows. -/
def finalWait (tx : List Byte) (after : After) (s : State) : State :=
  if s.poll.1 then continueAfter after (s.poll.2.setPhase .idle)
  else { s.poll.2 with seq := .finalPoll tx after }

/-- `Mutate` after its first poll (R145): the latch, the command frame, the final poll. -/
def mutateCommand (tx : List Byte) (opAddr : Addr) (after : After) (s : State) : State :=
  match (ensureWriteEnabled s).1 with
  | some observed => (ensureWriteEnabled s).2.raise (.writeProtected opAddr observed)
  | none =>
    finalWait tx after ((((ensureWriteEnabled s).2.setPhase .commandIssued).spiSend tx).setPhase .busy)

/-- `Mutate(tx, op_addr)` (R145), the skeleton of every mutating operation (R140). -/
def mutate (tx : List Byte) (opAddr : Addr) (after : After) (s : State) : State :=
  if s.poll.1 then mutateCommand tx opAddr after s.poll.2
  else { s.poll.2 with seq := .firstPoll tx opAddr after }

/-- `NOR_READ` after its poll (R157): one frame of `count` bytes. -/
def readMemory (addr : Addr) (count : Nat) (s : State) : State :=
  let r := s.spi (NorCmd.bytes s.cfg (.read addr)) count
  { r.2 with dout := r.1 }.returnOk

/-- `NOR_READ` from its poll on (R157). -/
def pollAndRead (addr : Addr) (count : Nat) (s : State) : State :=
  if s.poll.1 then readMemory addr count s.poll.2
  else { s.poll.2 with seq := .readPoll addr count }

/-- Go on in a busy poll (R143, R249): the same polls, until one reads not-busy. -/
def resume (s : State) : State :=
  match s.seq with
  | .idle => s
  | .firstPoll tx opAddr after => mutate tx opAddr after s
  | .finalPoll tx after => finalWait tx after s
  | .readPoll addr count => pollAndRead addr count s

/-- A status register read as an operation (R148, R149, R150): the byte whole, no bit interpreted. -/
def statusOperation (command : Byte) (s : State) : State :=
  { (s.readStatus command).2 with dout := [(s.readStatus command).1] }.returnOk

/-- An erase of a region (R152, R153): an address wider than the device is an `ArgumentError` (R234, log 26). -/
def eraseOperation (command : Addr → NorCmd) (region : Nat) (addr : Addr) (s : State) : State :=
  if overWide s.cfg.norCapacity addr then s.raise (.argument addr)
  else mutate (NorCmd.bytes s.cfg (command (eraseAddress s.cfg region addr))) addr .finish s

/-- `NOR_WRITE_ENABLE` (R146): one `CMD_WREN` frame, no verification. -/
def execNorWriteEnable (s : State) : Host.Outcome State Fault Refusal :=
  s.request (fun s => (s.spiSend [s.cfg.cmd.wren]).returnOk)

/-- `NOR_WRITE_DISABLE` (R147). -/
def execNorWriteDisable (s : State) : Host.Outcome State Fault Refusal :=
  s.request (fun s => (s.spiSend [s.cfg.cmd.wrdi]).returnOk)

/-- `NOR_READ_STATUS1` (R148). -/
def execNorReadStatus1 (s : State) : Host.Outcome State Fault Refusal :=
  s.request (fun s => statusOperation s.cfg.cmd.rdsr1 s)

/-- `NOR_READ_STATUS2` (R149). -/
def execNorReadStatus2 (s : State) : Host.Outcome State Fault Refusal :=
  s.request (fun s => statusOperation s.cfg.cmd.rdsr2 s)

/-- `NOR_READ_STATUS3` (R150). -/
def execNorReadStatus3 (s : State) : Host.Outcome State Fault Refusal :=
  s.request (fun s => statusOperation s.cfg.cmd.rdsr3 s)

/-- `NOR_WRITE_PAGE addr, len, data` (R151), the checks in the order of R239. -/
def execNorWritePage (addr : Addr) (arg : BitVec 32) (data : List Byte) (s : State) : Host.Outcome State Fault Refusal :=
  s.request (fun s =>
    if overWide s.cfg.norCapacity addr then s.raise (.argument addr)
    else if payloadMismatch data arg then s.raise (.argument addr)
    else if s.cfg.norPage < arg.toNat then s.raise (.argument addr)
    else mutate (NorCmd.bytes s.cfg (.pp addr data)) addr .finish s)

/-- `NOR_SECTOR_ERASE addr` (R152). -/
def execNorSectorErase (addr : Addr) (s : State) : Host.Outcome State Fault Refusal :=
  s.request (fun s => eraseOperation .se s.cfg.norSector addr s)

/-- `NOR_BLOCK_ERASE_64K addr` (R153). -/
def execNorBlockErase64k (addr : Addr) (s : State) : Host.Outcome State Fault Refusal :=
  s.request (fun s => eraseOperation .be64 s.cfg.norBlock addr s)

/-- `NOR_CHIP_ERASE` (R154). -/
def execNorChipErase (s : State) : Host.Outcome State Fault Refusal :=
  s.request (fun s => mutate (NorCmd.bytes s.cfg .ce) 0 .finish s)

/-- `NOR_READ addr, len` (R157). -/
def execNorRead (addr : Addr) (arg : BitVec 32) (s : State) : Host.Outcome State Fault Refusal :=
  s.request (fun s =>
    if overWide s.cfg.norCapacity addr then s.raise (.argument addr)
    else if pastEnd s.cfg.norCapacity addr arg then s.raise (.argument addr)
    else if arg = 0 then s.returnOk
    else pollAndRead addr arg.toNat s)

end Sys2Proof.Machine
end

