-- ==== Sys2Proof/Machine/Fetch.lean ====
section
/-! DEFINITION. What comes to the block from outside: a request is latched (R21), an undecodable one is rejected (R103), a
reset is taken (R41, R260). -/

namespace Sys2Proof.Machine

/-- The caller writes the request latch and the payload buffer when it issues a request (R21, R22); a frame latches
nothing. -/
def State.present (w : Wire) (s : State) : State :=
  match w with
  | .request word din =>
    { s with reqOp := opField word, reqAddr := addrField word, reqArg := argField word, din := din }
  | .spi _ _ => s
  | .i2cWrite _ _ => s
  | .i2cRead _ _ => s

/-- What is presented but decodes to no instruction: an illegal `op` ends with `IllegalOperation` (R103, R235); anything
else is no frame of the opcode table. -/
def rejectWire (e : DecodeError) (s : State) : Host.Outcome State Fault Refusal :=
  match e with
  | .illegalOperation _ => illegalRequest s
  | e => .refused (.noSuchFrame e)

/-- The devices when the block is reset: untouched (R260), but for what an abandoned operation aimed at (U6). An operation
in its first poll has not sent its command, so a status write is not under way yet (log 17). -/
def abandonedWorld (s : State) : World :=
  match s.seq with
  | .idle => s.world
  | .readPoll _ _ => s.world
  | .firstPoll tx _ _ => s.world.abandonNor s.cfg (frameEffect s.cfg tx).unsent
  | .finalPoll tx _ => s.world.abandonNor s.cfg (frameEffect s.cfg tx)

/-- Reset (R41, R260): every register of the block at its reset value, the block idle, no event emitted, the trace empty;
the configuration, the devices, the lines and what comes from outside stay. -/
def State.takeReset (s : State) : State :=
  { State.reset with
    cfg := s.cfg
    world := { abandonedWorld s with trace := [] }
    caller := s.caller }

end Sys2Proof.Machine
end

