-- ==== Sys2Proof/Machine/ParDevice.lean ====
section
/-! DEFINITION. The reference parallel EEPROM (R94 to R97), its lines (R111) and the line events (R12). -/

namespace Sys2Proof.Machine

/-- Line numbers of the control lines, active low (R111). -/
def lineCE : Nat := 24
def lineOE : Nat := 25
def lineWE : Nat := 26

/-- The line number of data line `D_i` (R111). -/
def lineD (i : Nat) : Nat := 16 + i

/-- The bit of a line in a line register. -/
def lineBit (id : Nat) : BitVec 27 := 1#27 <<< id

/-- Set or clear the bit of a line. -/
def setLineBit (v : BitVec 27) (id : Nat) (b : Bool) : BitVec 27 :=
  if b then v ||| lineBit id else v &&& ~~~(lineBit id)

/-- The write pulse: chip-enable and write-enable low, output-enable high (R95). -/
def writePulse (level : BitVec 27) : Bool :=
  !level.getLsbD lineCE && !level.getLsbD lineWE && level.getLsbD lineOE

/-- A read: chip-enable and output-enable low, write-enable high (R96). -/
def readStrobe (level : BitVec 27) : Bool :=
  !level.getLsbD lineCE && !level.getLsbD lineOE && level.getLsbD lineWE

/-- The address on the address lines (R65, R111). -/
def lineAddress (c : Config) (level : BitVec 27) : Nat := level.toNat % 2 ^ c.parAddrBits

/-- The byte on the data lines (R65, R111). -/
def lineData (level : BitVec 27) : Byte := level.extractLsb' 16 8

/-- All eight data lines have been set as inputs (R96). -/
def dataLinesIn (p : ParDevice) : Bool := p.inputs.extractLsb' 16 8 == 0xFF#8

/-- All eight data lines have been set as outputs (R95, R194). -/
def dataLinesOut (p : ParDevice) : Bool := p.outputs.extractLsb' 16 8 == 0xFF#8

/-- The byte a write pulse latches: the one on the data lines; a free value if the block does not drive all eight of them
(DESIGN CHOICE, log 24). -/
def ParDevice.latched (p : ParDevice) (k : Nat) (level : BitVec 27) : Byte :=
  if dataLinesOut p then lineData level else Config.freeByte k

/-- The end of a write pulse: the address and data lines are latched and a write cycle starts (R95). If a cycle was still
running, the byte it was writing is in an unknown condition: a free value (R69, log 24). -/
def ParDevice.latch (c : Config) (p : ParDevice) (k : Nat) (level : BitVec 27) : ParDevice × Nat :=
  match p.cycle with
  | none => ({ p with cycle := some ⟨lineAddress c level, p.latched k level, p.cycleSamples⟩ }, k + 2)
  | some old =>
    ({ p with
        mem := p.mem.write (old.addr % c.parCapacity) (Config.freeByte (k + 1))
        cycle := some ⟨lineAddress c level, p.latched k level, p.cycleSamples⟩ }, k + 2)

/-- A sample of a write cycle: one that is due ends and its byte is stored, any other is found unfinished once more
(R95, R96). -/
def ParDevice.tick (c : Config) (p : ParDevice) : ParDevice :=
  match p.cycle with
  | none => p
  | some ⟨a, d, some 0⟩ => { p with mem := p.mem.write (a % c.parCapacity) d, cycle := none }
  | some ⟨a, d, some (n + 1)⟩ => { p with cycle := some ⟨a, d, some n⟩ }
  | some ⟨_, _, none⟩ => p

/-- The sample of a read cycle (R96, R192): the byte on the data lines is the one given from outside (`samples`) if there is
one, else the device's byte at the address on the address lines; a free value if the device drives none: the lines are in no
read (`readStrobe`), a data line is no input (R97), or a write cycle runs (U7) (logs 11 and 18). -/
def World.startRead (c : Config) (level : BitVec 27) (w : World) : World :=
  let p := w.par.tick c
  let own :=
    if readStrobe level && dataLinesIn p && p.cycle.isNone then p.mem.read (lineAddress c level) else Config.freeByte w.free
  { w with
    par := { p with drive := w.samples.headD own }
    samples := w.samples.drop 1
    free := w.free + 1 }

/-- A line event that puts output-enable low: every read cycle has one, whatever the level before it (R192). -/
def startsRead (id : Nat) (level : Bool) : Bool := id == lineOE && !level

/-- The end of a write pulse, if a change of levels is one (R95). -/
def World.endPulse (c : Config) (before after : BitVec 27) (w : World) : World :=
  if writePulse before && !writePulse after then
    { w with par := (w.par.latch c w.free before).1, free := (w.par.latch c w.free before).2 }
  else w

/-- `LineSet(id, level)` (R12, R111): the level, the end of a write pulse (R95), the sample of a read cycle (R96). That a read
cycle samples at its `LineSet(OE, low)`, also if output-enable was low already (a reset inside a read, U9), is the model's
choice (log 11). -/
def World.lineSet (c : Config) (id : Nat) (level : Bool) (w : World) : World :=
  let after := setLineBit w.par.level id level
  let v := World.endPulse c w.par.level after
    { w with trace := w.trace ++ [.lineSet id level], par := { w.par with level := after } }
  if startsRead id level then v.startRead c after else v

/-- `LineDir(id, dir)` (R12, R111). -/
def World.lineDir (id : Nat) (dir : LineDirection) (w : World) : World :=
  { w with
    trace := w.trace ++ [.lineDir id dir]
    par := { w.par with
      inputs := setLineBit w.par.inputs id (dir == .input)
      outputs := setLineBit w.par.outputs id (dir == .output) } }

/-- `ask LineGet(16 + i)` (R12, R111): bit `i` of the byte the read cycle has sampled. -/
def World.lineGet (i : Nat) (w : World) : Bool × World :=
  (w.par.drive.getLsbD i, { w with trace := w.trace ++ [.lineGet (lineD i) (w.par.drive.getLsbD i)] })

end Sys2Proof.Machine
end

