-- ==== Sys2Proof/Machine/SeeDevice.lean ====
section
/-! DEFINITION. The reference serial EEPROM (R90 to R93) and the events of the two-wire bus (R12, R110, R210). -/

namespace Sys2Proof.Machine

/-- Store payload bytes number `i` on of a write frame at address `a`; each goes where R91 says. -/
def seeStore (c : Config) (a : Nat) : List Byte → Nat → Memory → Memory
  | [], _, m => m
  | b :: rest, i, m => seeStore c a rest (i + 1) (m.write (wrapInPage c.seePage a i) b)

/-- A write frame at the device (R90 to R92): it sets the pointer to the address and, with data, stores it and starts a
write cycle. -/
def SeeDevice.writeFrame (c : Config) (d : SeeDevice) (a : Nat) (data : List Byte) : SeeDevice :=
  if data = [] then { d with pointer := a % c.seeCapacity }
  else
    { d with
      pointer := a % c.seeCapacity
      mem := seeStore c (a % c.seeCapacity) data 0 d.mem
      cycleLeft := c.seeWriteCycle }

/-- `I2cW(SEE_DEV_ADDR, be16(a) ++ data)` (R110, R210). A frame inside the write cycle is refused (U5). -/
def World.i2cWrite (c : Config) (a : Nat) (data : List Byte) (w : World) : Except Refusal World :=
  if w.see.cycleLeft ≠ 0 then .error .insideWriteCycle
  else
    .ok { w with
      trace := w.trace ++ [.i2cW c.seeDevAddr (frameAddress a ++ data)]
      see := w.see.writeFrame c a data }

/-- The `n` bytes from the pointer upward (R90), up to the end of the device. -/
def seeReadBytes (c : Config) (d : SeeDevice) (n : Nat) : List Byte :=
  (List.range (min n (c.seeCapacity - d.pointer))).map (fun j => d.mem.read (d.pointer + j))

/-- The bytes a read frame is answered with: those given from outside (`i2cIn`) first, then the device's, then free ones
past its end (R90, log 5, log 21). -/
def World.i2cAnswer (c : Config) (n : Nat) (w : World) : List Byte :=
  w.i2cIn.take n ++
    ((seeReadBytes c w.see n ++ freeBytes w.free (n - (seeReadBytes c w.see n).length)).take n).drop w.i2cIn.length

/-- `I2cR(SEE_DEV_ADDR, n)` (R110): reading advances the pointer (R90). A frame inside the write cycle is refused (U5). -/
def World.i2cRead (c : Config) (n : Nat) (w : World) : Except Refusal (List Byte × World) :=
  if w.see.cycleLeft ≠ 0 then .error .insideWriteCycle
  else
    .ok (w.i2cAnswer c n,
      { w with
        trace := w.trace ++ [.i2cR c.seeDevAddr n (w.i2cAnswer c n)]
        see := { w.see with pointer := w.see.pointer + n }
        free := w.free + (n - (seeReadBytes c w.see n).length)
        i2cIn := w.i2cIn.drop n })

/-- The answer of a bus scan (R12, R93): given from outside, or the device's address if it answers; inside the write cycle
whether it answers is free (log 37). -/
def World.scanAnswer (c : Config) (w : World) : List DevAddr :=
  match w.scans with
  | found :: _ => found
  | [] =>
    if w.see.present && (decide (w.see.cycleLeft = 0) || Config.freeBit w.free) then [c.seeDevAddr] else []

/-- `ask I2cScan` (R12, R213). -/
def World.i2cScan (c : Config) (w : World) : List DevAddr × World :=
  (w.scanAnswer c,
    { w with
      trace := w.trace ++ [.i2cScan (w.scanAnswer c)]
      scans := w.scans.drop 1
      free := w.free + 1 })

end Sys2Proof.Machine
end

