-- ==== Sys2Proof/Machine/CutShort.lean ====
section
/-! DEFINITION. A reset in the middle of an operation (R260, U6): the operation is abandoned at whatever event it had reached.
The devices have seen the events up to there, and what the operation aimed at is free; the block takes its reset values
(log 17). -/

namespace Sys2Proof.Machine

/-- The address a two-wire write frame carries (R90, R110). -/
def frameTarget : List Byte → Nat
  | hi :: lo :: _ => (hi ++ lo).toNat % 2 ^ 15
  | _ => 0

/-- What the devices make of one event the block has emitted; `tx` is what the 4-wire frame in progress has sent. -/
def World.hear (c : Config) (tx : List Byte) (e : Event) (w : World) : World :=
  match e with
  | .spiR n _ =>
    { w with
      nor := (w.nor.answer c w.free tx n).2.1
      free := (w.nor.answer c w.free tx n).2.2
      spiIn := w.spiIn.drop n }
  | .rel => { w with nor := (w.nor.react c w.free tx).1, free := (w.nor.react c w.free tx).2 }
  | .i2cW _ bytes => { w with see := w.see.writeFrame c (frameTarget bytes) (bytes.drop 2) }
  | .i2cR _ n _ =>
    { w with
      see := { w.see with pointer := w.see.pointer + n }
      free := w.free + (n - (seeReadBytes c w.see n).length)
      i2cIn := w.i2cIn.drop n }
  | .i2cScan _ => { w with scans := w.scans.drop 1, free := w.free + 1 }
  | .lineSet id level => w.lineSet c id level
  | .lineDir id dir => w.lineDir id dir
  | .delay t => w.delay c t
  | .sel | .spiW _ | .lineGet _ _ | .progress _ _ | .warn _ | .fail _ _ _ | .done _ => w

/-- What a frame in progress has sent after an event. -/
def sentAfter (tx : List Byte) : Event → List Byte
  | .spiW bytes => bytes
  | .sel | .rel => []
  | .spiR _ _ | .i2cW _ _ | .i2cR _ _ _ | .i2cScan _ | .lineSet _ _ | .lineGet _ _ | .lineDir _ _ => tx
  | .delay _ | .progress _ _ | .warn _ | .fail _ _ _ | .done _ => tx

/-- The world after the devices have seen some events of an operation. -/
def World.replay (c : Config) : List Event → List Byte → World → World
  | [], _, w => w
  | e :: rest, tx, w => World.replay c rest (sentAfter tx e) (w.hear c tx e)

/-- The status write under way after some events of an operation: its frame has begun to go out, and no status read since
has found the device idle (U6; the limits are the model's choice, log 17). Between the two the block reads nothing but SR1
(R145). -/
def statusUnderWay (c : Config) : Option Byte → List Event → Option Byte
  | v, [] => v
  | v, .spiW tx :: rest =>
    match frameEffect c tx with
    | .writeStatus b => statusUnderWay c (some b) rest
    | .program _ _ | .erase _ _ | .nothing => statusUnderWay c v rest
  | v, .spiR _ answer :: rest => statusUnderWay c (if busyFlag (answer.headD 0) then v else none) rest
  | v, .sel :: rest | v, .rel :: rest | v, .i2cW _ _ :: rest | v, .i2cR _ _ _ :: rest => statusUnderWay c v rest
  | v, .i2cScan _ :: rest | v, .lineSet _ _ :: rest | v, .lineGet _ _ :: rest => statusUnderWay c v rest
  | v, .lineDir _ _ :: rest | v, .delay _ :: rest | v, .progress _ _ :: rest => statusUnderWay c v rest
  | v, .warn _ :: rest | v, .fail _ _ _ :: rest | v, .done _ :: rest => statusUnderWay c v rest

/-- `n` bytes of the parallel EEPROM from an address on that an abandoned write aimed at become free (U6), also the one whose
write cycle still runs. -/
def ParDevice.abandon (c : Config) (start : Nat) : Nat → ParDevice → Nat → ParDevice
  | 0, p, _ => p
  | n + 1, p, k =>
    ParDevice.abandon c start n
      { p with
        mem := p.mem.write ((start + n) % c.parCapacity) (Config.freeByte k)
        cycle := p.cycle.map (fun y => if y.addr = start + n then { y with data := Config.freeByte (k + 1) } else y) }
      (k + 2)

/-- The world with bytes of the parallel EEPROM free (U6). -/
def World.abandonPar (c : Config) (start n : Nat) (w : World) : World :=
  { w with par := w.par.abandon c start n w.free, free := w.free + 2 * n }

/-- The world with bytes of the serial EEPROM free (U6). -/
def World.abandonSee (start n : Nat) (w : World) : World :=
  { w with see := { w.see with mem := w.see.mem.scramble start n w.free }, free := w.free + n }

/-- Every device byte that a request which passes its checks aims at becomes free, whatever part of it has been carried out
(U6): the page of a page write, the region of an erase, the byte of a byte write, the range of a bulk write, the whole device
of a bulk erase. A page write without data aims at none. SR1 is another matter (`statusUnderWay`). -/
def World.abandonBytes (c : Config) (i : Instr) (w : World) : World :=
  match i with
  | .norWritePage a _ data => w.abandonNor c (asksFor c (.pp a data))
  | .norSectorErase a => w.abandonNor c (asksFor c (.se a))
  | .norBlockErase64k a => w.abandonNor c (asksFor c (.be64 a))
  | .norChipErase => w.abandonNor c (asksFor c .ce)
  | .parWriteByte a _ => w.abandonPar c a.toNat 1
  | .parBulkWrite a n _ => w.abandonPar c a.toNat n.toNat
  | .seeWriteByte a _ => w.abandonSee (a.toNat % c.seeCapacity) 1
  | .seeWritePage a n _ =>
    if n = 0 then w else w.abandonSee (alignDown (a.toNat % c.seeCapacity) c.seePage) c.seePage
  | .seeBulkErase _ => w.abandonSee 0 c.seeCapacity
  | .norInit | .wpDisableProtection | .norWriteEnable | .norWriteDisable | .norReadStatus1 | .norReadStatus2 => w
  | .norReadStatus3 | .norRead _ _ | .parInit | .parReadByte _ | .parBulkRead _ _ => w
  | .seeInit | .seeReadByte _ | .seeReadBytes _ _ => w
  | .cmdWren | .cmdWrdi | .cmdRdsr1 | .cmdRdsr2 | .cmdRdsr3 | .cmdWrsr1 _ | .cmdPp _ _ | .cmdSe _ | .cmdBe64 _ => w
  | .cmdCe | .cmdRdid | .cmdWake | .cmdRsten | .cmdRst | .cmdRead _ _ | .i2cAD _ _ | .i2cA _ | .i2cRN _ => w

/-- Whether an operation ends with a code of a request that fails its checks, before any transport event (R234, R239). `t` is
the state it leads to. -/
def rejected (t : State) : Bool := decide (t.seq = .idle ∧ 3 ≤ t.resCode.toNat)

/-- The events of the operation that leads from `s` to `t`. -/
def eventsBetween (s t : State) : List Event := t.world.trace.drop s.world.trace.length

/-- The world with SR1 free if a status write is under way (U6). -/
def World.abandonStatus (c : Config) (write : Option Byte) (w : World) : World :=
  match write with
  | some v => w.abandonNor c (.writeStatus v)
  | none => w

/-- What the abandoned operation that would lead to `t` aimed at becomes free (U6); `past` are its events before the reset. A
request that fails its checks aims at nothing. `i` is the request, if the word decodes to one. -/
def World.abandonOperation (c : Config) (i : Option Instr) (past : List Event) (t : State) (w : World) : World :=
  let v := w.abandonStatus c (statusUnderWay c none past)
  match i with
  | some i => if rejected t then v else v.abandonBytes c i
  | none => v

/-- A reset of the block in state `s` after `count` of the events of the operation that would lead to `t`: the devices see
those events, and what the operation aimed at is free. -/
def State.abandonAt (i : Option Instr) (count : Nat) (s t : State) : State :=
  let past := (eventsBetween s t).take count
  State.takeReset { s with world := (World.replay s.cfg past [] s.world).abandonOperation s.cfg i past t }

/-- A reset after `count` events of the operation that leads from `s` to `t` (R260). If the operation has no more events than
that, it has ended, or waits in a busy poll, when the reset comes. -/
def State.cutShort (i : Option Instr) (count : Nat) (s t : State) : State :=
  if (eventsBetween s t).length ≤ count then t.takeReset else s.abandonAt i count t

/-- Whether one of some events is a two-wire frame that reaches the serial EEPROM inside its write cycle (U5). -/
def World.collides (c : Config) : List Event → List Byte → World → Bool
  | [], _, _ => false
  | e :: rest, tx, w =>
    (match e with
      | .i2cW _ _ | .i2cR _ _ _ => decide (w.see.cycleLeft ≠ 0)
      | _ => false) || World.collides c rest (sentAfter tx e) (w.hear c tx e)

/-- The block with a serial EEPROM that has no write cycle: what an operation that U5 refuses would have sent. -/
def State.unhindered (s : State) : State :=
  { s with
    cfg := { s.cfg with seeWriteCycle := 0 }
    world := { s.world with see := { s.world.see with cycleLeft := 0 } } }

/-- A reset after `count` events of an operation that the model refuses (U5): if it comes before the frame that is refused,
it is a reset as any other. `t` is the state the operation would lead to unhindered. -/
def State.cutBefore (i : Option Instr) (count : Nat) (s t : State) : Option State :=
  if World.collides s.cfg ((eventsBetween s t).take count) [] s.world then none else some (s.abandonAt i count t)

end Sys2Proof.Machine
end

