-- ==== Sys2Proof/Machine/See.lean ====
section
/-! DEFINITION. The SEE unit (R210 to R218). A procedure stops only where a frame would reach the device inside its write
cycle (U5: refuse). -/

namespace Sys2Proof.Machine

/-- `emit I2cW(SEE_DEV_ADDR, Frame(a) ++ data)` (R210). -/
def State.i2cWrite (a : Nat) (data : List Byte) (s : State) : Except Refusal State :=
  match s.world.i2cWrite s.cfg a data with
  | .ok w => .ok { s with world := w }
  | .error r => .error r

/-- A write frame and its settle delay, which follows every frame that carries data and no other (R211). -/
def State.writeFrame (a : Nat) (data : List Byte) (s : State) : Except Refusal State :=
  match s.i2cWrite a data with
  | .ok t => .ok (if data = [] then t else t.delay .settle)
  | .error r => .error r

/-- A read (R210): an address-only frame, then a read frame of `n` bytes into `DOUT`. -/
def State.readFrame (a n : Nat) (s : State) : Except Refusal State :=
  match s.i2cWrite a [] with
  | .error r => .error r
  | .ok t =>
    match t.world.i2cRead t.cfg n with
    | .error r => .error r
    | .ok (bytes, w) => .ok { t with world := w, dout := bytes }

/-- The page loop of `SEE_BULK_ERASE` (R218): `n` pages from page `p` on. -/
def bulkEraseLoop (fill : Byte) : Nat → Nat → State → Except Refusal State
  | 0, _, s => .ok s
  | n + 1, p, s =>
    let a := p * s.cfg.seePage
    let t := if progressDue s.cfg p then s.emit (.progress .erase (addrOf a)) else s
    match t.writeFrame a (List.replicate s.cfg.seePage fill) with
    | .ok u => bulkEraseLoop fill n (p + 1) u
    | .error r => .error r

/-- `return ok` after a procedure that can be refused. -/
def andReturnOk (r : Except Refusal State) : Except Refusal State :=
  match r with
  | .ok t => .ok t.returnOk
  | .error e => .error e

/-- `SEE_INIT` (R213, R237). -/
def execSeeInit (s : State) : Host.Outcome State Fault Refusal :=
  s.request (fun s =>
    let t := s.clearWarn scanAbsent
    let r := t.world.i2cScan t.cfg
    let u := { t with world := r.2 }
    if s.cfg.seeDevAddr ∈ r.1 then u.returnOk
    else ((u.setWarn scanAbsent).emit (.warn .busScanWarning)).returnOk)

/-- `SEE_WRITE_BYTE addr, value` (R214). -/
def execSeeWriteByte (addr : Addr) (arg : BitVec 32) (s : State) : Host.Outcome State Fault Refusal :=
  s.requestOrRefuse (fun s =>
    if overWide s.cfg.seeCapacity addr then .ok (s.raise (.argument addr))
    else andReturnOk (s.writeFrame addr.toNat [byteValue arg]))

/-- `SEE_WRITE_PAGE addr, len, data` (R215), the checks in the order of R239. -/
def execSeeWritePage (addr : Addr) (arg : BitVec 32) (data : List Byte) (s : State) : Host.Outcome State Fault Refusal :=
  s.requestOrRefuse (fun s =>
    if overWide s.cfg.seeCapacity addr then .ok (s.raise (.argument addr))
    else if payloadMismatch data arg then .ok (s.raise (.argument addr))
    else if crosses s.cfg.seePage addr.toNat arg.toNat then .ok (s.raise (.pageBoundary addr))
    else andReturnOk (s.writeFrame addr.toNat data))

/-- `SEE_READ_BYTE addr` (R216). -/
def execSeeReadByte (addr : Addr) (s : State) : Host.Outcome State Fault Refusal :=
  s.requestOrRefuse (fun s =>
    if overWide s.cfg.seeCapacity addr then .ok (s.raise (.argument addr))
    else andReturnOk (s.readFrame addr.toNat 1))

/-- `SEE_READ_BYTES addr, len` (R217). -/
def execSeeReadBytes (addr : Addr) (arg : BitVec 32) (s : State) : Host.Outcome State Fault Refusal :=
  s.requestOrRefuse (fun s =>
    if overWide s.cfg.seeCapacity addr then .ok (s.raise (.argument addr))
    else if pastEnd s.cfg.seeCapacity addr arg then .ok (s.raise (.argument addr))
    else if arg = 0 then .ok s.returnOk
    else andReturnOk (s.readFrame addr.toNat arg.toNat))

/-- `SEE_BULK_ERASE fill` (R218). -/
def execSeeBulkErase (arg : BitVec 32) (s : State) : Host.Outcome State Fault Refusal :=
  s.requestOrRefuse (fun s =>
    andReturnOk (bulkEraseLoop (byteValue arg) (s.cfg.seeCapacity / s.cfg.seePage) 0 s))

end Sys2Proof.Machine
end

