-- ==== Sys2Proof/Machine/Frames.lean ====
section
/-! DEFINITION. The bus frames as instructions of their own (R107 to R110; log 4): what `SpiFrame` (R141) or one two-wire
frame (R210) puts on the bus, and the reference device's reaction. A lone frame touches no register of the block; `rx`
holds what it read. While an operation runs the block owns the bus (R72, R272; U1: refuse). -/

namespace Sys2Proof.Machine

/-- One frame on the 4-wire bus that carries a command and reads `n` bytes; `inside` says that the device has the addresses
it names. -/
def norFrame (cmd : NorCmd) (n : Nat) (inside : Bool) (s : State) : Host.Outcome State Fault Refusal :=
  if s.seq ≠ .idle then .refused .busOwned
  else if inside then
    .next { (s.spi (cmd.bytes s.cfg) n).2 with rx := (s.spi (cmd.bytes s.cfg) n).1 }
  else .fault .addressOutsideDevice

/-- One write frame on the two-wire bus. -/
def i2cWriteFrame (addr : BitVec 15) (data : List Byte) (s : State) : Host.Outcome State Fault Refusal :=
  if s.seq ≠ .idle then .refused .busOwned
  else if addr.toNat < s.cfg.seeCapacity then
    match s.i2cWrite addr.toNat data with
    | .ok t => .next { t with rx := [] }
    | .error r => .refused r
  else .fault .addressOutsideDevice

/-- One read frame of `n` bytes on the two-wire bus; bytes past the end of the device are free (log 21). -/
def i2cReadFrame (n : Nat) (s : State) : Host.Outcome State Fault Refusal :=
  if s.seq ≠ .idle then .refused .busOwned
  else
    match s.world.i2cRead s.cfg n with
    | .ok (bytes, w) => .next { s with world := w, rx := bytes }
    | .error r => .refused r

/-- `CMD_WREN` (R81, R108). -/
def execCmdWren (s : State) : Host.Outcome State Fault Refusal := norFrame .wren 0 true s

/-- `CMD_WRDI` (R81, R108). -/
def execCmdWrdi (s : State) : Host.Outcome State Fault Refusal := norFrame .wrdi 0 true s

/-- `CMD_RDSR1` (R36, R82, R108). -/
def execCmdRdsr1 (s : State) : Host.Outcome State Fault Refusal := norFrame .rdsr1 1 true s

/-- `CMD_RDSR2` (R36, R108). -/
def execCmdRdsr2 (s : State) : Host.Outcome State Fault Refusal := norFrame .rdsr2 1 true s

/-- `CMD_RDSR3` (R36, R108). -/
def execCmdRdsr3 (s : State) : Host.Outcome State Fault Refusal := norFrame .rdsr3 1 true s

/-- `CMD_WRSR1` (R88, R108). -/
def execCmdWrsr1 (value : Byte) (s : State) : Host.Outcome State Fault Refusal := norFrame (.wrsr1 value) 0 true s

/-- `CMD_PP` (R84, R85, R108). -/
def execCmdPp (addr : Addr) (data : List Byte) (s : State) : Host.Outcome State Fault Refusal :=
  norFrame (.pp addr data) 0 (!overWide s.cfg.norCapacity addr) s

/-- `CMD_SE` (R86, R108). -/
def execCmdSe (addr : Addr) (s : State) : Host.Outcome State Fault Refusal :=
  norFrame (.se addr) 0 (!overWide s.cfg.norCapacity addr) s

/-- `CMD_BE64` (R86, R108). -/
def execCmdBe64 (addr : Addr) (s : State) : Host.Outcome State Fault Refusal :=
  norFrame (.be64 addr) 0 (!overWide s.cfg.norCapacity addr) s

/-- `CMD_CE` (R86, R108). -/
def execCmdCe (s : State) : Host.Outcome State Fault Refusal := norFrame .ce 0 true s

/-- `CMD_RDID` (R89, R108, R155). -/
def execCmdRdid (s : State) : Host.Outcome State Fault Refusal := norFrame .rdid 3 true s

/-- `CMD_WAKE` (R89, R108). -/
def execCmdWake (s : State) : Host.Outcome State Fault Refusal := norFrame .wake 0 true s

/-- `CMD_RSTEN` (R89, R108). -/
def execCmdRsten (s : State) : Host.Outcome State Fault Refusal := norFrame .rsten 0 true s

/-- `CMD_RST` (R89, R108). -/
def execCmdRst (s : State) : Host.Outcome State Fault Refusal := norFrame .rst 0 true s

/-- `CMD_READ` of `count` bytes (R89, R108); bytes past the end of the device are free, and with `count` 0 the frame has no
read (R141, log 28). -/
def execCmdRead (addr : Addr) (count : Nat) (s : State) : Host.Outcome State Fault Refusal :=
  norFrame (.read addr) count (!overWide s.cfg.norCapacity addr) s

/-- `I2C_A_D`: a write frame with data (R90, R91, R110). -/
def execI2cAD (addr : BitVec 15) (data : List Byte) (s : State) : Host.Outcome State Fault Refusal :=
  i2cWriteFrame addr data s

/-- `I2C_A`: an address-only write frame (R90, R110). -/
def execI2cA (addr : BitVec 15) (s : State) : Host.Outcome State Fault Refusal := i2cWriteFrame addr [] s

/-- `I2C_RN`: a read frame (R90, R110). -/
def execI2cRN (count : Nat) (s : State) : Host.Outcome State Fault Refusal := i2cReadFrame count s

end Sys2Proof.Machine
end

