-- ==== Sys2Proof/Machine/Par.lean ====
section
/-! DEFINITION. The PAR unit (R190 to R199): the line procedures, the verify-retry loop and the five operations. A PAR
operation before `PAR_INIT` runs as written (U9, log 11). -/

namespace Sys2Proof.Machine

/-- `emit LineSet(id, level)`. -/
def State.lineSet (id : Nat) (level : Bool) (s : State) : State := { s with world := s.world.lineSet s.cfg id level }

/-- `emit LineDir(id, dir)`. -/
def State.lineDir (id : Nat) (dir : LineDirection) (s : State) : State := { s with world := s.world.lineDir id dir }

/-- `LineSet` for lines `base + i`, `i` from `first` on, `n` of them, with the levels `bit i` (R111: ascending order). -/
def setLines (base : Nat) (bit : Nat → Bool) : Nat → Nat → State → State
  | 0, _, s => s
  | n + 1, first, s => setLines base bit n (first + 1) (s.lineSet (base + first) (bit first))

/-- `LineDir` for lines `base + i`, `i` from `first` on, `n` of them (ascending order). -/
def setDirections (base : Nat) (dir : LineDirection) : Nat → Nat → State → State
  | 0, _, s => s
  | n + 1, first, s => setDirections base dir n (first + 1) (s.lineDir (base + first) dir)

/-- `SetAddress(a)` (R191): all address lines, ascending. -/
def setAddress (a : Nat) (s : State) : State := setLines 0 (fun i => a.testBit i) s.cfg.parAddrBits 0 s

/-- The eight data lines driven with a byte (R111). -/
def driveData (v : Byte) (s : State) : State := setLines 16 (fun i => v.getLsbD i) 8 0 s

/-- The direction of the eight data lines, and `PAR_DIR` with it (R32, R193, R194). -/
def dataInput (s : State) : State := { setDirections 16 .input 8 0 s with parDir := .input }
def dataOutput (s : State) : State := { setDirections 16 .output 8 0 s with parDir := .output }

/-- `ask LineGet(16 + i)`. -/
def State.lineGet (i : Nat) (s : State) : Bool × State := ((s.world.lineGet i).1, { s with world := (s.world.lineGet i).2 })

/-- Sample data lines `first` on, `n` of them, ascending: the value of the bits, and the state after (R111, R192). -/
def sampleLines : Nat → Nat → State → Nat × State
  | 0, _, s => (0, s)
  | n + 1, first, s =>
    let r := s.lineGet first
    let t := sampleLines n (first + 1) r.2
    ((if r.1 then 2 ^ first else 0) + t.1, t.2)

/-- `ReadCycle()` (R192). -/
def readCycle (s : State) : Byte × State :=
  let r := sampleLines 8 0 ((s.lineSet lineCE false).lineSet lineOE false)
  (BitVec.ofNat 8 r.1, (r.2.lineSet lineOE true).lineSet lineCE true)

/-- `VerifyLoop` (R195) with `left` samples still allowed: `none` for success, the last sample for failure. At least one
sample is allowed in every configuration of R9. -/
def verifyLoop (v : Byte) : Nat → State → Option Byte × State
  | 0, s => (some 0, s)
  | left + 1, s =>
    let r := readCycle { s with attempts := s.attempts + 1 }
    if r.1 = v then (none, { r.2 with resAttempts := BitVec.ofNat 32 r.2.attempts })
    else if left = 0 then (some r.1, { r.2 with resAttempts := BitVec.ofNat 32 r.2.attempts })
    else verifyLoop v left (r.2.delay .retry)

/-- The write pulse (R194): within it chip-enable falls first and rises last; output-enable is not touched. -/
def pulse (s : State) : State :=
  ((((s.lineSet lineCE false).lineSet lineWE false).delay .writePulse).lineSet lineWE true).lineSet lineCE true

/-- `WriteByte(a, v)` (R194): address, data lines out, the byte, the pulse, data lines in, the verify loop. -/
def writeByte (a : Nat) (v : Byte) (s : State) : Option Byte × State :=
  verifyLoop v s.cfg.parRetryBudget
    { dataInput (pulse (driveData v (dataOutput (setAddress a s)))) with attempts := 0 }

/-- Read the byte at an address and append it to `DOUT` (R196, R197). -/
def readByte (a : Nat) (s : State) : State :=
  let r := readCycle (setAddress a s)
  { r.2 with dout := r.2.dout ++ [r.1] }

/-- A progress event before unit `i` if one is due (R197, R198, R218). -/
def State.progress (label : ProgressLabel) (i a : Nat) (s : State) : State :=
  if progressDue s.cfg i then s.emit (.progress label (addrOf a)) else s

/-- The loop of `PAR_BULK_READ` (R197): `n` bytes from index `i` on. -/
def bulkReadLoop (start : Nat) : Nat → Nat → State → State
  | 0, _, s => s
  | n + 1, i, s => bulkReadLoop start n (i + 1) (readByte (start + i) (s.progress .read i (start + i)))

/-- What `PAR_BULK_WRITE` does with a failed byte before the policy is looked at (R198): count it, keep the first. -/
def recordFailure (a : Nat) (expected observed : Byte) (s : State) : State :=
  let t := { s with failCount := s.failCount + 1 }
  if t.failCount = 1 then { t with resAddr := addrOf a, resExpected := expected, resObserved := observed } else t

/-- The loop of `PAR_BULK_WRITE` (R198) and its end: under `ABORT` the first failure ends the operation; under `COLLECT`
each is reported and the loop goes on; the operation fails if any byte did. -/
def bulkWriteLoop (start : Nat) : List Byte → Nat → State → State
  | [], _, s =>
    if s.failCount ≠ 0 then s.raise (.verifyFailure s.resAddr s.resExpected s.resObserved) else s.returnOk
  | v :: rest, i, s =>
    let r := writeByte (start + i) v (s.progress .write i (start + i))
    match r.1 with
    | none => bulkWriteLoop start rest (i + 1) r.2
    | some observed =>
      let t := recordFailure (start + i) v observed r.2
      match s.cfg.failPolicy with
      | .abort => t.raise (.verifyFailure (addrOf (start + i)) v observed)
      | .collect => bulkWriteLoop start rest (i + 1) (t.emit (.fail (addrOf (start + i)) v observed))

/-- `PAR_INIT` (R193). -/
def execParInit (s : State) : Host.Outcome State Fault Refusal :=
  s.request (fun s =>
    let t := dataInput s
    let t := ((t.lineSet lineCE true).lineSet lineOE true).lineSet lineWE true
    let t := ((t.lineDir lineCE .output).lineDir lineOE .output).lineDir lineWE .output
    let t := setLines 0 (fun _ => false) s.cfg.parAddrBits 0 t
    (setDirections 0 .output s.cfg.parAddrBits 0 t).returnOk)

/-- `PAR_WRITE_BYTE addr, value` (R194). -/
def execParWriteByte (addr : Addr) (arg : BitVec 32) (s : State) : Host.Outcome State Fault Refusal :=
  s.request (fun s =>
    if overWide s.cfg.parCapacity addr then s.raise (.argument addr)
    else
      let r := writeByte addr.toNat (byteValue arg) s
      match r.1 with
      | none => r.2.returnOk
      | some observed => { r.2 with failCount := 1 }.raise (.verifyFailure addr (byteValue arg) observed))

/-- `PAR_READ_BYTE addr` (R196). -/
def execParReadByte (addr : Addr) (s : State) : Host.Outcome State Fault Refusal :=
  s.request (fun s =>
    if overWide s.cfg.parCapacity addr then s.raise (.argument addr)
    else (readByte addr.toNat s).returnOk)

/-- `PAR_BULK_READ start, len` (R197). -/
def execParBulkRead (addr : Addr) (arg : BitVec 32) (s : State) : Host.Outcome State Fault Refusal :=
  s.request (fun s =>
    if overWide s.cfg.parCapacity addr then s.raise (.argument addr)
    else if pastEnd s.cfg.parCapacity addr arg then s.raise (.argument addr)
    else (bulkReadLoop addr.toNat arg.toNat 0 s).returnOk)

/-- `PAR_BULK_WRITE start, len, values` (R198). -/
def execParBulkWrite (addr : Addr) (arg : BitVec 32) (data : List Byte) (s : State) : Host.Outcome State Fault Refusal :=
  s.request (fun s =>
    if overWide s.cfg.parCapacity addr then s.raise (.argument addr)
    else if payloadMismatch data arg then s.raise (.argument addr)
    else if pastEnd s.cfg.parCapacity addr arg then s.raise (.argument addr)
    else bulkWriteLoop addr.toNat data 0 s)

end Sys2Proof.Machine
end

