-- ==== Sys2Proof/Machine/Wp.lean ====
section
/-! DEFINITION. The WP unit (R180 to R183), and `NOR_INIT` (R156), which runs its procedure as its third step. -/

namespace Sys2Proof.Machine

/-- `DisableProtection()` (R181): read SR1, SR2, SR3 into `DOUT`; only if SR1 is protected, one status write of the
cleared byte through the whole skeleton. `after` is what follows it. -/
def disableProtection (after : After) (s : State) : State :=
  let r1 := s.readStatus s.cfg.cmd.rdsr1
  let r2 := r1.2.readStatus s.cfg.cmd.rdsr2
  let r3 := r2.2.readStatus s.cfg.cmd.rdsr3
  let t := { r3.2 with dout := [r1.1, r2.1, r3.1] }
  if protectedStatus s.cfg r1.1 then
    mutate (NorCmd.bytes s.cfg (.wrsr1 (clearedStatus s.cfg r1.1))) 0 after t
  else continueAfter after t

/-- `WP_DISABLE_PROTECTION` (R181). -/
def execWpDisableProtection (s : State) : Host.Outcome State Fault Refusal :=
  s.request (fun s => disableProtection .finish s)

/-- `NOR_INIT` (R156): clear the warning, wake, reset-enable, reset, the protection step, the identity. -/
def execNorInit (s : State) : Host.Outcome State Fault Refusal :=
  s.request (fun s =>
    disableProtection .identify
      ((((s.clearWarn idMismatch).spiSend [s.cfg.cmd.wake]).spiSend [s.cfg.cmd.rsten]).spiSend [s.cfg.cmd.rst]))

end Sys2Proof.Machine
end

