-- ==== Sys2Proof/Machine/Dispatch.lean ====
section
/-! DEFINITION. The dispatch: one arm per instruction, each one call of that instruction's meaning. -/

namespace Sys2Proof.Machine

def exec (i : Instr) (s : State) : Host.Outcome State Fault Refusal :=
  match i with
  | .norInit => Sys2Proof.Machine.execNorInit s
  | .norWriteEnable => Sys2Proof.Machine.execNorWriteEnable s
  | .norWriteDisable => Sys2Proof.Machine.execNorWriteDisable s
  | .norReadStatus1 => Sys2Proof.Machine.execNorReadStatus1 s
  | .norReadStatus2 => Sys2Proof.Machine.execNorReadStatus2 s
  | .norReadStatus3 => Sys2Proof.Machine.execNorReadStatus3 s
  | .norWritePage addr arg data => Sys2Proof.Machine.execNorWritePage addr arg data s
  | .norSectorErase addr => Sys2Proof.Machine.execNorSectorErase addr s
  | .norBlockErase64k addr => Sys2Proof.Machine.execNorBlockErase64k addr s
  | .norChipErase => Sys2Proof.Machine.execNorChipErase s
  | .norRead addr arg => Sys2Proof.Machine.execNorRead addr arg s
  | .wpDisableProtection => Sys2Proof.Machine.execWpDisableProtection s
  | .parInit => Sys2Proof.Machine.execParInit s
  | .parWriteByte addr arg => Sys2Proof.Machine.execParWriteByte addr arg s
  | .parReadByte addr => Sys2Proof.Machine.execParReadByte addr s
  | .parBulkRead addr arg => Sys2Proof.Machine.execParBulkRead addr arg s
  | .parBulkWrite addr arg data => Sys2Proof.Machine.execParBulkWrite addr arg data s
  | .seeInit => Sys2Proof.Machine.execSeeInit s
  | .seeWriteByte addr arg => Sys2Proof.Machine.execSeeWriteByte addr arg s
  | .seeWritePage addr arg data => Sys2Proof.Machine.execSeeWritePage addr arg data s
  | .seeReadByte addr => Sys2Proof.Machine.execSeeReadByte addr s
  | .seeReadBytes addr arg => Sys2Proof.Machine.execSeeReadBytes addr arg s
  | .seeBulkErase arg => Sys2Proof.Machine.execSeeBulkErase arg s
  | .cmdWren => Sys2Proof.Machine.execCmdWren s
  | .cmdWrdi => Sys2Proof.Machine.execCmdWrdi s
  | .cmdRdsr1 => Sys2Proof.Machine.execCmdRdsr1 s
  | .cmdRdsr2 => Sys2Proof.Machine.execCmdRdsr2 s
  | .cmdRdsr3 => Sys2Proof.Machine.execCmdRdsr3 s
  | .cmdWrsr1 value => Sys2Proof.Machine.execCmdWrsr1 value s
  | .cmdPp addr data => Sys2Proof.Machine.execCmdPp addr data s
  | .cmdSe addr => Sys2Proof.Machine.execCmdSe addr s
  | .cmdBe64 addr => Sys2Proof.Machine.execCmdBe64 addr s
  | .cmdCe => Sys2Proof.Machine.execCmdCe s
  | .cmdRdid => Sys2Proof.Machine.execCmdRdid s
  | .cmdWake => Sys2Proof.Machine.execCmdWake s
  | .cmdRsten => Sys2Proof.Machine.execCmdRsten s
  | .cmdRst => Sys2Proof.Machine.execCmdRst s
  | .cmdRead addr count => Sys2Proof.Machine.execCmdRead addr count s
  | .i2cAD addr data => Sys2Proof.Machine.execI2cAD addr data s
  | .i2cA addr => Sys2Proof.Machine.execI2cA addr s
  | .i2cRN count => Sys2Proof.Machine.execI2cRN count s

end Sys2Proof.Machine
end

