-- ==== Sys2Proof/Machine/Step.lean ====
section
/-! DEFINITION. One step of the machine, and where it fetches its next instruction. -/

namespace Sys2Proof.Machine

/-- Run what is presented: the decoded instruction, or its rejection. -/
def runWire (w : Wire) (s : State) : Host.Outcome State Fault Refusal :=
  match decode s.cfg w with
  | .ok i => exec i (s.present w)
  | .error e => rejectWire e (s.present w)

/-- Run a request that the reset line cuts short (R260). A request that is refused (U5) is refused here too, unless the reset
comes before what is refused. -/
def runCut (word : BitVec 64) (din : List Byte) (count : Nat) (s : State) : Host.Outcome State Fault Refusal :=
  let i := (decodeRequest word din).toOption
  match runWire (.request word din) s with
  | .next t => .next (State.cutShort i count s t)
  | .fault f => .fault f
  | .refused r =>
    match runWire (.request word din) s.unhindered with
    | .next t => (State.cutBefore i count s t).elim (.refused r) .next
    | .fault _ => .refused r
    | .refused _ => .refused r

/-- One step. A configuration that breaks R9 is refused. A reset is taken at any time (R249, R260). A block that waits in a
busy poll goes on polling, and no request is taken from the caller (R158, R249). An idle block runs what comes next from
outside, whole or up to a reset; with nothing to run it keeps its state (R71 (c), R248). -/
def step (s : State) : Host.Outcome State Fault Refusal :=
  if s.cfg.wf then
    match s.caller with
    | .reset :: rest => .next (State.takeReset { s with caller := rest })
    | [] => .next (resume s)
    | .wire w :: rest => if s.seq = .idle then runWire w { s with caller := rest } else .next (resume s)
    | .cut word din count :: rest =>
      if s.seq = .idle then runCut word din count { s with caller := rest } else .next (resume s)
  else .refused .badConfiguration

/-- The state in which the next step runs a word of the opcode table: the word (with operand words of zeros) comes next
from the caller, and the block is idle (log 3). -/
def State.withFetchWord (s : State) (nbits w : Nat) : State :=
  match tableWire s.cfg nbits w with
  | some wire => { s with seq := .idle, caller := .wire wire :: s.caller }
  | none => s

end Sys2Proof.Machine
end

