-- ==== Sys2Proof/Safety.lean ====
section
/-! DEFINITION. The terms the claims use: the event sequences the rules name, the conditions a claim asks of a device or of
the lines, and the invariants of the machine. -/

namespace Sys2Proof.Machine

/-! Event sequences -/

/-- A frame that reads nothing: `Sel`, `SpiW(tx)`, `Rel` (R107, R141). -/
def sendEvents (tx : List Byte) : List Event := [.sel, .spiW tx, .rel]

/-- A frame that reads: `Sel`, `SpiW(tx)`, `SpiR(n)` with its answer, `Rel` (R107, R141). -/
def askEvents (tx rx : List Byte) : List Event := [.sel, .spiW tx, .spiR rx.length rx, .rel]

/-- SR1 read once for each answer, with nothing in between (R142, R143). -/
def statusEvents (c : Config) (answers : List Byte) : List Event :=
  answers.flatMap (fun b => askEvents [c.cmd.rdsr1] [b])

/-- The latch checks of `EnsureWriteEnabled` (R144), one for each answer: a write-enable frame and an SR1 read. -/
def latchEvents (c : Config) (answers : List Byte) : List Event :=
  answers.flatMap (fun b => sendEvents [c.cmd.wren] ++ statusEvents c [b])

/-- The events of `Mutate` (R145) that ends well: the answers of the first poll, the answers of the latch checks, the
command frame, the answers of the final poll. -/
def mutateEvents (c : Config) (first latch tx final : List Byte) : List Event :=
  statusEvents c first ++ latchEvents c latch ++ sendEvents tx ++ statusEvents c final

/-- Answers to a busy poll that ends: busy ones, then one that is not (R143). -/
abbrev PollAnswers (answers : List Byte) : Prop :=
  ∃ busy last, answers = busy ++ [last] ∧ (∀ b ∈ busy, busyFlag b = true) ∧ busyFlag last = false

/-- Answers to the latch checks that end well: the latch set at the first, or clear at the first and set at the second
(R144). -/
abbrev LatchAnswers (answers : List Byte) : Prop :=
  (∃ a, answers = [a] ∧ latchFlag a = true) ∨
    (∃ a b, answers = [a, b] ∧ latchFlag a = false ∧ latchFlag b = true)

/-- The three status reads that begin the protection step (R181). -/
def inspectEvents (c : Config) (s1 s2 s3 : Byte) : List Event :=
  askEvents [c.cmd.rdsr1] [s1] ++ askEvents [c.cmd.rdsr2] [s2] ++ askEvents [c.cmd.rdsr3] [s3]

/-- The identity read, once more after a delay if it is all zero (R155, R156). -/
def identityEvents (c : Config) (id1 id2 : BitVec 24) : List Event :=
  askEvents [c.cmd.rdid] (be24 id1) ++ (if id1 = 0 then [.delay .idRetry] ++ askEvents [c.cmd.rdid] (be24 id2) else [])

/-- The three frames `NOR_INIT` begins with (R156). -/
def wakeEvents (c : Config) : List Event :=
  sendEvents [c.cmd.wake] ++ sendEvents [c.cmd.rsten] ++ sendEvents [c.cmd.rst]

/-- `SetAddress(a)` (R191): the address lines, ascending. -/
def addressEvents (c : Config) (a : Nat) : List Event :=
  (List.range c.parAddrBits).map (fun i => .lineSet i (a.testBit i))

/-- The eight data lines switched, ascending (R111). -/
def directionEvents (dir : LineDirection) : List Event := (List.range 8).map (fun i => .lineDir (16 + i) dir)

/-- A byte driven on the data lines, ascending (R111). -/
def driveEvents (v : Byte) : List Event := (List.range 8).map (fun i => .lineSet (16 + i) (v.getLsbD i))

/-- `ReadCycle()` that samples a byte (R192). -/
def sampleEvents (v : Byte) : List Event :=
  [.lineSet 24 false, .lineSet 25 false] ++ (List.range 8).map (fun i => .lineGet (16 + i) (v.getLsbD i)) ++
    [.lineSet 25 true, .lineSet 24 true]

/-- The verify loop that takes these samples: a retry delay between two samples and nowhere else (R195). -/
def verifyEvents : List Byte → List Event
  | [] => []
  | [v] => sampleEvents v
  | v :: w :: rest => sampleEvents v ++ [.delay .retry] ++ verifyEvents (w :: rest)

/-- `WriteByte(a, v)` up to its verify loop (R194). -/
def driveByteEvents (c : Config) (a : Nat) (v : Byte) : List Event :=
  addressEvents c a ++ directionEvents .output ++ driveEvents v ++
    [.lineSet 24 false, .lineSet 26 false, .delay .writePulse, .lineSet 26 true, .lineSet 24 true] ++
    directionEvents .input

/-- A progress event before unit `i` at address `a`, if one is due (R247). -/
def progressEvents (c : Config) (label : ProgressLabel) (i a : Nat) : List Event :=
  if progressDue c i then [.progress label (addrOf a)] else []

/-- The events of `PAR_INIT` (R193). -/
def initEvents (c : Config) : List Event :=
  directionEvents .input ++
    [.lineSet 24 true, .lineSet 25 true, .lineSet 26 true, .lineDir 24 .output, .lineDir 25 .output, .lineDir 26 .output] ++
    (List.range c.parAddrBits).map (fun i => .lineSet i false) ++
    (List.range c.parAddrBits).map (fun i => .lineDir i .output)

/-- The events of one page of `SEE_BULK_ERASE` (R218). -/
def erasePageEvents (c : Config) (fill : Byte) (p : Nat) : List Event :=
  progressEvents c .erase p (p * c.seePage) ++
    [.i2cW c.seeDevAddr (frameAddress (p * c.seePage) ++ List.replicate c.seePage fill), .delay .settle]

/-- One byte of a bulk write with the samples its verify loop takes (R195, R198): they end with the first match, or with the
budget and no match. -/
abbrev ByteRun (budget : Nat) (r : Byte × List Byte) : Prop :=
  (∃ bad, r.2 = bad ++ [r.1] ∧ bad.length < budget ∧ r.1 ∉ bad) ∨ (r.2.length = budget ∧ r.1 ∉ r.2)

/-- A byte whose samples never match it has failed (R195). -/
def runFailed (r : Byte × List Byte) : Bool := !r.2.contains r.1

/-- The last sample taken for a byte. -/
def runObserved (r : Byte × List Byte) : Byte := r.2.getLastD 0

/-- The events of a bulk write (R198) over these bytes, from index `i` on; `report` says whether a failed byte is reported
by a `Fail` event. -/
def bulkWriteEvents (c : Config) (report : Bool) (start : Nat) : Nat → List (Byte × List Byte) → List Event
  | _, [] => []
  | i, r :: rest =>
    progressEvents c .write i (start + i) ++ driveByteEvents c (start + i) r.1 ++ verifyEvents r.2 ++
      (if report && runFailed r then [.fail (addrOf (start + i)) r.1 (runObserved r)] else []) ++
      bulkWriteEvents c report start (i + 1) rest

/-- The events of a bulk read (R197) that samples these bytes, from index `i` on. -/
def bulkReadEvents (c : Config) (start : Nat) : Nat → List Byte → List Event
  | _, [] => []
  | i, v :: rest =>
    progressEvents c .read i (start + i) ++ addressEvents c (start + i) ++ sampleEvents v ++
      bulkReadEvents c start (i + 1) rest

/-- A list of events without a `Done` (R13, R25). -/
def quiet (events : List Event) : Prop := ∀ code, Event.done code ∉ events

/-- Whether an event sends a frame that starts with a given command byte. -/
def sends (command : Byte) : Event → Bool
  | .spiW (b :: _) => b == command
  | _ => false

/-- The world with events appended to its trace (R12). -/
def World.log (w : World) (events : List Event) : World := { w with trace := w.trace ++ events }

/-! Devices and lines -/

/-- A NOR device that is awake, powered up and has no internal operation in progress (R80). -/
abbrev NorDevice.Ready (d : NorDevice) : Prop := d.asleep = false ∧ d.powerUpLeft = 0 ∧ d.job = none

/-- The settings of the NOR device as SR1 shows them while `WEL` and `BUSY` are clear (R36). -/
def NorDevice.settings (d : NorDevice) : Byte := d.status &&& 0xFC#8

/-- The chip-enable, output-enable and write-enable lines are released (R111, R190). -/
abbrev ParDevice.Released (p : ParDevice) : Prop :=
  p.level.getLsbD lineCE = true ∧ p.level.getLsbD lineOE = true ∧ p.level.getLsbD lineWE = true

/-- The eight data lines were last set as inputs (R190, R199). -/
abbrev ParDevice.DataIn (p : ParDevice) : Prop := p.inputs.extractLsb' 16 8 = 0xFF#8 ∧ p.outputs.extractLsb' 16 8 = 0#8

/-- The read-safe configuration (R190, R199). -/
abbrev State.ReadSafe (s : State) : Prop := s.parDir = .input ∧ s.world.par.DataIn ∧ s.world.par.Released

/-- Contention (R97): a data line is an output while output-enable is low. -/
def contention (level outputs : BitVec 27) : Bool := !level.getLsbD lineOE && outputs.extractLsb' 16 8 != 0#8

/-- No event of a sequence brings the lines into contention, from given levels and outputs on (R97, R199). -/
def neverContends (level outputs : BitVec 27) : List Event → Bool
  | [] => true
  | .lineSet id v :: rest =>
    !contention (setLineBit level id v) outputs && neverContends (setLineBit level id v) outputs rest
  | .lineDir id dir :: rest =>
    !contention level (setLineBit outputs id (dir == .output)) &&
      neverContends level (setLineBit outputs id (dir == .output)) rest
  | _ :: rest => neverContends level outputs rest

/-- The block's registers have the values R41 gives after reset, the block is idle and the trace is empty. The fields `reqOp`,
`reqAddr`, `reqArg`, `din`, `norIdent` and `attempts`, which R41 leaves unspecified, are not spoken of. -/
abbrev State.AtReset (s : State) : Prop :=
  s.norPhase = .idle ∧ s.seq = .idle ∧ s.resCode = 0x00 ∧ s.resAddr = 0 ∧ s.resExpected = 0 ∧ s.resObserved = 0 ∧
    s.resAttempts = 0 ∧ s.failCount = 0 ∧ s.resLen = 0 ∧ s.warn = 0x00 ∧ s.norIdentValid = false ∧ s.parDir = .unknown ∧
    s.dout = [] ∧ s.world.trace = []

/-- The next step is one in which the block is reset, at once or in the middle of an operation (R260). -/
abbrev State.Resets (s : State) : Prop :=
  (∃ rest, s.caller = .reset :: rest) ∨ (s.seq = .idle ∧ ∃ word din count rest, s.caller = .cut word din count :: rest)

/-- How many mutating command frames an operation at this position may still send (R145): one from its first poll. -/
def commandsLeft : Seq → Nat
  | .firstPoll _ _ _ => 1
  | .idle => 0
  | .finalPoll _ _ => 0
  | .readPoll _ _ => 0

/-- From device `p` to `q` no byte has changed but `len` of them from `start` on, and the one that a write cycle running at the
beginning was writing (R95, R69). -/
abbrev OnlyTouches (c : Config) (p q : ParDevice) (start len : Nat) : Prop :=
  ∀ a, (a < start ∨ start + len ≤ a) → (∀ y, p.cycle = some y → a ≠ y.addr % c.parCapacity) → q.mem.read a = p.mem.read a

/-- A byte has been written at an address and nowhere else: once no write cycle runs any more the byte holds the value (R95). -/
abbrev ByteWritten (c : Config) (p q : ParDevice) (a : Nat) (v : Byte) : Prop :=
  OnlyTouches c p q a 1 ∧ (p.mem.wf → q.cycle = none → q.mem.read a = v)

/-! Instructions by unit -/

/-- The requests of the NOR and WP units (R2, R102). -/
def norRequest : Instr → Bool
  | .norInit | .norWriteEnable | .norWriteDisable | .norReadStatus1 | .norReadStatus2 | .norReadStatus3 => true
  | .norWritePage _ _ _ | .norSectorErase _ | .norBlockErase64k _ | .norChipErase | .norRead _ _ => true
  | .wpDisableProtection => true
  | .parInit | .parWriteByte _ _ | .parReadByte _ | .parBulkRead _ _ | .parBulkWrite _ _ _ => false
  | .seeInit | .seeWriteByte _ _ | .seeWritePage _ _ _ | .seeReadByte _ | .seeReadBytes _ _ | .seeBulkErase _ => false
  | .cmdWren | .cmdWrdi | .cmdRdsr1 | .cmdRdsr2 | .cmdRdsr3 | .cmdWrsr1 _ | .cmdPp _ _ | .cmdSe _ => false
  | .cmdBe64 _ | .cmdCe | .cmdRdid | .cmdWake | .cmdRsten | .cmdRst | .cmdRead _ _ => false
  | .i2cAD _ _ | .i2cA _ | .i2cRN _ => false

/-- The requests of the PAR unit. -/
def parRequest : Instr → Bool
  | .parInit | .parWriteByte _ _ | .parReadByte _ | .parBulkRead _ _ | .parBulkWrite _ _ _ => true
  | .norInit | .norWriteEnable | .norWriteDisable | .norReadStatus1 | .norReadStatus2 | .norReadStatus3 => false
  | .norWritePage _ _ _ | .norSectorErase _ | .norBlockErase64k _ | .norChipErase | .norRead _ _ => false
  | .wpDisableProtection => false
  | .seeInit | .seeWriteByte _ _ | .seeWritePage _ _ _ | .seeReadByte _ | .seeReadBytes _ _ | .seeBulkErase _ => false
  | .cmdWren | .cmdWrdi | .cmdRdsr1 | .cmdRdsr2 | .cmdRdsr3 | .cmdWrsr1 _ | .cmdPp _ _ | .cmdSe _ => false
  | .cmdBe64 _ | .cmdCe | .cmdRdid | .cmdWake | .cmdRsten | .cmdRst | .cmdRead _ _ => false
  | .i2cAD _ _ | .i2cA _ | .i2cRN _ => false

/-- The requests of the SEE unit. -/
def seeRequest : Instr → Bool
  | .seeInit | .seeWriteByte _ _ | .seeWritePage _ _ _ | .seeReadByte _ | .seeReadBytes _ _ | .seeBulkErase _ => true
  | .norInit | .norWriteEnable | .norWriteDisable | .norReadStatus1 | .norReadStatus2 | .norReadStatus3 => false
  | .norWritePage _ _ _ | .norSectorErase _ | .norBlockErase64k _ | .norChipErase | .norRead _ _ => false
  | .wpDisableProtection => false
  | .parInit | .parWriteByte _ _ | .parReadByte _ | .parBulkRead _ _ | .parBulkWrite _ _ _ => false
  | .cmdWren | .cmdWrdi | .cmdRdsr1 | .cmdRdsr2 | .cmdRdsr3 | .cmdWrsr1 _ | .cmdPp _ _ | .cmdSe _ => false
  | .cmdBe64 _ | .cmdCe | .cmdRdid | .cmdWake | .cmdRsten | .cmdRst | .cmdRead _ _ => false
  | .i2cAD _ _ | .i2cA _ | .i2cRN _ => false

/-- A request, as opposed to a lone bus frame (R102, R107, R110). -/
def isRequest (i : Instr) : Bool := norRequest i || parRequest i || seeRequest i

/-- The command frame and the reported address of the four mutating NOR requests (R151 to R154, R232), for operands that
pass the checks of R234. -/
def mutation (c : Config) : Instr → Option (List Byte × Addr)
  | .norWritePage addr arg data =>
    if addr.toNat < c.norCapacity ∧ data.length = arg.toNat ∧ arg.toNat ≤ c.norPage then
      some (c.cmd.pp :: (be24 addr ++ data), addr)
    else none
  | .norSectorErase addr =>
    if addr.toNat < c.norCapacity then some (c.cmd.se :: be24 (eraseAddress c c.norSector addr), addr) else none
  | .norBlockErase64k addr =>
    if addr.toNat < c.norCapacity then some (c.cmd.be64 :: be24 (eraseAddress c c.norBlock addr), addr) else none
  | .norChipErase => some ([c.cmd.ce], 0)
  | .norInit | .norWriteEnable | .norWriteDisable | .norReadStatus1 | .norReadStatus2 | .norReadStatus3 => none
  | .norRead _ _ | .wpDisableProtection | .parInit | .parWriteByte _ _ | .parReadByte _ | .parBulkRead _ _ => none
  | .parBulkWrite _ _ _ | .seeInit | .seeWriteByte _ _ | .seeWritePage _ _ _ | .seeReadByte _ => none
  | .seeReadBytes _ _ | .seeBulkErase _ | .cmdWren | .cmdWrdi | .cmdRdsr1 | .cmdRdsr2 | .cmdRdsr3 => none
  | .cmdWrsr1 _ | .cmdPp _ _ | .cmdSe _ | .cmdBe64 _ | .cmdCe | .cmdRdid | .cmdWake | .cmdRsten | .cmdRst => none
  | .cmdRead _ _ | .i2cAD _ _ | .i2cA _ | .i2cRN _ => none

/-- The address and the code of a request that is rejected before any transport event, in the order of R239; `none` for a
request that passes the checks (R101, R105, R212, R234). -/
def malformed (c : Config) : Instr → Option (Addr × BitVec 8)
  | .norWritePage a n d =>
    if c.norCapacity ≤ a.toNat ∨ d.length ≠ n.toNat ∨ c.norPage < n.toNat then some (a, 0x04) else none
  | .norSectorErase a => if c.norCapacity ≤ a.toNat then some (a, 0x04) else none
  | .norBlockErase64k a => if c.norCapacity ≤ a.toNat then some (a, 0x04) else none
  | .norRead a n =>
    if c.norCapacity ≤ a.toNat ∨ c.norCapacity < a.toNat + n.toNat then some (a, 0x04) else none
  | .parWriteByte a _ => if c.parCapacity ≤ a.toNat then some (a, 0x04) else none
  | .parReadByte a => if c.parCapacity ≤ a.toNat then some (a, 0x04) else none
  | .parBulkRead a n =>
    if c.parCapacity ≤ a.toNat ∨ c.parCapacity < a.toNat + n.toNat then some (a, 0x04) else none
  | .parBulkWrite a n d =>
    if c.parCapacity ≤ a.toNat ∨ d.length ≠ n.toNat ∨ c.parCapacity < a.toNat + n.toNat then some (a, 0x04) else none
  | .seeWriteByte a _ => if c.seeCapacity ≤ a.toNat then some (a, 0x04) else none
  | .seeWritePage a n d =>
    if c.seeCapacity ≤ a.toNat ∨ d.length ≠ n.toNat then some (a, 0x04)
    else if 0 < n.toNat ∧ a.toNat / c.seePage ≠ (a.toNat + n.toNat - 1) / c.seePage then some (a, 0x03)
    else none
  | .seeReadByte a => if c.seeCapacity ≤ a.toNat then some (a, 0x04) else none
  | .seeReadBytes a n =>
    if c.seeCapacity ≤ a.toNat ∨ c.seeCapacity < a.toNat + n.toNat then some (a, 0x04) else none
  | .norInit | .norWriteEnable | .norWriteDisable | .norReadStatus1 | .norReadStatus2 | .norReadStatus3 => none
  | .norChipErase | .wpDisableProtection | .parInit | .seeInit | .seeBulkErase _ | .cmdWren | .cmdWrdi => none
  | .cmdRdsr1 | .cmdRdsr2 | .cmdRdsr3 | .cmdWrsr1 _ | .cmdPp _ _ | .cmdSe _ | .cmdBe64 _ | .cmdCe | .cmdRdid => none
  | .cmdWake | .cmdRsten | .cmdRst | .cmdRead _ _ | .i2cAD _ _ | .i2cA _ | .i2cRN _ => none

/-! Invariants -/

/-- An internal operation aims inside a device of the given capacity (R62). -/
def NorEffect.inside (capacity : Nat) : NorEffect → Prop
  | .program a _ => a < capacity
  | .erase start len => start + len ≤ capacity
  | .writeStatus _ => True
  | .nothing => True

/-- The memories keep their canonical form and stay inside the devices (R61, R62); the SR1 settings leave bits 1 and 0 to
`WEL` and `BUSY` (R36); an internal operation aims inside the device. -/
structure MemoryInv (s : State) : Prop where
  norWf : s.world.nor.mem.wf
  norBelow : s.world.nor.mem.below s.cfg.norCapacity
  seeWf : s.world.see.mem.wf
  seeBelow : s.world.see.mem.below s.cfg.seeCapacity
  parWf : s.world.par.mem.wf
  parBelow : s.world.par.mem.below s.cfg.parCapacity
  settings : s.world.nor.status &&& 0x03#8 = 0#8
  jobInside : ∀ j, s.world.nor.job = some j → j.effect.inside s.cfg.norCapacity

/-- The phase `NOR_PHASE` has while the sequencer is at a position (R24, R140, R145). -/
def phaseAt : Seq → NorPhase
  | .idle => .idle
  | .firstPoll _ _ _ => .idle
  | .finalPoll _ _ => .busy
  | .readPoll _ _ => .idle

/-- The control state: `NOR_PHASE` agrees with the position in the procedure (R24, R140); the codes are those of R230; `WARN`
bits 7 to 2 are 0 (R30); between operations `RES_LEN` is the length of `DOUT` (R29); `ATTEMPTS` is within the budget
(R33). -/
structure ControlInv (s : State) : Prop where
  phase : s.norPhase = phaseAt s.seq
  code : s.resCode.toNat ≤ 5
  warnings : s.warn &&& 0xFC#8 = 0#8
  length : s.seq = .idle → s.resLen = BitVec.ofNat 32 s.dout.length
  attempts : s.attempts ≤ s.cfg.parRetryBudget

/-- The lines are read-safe as soon as the block knows their direction, that is from the first `PAR_INIT` (or any PAR
operation that sets it) on (R190, R199). -/
def LineInv (s : State) : Prop := s.parDir = .unknown ∨ s.ReadSafe

end Sys2Proof.Machine
end

