-- ==== Sys2Proof/WellFormed.lean ====
section
/-! DEFINITION. What a well-formed instruction is: the operand uses of R104, R105, R108 and R110. A request that is
not well-formed still has a meaning (it ends with `ArgumentError` or `PageBoundaryError`); a frame that is not
well-formed is no frame of the opcode table. -/

namespace Sys2Proof

/-- Operands as the tables allow them: an address inside the unit's width (R101), a buffer as long as `arg` (R105),
`len ≤ NOR_PAGE` for a NOR page (R104), payload lengths of the frame formats (R108, R110). -/
def Instr.wf (c : Config) : Instr → Bool
  | .norWritePage addr arg data =>
    decide (addr.toNat < c.norCapacity) && decide (data.length = arg.toNat) && decide (arg.toNat ≤ c.norPage)
  | .norSectorErase addr => decide (addr.toNat < c.norCapacity)
  | .norBlockErase64k addr => decide (addr.toNat < c.norCapacity)
  | .norRead addr _ => decide (addr.toNat < c.norCapacity)
  | .parWriteByte addr _ => decide (addr.toNat < c.parCapacity)
  | .parReadByte addr => decide (addr.toNat < c.parCapacity)
  | .parBulkRead addr _ => decide (addr.toNat < c.parCapacity)
  | .parBulkWrite addr arg data => decide (addr.toNat < c.parCapacity) && decide (data.length = arg.toNat)
  | .seeWriteByte addr _ => decide (addr.toNat < c.seeCapacity)
  | .seeWritePage addr arg data => decide (addr.toNat < c.seeCapacity) && decide (data.length = arg.toNat)
  | .seeReadByte addr => decide (addr.toNat < c.seeCapacity)
  | .seeReadBytes addr _ => decide (addr.toNat < c.seeCapacity)
  | .cmdPp addr data => decide (addr.toNat < c.norCapacity) && decide (data.length ≤ c.norPage)
  | .cmdSe addr => decide (addr.toNat < c.norCapacity)
  | .cmdBe64 addr => decide (addr.toNat < c.norCapacity)
  | .cmdRead addr _ => decide (addr.toNat < c.norCapacity)
  | .i2cAD addr data => decide (addr.toNat < c.seeCapacity) && decide (1 ≤ data.length)
  | .i2cA addr => decide (addr.toNat < c.seeCapacity)
  | .i2cRN _ => true
  | .norInit => true
  | .norWriteEnable => true
  | .norWriteDisable => true
  | .norReadStatus1 => true
  | .norReadStatus2 => true
  | .norReadStatus3 => true
  | .norChipErase => true
  | .wpDisableProtection => true
  | .parInit => true
  | .seeInit => true
  | .seeBulkErase _ => true
  | .cmdWren => true
  | .cmdWrdi => true
  | .cmdRdsr1 => true
  | .cmdRdsr2 => true
  | .cmdRdsr3 => true
  | .cmdWrsr1 _ => true
  | .cmdCe => true
  | .cmdRdid => true
  | .cmdWake => true
  | .cmdRsten => true
  | .cmdRst => true

end Sys2Proof
end

