-- ==== Sys2Proof/Certificates/Slice0/Obligations.lean ====
section
/-! DEFINITION. The statements for the provers. A next state is given as an update of the state before: every field the
update does not name is unchanged, and a device's memory is given byte by byte. -/

open Sys2Proof Sys2Proof.Machine

/-! Encoding and decoding -/

/-- R100, R102, R108, R110: what an instruction encodes to decodes to that instruction, with every operand. -/
def Obligations.DecodeOfEncode : Prop :=
  ∀ (c : Config) (i : Instr), c.wf → i.wf c = true → decode c (encode c i) = .ok i

/-- R108, R110: no bit of a bus frame is dropped; a frame that decodes is the encoding of what it decodes to. -/
def Obligations.FramesHaveOneMeaning : Prop :=
  ∀ (c : Config) (w : Wire) (i : Instr), (∀ word din, w ≠ .request word din) → decode c w = .ok i → encode c i = w

/-- Words written out from the spec's encodings and examples decode to their instructions (command bytes at the defaults
of R109; a table word with operand words of zeros, log 3). -/
def Obligations.WordsDecode : Prop :=
  decodeTableWord 64 0x1700123400000000 = some (.norSectorErase 0x001234) ∧
  decodeTableWord 64 0x2000000000000000 = some .wpDisableProtection ∧
  decodeTableWord 64 0x310000100000003C = some (.parWriteByte 0x000010 0x3C) ∧
  decodeTableWord 64 0x4400003E00000008 = some (.seeReadBytes 0x00003E 8) ∧
  decodeTableWord 64 0x0000000000000000 = none ∧
  decode Config.default (.spi [0x02, 0x00, 0x10, 0x00, 0xDE, 0xAD] 0) = .ok (.cmdPp 0x001000 [0xDE, 0xAD]) ∧
  decode Config.default (.i2cWrite 0x50 [0x12, 0x34, 0xA5]) = .ok (.i2cAD 0x1234 [0xA5])

/-- The step runs the decoded instruction: the request is latched (R21), taken from the caller, and executed (one request
is one step, log 1; where it comes from, log 3). -/
def Obligations.StepRunsDecoded : Prop :=
  ∀ (s : State) (w : Wire) (rest : List Input) (i : Instr), s.cfg.wf → s.seq = .idle → s.caller = .wire w :: rest →
    decode s.cfg w = .ok i → step s = exec i (State.present w { s with caller := rest })

/-- R103: an illegal `op` emits no transport event, leaves the context registers, and ends with `IllegalOperation`. That the
request is latched all the same is R21 read so (log 39); where a request comes from, log 3. -/
def Obligations.IllegalOperationRejected : Prop :=
  ∀ (s : State) (word : BitVec 64) (din : List Byte) (rest : List Input), s.cfg.wf → s.seq = .idle → s.norPhase = .idle →
    s.caller = .wire (.request word din) :: rest →
    (opField word).toNat ∉ [0x10, 0x11, 0x12, 0x13, 0x14, 0x15, 0x16, 0x17, 0x18, 0x19, 0x1A, 0x20, 0x30, 0x31, 0x32, 0x33,
      0x34, 0x40, 0x41, 0x42, 0x43, 0x44, 0x45] →
    step s = .next { s with
      caller := rest, reqOp := opField word, reqAddr := addrField word, reqArg := argField word, din := din
      dout := [], failCount := 0, resLen := 0, resCode := 0x05
      world := s.world.log [.done 0x05] }

/-! Registers, errors and reset -/

/-- R34: what the result port reads under each register number, zero-extended; other numbers read 0. -/
def Obligations.ResultPort : Prop :=
  ∀ s : State,
    s.resultPort 0x00 = s.resCode.setWidth 32 ∧ s.resultPort 0x01 = s.resAddr.setWidth 32 ∧
    s.resultPort 0x02 = s.resExpected.setWidth 32 ∧ s.resultPort 0x03 = s.resObserved.setWidth 32 ∧
    s.resultPort 0x04 = s.resAttempts ∧ s.resultPort 0x05 = s.failCount ∧ s.resultPort 0x06 = s.resLen ∧
    s.resultPort 0x07 = s.warn.setWidth 32 ∧
    (s.norIdentValid = true → s.resultPort 0x08 = s.norIdent.setWidth 32) ∧
    s.resultPort 0x09 = (if s.norIdentValid then 1 else 0) ∧
    s.resultPort 0x0A = (match s.norPhase with
      | .idle => 0 | .writeEnableAsserted => 1 | .commandIssued => 2 | .busy => 3) ∧
    s.resultPort 0x0B = (match s.parDir with | .unknown => 0 | .input => 1 | .output => 2) ∧
    ∀ n, 0x0B < n → s.resultPort n = 0

/-- R233, R234, R239: a malformed request emits nothing but `Done`, leaves the devices untouched, records the address and ends
with the code that comes first. That an address not below `NOR_CAPACITY` is malformed for a NOR operation too is log 26. -/
def Obligations.MalformedRejected : Prop :=
  ∀ (s : State) (i : Instr) (a : Addr) (code : BitVec 8), s.seq = .idle → s.norPhase = .idle →
    malformed s.cfg i = some (a, code) →
    exec i s = .next { s with
      dout := [], failCount := 0, resLen := 0, resAddr := a, resCode := code
      world := s.world.log [.done code] }

/-- R230, R239: a request that passes the checks never ends with a protocol-level code, and no other code than 0, 1 and 2
comes from it. -/
def Obligations.WellFormedNotRejected : Prop :=
  ∀ (s t : State) (i : Instr), isRequest i = true → malformed s.cfg i = none → exec i s = .next t → t.seq = .idle →
    t.resCode = 0x00 ∨ t.resCode = 0x01 ∨ t.resCode = 0x02

/-- R212: the page-boundary predicate, the equivalent form the rule gives, its corner cases, and the rejection of a page
write that crosses before any bus transaction. -/
def Obligations.CrossesPage : Prop :=
  (∀ page a len : Nat, 0 < page →
    (crosses page a len = true ↔ 0 < len ∧ a / page ≠ (a + len - 1) / page) ∧
    (0 < len → (crosses page a len = true ↔ page < a % page + len)) ∧
    (a % page + len = page → crosses page a len = false) ∧
    (page < len → crosses page a len = true) ∧
    crosses page a 0 = false) ∧
  ∀ (s : State) (addr : Addr) (arg : BitVec 32) (data : List Byte), s.seq = .idle → s.norPhase = .idle →
    addr.toNat < s.cfg.seeCapacity → data.length = arg.toNat → crosses s.cfg.seePage addr.toNat arg.toNat = true →
    exec (.seeWritePage addr arg data) s = .next { s with
      dout := [], failCount := 0, resLen := 0, resAddr := addr, resCode := 0x03
      world := s.world.log [.done 0x03] }

/-- R183: the byte the status write carries keeps every bit outside the mask and clears the others. -/
def Obligations.ClearedByte : Prop :=
  ∀ (c : Config) (s1 : Byte) (b : Nat), b < 8 →
    (clearedStatus c s1).getLsbD b = (s1.getLsbD b && !c.norProtMask.getLsbD b)

/-- R41: whatever the block was doing, reset puts every register at its reset value and empties the trace, with no event;
of an idle block it leaves the devices as they were (R260). A reset in the middle of an operation does the same to the
registers, whatever event it comes at (how it is presented, log 17). -/
def Obligations.ResetValues : Prop :=
  ∀ (s : State) (rest : List Input), s.cfg.wf →
    (s.caller = .reset :: rest →
      ∃ t, step s = .next t ∧ t.AtReset ∧ t.cfg = s.cfg ∧ t.caller = rest ∧
        (s.seq = .idle → t.world = { s.world with trace := [] })) ∧
    ∀ (t : State) (word : BitVec 64) (din : List Byte) (count : Nat), s.seq = .idle →
      s.caller = .cut word din count :: rest → step s = .next t → t.AtReset ∧ t.cfg = s.cfg ∧ t.caller = rest

/-- R249, R260: reset leads out of every busy poll: the block is idle, the other devices are as they were, and what an
abandoned command did not aim at keeps its value: the bytes outside its page or region, SR2, SR3, the identity and the
conditions of the NOR device, its SR1 settings and latch unless a status write was under way, that is sent and not yet found
ended (U6: what it aimed at is free; an operation the device had begun runs on for as long as it would have, log 17). -/
def Obligations.ResetOutOfHang : Prop :=
  ∀ (s : State) (rest : List Input), s.cfg.wf → s.seq ≠ .idle → s.caller = .reset :: rest →
    ∃ t, step s = .next t ∧ t.seq = .idle ∧ t.norPhase = .idle ∧ t.world.see = s.world.see ∧ t.world.par = s.world.par ∧
      (∀ addr n, s.seq = .readPoll addr n → t.world.nor = s.world.nor) ∧
      ∀ tx op after, s.seq = .firstPoll tx op after ∨ s.seq = .finalPoll tx after →
        (∃ mem status wel job, t.world.nor = { s.world.nor with mem := mem, status := status, wel := wel, job := job } ∧
          job.map (·.left) = s.world.nor.job.map (·.left) ∧
          ((s.seq = .firstPoll tx op after ∨ ∀ v, decodeNor s.cfg tx ≠ .ok (.wrsr1 v)) →
            status = s.world.nor.status ∧ wel = s.world.nor.wel)) ∧
        ∀ a, (∀ cmd e, decodeNor s.cfg tx = .ok cmd → commandEffect s.cfg cmd = some e →
            (∀ p d, e = .program p d → a < alignDown p s.cfg.norPage ∨ alignDown p s.cfg.norPage + s.cfg.norPage ≤ a) ∧
            (∀ start len, e = .erase start len → a < start ∨ start + len ≤ a)) →
          t.world.nor.mem.read a = s.world.nor.mem.read a

/-- Where the model stops. R158, R274, U13: a request presented while an operation runs is refused; R72, R272, U1: so is a
second master's frame (log 29). R9: a configuration that breaks a constraint is refused. U5: a frame of the SEE unit or a lone
one that reaches the serial EEPROM inside its write cycle is refused, as is a bulk erase whose settle delay is shorter than the
write cycle. R62, R108, R110: a lone frame to an address the device does not have is a fault, and one that is no frame of the
tables is refused (log 28). -/
def Obligations.WhereTheModelStops : Prop :=
  (∀ (s : State) (i : Instr), s.seq ≠ .idle →
    exec i s = .refused (if isRequest i then .operationRunning else .busOwned)) ∧
  (∀ s : State, ¬s.cfg.wf → step s = .refused .badConfiguration) ∧
  (∀ (s : State) (i : Instr), s.cfg.wf → s.seq = .idle → s.world.see.cycleLeft ≠ 0 →
    (seeRequest i = true ∧ i ≠ .seeInit ∧ (∀ a, i ≠ .seeReadBytes a 0) ∧ malformed s.cfg i = none ∨
      (∃ a data, i = .i2cAD a data ∧ a.toNat < s.cfg.seeCapacity) ∨
      (∃ a, i = .i2cA a ∧ a.toNat < s.cfg.seeCapacity) ∨ ∃ n, i = .i2cRN n) →
    exec i s = .refused .insideWriteCycle) ∧
  (∀ (s : State) (arg : BitVec 32), s.cfg.wf → s.seq = .idle → s.cfg.tSettle < s.cfg.seeWriteCycle →
    s.cfg.seePage < s.cfg.seeCapacity → exec (.seeBulkErase arg) s = .refused .insideWriteCycle) ∧
  (∀ (s : State) (i : Instr), s.seq = .idle →
    ((∃ a, s.cfg.norCapacity ≤ a.toNat ∧
        (i = .cmdSe a ∨ i = .cmdBe64 a ∨ (∃ data, i = .cmdPp a data) ∨ ∃ n, i = .cmdRead a n)) ∨
      ∃ a, s.cfg.seeCapacity ≤ a.toNat ∧ (i = .i2cA a ∨ ∃ data, i = .i2cAD a data)) →
    exec i s = .fault .addressOutsideDevice) ∧
  ∀ (s : State) (w : Wire) (rest : List Input) (e : DecodeError), s.cfg.wf → s.seq = .idle → s.caller = .wire w :: rest →
    (∀ word din, w ≠ .request word din) → decode s.cfg w = .error e → step s = .refused (.noSuchFrame e)

/-- R158, R249: while an operation runs the step takes no request from the caller; R143, R145, R157: an operation that waits in
a busy poll goes on as soon as the answers end the poll: from the first poll with the latch check, the command frame and the
final poll (or, R144, R232, with `WriteProtectedError` if the latch never sets), from the final poll to its end (R155, R156:
if `NOR_INIT` waits there, with the identity), from the poll of a read with the read frame. It ends with one `Done`. (That the
delay between two identity reads also shortens a serial write cycle is log 13.) -/
def Obligations.RunningOperationGoesOn : Prop :=
  (∀ (s t : State) (x : Input) (rest : List Input), s.cfg.wf → s.seq ≠ .idle → s.caller = x :: rest → x ≠ .reset →
    step s = .next t →
    t.caller = s.caller ∧ t.reqOp = s.reqOp ∧ t.reqAddr = s.reqAddr ∧ t.reqArg = s.reqArg ∧ t.din = s.din) ∧
  ∀ (s : State) (tx : List Byte) (op : Addr) (first latch final data rest : List Byte) (l1 l2 : Byte)
    (id1 id2 id : BitVec 24), s.cfg.wf → (∀ later, s.caller ≠ .reset :: later) → PollAnswers first →
    LatchAnswers latch → PollAnswers final → latchFlag l1 = false → latchFlag l2 = false →
    id = (if id1 = 0 then id2 else id1) →
    (s.seq = .firstPoll tx op .finish → s.norPhase = .idle → s.world.spiIn = first ++ latch ++ final ++ rest →
      ∃ nor k, step s = .next { s with
        seq := .idle, resLen := BitVec.ofNat 32 s.dout.length, resCode := 0x00
        phaseLog := s.phaseLog ++ [.writeEnableAsserted, .commandIssued, .busy, .idle]
        world := { s.world.log (mutateEvents s.cfg first latch tx final ++ [.done 0x00]) with
          nor := nor, free := k, spiIn := rest } }) ∧
    (∀ after, s.seq = .firstPoll tx op after → s.norPhase = .idle → s.world.spiIn = first ++ [l1, l2] ++ rest →
      ∃ nor k, step s = .next { s with
        seq := .idle, resLen := BitVec.ofNat 32 s.dout.length, resCode := 0x02, resAddr := op, resObserved := l2
        phaseLog := s.phaseLog ++ [.writeEnableAsserted, .idle]
        world := { s.world.log (statusEvents s.cfg first ++ latchEvents s.cfg [l1, l2] ++ [.done 0x02]) with
          nor := nor, free := k, spiIn := rest } }) ∧
    (s.seq = .finalPoll tx .finish → s.norPhase = .busy → s.world.spiIn = final ++ rest →
      ∃ nor k, step s = .next { s with
        seq := .idle, resLen := BitVec.ofNat 32 s.dout.length, resCode := 0x00
        norPhase := .idle, phaseLog := s.phaseLog ++ [.idle]
        world := { s.world.log (statusEvents s.cfg final ++ [.done 0x00]) with nor := nor, free := k, spiIn := rest } }) ∧
    (s.seq = .firstPoll tx op .identify → s.norPhase = .idle →
      s.world.spiIn = first ++ latch ++ final ++ be24 id1 ++ (if id1 = 0 then be24 id2 else []) ++ rest →
      ∃ nor k, step s = .next { s with
        seq := .idle, dout := be24 id, resLen := 3, resCode := 0x00, norIdent := id, norIdentValid := true
        phaseLog := s.phaseLog ++ [.writeEnableAsserted, .commandIssued, .busy, .idle]
        warn := s.warn ||| (if id = s.cfg.norExpectedId then 0#8 else 0x01#8)
        world := { s.world.log (mutateEvents s.cfg first latch tx final ++ identityEvents s.cfg id1 id2 ++
            (if id = s.cfg.norExpectedId then [] else [.warn .deviceIdentityMismatch]) ++ [.done 0x00]) with
          nor := nor, free := k, spiIn := rest
          see := { s.world.see with
            cycleLeft := s.world.see.cycleLeft - (if id1 = 0 then s.cfg.tIdRetry else 0) } } }) ∧
    (s.seq = .finalPoll tx .identify → s.norPhase = .busy →
      s.world.spiIn = final ++ be24 id1 ++ (if id1 = 0 then be24 id2 else []) ++ rest →
      ∃ nor k, step s = .next { s with
        seq := .idle, dout := be24 id, resLen := 3, resCode := 0x00, norIdent := id, norIdentValid := true
        norPhase := .idle, phaseLog := s.phaseLog ++ [.idle]
        warn := s.warn ||| (if id = s.cfg.norExpectedId then 0#8 else 0x01#8)
        world := { s.world.log (statusEvents s.cfg final ++ identityEvents s.cfg id1 id2 ++
            (if id = s.cfg.norExpectedId then [] else [.warn .deviceIdentityMismatch]) ++ [.done 0x00]) with
          nor := nor, free := k, spiIn := rest
          see := { s.world.see with
            cycleLeft := s.world.see.cycleLeft - (if id1 = 0 then s.cfg.tIdRetry else 0) } } }) ∧
    (s.seq = .readPoll op data.length → 0 < data.length → s.world.spiIn = first ++ data ++ rest →
      ∃ nor k, step s = .next { s with
        seq := .idle, dout := data, resLen := BitVec.ofNat 32 data.length, resCode := 0x00
        world := { s.world.log (statusEvents s.cfg first ++ askEvents (s.cfg.cmd.read :: be24 op) data ++
            [.done 0x00]) with nor := nor, free := k, spiIn := rest } })

/-- R13, R249: as long as the device stays busy the block polls SR1 and does nothing else: no `Done`, no register, no end,
however many steps are taken (how many polls one step takes is the model's choice, log 12). -/
def Obligations.HangPollsForEver : Prop :=
  ∀ (s : State) (e : NorEffect) (k : Nat), s.cfg.wf → s.seq ≠ .idle → s.caller = [] → s.world.spiIn = [] →
    s.world.nor.asleep = false → s.world.nor.powerUpLeft = 0 → s.world.nor.job = some ⟨e, none⟩ →
    Host.Core.run Sys2Proof.core k s =
      .next { s with world := s.world.log (statusEvents s.cfg (List.replicate k s.world.nor.sr1)) }

/-! The NOR unit -/

/-- R146: one `CMD_WREN` frame and `Done`, whatever the device; R81: at an idle device the latch is set unless the
hardware condition keeps it. That a busy or not yet powered device changes in nothing but the latch and the reset-enable is
the model's choice (U2, log 14). -/
def Obligations.WriteEnableRequest : Prop :=
  ∀ s : State, s.cfg.wf → s.seq = .idle →
    ∃ nor k, exec .norWriteEnable s = .next { s with
        dout := [], failCount := 0, resLen := 0, resCode := 0x00
        world := { s.world.log (sendEvents [s.cfg.cmd.wren] ++ [.done 0x00]) with nor := nor, free := k } } ∧
      nor = { s.world.nor with wel := nor.wel, resetArmed := nor.resetArmed } ∧
      (s.world.nor.Ready → nor.wel = (s.world.nor.wel || !s.world.nor.wpPin))

/-- R147: one `CMD_WRDI` frame and `Done`, whatever the device; R81: at an idle device the latch is clear. That a busy or not
yet powered device changes in nothing but the latch and the reset-enable is the model's choice (U2, log 14). -/
def Obligations.WriteDisableRequest : Prop :=
  ∀ s : State, s.cfg.wf → s.seq = .idle →
    ∃ nor k, exec .norWriteDisable s = .next { s with
        dout := [], failCount := 0, resLen := 0, resCode := 0x00
        world := { s.world.log (sendEvents [s.cfg.cmd.wrdi] ++ [.done 0x00]) with nor := nor, free := k } } ∧
      nor = { s.world.nor with wel := nor.wel, resetArmed := nor.resetArmed } ∧
      (s.world.nor.Ready → nor.wel = false)

/-- R148: SR1 is read once and returned whole: the byte given from outside if there is one, else the device's. R70: the read
changes nothing of a device without an operation in progress but a reset-enable before it (log 22; one not yet powered up, log
14, or asleep, log 20). -/
def Obligations.ReadStatus1Request : Prop :=
  ∀ s : State, s.cfg.wf → s.seq = .idle →
    ∃ b nor k, exec .norReadStatus1 s = .next { s with
        dout := [b], failCount := 0, resLen := 1, resCode := 0x00
        world := { s.world.log (askEvents [s.cfg.cmd.rdsr1] [b] ++ [.done 0x00]) with
          nor := nor, free := k, spiIn := s.world.spiIn.drop 1 } } ∧
      (∀ a rest, s.world.spiIn = a :: rest → b = a) ∧
      (s.world.spiIn = [] → s.world.nor.asleep = false → s.world.nor.powerUpLeft = 0 → b = nor.sr1) ∧
      (s.world.nor.job = none → nor = { s.world.nor with resetArmed := nor.resetArmed })

/-- R149, R150: SR2 and SR3 are read once and returned whole. R70: the read changes nothing of the device but a reset-enable
before it (log 22). That this holds of a busy device too, whose operation only an SR1 read moves on, is the model's choice
(log 23), as it is of one not yet powered up (log 14) or asleep (log 20). -/
def Obligations.ReadStatus23Requests : Prop :=
  ∀ (s : State) (i : Instr) (command own : Byte), s.cfg.wf → s.seq = .idle →
    (i = .norReadStatus2 ∧ command = s.cfg.cmd.rdsr2 ∧ own = s.world.nor.sr2 ∨
      i = .norReadStatus3 ∧ command = s.cfg.cmd.rdsr3 ∧ own = s.world.nor.sr3) →
    ∃ b nor k, exec i s = .next { s with
        dout := [b], failCount := 0, resLen := 1, resCode := 0x00
        world := { s.world.log (askEvents [command] [b] ++ [.done 0x00]) with
          nor := nor, free := k, spiIn := s.world.spiIn.drop 1 } } ∧
      (∀ a rest, s.world.spiIn = a :: rest → b = a) ∧
      (s.world.spiIn = [] → s.world.nor.asleep = false → s.world.nor.powerUpLeft = 0 → b = own) ∧
      nor = { s.world.nor with resetArmed := nor.resetArmed }

/-- R140, R143, R144, R145, for any device: with answers to a first poll that ends after `N` busy ones, to latch checks
that end well, and to a final poll that ends, a mutating request sends exactly the frames of the skeleton, `N + 1` reads
in a poll of `N` busy answers, passes through the four phases in order and completes. -/
def Obligations.MutatingSkeleton : Prop :=
  ∀ (s : State) (i : Instr) (tx : List Byte) (a : Addr) (first latch final rest : List Byte), s.cfg.wf → s.seq = .idle →
    s.norPhase = .idle → mutation s.cfg i = some (tx, a) →
    PollAnswers first → LatchAnswers latch → PollAnswers final → s.world.spiIn = first ++ latch ++ final ++ rest →
    ∃ nor k, exec i s = .next { s with
      dout := [], failCount := 0, resLen := 0, resCode := 0x00
      phaseLog := s.phaseLog ++ [.writeEnableAsserted, .commandIssued, .busy, .idle]
      world := { s.world.log (mutateEvents s.cfg first latch tx final ++ [.done 0x00]) with
        nor := nor, free := k, spiIn := rest } }

/-- R144, R232, for any device: when bit 1 of SR1 reads 0 after both write-enable frames, a mutating request ends with
`WriteProtectedError`, records its address and the second byte, leaves `RES_EXPECTED`, and sends no command frame. -/
def Obligations.LatchNeverSets : Prop :=
  ∀ (s : State) (i : Instr) (tx : List Byte) (a : Addr) (first rest : List Byte) (l1 l2 : Byte), s.cfg.wf → s.seq = .idle →
    s.norPhase = .idle → mutation s.cfg i = some (tx, a) →
    PollAnswers first → latchFlag l1 = false → latchFlag l2 = false → s.world.spiIn = first ++ [l1, l2] ++ rest →
    ∃ nor k, exec i s = .next { s with
      dout := [], failCount := 0, resLen := 0, resCode := 0x02, resAddr := a, resObserved := l2
      phaseLog := s.phaseLog ++ [.writeEnableAsserted, .idle]
      world := { s.world.log (statusEvents s.cfg first ++ latchEvents s.cfg [l1, l2] ++ [.done 0x02]) with
        nor := nor, free := k, spiIn := rest } }

/-- R81, R232 on the reference device: with the hardware write-protect condition present and the latch clear, a mutating
request ends with `WriteProtectedError` and the device's memory and settings are as they were. -/
def Obligations.WriteProtectPin : Prop :=
  ∀ (s : State) (i : Instr) (tx : List Byte) (a : Addr), s.cfg.wf → s.seq = .idle → s.norPhase = .idle →
    mutation s.cfg i = some (tx, a) → s.world.spiIn = [] → s.world.nor.Ready → s.world.nor.wpPin = true →
    s.world.nor.wel = false →
    exec i s = .next { s with
      dout := [], failCount := 0, resLen := 0, resCode := 0x02, resAddr := a, resObserved := s.world.nor.settings
      phaseLog := s.phaseLog ++ [.writeEnableAsserted, .idle]
      world := { s.world.log (statusEvents s.cfg [s.world.nor.settings] ++
          latchEvents s.cfg [s.world.nor.settings, s.world.nor.settings] ++ [.done 0x02]) with
        nor := { s.world.nor with resetArmed := false } } }

/-- R84, R85, R87, R145, R151 on the reference device: `NOR_WRITE_PAGE` with a payload. Each target (wrapped inside the
page) that held the erase value holds its payload byte; a target that did not takes the bitwise and if the configuration
adopts that law, else any value (U4); a protected target and every other byte keep their value; the latch is clear at the
end. How many polls find the operation busy is the model's choice (log 23), as is what protects a target (log 15). -/
def Obligations.PageProgram : Prop :=
  ∀ (s : State) (addr : Addr) (arg : BitVec 32) (data : List Byte) (n : Nat), s.cfg.wf → s.seq = .idle →
    s.norPhase = .idle → s.world.nor.mem.wf → s.world.spiIn = [] → s.world.nor.Ready → s.world.nor.wpPin = false →
    s.world.nor.busyPolls = some n → addr.toNat < s.cfg.norCapacity → data.length = arg.toNat →
    arg.toNat ≤ s.cfg.norPage → data ≠ [] →
    ∃ m k, exec (.norWritePage addr arg data) s = .next { s with
        dout := [], failCount := 0, resLen := 0, resCode := 0x00
        phaseLog := s.phaseLog ++ [.writeEnableAsserted, .commandIssued, .busy, .idle]
        world := { s.world.log (mutateEvents s.cfg [s.world.nor.sr1] [s.world.nor.settings ||| 0x02]
            (s.cfg.cmd.pp :: (be24 addr ++ data))
            (List.replicate n (s.world.nor.settings ||| 0x03) ++ [s.world.nor.settings]) ++ [.done 0x00]) with
          nor := { s.world.nor with mem := m, wel := false, resetArmed := false }, free := k } } ∧
      (∀ j (h : j < data.length),
        m.read (wrapInPage s.cfg.norPage addr.toNat j) =
          (if inRanges (s.world.nor.protectedRanges s.cfg) (wrapInPage s.cfg.norPage addr.toNat j) then
            s.world.nor.mem.read (wrapInPage s.cfg.norPage addr.toNat j)
          else if s.world.nor.mem.read (wrapInPage s.cfg.norPage addr.toNat j) = s.cfg.norEraseValue then data[j]
          else if s.cfg.norAndLaw then s.world.nor.mem.read (wrapInPage s.cfg.norPage addr.toNat j) &&& data[j]
          else m.read (wrapInPage s.cfg.norPage addr.toNat j))) ∧
      (∀ a, (∀ j, j < data.length → a ≠ wrapInPage s.cfg.norPage addr.toNat j) → m.read a = s.world.nor.mem.read a)

/-- R151, U8 on the reference device: `NOR_WRITE_PAGE` with length 0 sends an address-only program frame, completes, and
leaves memory as it was; whether the device runs a busy cycle and clears the latch is free (log 19). -/
def Obligations.EmptyPageProgram : Prop :=
  ∀ (s : State) (addr : Addr) (n : Nat), s.cfg.wf → s.seq = .idle → s.norPhase = .idle → s.world.spiIn = [] →
    s.world.nor.Ready → s.world.nor.wpPin = false → s.world.nor.busyPolls = some n →
    addr.toNat < s.cfg.norCapacity →
    ∃ final wel k, PollAnswers final ∧ exec (.norWritePage addr 0 []) s = .next { s with
        dout := [], failCount := 0, resLen := 0, resCode := 0x00
        phaseLog := s.phaseLog ++ [.writeEnableAsserted, .commandIssued, .busy, .idle]
        world := { s.world.log (mutateEvents s.cfg [s.world.nor.sr1] [s.world.nor.settings ||| 0x02]
            (s.cfg.cmd.pp :: be24 addr) final ++ [.done 0x00]) with
          nor := { s.world.nor with wel := wel, resetArmed := false }, free := k } }

/-- R86, R87, R145, R152, R153, R154 on the reference device: an erase sets every byte of its region that is not protected
to the erase value, leaves every other byte, clears the latch, and completes after `n + 1` final polls (the number is the
model's choice, log 23; protection, log 15). -/
def Obligations.Erases : Prop :=
  ∀ (s : State) (i : Instr) (tx : List Byte) (a : Addr) (start len n : Nat), s.cfg.wf → s.seq = .idle →
    s.norPhase = .idle → s.world.nor.mem.wf → s.world.spiIn = [] → s.world.nor.Ready → s.world.nor.wpPin = false →
    s.world.nor.busyPolls = some n → mutation s.cfg i = some (tx, a) →
    (i = .norSectorErase a ∧ start = a.toNat - a.toNat % s.cfg.norSector ∧ len = s.cfg.norSector ∨
      i = .norBlockErase64k a ∧ start = a.toNat - a.toNat % s.cfg.norBlock ∧ len = s.cfg.norBlock ∨
      i = .norChipErase ∧ start = 0 ∧ len = s.cfg.norCapacity) →
    ∃ m, exec i s = .next { s with
        dout := [], failCount := 0, resLen := 0, resCode := 0x00
        phaseLog := s.phaseLog ++ [.writeEnableAsserted, .commandIssued, .busy, .idle]
        world := { s.world.log (mutateEvents s.cfg [s.world.nor.sr1] [s.world.nor.settings ||| 0x02] tx
            (List.replicate n (s.world.nor.settings ||| 0x03) ++ [s.world.nor.settings]) ++ [.done 0x00]) with
          nor := { s.world.nor with mem := m, wel := false, resetArmed := false } } } ∧
      ∀ x, m.read x =
        if start ≤ x ∧ x < start + len ∧ inRanges (s.world.nor.protectedRanges s.cfg) x = false then s.cfg.norEraseValue
        else s.world.nor.mem.read x

/-- R157 on the reference device: `NOR_READ` of at least one byte polls once and returns the bytes from the address
upward. -/
def Obligations.NorReadRequest : Prop :=
  ∀ (s : State) (addr : Addr) (arg : BitVec 32), s.cfg.wf → s.seq = .idle → s.world.spiIn = [] → s.world.nor.Ready →
    0 < arg.toNat → addr.toNat + arg.toNat ≤ s.cfg.norCapacity →
    exec (.norRead addr arg) s = .next { s with
      dout := (List.range arg.toNat).map (fun j => s.world.nor.mem.read (addr.toNat + j))
      failCount := 0, resLen := arg, resCode := 0x00
      world := { s.world.log (statusEvents s.cfg [s.world.nor.sr1] ++
          askEvents (s.cfg.cmd.read :: be24 addr)
            ((List.range arg.toNat).map (fun j => s.world.nor.mem.read (addr.toNat + j))) ++ [.done 0x00]) with
        nor := { s.world.nor with resetArmed := false } } }

/-- R143, R157 for any device: the poll takes `N + 1` reads for `N` busy answers, then the bytes given are returned. A
read of length 0 emits no transport event. -/
def Obligations.NorReadAnyAnswers : Prop :=
  ∀ (s : State) (addr : Addr) (arg : BitVec 32) (first data rest : List Byte), s.cfg.wf → s.seq = .idle →
    addr.toNat < s.cfg.norCapacity → addr.toNat + arg.toNat ≤ s.cfg.norCapacity →
    (arg.toNat = 0 → exec (.norRead addr arg) s = .next { s with
      dout := [], failCount := 0, resLen := 0, resCode := 0x00, world := s.world.log [.done 0x00] }) ∧
    (0 < arg.toNat → PollAnswers first → data.length = arg.toNat → s.world.spiIn = first ++ data ++ rest →
      ∃ nor k, exec (.norRead addr arg) s = .next { s with
        dout := data, failCount := 0, resLen := arg, resCode := 0x00
        world := { s.world.log (statusEvents s.cfg first ++ askEvents (s.cfg.cmd.read :: be24 addr) data ++
            [.done 0x00]) with nor := nor, free := k, spiIn := rest } })

/-- R89, R156 on the reference device, powered and idle, awake or asleep, unprotected, with an identity that is not zero:
`NOR_INIT` wakes and resets the device, inspects the protection, reads the identity once and compares it (the wake command
takes no time in the model, log 33). That SR1 bits 6 and 5, SR2 and SR3, which it reads after its own reset, have survived that
reset is the model's choice (log 22). R89 on a device that has not yet powered up: its identity reads all zero, and the second
read, after `Delay(T_ID_RETRY)`, gives the identity if that time was enough and zeros if not (its status answers are given
from outside, log 20; that the delay counts for both devices, logs 13 and 33; the latch, log 14). -/
def Obligations.NorInitReference : Prop :=
  ∀ s : State, s.cfg.wf → s.seq = .idle → s.world.nor.job = none →
    (s.world.spiIn = [] → s.world.nor.powerUpLeft = 0 → s.world.nor.settings &&& s.cfg.norProtMask = 0 →
      s.world.nor.ident ≠ 0 →
      exec .norInit s = .next { s with
        dout := be24 s.world.nor.ident, failCount := 0, resLen := 3, resCode := 0x00
        norIdent := s.world.nor.ident, norIdentValid := true
        warn := (s.warn &&& ~~~0x01#8) ||| (if s.world.nor.ident = s.cfg.norExpectedId then 0#8 else 0x01#8)
        world := { s.world.log (wakeEvents s.cfg ++
            inspectEvents s.cfg s.world.nor.settings s.world.nor.sr2 s.world.nor.sr3 ++
            askEvents [s.cfg.cmd.rdid] (be24 s.world.nor.ident) ++
            (if s.world.nor.ident = s.cfg.norExpectedId then [] else [.warn .deviceIdentityMismatch]) ++
            [.done 0x00]) with
          nor := { s.world.nor with asleep := false, wel := false, resetArmed := false } } }) ∧
    ∀ s1 s2 s3 : Byte, s.world.spiIn = [s1, s2, s3] → s.world.nor.powerUpLeft ≠ 0 → s.world.nor.asleep = false →
      s1 &&& s.cfg.norProtMask = 0 →
      ∃ id wel armed k, id = (if s.world.nor.powerUpLeft ≤ s.cfg.tIdRetry then s.world.nor.ident else 0) ∧
        exec .norInit s = .next { s with
          dout := be24 id, failCount := 0, resLen := 3, resCode := 0x00, norIdent := id, norIdentValid := true
          warn := (s.warn &&& ~~~0x01#8) ||| (if id = s.cfg.norExpectedId then 0#8 else 0x01#8)
          world := { s.world.log (wakeEvents s.cfg ++ inspectEvents s.cfg s1 s2 s3 ++
              askEvents [s.cfg.cmd.rdid] (be24 0) ++ [.delay .idRetry] ++ askEvents [s.cfg.cmd.rdid] (be24 id) ++
              (if id = s.cfg.norExpectedId then [] else [.warn .deviceIdentityMismatch]) ++ [.done 0x00]) with
            nor := { s.world.nor with
              powerUpLeft := s.world.nor.powerUpLeft - s.cfg.tIdRetry, wel := wel, resetArmed := armed }
            free := k, spiIn := []
            see := { s.world.see with cycleLeft := s.world.see.cycleLeft - s.cfg.tIdRetry } } }

/-- R155, R156, R236 for any device: after the protection step an identity that is not all zero is read once; an all-zero one
is read once more after `Delay(T_ID_RETRY)`, and the second read stands; the warning is raised exactly when the stored identity
is not the expected one. The protection step writes nothing if no bit of the mask is set in SR1, and else one status write of
the cleared byte through the whole skeleton (R181); if its latch never sets, `NOR_INIT` ends with `WriteProtectedError`, the
identity is not read and its register keeps its value (R232). That the delay also shortens a serial write cycle is log 13. -/
def Obligations.NorInitAnyAnswers : Prop :=
  ∀ (s : State) (s1 s2 s3 : Byte) (first latch final rest : List Byte) (l1 l2 : Byte) (id1 id2 id : BitVec 24),
    s.cfg.wf → s.seq = .idle → id = (if id1 = 0 then id2 else id1) →
    (s1 &&& s.cfg.norProtMask = 0 →
      s.world.spiIn = [s1, s2, s3] ++ be24 id1 ++ (if id1 = 0 then be24 id2 else []) ++ rest →
      ∃ nor k, exec .norInit s = .next { s with
        dout := be24 id, failCount := 0, resLen := 3, resCode := 0x00, norIdent := id, norIdentValid := true
        warn := (s.warn &&& ~~~0x01#8) ||| (if id = s.cfg.norExpectedId then 0#8 else 0x01#8)
        world := { s.world.log (wakeEvents s.cfg ++ inspectEvents s.cfg s1 s2 s3 ++ identityEvents s.cfg id1 id2 ++
            (if id = s.cfg.norExpectedId then [] else [.warn .deviceIdentityMismatch]) ++ [.done 0x00]) with
          nor := nor, free := k, spiIn := rest
          see := { s.world.see with
            cycleLeft := s.world.see.cycleLeft - (if id1 = 0 then s.cfg.tIdRetry else 0) } } }) ∧
    (s1 &&& s.cfg.norProtMask ≠ 0 → s.norPhase = .idle → PollAnswers first → LatchAnswers latch → PollAnswers final →
      s.world.spiIn =
        [s1, s2, s3] ++ first ++ latch ++ final ++ be24 id1 ++ (if id1 = 0 then be24 id2 else []) ++ rest →
      ∃ nor k, exec .norInit s = .next { s with
        dout := be24 id, failCount := 0, resLen := 3, resCode := 0x00, norIdent := id, norIdentValid := true
        warn := (s.warn &&& ~~~0x01#8) ||| (if id = s.cfg.norExpectedId then 0#8 else 0x01#8)
        phaseLog := s.phaseLog ++ [.writeEnableAsserted, .commandIssued, .busy, .idle]
        world := { s.world.log (wakeEvents s.cfg ++ inspectEvents s.cfg s1 s2 s3 ++
            mutateEvents s.cfg first latch [s.cfg.cmd.wrsr1, s1 &&& ~~~s.cfg.norProtMask] final ++
            identityEvents s.cfg id1 id2 ++
            (if id = s.cfg.norExpectedId then [] else [.warn .deviceIdentityMismatch]) ++ [.done 0x00]) with
          nor := nor, free := k, spiIn := rest
          see := { s.world.see with
            cycleLeft := s.world.see.cycleLeft - (if id1 = 0 then s.cfg.tIdRetry else 0) } } }) ∧
    (s1 &&& s.cfg.norProtMask ≠ 0 → s.norPhase = .idle → PollAnswers first → latchFlag l1 = false → latchFlag l2 = false →
      s.world.spiIn = [s1, s2, s3] ++ first ++ [l1, l2] ++ rest →
      ∃ nor k, exec .norInit s = .next { s with
        dout := [s1, s2, s3], failCount := 0, resLen := 3, resCode := 0x02, resAddr := 0, resObserved := l2
        warn := s.warn &&& ~~~0x01#8
        phaseLog := s.phaseLog ++ [.writeEnableAsserted, .idle]
        world := { s.world.log (wakeEvents s.cfg ++ inspectEvents s.cfg s1 s2 s3 ++ statusEvents s.cfg first ++
            latchEvents s.cfg [l1, l2] ++ [.done 0x02]) with nor := nor, free := k, spiIn := rest } })

/-- R181, R183 for any device: the three status bytes are read and returned; an unprotected device is not written; a protected
one takes one status write of the cleared byte through the whole skeleton; R232: `WriteProtectedError` if the latch never
sets. -/
def Obligations.DisableProtection : Prop :=
  ∀ (s : State) (s1 s2 s3 : Byte) (first latch final rest : List Byte) (l1 l2 : Byte), s.cfg.wf → s.seq = .idle →
    s.norPhase = .idle →
    (s1 &&& s.cfg.norProtMask = 0 → s.world.spiIn = [s1, s2, s3] ++ rest →
      ∃ nor k, exec .wpDisableProtection s = .next { s with
        dout := [s1, s2, s3], failCount := 0, resLen := 3, resCode := 0x00
        world := { s.world.log (inspectEvents s.cfg s1 s2 s3 ++ [.done 0x00]) with
          nor := nor, free := k, spiIn := rest } }) ∧
    (s1 &&& s.cfg.norProtMask ≠ 0 → PollAnswers first → LatchAnswers latch → PollAnswers final →
      s.world.spiIn = [s1, s2, s3] ++ first ++ latch ++ final ++ rest →
      ∃ nor k, exec .wpDisableProtection s = .next { s with
        dout := [s1, s2, s3], failCount := 0, resLen := 3, resCode := 0x00
        phaseLog := s.phaseLog ++ [.writeEnableAsserted, .commandIssued, .busy, .idle]
        world := { s.world.log (inspectEvents s.cfg s1 s2 s3 ++
            mutateEvents s.cfg first latch [s.cfg.cmd.wrsr1, s1 &&& ~~~s.cfg.norProtMask] final ++ [.done 0x00]) with
          nor := nor, free := k, spiIn := rest } }) ∧
    (s1 &&& s.cfg.norProtMask ≠ 0 → PollAnswers first → latchFlag l1 = false → latchFlag l2 = false →
      s.world.spiIn = [s1, s2, s3] ++ first ++ [l1, l2] ++ rest →
      ∃ nor k, exec .wpDisableProtection s = .next { s with
        dout := [s1, s2, s3], failCount := 0, resLen := 3, resCode := 0x02, resAddr := 0, resObserved := l2
        phaseLog := s.phaseLog ++ [.writeEnableAsserted, .idle]
        world := { s.world.log (inspectEvents s.cfg s1 s2 s3 ++ statusEvents s.cfg first ++
            latchEvents s.cfg [l1, l2] ++ [.done 0x02]) with nor := nor, free := k, spiIn := rest } })

/-- R182 in terms of the block: one call sends at most one status write, and none when the first SR1 byte has no bit of
the mask set, whatever the device answers and whether or not the call ends: a call that waits in its first poll has sent none
and may still send one, any other has none left to send, and going on with it changes that by what it sends. -/
def Obligations.AtMostOneStatusWrite : Prop :=
  (∀ s t : State, s.cfg.wf → s.seq = .idle → exec .wpDisableProtection s = .next t →
    ∃ events, t.world.trace = s.world.trace ++ events ∧
      (events.filter (sends s.cfg.cmd.wrsr1)).length + commandsLeft t.seq ≤ 1 ∧
      (∀ b rest, s.world.spiIn = b :: rest → b &&& s.cfg.norProtMask = 0 →
        events.filter (sends s.cfg.cmd.wrsr1) = [] ∧ t.seq = .idle)) ∧
  ∀ s t : State, s.cfg.wf → s.seq ≠ .idle → (∀ later, s.caller ≠ .reset :: later) → step s = .next t →
    ∃ events, t.world.trace = s.world.trace ++ events ∧
      (events.filter (sends s.cfg.cmd.wrsr1)).length + commandsLeft t.seq ≤ commandsLeft s.seq

/-- R182 on a device that honours the status write: calling twice in a row clears the protection and issues at most one
status write; the second call sends none (protection and honoured writes are device parameters, log 15; the polls, log
23). -/
def Obligations.ProtectionClearedOnce : Prop :=
  ∀ (s : State) (n : Nat), s.cfg.wf → s.seq = .idle → s.norPhase = .idle → s.world.spiIn = [] → s.world.nor.Ready →
    s.world.nor.wpPin = false → s.world.nor.busyPolls = some n → s.cfg.norStatusWritable = true →
    ∃ t u e1 e2, exec .wpDisableProtection s = .next t ∧ exec .wpDisableProtection t = .next u ∧
      t.resCode = 0x00 ∧ u.resCode = 0x00 ∧ t.world.nor.settings = s.world.nor.settings &&& ~~~s.cfg.norProtMask ∧
      u.world.nor.settings = t.world.nor.settings ∧ u.world.nor.mem = s.world.nor.mem ∧
      t.world.trace = s.world.trace ++ e1 ∧ u.world.trace = t.world.trace ++ e2 ∧
      (e1.filter (sends s.cfg.cmd.wrsr1)).length ≤ 1 ∧ e2.filter (sends s.cfg.cmd.wrsr1) = []

/-! The PAR unit -/

/-- R193: `PAR_INIT` from any line state: the events of the rule, and the read-safe configuration with the address lines
0. -/
def Obligations.ParInitRequest : Prop :=
  ∀ s : State, s.cfg.wf → s.seq = .idle →
    ∃ par k samples t, exec .parInit s = .next t ∧
      t = { s with
        dout := [], failCount := 0, resLen := 0, resCode := 0x00, parDir := .input
        world := { s.world.log (initEvents s.cfg ++ [.done 0x00]) with par := par, free := k, samples := samples } } ∧
      t.ReadSafe ∧ lineAddress s.cfg par.level = 0

/-- R194, R195, R27: from the read-safe configuration, a byte write whose first matching sample comes within the budget
succeeds at that sample: the line events of the rule, one read cycle per sample, a retry delay between two samples. R95:
however long the write cycle lasts, no byte but the one addressed changes (and the one that an earlier cycle, still running,
was writing, log 24), and that one holds the value once the cycle has ended. Delays are time for the other devices (logs 13
and 33). -/
def Obligations.ParWriteByteSucceeds : Prop :=
  ∀ (s : State) (addr : Addr) (arg : BitVec 32) (bad rest : List Byte), s.cfg.wf → s.seq = .idle → s.ReadSafe →
    addr.toNat < s.cfg.parCapacity → bad.length < s.cfg.parRetryBudget → arg.setWidth 8 ∉ bad →
    s.world.samples = bad ++ [arg.setWidth 8] ++ rest →
    ∃ par k t, exec (.parWriteByte addr arg) s = .next t ∧
      t = { s with
        dout := [], failCount := 0, resLen := 0, resCode := 0x00
        attempts := bad.length + 1, resAttempts := BitVec.ofNat 32 (bad.length + 1)
        world := { s.world.log (driveByteEvents s.cfg addr.toNat (arg.setWidth 8) ++
            verifyEvents (bad ++ [arg.setWidth 8]) ++ [.done 0x00]) with
          par := par, free := k, samples := rest
          nor := { s.world.nor with
            powerUpLeft := s.world.nor.powerUpLeft - (s.cfg.tWritePulse + bad.length * s.cfg.tRetry) }
          see := { s.world.see with
            cycleLeft := s.world.see.cycleLeft - (s.cfg.tWritePulse + bad.length * s.cfg.tRetry) } } } ∧
      t.ReadSafe ∧ lineAddress s.cfg par.level = addr.toNat ∧
      ByteWritten s.cfg s.world.par par addr.toNat (arg.setWidth 8)

/-- R194, R195, R231: when every sample within the budget differs, the write ends with `VerifyFailure` after exactly the
budget's samples; the address, the value driven and the last sample are recorded, and the lines are read-safe. R95: what the
memory holds then, as in the statement before (log 24). Delays are time for the other devices (logs 13 and 33). -/
def Obligations.ParWriteByteFails : Prop :=
  ∀ (s : State) (addr : Addr) (arg : BitVec 32) (bad rest : List Byte) (last : Byte), s.cfg.wf → s.seq = .idle →
    s.norPhase = .idle → s.ReadSafe → addr.toNat < s.cfg.parCapacity → bad.length + 1 = s.cfg.parRetryBudget →
    arg.setWidth 8 ∉ bad ++ [last] → s.world.samples = bad ++ [last] ++ rest →
    ∃ par k t, exec (.parWriteByte addr arg) s = .next t ∧
      t = { s with
        dout := [], failCount := 1, resLen := 0, resCode := 0x01
        resAddr := addr, resExpected := arg.setWidth 8, resObserved := last
        attempts := s.cfg.parRetryBudget, resAttempts := BitVec.ofNat 32 s.cfg.parRetryBudget
        world := { s.world.log (driveByteEvents s.cfg addr.toNat (arg.setWidth 8) ++ verifyEvents (bad ++ [last]) ++
            [.done 0x01]) with
          par := par, free := k, samples := rest
          nor := { s.world.nor with
            powerUpLeft := s.world.nor.powerUpLeft - (s.cfg.tWritePulse + bad.length * s.cfg.tRetry) }
          see := { s.world.see with
            cycleLeft := s.world.see.cycleLeft - (s.cfg.tWritePulse + bad.length * s.cfg.tRetry) } } } ∧
      t.ReadSafe ∧ ByteWritten s.cfg s.world.par par addr.toNat (arg.setWidth 8)

/-- R95, R96 on the reference device whose write cycle ends before the first sample: the write succeeds at the first
sample and changes that byte alone, whatever it held; reading the byte back gives the value (a cycle is measured in
samples, log 24). -/
def Obligations.ParRoundTrip : Prop :=
  ∀ (s : State) (addr : Addr) (arg : BitVec 32), s.cfg.wf → s.seq = .idle → s.ReadSafe →
    addr.toNat < s.cfg.parCapacity → s.world.samples = [] → s.world.par.cycle = none →
    s.world.par.cycleSamples = some 0 → s.world.par.mem.wf →
    ∃ t u, exec (.parWriteByte addr arg) s = .next t ∧ t.resCode = 0x00 ∧ t.resAttempts = 1 ∧ t.world.par.cycle = none ∧
      (∀ a, t.world.par.mem.read a = if a = addr.toNat then arg.setWidth 8 else s.world.par.mem.read a) ∧
      exec (.parReadByte addr) t = .next u ∧ u.resCode = 0x00 ∧ u.dout = [arg.setWidth 8] ∧
      ∀ a, u.world.par.mem.read a = t.world.par.mem.read a

/-- R196: a byte read sets the address lines and samples once; no direction event. The byte is the one given from outside,
else the reference device's. An address the device does not have is an `ArgumentError` with no line event. -/
def Obligations.ParReadByteRequest : Prop :=
  ∀ (s : State) (addr : Addr), s.cfg.wf → s.seq = .idle → s.ReadSafe →
    (addr.toNat < s.cfg.parCapacity → ∃ v par t, exec (.parReadByte addr) s = .next t ∧
      t = { s with
        dout := [v], failCount := 0, resLen := 1, resCode := 0x00
        world := { s.world.log (addressEvents s.cfg addr.toNat ++ sampleEvents v ++ [.done 0x00]) with
          par := par, free := s.world.free + 1, samples := s.world.samples.drop 1 } } ∧
      (∀ a rest, s.world.samples = a :: rest → v = a) ∧
      (s.world.samples = [] → s.world.par.cycle = none → v = s.world.par.mem.read addr.toNat) ∧
      (s.world.par.cycle = none → par.mem = s.world.par.mem) ∧
      t.ReadSafe ∧ lineAddress s.cfg par.level = addr.toNat) ∧
    (s.norPhase = .idle → s.cfg.parCapacity ≤ addr.toNat → exec (.parReadByte addr) s = .next { s with
      dout := [], failCount := 0, resLen := 0, resAddr := addr, resCode := 0x04
      world := s.world.log [.done 0x04] })

/-- R197: a bulk read samples `len` consecutive bytes in ascending order, with a progress event before unit `i` when one
is due, and returns them; length 0 emits nothing. -/
def Obligations.ParBulkReadRequest : Prop :=
  ∀ (s : State) (addr : Addr) (arg : BitVec 32), s.cfg.wf → s.seq = .idle → s.ReadSafe →
    addr.toNat < s.cfg.parCapacity → addr.toNat + arg.toNat ≤ s.cfg.parCapacity →
    ∃ values par t, values.length = arg.toNat ∧ exec (.parBulkRead addr arg) s = .next t ∧
      t = { s with
        dout := values, failCount := 0, resLen := arg, resCode := 0x00
        world := { s.world.log (bulkReadEvents s.cfg addr.toNat 0 values ++ [.done 0x00]) with
          par := par, free := s.world.free + arg.toNat, samples := s.world.samples.drop arg.toNat } } ∧
      (∀ vs rest, vs.length = arg.toNat → s.world.samples = vs ++ rest → values = vs) ∧
      (s.world.samples = [] → s.world.par.cycle = none →
        values = (List.range arg.toNat).map (fun j => s.world.par.mem.read (addr.toNat + j))) ∧
      (s.world.par.cycle = none → par.mem = s.world.par.mem) ∧ t.ReadSafe

/-- R198 when no byte fails, and under `COLLECT` whether or not bytes fail: every byte is written with its own verify
loop; each failed one is counted and reported; the first failed one stands in the result registers, with code 0x01 if
there is one; `RES_ATTEMPTS` is the number of samples of the last byte (R27). No byte outside the range changes (but the one
that an earlier write cycle, still running, was writing, log 24). `runs` lists the bytes with the samples they take. -/
def Obligations.ParBulkWriteRuns : Prop :=
  ∀ (s : State) (addr : Addr) (arg : BitVec 32) (runs : List (Byte × List Byte)) (rest : List Byte), s.cfg.wf →
    s.seq = .idle → s.norPhase = .idle → s.ReadSafe → addr.toNat < s.cfg.parCapacity → runs.length = arg.toNat →
    addr.toNat + arg.toNat ≤ s.cfg.parCapacity → (∀ r ∈ runs, ByteRun s.cfg.parRetryBudget r) →
    (s.cfg.failPolicy = .collect ∨ ∀ r ∈ runs, runFailed r = false) →
    s.world.samples = runs.flatMap (·.2) ++ rest →
    ∃ t events, exec (.parBulkWrite addr arg (runs.map (·.1))) s = .next t ∧
      events = bulkWriteEvents s.cfg true addr.toNat 0 runs ∧
      t.failCount = BitVec.ofNat 32 (runs.filter runFailed).length ∧ t.dout = [] ∧ t.resLen = 0 ∧ t.seq = .idle ∧
      t.world.samples = rest ∧ t.ReadSafe ∧
      t.resAttempts = (if h : runs = [] then s.resAttempts else BitVec.ofNat 32 (runs.getLast h).2.length) ∧
      OnlyTouches s.cfg s.world.par t.world.par addr.toNat arg.toNat ∧
      (runs.find? runFailed = none → t.resCode = 0x00 ∧ t.world.trace = s.world.trace ++ events ++ [.done 0x00] ∧
        t.resAddr = s.resAddr ∧ t.resExpected = s.resExpected ∧ t.resObserved = s.resObserved) ∧
      (∀ j (h : j < runs.length), runFailed runs[j] = true → (∀ l (h : l < j), runFailed runs[l] = false) →
        t.resCode = 0x01 ∧ t.world.trace = s.world.trace ++ events ++ [.done 0x01] ∧
        t.resAddr = addrOf (addr.toNat + j) ∧ t.resExpected = runs[j].1 ∧ t.resObserved = runObserved runs[j])

/-- R198, R242 under `ABORT`: the operation ends at the first byte that fails; no later byte is touched (the byte of an earlier
write cycle, still running, log 24); `FAIL_COUNT` is 1. -/
def Obligations.ParBulkWriteAborts : Prop :=
  ∀ (s : State) (addr : Addr) (arg : BitVec 32) (good : List (Byte × List Byte)) (f : Byte × List Byte)
    (later rest : List Byte), s.cfg.wf → s.seq = .idle → s.norPhase = .idle → s.ReadSafe →
    addr.toNat < s.cfg.parCapacity → good.length + 1 + later.length = arg.toNat →
    addr.toNat + arg.toNat ≤ s.cfg.parCapacity → s.cfg.failPolicy = .abort →
    (∀ r ∈ good ++ [f], ByteRun s.cfg.parRetryBudget r) → (∀ r ∈ good, runFailed r = false) → runFailed f = true →
    s.world.samples = (good ++ [f]).flatMap (·.2) ++ rest →
    ∃ t, exec (.parBulkWrite addr arg (good.map (·.1) ++ f.1 :: later)) s = .next t ∧
      t.resCode = 0x01 ∧ t.failCount = 1 ∧ t.dout = [] ∧ t.resLen = 0 ∧ t.seq = .idle ∧
      t.resAddr = addrOf (addr.toNat + good.length) ∧ t.resExpected = f.1 ∧ t.resObserved = runObserved f ∧
      t.resAttempts = BitVec.ofNat 32 s.cfg.parRetryBudget ∧ t.world.samples = rest ∧ t.ReadSafe ∧
      OnlyTouches s.cfg s.world.par t.world.par addr.toNat (good.length + 1) ∧
      t.world.trace =
        s.world.trace ++ bulkWriteEvents s.cfg false addr.toNat 0 (good ++ [f]) ++ [.done 0x01]

/-- R97, R199, R270: from the read-safe configuration no event of a PAR operation brings the lines into contention, and
every PAR operation ends read-safe. -/
def Obligations.ParNeverContends : Prop :=
  ∀ (s t : State) (i : Instr), s.cfg.wf → s.seq = .idle → parRequest i = true → s.ReadSafe → exec i s = .next t →
    t.ReadSafe ∧ ∃ events, t.world.trace = s.world.trace ++ events ∧
      neverContends s.world.par.level s.world.par.outputs events = true

/-! The SEE unit -/

/-- R213, R237: one bus scan; the warning exactly when the device's address is not in the answer; success in both cases.
Whether the reference device is found is a field of the device (log 8). -/
def Obligations.SeeInitRequest : Prop :=
  ∀ s : State, s.seq = .idle →
    ∃ found k, exec .seeInit s = .next { s with
        dout := [], failCount := 0, resLen := 0, resCode := 0x00
        warn := (s.warn &&& ~~~0x02#8) ||| (if s.cfg.seeDevAddr ∈ found then 0#8 else 0x02#8)
        world := { s.world.log ([.i2cScan found] ++
            (if s.cfg.seeDevAddr ∈ found then [] else [.warn .busScanWarning]) ++ [.done 0x00]) with
          scans := s.world.scans.drop 1, free := k } } ∧
      (∀ answer rest, s.world.scans = answer :: rest → found = answer) ∧
      (s.world.scans = [] → s.world.see.cycleLeft = 0 →
        found = if s.world.see.present then [s.cfg.seeDevAddr] else [])

/-- R214: one three-byte write frame, then the settle delay (R211); on the reference device (R90) that byte alone changes,
whatever it held. An address above bit 14 is an `ArgumentError` before any event (the pointer, log 21; time that passes for
both devices, logs 13 and 33). -/
def Obligations.SeeWriteByteRequest : Prop :=
  ∀ (s : State) (addr : Addr) (arg : BitVec 32), s.cfg.wf → s.seq = .idle →
    (s.world.see.cycleLeft = 0 → s.world.see.mem.wf → addr.toNat < s.cfg.seeCapacity →
      ∃ m, exec (.seeWriteByte addr arg) s = .next { s with
          dout := [], failCount := 0, resLen := 0, resCode := 0x00
          world := { s.world.log [.i2cW s.cfg.seeDevAddr (frameAddress addr.toNat ++ [arg.setWidth 8]), .delay .settle,
              .done 0x00] with
            see := { s.world.see with
              mem := m, pointer := addr.toNat, cycleLeft := s.cfg.seeWriteCycle - s.cfg.tSettle }
            nor := { s.world.nor with powerUpLeft := s.world.nor.powerUpLeft - s.cfg.tSettle } } } ∧
        ∀ a, m.read a = if a = addr.toNat then arg.setWidth 8 else s.world.see.mem.read a) ∧
    (s.norPhase = .idle → s.cfg.seeCapacity ≤ addr.toNat → exec (.seeWriteByte addr arg) s = .next { s with
      dout := [], failCount := 0, resLen := 0, resAddr := addr, resCode := 0x04
      world := s.world.log [.done 0x04] })

/-- R211, R215: a page write that does not cross a page is one frame and, if it has data, the settle delay; on the
reference device byte `i` of the payload is stored at the address plus `i` and every other byte keeps its value (the
pointer, log 21; time that passes for both devices, logs 13 and 33). -/
def Obligations.SeeWritePageRequest : Prop :=
  ∀ (s : State) (addr : Addr) (arg : BitVec 32) (data : List Byte), s.cfg.wf → s.seq = .idle →
    s.world.see.cycleLeft = 0 → s.world.see.mem.wf → addr.toNat < s.cfg.seeCapacity → data.length = arg.toNat →
    addr.toNat % s.cfg.seePage + arg.toNat ≤ s.cfg.seePage →
    (data = [] → exec (.seeWritePage addr arg data) s = .next { s with
      dout := [], failCount := 0, resLen := 0, resCode := 0x00
      world := { s.world.log [.i2cW s.cfg.seeDevAddr (frameAddress addr.toNat), .done 0x00] with
        see := { s.world.see with pointer := addr.toNat } } }) ∧
    (data ≠ [] → ∃ m, exec (.seeWritePage addr arg data) s = .next { s with
        dout := [], failCount := 0, resLen := 0, resCode := 0x00
        world := { s.world.log [.i2cW s.cfg.seeDevAddr (frameAddress addr.toNat ++ data), .delay .settle, .done 0x00] with
          see := { s.world.see with
            mem := m, pointer := addr.toNat, cycleLeft := s.cfg.seeWriteCycle - s.cfg.tSettle }
          nor := { s.world.nor with powerUpLeft := s.world.nor.powerUpLeft - s.cfg.tSettle } } } ∧
      (∀ j (h : j < data.length), m.read (addr.toNat + j) = data[j]) ∧
      ∀ a, (a < addr.toNat ∨ addr.toNat + data.length ≤ a) → m.read a = s.world.see.mem.read a)

/-- R210, R216, R217: a read is an address-only frame followed at once by a read frame, with no settle delay; the bytes
are the ones given from outside if there are any, else the reference device's from the address upward; a read of length 0 emits
nothing (the pointer, log 21; answers from outside, log 5). -/
def Obligations.SeeReadRequests : Prop :=
  ∀ (s : State) (i : Instr) (addr : Addr) (n : Nat), s.cfg.wf → s.seq = .idle → s.world.see.cycleLeft = 0 →
    addr.toNat < s.cfg.seeCapacity → addr.toNat + n ≤ s.cfg.seeCapacity →
    (i = .seeReadByte addr ∧ n = 1 ∨ ∃ arg : BitVec 32, i = .seeReadBytes addr arg ∧ n = arg.toNat) →
    (n = 0 → exec i s = .next { s with
      dout := [], failCount := 0, resLen := 0, resCode := 0x00, world := s.world.log [.done 0x00] }) ∧
    (∀ data rest, 0 < n → data.length = n →
      (s.world.i2cIn = data ++ rest ∨ s.world.i2cIn = [] ∧ rest = [] ∧
        data = (List.range n).map (fun j => s.world.see.mem.read (addr.toNat + j))) →
      exec i s = .next { s with
        dout := data, failCount := 0, resLen := BitVec.ofNat 32 n, resCode := 0x00
        world := { s.world.log [.i2cW s.cfg.seeDevAddr (frameAddress addr.toNat), .i2cR s.cfg.seeDevAddr n data,
            .done 0x00] with
          see := { s.world.see with pointer := addr.toNat + n }, i2cIn := rest } })

/-- R218: with a settle delay no shorter than the device's write cycle, one full page frame per page in ascending order,
each followed by its settle delay, with the progress events due; every byte of the device then holds the fill value (the
pointer, log 21; time that passes for both devices, logs 13 and 33). -/
def Obligations.SeeBulkEraseRequest : Prop :=
  ∀ (s : State) (arg : BitVec 32), s.cfg.wf → s.seq = .idle → s.world.see.cycleLeft = 0 → s.world.see.mem.wf →
    s.cfg.seeWriteCycle ≤ s.cfg.tSettle →
    ∃ m, exec (.seeBulkErase arg) s = .next { s with
        dout := [], failCount := 0, resLen := 0, resCode := 0x00
        world := { s.world.log ((List.range (s.cfg.seeCapacity / s.cfg.seePage)).flatMap
            (erasePageEvents s.cfg (arg.setWidth 8)) ++ [.done 0x00]) with
          see := { s.world.see with mem := m, pointer := s.cfg.seeCapacity - s.cfg.seePage }
          nor := { s.world.nor with
            powerUpLeft := s.world.nor.powerUpLeft - s.cfg.seeCapacity / s.cfg.seePage * s.cfg.tSettle } } } ∧
      (∀ a, a < s.cfg.seeCapacity → m.read a = arg.setWidth 8) ∧
      ∀ a, s.cfg.seeCapacity ≤ a → m.read a = s.world.see.mem.read a

/-! Lone bus frames -/

/-- R81, R89, R108: the frames that only set or clear a condition of an awake, powered and idle device, the wake frame at a
sleeping one, and that a sleeping device ignores every other frame (the reset command without the reset-enable before it
does nothing, and after it keeps SR1 bits 6 and 5, SR2 and SR3, log 22; what a sleeping device answers, log 20; a frame is an instruction of its own and changes no register of
the block, log 4). -/
def Obligations.ConditionFrames : Prop :=
  (∀ (s : State) (i : Instr) (command : Byte) (nor : NorDevice), s.cfg.wf → s.seq = .idle →
    (i = .cmdWren ∧ command = s.cfg.cmd.wren ∧ s.world.nor.Ready ∧
        nor = { s.world.nor with wel := s.world.nor.wel || !s.world.nor.wpPin, resetArmed := false } ∨
      i = .cmdWrdi ∧ command = s.cfg.cmd.wrdi ∧ s.world.nor.Ready ∧
        nor = { s.world.nor with wel := false, resetArmed := false } ∨
      i = .cmdRsten ∧ command = s.cfg.cmd.rsten ∧ s.world.nor.Ready ∧ nor = { s.world.nor with resetArmed := true } ∨
      i = .cmdRst ∧ command = s.cfg.cmd.rst ∧ s.world.nor.Ready ∧
        nor = { s.world.nor with wel := s.world.nor.wel && !s.world.nor.resetArmed, resetArmed := false } ∨
      i = .cmdWake ∧ command = s.cfg.cmd.wake ∧ s.world.nor.Ready ∧ nor = { s.world.nor with resetArmed := false } ∨
      i = .cmdWake ∧ command = s.cfg.cmd.wake ∧ s.world.nor.asleep = true ∧ nor = { s.world.nor with asleep := false }) →
    exec i s = .next { s with
      rx := [], world := { s.world.log (sendEvents [command]) with nor := nor } }) ∧
  ∀ (s : State) (i : Instr) (tx : List Byte) (n : Nat), s.cfg.wf → s.seq = .idle → s.world.nor.asleep = true →
    encode s.cfg i = .spi tx n → i.wf s.cfg = true → i ≠ .cmdWake →
    ∃ data k, data.length = n ∧ exec i s = .next { s with
      rx := data
      world := { s.world.log (if n = 0 then sendEvents tx else askEvents tx data) with
        free := k, spiIn := s.world.spiIn.drop n } }

/-- R81, R82, R86, R88, R108: the program, erase and status-write frames at an awake, powered and idle device: with the
latch set the device becomes busy with that operation (a status write sets SR1 bits 7 to 2 if it is honoured); with the
latch clear nothing but the reset-enable changes (log 22). U8: a program frame without payload leaves memory and settings;
with the latch set, whether the device becomes busy and what the latch then is are free (log 19). That the settings change
when the status write is accepted is the model's choice (log 23), as is that one which the device does not honour runs its
busy cycle all the same (log 15); a frame changes no register of the block (log 4). -/
def Obligations.OperationFrames : Prop :=
  ∀ s : State, s.cfg.wf → s.seq = .idle → s.world.nor.Ready →
    (∀ (i : Instr) (tx : List Byte) (e : NorEffect) (status : Byte),
      ((∃ a data, i = .cmdPp a data ∧ a.toNat < s.cfg.norCapacity ∧ data ≠ [] ∧ data.length ≤ s.cfg.norPage ∧
          tx = s.cfg.cmd.pp :: (be24 a ++ data) ∧ e = .program a.toNat data ∧ status = s.world.nor.status) ∨
        (∃ a, i = .cmdSe a ∧ a.toNat < s.cfg.norCapacity ∧ tx = s.cfg.cmd.se :: be24 a ∧
          e = .erase (a.toNat - a.toNat % s.cfg.norSector) s.cfg.norSector ∧ status = s.world.nor.status) ∨
        (∃ a, i = .cmdBe64 a ∧ a.toNat < s.cfg.norCapacity ∧ tx = s.cfg.cmd.be64 :: be24 a ∧
          e = .erase (a.toNat - a.toNat % s.cfg.norBlock) s.cfg.norBlock ∧ status = s.world.nor.status) ∨
        i = .cmdCe ∧ tx = [s.cfg.cmd.ce] ∧ e = .erase 0 s.cfg.norCapacity ∧ status = s.world.nor.status ∨
        (∃ v, i = .cmdWrsr1 v ∧ tx = [s.cfg.cmd.wrsr1, v] ∧ e = .writeStatus v ∧
          status = if s.cfg.norStatusWritable then v &&& 0xFC else s.world.nor.status)) →
      exec i s = .next { s with
        rx := []
        world := { s.world.log (sendEvents tx) with
          nor := if s.world.nor.wel then
              { s.world.nor with job := some ⟨e, s.world.nor.busyPolls⟩, status := status, resetArmed := false }
            else { s.world.nor with resetArmed := false } } }) ∧
    ∀ a : Addr, a.toNat < s.cfg.norCapacity →
      ∃ job wel k, (job = none ∨ job = some ⟨.nothing, s.world.nor.busyPolls⟩) ∧
        (s.world.nor.wel = false → job = none ∧ wel = false) ∧
        exec (.cmdPp a []) s = .next { s with
          rx := []
          world := { s.world.log (sendEvents (s.cfg.cmd.pp :: be24 a)) with
            nor := { s.world.nor with job := job, wel := wel, resetArmed := false }, free := k } }

/-- R82 to R85, R87, R88: the SR1 read that finds an operation's end due: the memory effect is complete, `BUSY` and `WEL` read
0, and nothing else has changed. Of a program, each target (wrapped inside the page) that held the erase value holds its
payload byte; a target that did not takes the bitwise and if the configuration adopts that law, else any value (U4); a
protected target and every other byte keep their value. (Only SR1 reads move an operation on, log 23; what is protected, log
15; the frame changes no register of the block, log 4; the reset-enable, log 22.) -/
def Obligations.OperationEnds : Prop :=
  ∀ (s : State) (e : NorEffect), s.cfg.wf → s.seq = .idle → s.world.spiIn = [] → s.world.nor.asleep = false →
    s.world.nor.powerUpLeft = 0 → s.world.nor.job = some ⟨e, some 0⟩ → s.world.nor.mem.wf →
    (∀ p data, e = .program p data → data.length ≤ s.cfg.norPage) →
    ∃ m k, exec .cmdRdsr1 s = .next { s with
        rx := [s.world.nor.settings]
        world := { s.world.log (askEvents [s.cfg.cmd.rdsr1] [s.world.nor.settings]) with
          nor := { s.world.nor with mem := m, job := none, wel := false, resetArmed := false }, free := k } } ∧
      (∀ p data, e = .program p data →
        (∀ j (h : j < data.length),
          m.read (wrapInPage s.cfg.norPage p j) =
            (if inRanges (s.world.nor.protectedRanges s.cfg) (wrapInPage s.cfg.norPage p j) then
              s.world.nor.mem.read (wrapInPage s.cfg.norPage p j)
            else if s.world.nor.mem.read (wrapInPage s.cfg.norPage p j) = s.cfg.norEraseValue then data[j]
            else if s.cfg.norAndLaw then s.world.nor.mem.read (wrapInPage s.cfg.norPage p j) &&& data[j]
            else m.read (wrapInPage s.cfg.norPage p j))) ∧
        ∀ a, (∀ j, j < data.length → a ≠ wrapInPage s.cfg.norPage p j) → m.read a = s.world.nor.mem.read a) ∧
      (∀ start len, e = .erase start len → ∀ a, m.read a =
        if start ≤ a ∧ a < start + len ∧ inRanges (s.world.nor.protectedRanges s.cfg) a = false then s.cfg.norEraseValue
        else s.world.nor.mem.read a) ∧
      ((∃ v, e = .writeStatus v) ∨ e = .nothing → m = s.world.nor.mem)

/-- R36, R82, R108: the status frames at an awake and powered device: SR1 with `BUSY` set while an operation goes on, SR2
and SR3 as they are, also while it is busy. An idle device loses nothing but a reset-enable before the frame (log 22), a busy
one nothing but the count of polls that an SR1 read takes (log 23); a frame changes no register of the block (log 4). -/
def Obligations.StatusFrames : Prop :=
  ∀ (s : State) (i : Instr) (command own : Byte) (nor : NorDevice), s.cfg.wf → s.seq = .idle → s.world.spiIn = [] →
    s.world.nor.asleep = false → s.world.nor.powerUpLeft = 0 →
    (i = .cmdRdsr1 ∧ command = s.cfg.cmd.rdsr1 ∧ s.world.nor.job = none ∧
        own = s.world.nor.settings ||| (if s.world.nor.wel then 0x02 else 0x00) ∧
        nor = { s.world.nor with resetArmed := false } ∨
      (∃ e n, i = .cmdRdsr1 ∧ command = s.cfg.cmd.rdsr1 ∧ s.world.nor.job = some ⟨e, some (n + 1)⟩ ∧
        own = s.world.nor.settings ||| (if s.world.nor.wel then 0x03 else 0x01) ∧
        nor = { s.world.nor with job := some ⟨e, some n⟩ }) ∨
      (∃ e, i = .cmdRdsr1 ∧ command = s.cfg.cmd.rdsr1 ∧ s.world.nor.job = some ⟨e, none⟩ ∧
        own = s.world.nor.settings ||| (if s.world.nor.wel then 0x03 else 0x01) ∧ nor = s.world.nor) ∨
      (i = .cmdRdsr2 ∧ command = s.cfg.cmd.rdsr2 ∧ own = s.world.nor.sr2 ∨
          i = .cmdRdsr3 ∧ command = s.cfg.cmd.rdsr3 ∧ own = s.world.nor.sr3) ∧
        nor = (if s.world.nor.job = none then { s.world.nor with resetArmed := false } else s.world.nor)) →
    exec i s = .next { s with
      rx := [own], world := { s.world.log (askEvents [command] [own]) with nor := nor } }

/-- R89, R108: the identity frame and the read frame at an awake, powered and idle device; a read that goes on past the
end of the device runs, and only the bytes past the end are free; one of no bytes sends its address and reads nothing (log
28). A device that has not yet powered up answers an all-zero identity. A frame changes no register of the block (log 4) and
no condition of the device but a reset-enable before it (log 22). -/
def Obligations.DataFrames : Prop :=
  (∀ s : State, s.cfg.wf → s.seq = .idle → s.world.spiIn = [] → s.world.nor.Ready →
    (∀ (i : Instr) (tx data : List Byte),
      (i = .cmdRdid ∧ tx = [s.cfg.cmd.rdid] ∧ data = be24 s.world.nor.ident ∨
        (∃ a n, i = .cmdRead a n ∧ 0 < n ∧ a.toNat + n ≤ s.cfg.norCapacity ∧ tx = s.cfg.cmd.read :: be24 a ∧
          data = (List.range n).map (fun j => s.world.nor.mem.read (a.toNat + j)))) →
      exec i s = .next { s with
        rx := data
        world := { s.world.log (askEvents tx data) with nor := { s.world.nor with resetArmed := false } } }) ∧
    (∀ a : Addr, a.toNat < s.cfg.norCapacity → exec (.cmdRead a 0) s = .next { s with
      rx := []
      world := { s.world.log (sendEvents (s.cfg.cmd.read :: be24 a)) with
        nor := { s.world.nor with resetArmed := false } } }) ∧
    ∀ (a : Addr) (n : Nat), a.toNat < s.cfg.norCapacity → s.cfg.norCapacity < a.toNat + n →
      ∃ data k, exec (.cmdRead a n) s = .next { s with
          rx := data
          world := { s.world.log (askEvents (s.cfg.cmd.read :: be24 a) data) with
            nor := { s.world.nor with resetArmed := false }, free := k } } ∧
        data.length = n ∧
        ∀ j (h : j < data.length), a.toNat + j < s.cfg.norCapacity → data[j] = s.world.nor.mem.read (a.toNat + j)) ∧
  ∀ s : State, s.cfg.wf → s.seq = .idle → s.world.spiIn = [] → s.world.nor.asleep = false →
    s.world.nor.powerUpLeft ≠ 0 → exec .cmdRdid s = .next { s with
      rx := [0, 0, 0], world := s.world.log (askEvents [s.cfg.cmd.rdid] [0, 0, 0]) }

/-- R90, R91, R110: the two-wire frames at the reference device outside its write cycle: a write frame sets the pointer
and, with data, stores it inside the page, a later byte over an earlier one where the payload is longer than the page, and
starts a write cycle; a read frame returns the bytes given from outside, or else those from the pointer, and advances it
(where the pointer stands after a write, and that it does not wrap at the end of the device, where the bytes are free, is the
model's choice, log 21; answers from outside, log 5; a frame changes no register of the block, log 4). -/
def Obligations.TwoWireFrames : Prop :=
  ∀ s : State, s.cfg.wf → s.seq = .idle → s.world.see.cycleLeft = 0 → s.world.see.mem.wf →
    (∀ addr : BitVec 15, addr.toNat < s.cfg.seeCapacity →
      exec (.i2cA addr) s = .next { s with
        rx := []
        world := { s.world.log [.i2cW s.cfg.seeDevAddr (frameAddress addr.toNat)] with
          see := { s.world.see with pointer := addr.toNat } } }) ∧
    (∀ (addr : BitVec 15) (data : List Byte), addr.toNat < s.cfg.seeCapacity → data ≠ [] →
      ∃ m, exec (.i2cAD addr data) s = .next { s with
          rx := []
          world := { s.world.log [.i2cW s.cfg.seeDevAddr (frameAddress addr.toNat ++ data)] with
            see := { s.world.see with mem := m, pointer := addr.toNat, cycleLeft := s.cfg.seeWriteCycle } } } ∧
        (∀ j (h : j < data.length), data.length ≤ j + s.cfg.seePage →
          m.read (wrapInPage s.cfg.seePage addr.toNat j) = data[j]) ∧
        ∀ a, (∀ j, j < data.length → a ≠ wrapInPage s.cfg.seePage addr.toNat j) → m.read a = s.world.see.mem.read a) ∧
    (∀ n data rest, data.length = n → s.world.i2cIn = data ++ rest →
      ∃ k, exec (.i2cRN n) s = .next { s with
        rx := data
        world := { s.world.log [.i2cR s.cfg.seeDevAddr n data] with
          see := { s.world.see with pointer := s.world.see.pointer + n }, i2cIn := rest, free := k } }) ∧
    (∀ n, s.world.i2cIn = [] → s.world.see.pointer + n ≤ s.cfg.seeCapacity →
      exec (.i2cRN n) s = .next { s with
        rx := (List.range n).map (fun j => s.world.see.mem.read (s.world.see.pointer + j))
        world := { s.world.log [.i2cR s.cfg.seeDevAddr n
            ((List.range n).map (fun j => s.world.see.mem.read (s.world.see.pointer + j)))] with
          see := { s.world.see with pointer := s.world.see.pointer + n } } }) ∧
    ∀ n, s.world.i2cIn = [] → s.cfg.seeCapacity < s.world.see.pointer + n →
      ∃ data k, exec (.i2cRN n) s = .next { s with
          rx := data
          world := { s.world.log [.i2cR s.cfg.seeDevAddr n data] with
            see := { s.world.see with pointer := s.world.see.pointer + n }, free := k } } ∧
        data.length = n ∧
        ∀ j (h : j < data.length), s.world.see.pointer + j < s.cfg.seeCapacity →
          data[j] = s.world.see.mem.read (s.world.see.pointer + j)

/-! The whole machine -/

/-- The memories keep their canonical form and stay inside the devices, whatever step is taken (R61, R62; what an unlisted
byte reads as is the model's choice, log 9). -/
def Obligations.MemoryInvKept : Prop :=
  ∀ s t : State, MemoryInv s → step s = .next t → MemoryInv t

/-- The control state keeps its invariant: `NOR_PHASE` agrees with the position in the procedure (R24, R140), the codes
are those of R230, `WARN` bits 7 to 2 are 0 (R30), `RES_LEN` is the length of `DOUT` between operations (R29), `ATTEMPTS`
is within the budget (R33). -/
def Obligations.ControlInvKept : Prop :=
  ∀ s t : State, ControlInv s → step s = .next t → ControlInv t

/-- The lines stay read-safe between operations (R190, R199). -/
def Obligations.LineInvKept : Prop :=
  ∀ s t : State, LineInv s → step s = .next t → LineInv t

/-- The three invariants hold after reset; what the devices and the lines hold then is the model's choice (logs 8, 9, 10).
-/
def Obligations.InvariantsAtReset : Prop :=
  MemoryInv State.reset ∧ ControlInv State.reset ∧ LineInv State.reset

/-- R8, R12: no step changes the configuration; the trace only grows, but for a reset, which empties it (R41). -/
def Obligations.TraceGrows : Prop :=
  ∀ s t : State, step s = .next t →
    t.cfg = s.cfg ∧ (s.Resets → t.world.trace = []) ∧
    (¬s.Resets → ∃ events, t.world.trace = s.world.trace ++ events)

/-- R13, R25: a request emits `Done` exactly once, as its last event, with the code it leaves in `RES_CODE`; a request
that has not ended has emitted none, and going on with it emits it at the end and nowhere else. -/
def Obligations.DoneOnceAtTheEnd : Prop :=
  ∀ s t : State,
    ((∃ i, isRequest i = true ∧ exec i s = .next t) ∨
      (s.cfg.wf ∧ s.seq ≠ .idle ∧ (∀ later, s.caller ≠ .reset :: later) ∧ step s = .next t)) →
    (t.seq = .idle → ∃ events, quiet events ∧ t.world.trace = s.world.trace ++ events ++ [.done t.resCode]) ∧
    (t.seq ≠ .idle → ∃ events, quiet events ∧ t.world.trace = s.world.trace ++ events ∧ t.resCode = s.resCode)

/-- R40: a unit reaches its own device alone. Only time passes for the others (a delay may end a write cycle or a
power-up; logs 13, 33). -/
def Obligations.UnitsAreSeparate : Prop :=
  ∀ (s t : State) (i : Instr), exec i s = .next t →
    (norRequest i = true → t.world.par = s.world.par ∧ t.world.samples = s.world.samples ∧
      t.world.scans = s.world.scans ∧ t.world.i2cIn = s.world.i2cIn ∧ t.parDir = s.parDir ∧
      t.world.see = { s.world.see with cycleLeft := t.world.see.cycleLeft }) ∧
    (parRequest i = true → t.world.spiIn = s.world.spiIn ∧ t.world.i2cIn = s.world.i2cIn ∧
      t.world.scans = s.world.scans ∧ t.norIdent = s.norIdent ∧ t.warn = s.warn ∧
      t.world.nor = { s.world.nor with powerUpLeft := t.world.nor.powerUpLeft } ∧
      t.world.see = { s.world.see with cycleLeft := t.world.see.cycleLeft }) ∧
    (seeRequest i = true → t.world.par = s.world.par ∧ t.world.samples = s.world.samples ∧
      t.world.spiIn = s.world.spiIn ∧ t.parDir = s.parDir ∧ t.norIdent = s.norIdent ∧
      t.world.nor = { s.world.nor with powerUpLeft := t.world.nor.powerUpLeft })

/-- R20, R35, R241: no register of the block influences what a request does: two idle blocks with the same configuration and
the same world, whatever their registers hold, do the same with a request: the same events, devices, `DOUT`, position and
`FAIL_COUNT` and, if it has ended, the same code and length. (What a request leaves in a register it does not write, such as
`RES_ADDR` or `WARN`, is not spoken of.) Equal worlds have equal counters and so draw the same free values (log 35). -/
def Obligations.RegistersDoNotSteer : Prop :=
  ∀ (s s' t t' : State) (i : Instr), isRequest i = true → s.seq = .idle → s'.seq = .idle → s.cfg = s'.cfg →
    s.world = s'.world → exec i s = .next t → exec i s' = .next t' →
    t.world = t'.world ∧ t.dout = t'.dout ∧ t.seq = t'.seq ∧ t.failCount = t'.failCount ∧
      (t.seq = .idle → t.resCode = t'.resCode ∧ t.resLen = t'.resLen)
end

