-- ==== Sys2Proof/Laws/Memory.lean ====
section
/-! SUPPORT. The laws of byte memories: reading after writing, and that every memory operation keeps the canonical form and
the capacity. -/

namespace Sys2Proof.Machine

@[simp] theorem Memory.read_nil (a : Nat) : Memory.read [] a = Memory.unlisted := rfl

theorem Memory.read_cons (k : Nat) (v : Byte) (m : Memory) (a : Nat) :
    Memory.read ((k, v) :: m) a = if k = a then v else Memory.read m a := rfl

/-- An address that no entry lists reads as an unlisted one. -/
theorem Memory.read_unlisted {m : Memory} {a : Nat} (h : ∀ x ∈ m, x.1 ≠ a) : m.read a = Memory.unlisted := by
  induction m with
  | nil => rfl
  | cons c m ih =>
    rw [Memory.read_cons, if_neg (h c (by simp)), ih (fun x hx => h x (by simp [hx]))]

theorem Memory.wf_tail {c : Host.Cell} {m : Memory} (h : Memory.wf (c :: m)) : Memory.wf m :=
  ⟨(List.pairwise_cons.mp h.1).2, fun x hx => h.2 x (by simp [hx])⟩

/-- Reading the byte just written gives it. -/
theorem Memory.read_write_same {m : Memory} (h : m.wf) (a : Nat) (b : Byte) : (m.write a b).read a = b := by
  induction m with
  | nil =>
    by_cases hb : b = Memory.unlisted
    · simp [Memory.write, hb]
    · simp [Memory.write, hb, Memory.read_cons]
  | cons c m ih =>
    obtain ⟨k, v⟩ := c
    have hp := List.pairwise_cons.mp h.1
    rw [Memory.write]
    by_cases h1 : a < k
    · rw [if_pos h1]
      by_cases hb : b = Memory.unlisted
      · rw [if_pos hb, hb]
        apply Memory.read_unlisted
        intro x hx
        rcases List.mem_cons.mp hx with rfl | hx
        · show k ≠ a; omega
        · have h2 : k < x.1 := hp.1 x hx
          omega
      · rw [if_neg hb, Memory.read_cons, if_pos rfl]
    · rw [if_neg h1]
      by_cases h2 : a = k
      · rw [if_pos h2]
        by_cases hb : b = Memory.unlisted
        · rw [if_pos hb, hb]
          apply Memory.read_unlisted
          intro x hx
          have h3 : k < x.1 := hp.1 x hx
          omega
        · rw [if_neg hb, Memory.read_cons, if_pos rfl]
      · rw [if_neg h2, Memory.read_cons, if_neg (fun e => h2 e.symm), ih (Memory.wf_tail h)]

/-- A write leaves every other address alone. -/
theorem Memory.read_write_other (m : Memory) {a x : Nat} (b : Byte) (hx : x ≠ a) : (m.write a b).read x = m.read x := by
  have hax : a ≠ x := fun e => hx e.symm
  induction m with
  | nil =>
    by_cases hb : b = Memory.unlisted
    · simp [Memory.write, hb]
    · simp [Memory.write, hb, Memory.read_cons, hax]
  | cons c m ih =>
    obtain ⟨k, v⟩ := c
    rw [Memory.write]
    split
    · split
      · rfl
      · rw [Memory.read_cons, if_neg hax]
    · split
      · rename_i hk
        have hkx : k ≠ x := fun e => hax (hk.trans e)
        split
        · rw [Memory.read_cons, if_neg hkx]
        · rw [Memory.read_cons, Memory.read_cons, if_neg hax, if_neg hkx]
      · rw [Memory.read_cons, Memory.read_cons, ih]

/-- Reading after a write, in one equation. -/
theorem Memory.read_write {m : Memory} (h : m.wf) (a x : Nat) (b : Byte) :
    (m.write a b).read x = if x = a then b else m.read x := by
  by_cases hx : x = a
  · rw [if_pos hx, hx, Memory.read_write_same h]
  · rw [if_neg hx, Memory.read_write_other m b hx]

/-- What a write lists: the written address, or what was listed. -/
theorem Memory.mem_write {m : Memory} {a : Nat} {b : Byte} {x : Host.Cell} (hx : x ∈ m.write a b) :
    (x = (a, b) ∧ b ≠ Memory.unlisted) ∨ x ∈ m := by
  induction m with
  | nil =>
    rw [Memory.write] at hx
    split at hx
    · cases hx
    · rename_i hb
      exact .inl ⟨by simpa using hx, hb⟩
  | cons c m ih =>
    obtain ⟨k, v⟩ := c
    rw [Memory.write] at hx
    split at hx
    · split at hx
      · exact .inr hx
      · rename_i hb
        rcases List.mem_cons.mp hx with rfl | hx
        · exact .inl ⟨rfl, hb⟩
        · exact .inr hx
    · split at hx
      · split at hx
        · exact .inr (List.mem_cons_of_mem _ hx)
        · rename_i hb
          rcases List.mem_cons.mp hx with rfl | hx
          · exact .inl ⟨rfl, hb⟩
          · exact .inr (List.mem_cons_of_mem _ hx)
      · rcases List.mem_cons.mp hx with rfl | hx
        · exact .inr (by simp)
        · rcases ih hx with h | h
          · exact .inl h
          · exact .inr (List.mem_cons_of_mem _ h)

/-- A write keeps the canonical form. -/
theorem Memory.write_wf {m : Memory} (h : m.wf) (a : Nat) (b : Byte) : (m.write a b).wf := by
  refine ⟨?_, fun x hx => ?_⟩
  · induction m with
    | nil =>
      rw [Memory.write]
      split <;> simp
    | cons c m ih =>
      obtain ⟨k, v⟩ := c
      have hp := List.pairwise_cons.mp h.1
      rw [Memory.write]
      split
      · rename_i hk
        split
        · exact h.1
        · refine List.pairwise_cons.mpr ⟨fun y hy => ?_, h.1⟩
          rcases List.mem_cons.mp hy with rfl | hy
          · exact hk
          · exact Nat.lt_trans hk (hp.1 y hy)
      · rename_i hk
        split
        · rename_i he
          split
          · exact hp.2
          · exact List.pairwise_cons.mpr ⟨fun y hy => he ▸ hp.1 y hy, hp.2⟩
        · rename_i he
          refine List.pairwise_cons.mpr ⟨fun y hy => ?_, ih (Memory.wf_tail h)⟩
          rcases Memory.mem_write hy with ⟨rfl, _⟩ | hy
          · show k < a; omega
          · exact hp.1 y hy
  · rcases Memory.mem_write hx with ⟨rfl, hb⟩ | hx
    · exact hb
    · exact h.2 x hx

/-- A write inside the capacity keeps it. -/
theorem Memory.write_below {m : Memory} {cap a : Nat} {b : Byte} (h : m.below cap) (ha : a < cap) :
    (m.write a b).below cap := by
  intro x hx
  rcases Memory.mem_write hx with ⟨rfl, _⟩ | hx
  · exact ha
  · exact h x hx

theorem Memory.read_append {m n : Memory} {a : Nat} (h : ∀ x ∈ m, x.1 ≠ a) : Memory.read (m ++ n) a = n.read a := by
  induction m with
  | nil => rfl
  | cons c m ih =>
    obtain ⟨k, v⟩ := c
    rw [List.cons_append, Memory.read_cons, if_neg (h (k, v) (by simp)), ih (fun x hx => h x (by simp [hx]))]

theorem Memory.read_append_left {m n : Memory} {a : Nat} (h : ∀ x ∈ n, x.1 ≠ a) : Memory.read (m ++ n) a = m.read a := by
  induction m with
  | nil => exact Memory.read_unlisted h
  | cons c m ih =>
    obtain ⟨k, v⟩ := c
    rw [List.cons_append, Memory.read_cons, Memory.read_cons, ih]

theorem Memory.read_filter {m : Memory} {p : Host.Cell → Bool} {a : Nat} (h : ∀ v, p (a, v) = true) :
    Memory.read (m.filter p) a = m.read a := by
  induction m with
  | nil => rfl
  | cons c m ih =>
    obtain ⟨k, v⟩ := c
    by_cases hk : k = a
    · subst hk
      rw [List.filter_cons_of_pos (h v), Memory.read_cons, Memory.read_cons, if_pos rfl, if_pos rfl]
    · by_cases hp : p (k, v) = true
      · rw [List.filter_cons_of_pos hp, Memory.read_cons, Memory.read_cons, ih]
      · rw [List.filter_cons_of_neg hp, Memory.read_cons, if_neg hk, ih]

theorem Memory.read_range (start : Nat) (v : Byte) (len a : Nat) (h : start ≤ a) (h2 : a < start + len) :
    Memory.read ((List.range len).map (fun j => (start + j, v))) a = v := by
  induction len with
  | zero => omega
  | succ n ih =>
    rw [List.range_succ, List.map_append]
    by_cases hn : a < start + n
    · rw [Memory.read_append_left, ih hn]
      intro x hx
      simp only [List.map_cons, List.map_nil, List.mem_singleton] at hx
      subst hx
      show start + n ≠ a
      omega
    · rw [Memory.read_append]
      · have : start + n = a := by omega
        simp [Memory.read_cons, this]
      · intro x hx
        simp only [List.mem_map, List.mem_range] at hx
        obtain ⟨j, hj, rfl⟩ := hx
        show start + j ≠ a
        omega

/-- Reading after a fill: the value inside the range, the old byte outside it. -/
theorem Memory.read_fill (m : Memory) (start len : Nat) (v : Byte) (a : Nat) :
    (m.fill start len v).read a = if start ≤ a ∧ a < start + len then v else m.read a := by
  unfold Memory.fill
  by_cases h1 : a < start
  · rw [if_neg (show ¬(start ≤ a ∧ a < start + len) by omega), Memory.read_append_left,
      Memory.read_filter (fun v => by simpa using h1)]
    intro x hx
    rcases List.mem_append.mp hx with hx | hx
    · split at hx
      · cases hx
      · simp only [List.mem_map, List.mem_range] at hx
        obtain ⟨j, hj, rfl⟩ := hx
        show start + j ≠ a
        omega
    · have := (List.mem_filter.mp hx).2
      simp only [decide_eq_true_eq] at this
      omega
  · rw [Memory.read_append]
    · by_cases h2 : a < start + len
      · rw [if_pos (show start ≤ a ∧ a < start + len by omega), Memory.read_append_left]
        · split
          · rename_i hv
            rw [Memory.read_nil, hv]
          · exact Memory.read_range start v len a (by omega) h2
        · intro x hx
          have := (List.mem_filter.mp hx).2
          simp only [decide_eq_true_eq] at this
          omega
      · rw [if_neg (show ¬(start ≤ a ∧ a < start + len) by omega), Memory.read_append,
          Memory.read_filter (fun v => by simp; omega)]
        intro x hx
        split at hx
        · cases hx
        · simp only [List.mem_map, List.mem_range] at hx
          obtain ⟨j, hj, rfl⟩ := hx
          show start + j ≠ a
          omega
    · intro x hx
      have := (List.mem_filter.mp hx).2
      simp only [decide_eq_true_eq] at this
      omega

/-- What a fill lists: an address of the range with the value, or what was listed outside the range. -/
theorem Memory.mem_fill {m : Memory} {start len : Nat} {v : Byte} {x : Host.Cell} (hx : x ∈ m.fill start len v) :
    (x.2 = v ∧ v ≠ Memory.unlisted ∧ start ≤ x.1 ∧ x.1 < start + len) ∨ x ∈ m := by
  unfold Memory.fill at hx
  rcases List.mem_append.mp hx with hx | hx
  · exact .inr (List.mem_filter.mp hx).1
  · rcases List.mem_append.mp hx with hx | hx
    · split at hx
      · cases hx
      · rename_i hv
        simp only [List.mem_map, List.mem_range] at hx
        obtain ⟨j, hj, rfl⟩ := hx
        exact .inl ⟨rfl, hv, Nat.le_add_right _ _, by show start + j < start + len; omega⟩
    · exact .inr (List.mem_filter.mp hx).1

/-- A fill keeps the canonical form. -/
theorem Memory.fill_wf {m : Memory} (h : m.wf) (start len : Nat) (v : Byte) : (m.fill start len v).wf := by
  refine ⟨?_, fun x hx => ?_⟩
  · have hmid : ((if v = Memory.unlisted then [] else (List.range len).map (fun j => (start + j, v))) : Memory).Pairwise
        (fun x y => x.1 < y.1) := by
      split
      · exact List.Pairwise.nil
      · rw [List.pairwise_map]
        exact List.pairwise_lt_range.imp (fun hab => by show start + _ < start + _; omega)
    have hin : ∀ x ∈ ((if v = Memory.unlisted then [] else (List.range len).map (fun j => (start + j, v))) : Memory),
        start ≤ x.1 ∧ x.1 < start + len := by
      intro x hx
      split at hx
      · cases hx
      · simp only [List.mem_map, List.mem_range] at hx
        obtain ⟨j, hj, rfl⟩ := hx
        show start ≤ start + j ∧ start + j < start + len
        omega
    unfold Memory.fill
    refine List.pairwise_append.mpr ⟨h.1.filter _, List.pairwise_append.mpr ⟨hmid, h.1.filter _, ?_⟩, ?_⟩
    · intro x hx y hy
      have h1 := hin x hx
      have h2 := (List.mem_filter.mp hy).2
      simp only [decide_eq_true_eq] at h2
      omega
    · intro x hx y hy
      have h1 := (List.mem_filter.mp hx).2
      simp only [decide_eq_true_eq] at h1
      rcases List.mem_append.mp hy with hy | hy
      · have := hin y hy
        omega
      · have h2 := (List.mem_filter.mp hy).2
        simp only [decide_eq_true_eq] at h2
        omega
  · rcases Memory.mem_fill hx with ⟨h1, h2, _⟩ | hx
    · rw [h1]
      exact h2
    · exact h.2 x hx

/-- A fill inside the capacity keeps it. -/
theorem Memory.fill_below {m : Memory} {cap start len : Nat} {v : Byte} (h : m.below cap) (hr : start + len ≤ cap) :
    (m.fill start len v).below cap := by
  intro x hx
  rcases Memory.mem_fill hx with ⟨_, _, _, h2⟩ | hx
  · omega
  · exact h x hx

/-- A property that every write inside a range keeps is kept by scrambling the range. -/
theorem Memory.scramble_induction {P : Memory → Prop} {m : Memory} {start len k : Nat} (hm : P m)
    (hw : ∀ m a b, P m → start ≤ a → a < start + len → P (Memory.write m a b)) : P (m.scramble start len k) := by
  unfold Memory.scramble
  have key : ∀ (l : List Nat) (m : Memory), P m → (∀ j ∈ l, j < len) →
      P (l.foldl (fun m j => Memory.write m (start + j) (Config.freeByte (k + j))) m) := by
    intro l
    induction l with
    | nil => exact fun m hm _ => hm
    | cons j l ih =>
      intro m hm hl
      exact ih _ (hw m _ _ hm (by omega) (by have := hl j (by simp); omega)) (fun i hi => hl i (by simp [hi]))
  exact key _ m hm (fun j hj => by simpa using hj)

/-- Scrambling keeps the canonical form. -/
theorem Memory.scramble_wf {m : Memory} (h : m.wf) (start len k : Nat) : (m.scramble start len k).wf :=
  Memory.scramble_induction (P := Memory.wf) h (fun _ a b hm _ _ => Memory.write_wf hm a b)

/-- Scrambling inside the capacity keeps it. -/
theorem Memory.scramble_below {m : Memory} {cap start len : Nat} (h : m.below cap) (hr : start + len ≤ cap) (k : Nat) :
    (m.scramble start len k).below cap :=
  Memory.scramble_induction (P := fun n => n.below cap) h (fun _ _ _ hm _ h2 => Memory.write_below hm (Nat.lt_of_lt_of_le h2 hr))

/-- Scrambling leaves every byte outside the range alone. -/
theorem Memory.read_scramble_outside {m : Memory} {start len x : Nat} (hx : x < start ∨ start + len ≤ x) (k : Nat) :
    (m.scramble start len k).read x = m.read x :=
  Memory.scramble_induction (P := fun n => Memory.read n x = m.read x) rfl
    (fun n a b hn h1 h2 => by rw [Memory.read_write_other n b (by omega), hn])

/-- The memory the devices start with is in canonical form. -/
theorem Memory.nil_wf : Memory.wf [] := ⟨List.Pairwise.nil, by simp⟩

end Sys2Proof.Machine
end

