-- ==== Sys2Proof/Laws/Decode.lean ====
section
/-! SUPPORT. The fields of a request word, the byte orders of addresses, and the command a frame carries. -/

namespace Sys2Proof
/-- Bit `i` of a request word (R100). -/
theorem requestWord_getLsbD (op : BitVec 8) (addr : Addr) (arg : BitVec 32) (i : Nat) :
    (requestWord op addr arg).getLsbD i =
      if i < 32 then arg.getLsbD i else if i < 56 then addr.getLsbD (i - 32) else op.getLsbD (i - 56) := by
  have h := BitVec.getLsbD_append (x := op ++ addr) (y := arg) (i := i)
  have h2 := BitVec.getLsbD_append (x := op) (y := addr) (i := i - 32)
  show (op ++ addr ++ arg : BitVec (8 + 24 + 32)).getLsbD i = _
  rw [h, h2, show i - 32 - 24 = i - 56 by omega]
  by_cases h1 : i < 32
  · simp [h1]
  · simp only [h1, if_false]
    by_cases h3 : i < 56
    · rw [if_pos (show i - 32 < 24 by omega), if_pos h3]
    · rw [if_neg (show ¬ (i - 32 < 24) by omega), if_neg h3]

/-- The `op` field of a request word is `op` (R100). -/
@[simp] theorem opField_requestWord (op : BitVec 8) (addr : Addr) (arg : BitVec 32) :
    opField (requestWord op addr arg) = op := by
  apply BitVec.eq_of_getLsbD_eq
  intro i hi
  rw [opField, BitVec.getLsbD_extractLsb', requestWord_getLsbD]
  simp [hi, show ¬ (56 + i < 32) by omega]

/-- The `addr` field of a request word is `addr` (R100). -/
@[simp] theorem addrField_requestWord (op : BitVec 8) (addr : Addr) (arg : BitVec 32) :
    addrField (requestWord op addr arg) = addr := by
  apply BitVec.eq_of_getLsbD_eq
  intro i hi
  rw [addrField, BitVec.getLsbD_extractLsb', requestWord_getLsbD]
  simp [hi, show 32 + i < 56 by omega]

/-- The `arg` field of a request word is `arg` (R100). -/
@[simp] theorem argField_requestWord (op : BitVec 8) (addr : Addr) (arg : BitVec 32) :
    argField (requestWord op addr arg) = arg := by
  apply BitVec.eq_of_getLsbD_eq
  intro i hi
  rw [argField, BitVec.getLsbD_extractLsb', requestWord_getLsbD]
  simp [hi]

theorem ofBe24_getLsbD (h m l : Byte) (i : Nat) :
    (ofBe24 h m l).getLsbD i = if i < 8 then l.getLsbD i else if i < 16 then m.getLsbD (i - 8) else h.getLsbD (i - 16) := by
  have e1 := BitVec.getLsbD_append (x := h ++ m) (y := l) (i := i)
  have e2 := BitVec.getLsbD_append (x := h) (y := m) (i := i - 8)
  show (h ++ m ++ l : BitVec (8 + 8 + 8)).getLsbD i = _
  rw [e1, e2, show i - 8 - 8 = i - 16 by omega]
  by_cases h1 : i < 8
  · simp [h1]
  · by_cases h2 : i < 16
    · simp [h1, h2, show i - 8 < 8 by omega]
    · simp [h1, h2, show ¬ (i - 8 < 8) by omega]

/-- The three address bytes of an address give it back (R14 (e)). -/
@[simp] theorem ofBe24_bytes (a : BitVec 24) :
    ofBe24 (a.extractLsb' 16 8) (a.extractLsb' 8 8) (a.extractLsb' 0 8) = a := by
  apply BitVec.eq_of_getLsbD_eq
  intro i hi
  rw [ofBe24_getLsbD]
  simp only [BitVec.getLsbD_extractLsb']
  by_cases h1 : i < 8
  · simp [h1]
  · by_cases h2 : i < 16
    · simp [h1, h2, show i - 8 < 8 by omega, show 8 + (i - 8) = i by omega]
    · simp [h1, h2, show i - 16 < 8 by omega, show 16 + (i - 16) = i by omega]

/-- The bytes of the number of three bytes are those bytes (R14 (e)). -/
@[simp] theorem be24_ofBe24 (h m l : Byte) : be24 (ofBe24 h m l) = [h, m, l] := by
  unfold be24
  congr 1
  · apply BitVec.eq_of_getLsbD_eq; intro i hi
    rw [BitVec.getLsbD_extractLsb', ofBe24_getLsbD]; simp [hi, show ¬ (16 + i < 8) by omega]
  congr 1
  · apply BitVec.eq_of_getLsbD_eq; intro i hi
    rw [BitVec.getLsbD_extractLsb', ofBe24_getLsbD]; simp [hi, show 8 + i < 16 by omega]
  congr 1
  · apply BitVec.eq_of_getLsbD_eq; intro i hi
    rw [BitVec.getLsbD_extractLsb', ofBe24_getLsbD]; simp [hi]

theorem append8_getLsbD (h l : Byte) (i : Nat) :
    (h ++ l : BitVec 16).getLsbD i = if i < 8 then l.getLsbD i else h.getLsbD (i - 8) := by
  have e1 := BitVec.getLsbD_append (x := h) (y := l) (i := i)
  rw [show (h ++ l : BitVec 16).getLsbD i = (h ++ l : BitVec (8+8)).getLsbD i from rfl, e1]

theorem be16_bytes (a : BitVec 16) : (a.extractLsb' 8 8 ++ a.extractLsb' 0 8 : BitVec 16) = a := by
  apply BitVec.eq_of_getLsbD_eq; intro i hi
  rw [append8_getLsbD]
  simp only [BitVec.getLsbD_extractLsb']
  by_cases h1 : i < 8
  · simp [h1]
  · simp [h1, show i - 8 < 8 by omega, show 8 + (i - 8) = i by omega]

theorem be16_append (h l : Byte) : be16 (h ++ l) = [h, l] := by
  unfold be16
  congr 1
  · apply BitVec.eq_of_getLsbD_eq; intro i hi
    rw [BitVec.getLsbD_extractLsb', append8_getLsbD]; simp [hi]
  congr 1
  · apply BitVec.eq_of_getLsbD_eq; intro i hi
    rw [BitVec.getLsbD_extractLsb', append8_getLsbD]; simp [hi]

/-- The frame of a command carries that command (R108, R109). -/
theorem decodeNor_bytes {c : Config} (h : c.cmd.all.Nodup) (cmd : NorCmd)
    (hp : ∀ a d, cmd = .pp a d → d.length ≤ c.norPage) : decodeNor c (cmd.bytes c) = .ok cmd := by
  have h := List.nodup_reverse.mpr h
  simp only [Commands.all, List.reverse_cons, List.reverse_nil, List.nil_append, List.cons_append, List.nodup_cons,
    List.mem_cons, List.not_mem_nil, or_false, not_or, List.nodup_nil, and_true] at h
  cases cmd with
  | pp a d =>
    have := hp a d rfl
    simp [NorCmd.bytes, decodeNor, programCommand, be24, ofBe24_bytes, h, this]
  | _ => simp [NorCmd.bytes, decodeNor, bareCommand, addressCommand, statusCommand, be24, ofBe24_bytes, h]

theorem bareCommand_ok {rest : List Byte} {x cmd : NorCmd} (h : bareCommand rest x = .ok cmd) : rest = [] ∧ x = cmd := by
  unfold bareCommand at h
  split at h <;> simp_all

theorem statusCommand_ok {rest : List Byte} {cmd : NorCmd} (h : statusCommand rest = .ok cmd) :
    ∃ v, rest = [v] ∧ cmd = .wrsr1 v := by
  unfold statusCommand at h
  split at h
  · exact ⟨_, rfl, by simpa using h.symm⟩
  · simp at h

theorem addressCommand_ok {rest : List Byte} {f : Addr → NorCmd} {cmd : NorCmd} (h : addressCommand rest f = .ok cmd) :
    ∃ a, rest = be24 a ∧ cmd = f a := by
  unfold addressCommand at h
  split at h
  · exact ⟨_, (be24_ofBe24 _ _ _).symm, by simpa using h.symm⟩
  · simp at h

theorem programCommand_ok {c : Config} {rest : List Byte} {cmd : NorCmd} (h : programCommand c rest = .ok cmd) :
    ∃ a d, rest = be24 a ++ d ∧ cmd = .pp a d ∧ d.length ≤ c.norPage := by
  unfold programCommand at h
  split at h
  · split at h
    · rename_i hl
      exact ⟨_, _, by rw [be24_ofBe24]; rfl, by simpa using h.symm, hl⟩
    · simp at h
  · simp at h

/-- A frame that carries a command is that command's bytes (R108). -/
theorem bytes_of_decodeNor {c : Config} {tx : List Byte} {cmd : NorCmd} (h : decodeNor c tx = .ok cmd) :
    tx = cmd.bytes c ∧ ∀ a d, cmd = .pp a d → d.length ≤ c.norPage := by
  cases tx with
  | nil => simp [decodeNor] at h
  | cons b rest =>
    rw [decodeNor] at h
    by_cases hb : b = c.cmd.wren
    · rw [if_pos hb] at h
      obtain ⟨rfl, rfl⟩ := bareCommand_ok h
      exact ⟨by rw [hb]; rfl, fun a' d' e => by cases e⟩
    rw [if_neg hb] at h
    clear hb
    by_cases hb : b = c.cmd.wrdi
    · rw [if_pos hb] at h
      obtain ⟨rfl, rfl⟩ := bareCommand_ok h
      exact ⟨by rw [hb]; rfl, fun a' d' e => by cases e⟩
    rw [if_neg hb] at h
    clear hb
    by_cases hb : b = c.cmd.rdsr1
    · rw [if_pos hb] at h
      obtain ⟨rfl, rfl⟩ := bareCommand_ok h
      exact ⟨by rw [hb]; rfl, fun a' d' e => by cases e⟩
    rw [if_neg hb] at h
    clear hb
    by_cases hb : b = c.cmd.rdsr2
    · rw [if_pos hb] at h
      obtain ⟨rfl, rfl⟩ := bareCommand_ok h
      exact ⟨by rw [hb]; rfl, fun a' d' e => by cases e⟩
    rw [if_neg hb] at h
    clear hb
    by_cases hb : b = c.cmd.rdsr3
    · rw [if_pos hb] at h
      obtain ⟨rfl, rfl⟩ := bareCommand_ok h
      exact ⟨by rw [hb]; rfl, fun a' d' e => by cases e⟩
    rw [if_neg hb] at h
    clear hb
    by_cases hb : b = c.cmd.wrsr1
    · rw [if_pos hb] at h
      obtain ⟨v, rfl, rfl⟩ := statusCommand_ok h
      exact ⟨by rw [hb]; rfl, fun a' d' e => by cases e⟩
    rw [if_neg hb] at h
    clear hb
    by_cases hb : b = c.cmd.pp
    · rw [if_pos hb] at h
      obtain ⟨a, d, rfl, rfl, hl⟩ := programCommand_ok h
      exact ⟨by rw [hb]; rfl, fun a' d' e => by cases e; exact hl⟩
    rw [if_neg hb] at h
    clear hb
    by_cases hb : b = c.cmd.se
    · rw [if_pos hb] at h
      obtain ⟨a, rfl, rfl⟩ := addressCommand_ok h
      exact ⟨by rw [hb]; rfl, fun a' d' e => by cases e⟩
    rw [if_neg hb] at h
    clear hb
    by_cases hb : b = c.cmd.be64
    · rw [if_pos hb] at h
      obtain ⟨a, rfl, rfl⟩ := addressCommand_ok h
      exact ⟨by rw [hb]; rfl, fun a' d' e => by cases e⟩
    rw [if_neg hb] at h
    clear hb
    by_cases hb : b = c.cmd.ce
    · rw [if_pos hb] at h
      obtain ⟨rfl, rfl⟩ := bareCommand_ok h
      exact ⟨by rw [hb]; rfl, fun a' d' e => by cases e⟩
    rw [if_neg hb] at h
    clear hb
    by_cases hb : b = c.cmd.rdid
    · rw [if_pos hb] at h
      obtain ⟨rfl, rfl⟩ := bareCommand_ok h
      exact ⟨by rw [hb]; rfl, fun a' d' e => by cases e⟩
    rw [if_neg hb] at h
    clear hb
    by_cases hb : b = c.cmd.wake
    · rw [if_pos hb] at h
      obtain ⟨rfl, rfl⟩ := bareCommand_ok h
      exact ⟨by rw [hb]; rfl, fun a' d' e => by cases e⟩
    rw [if_neg hb] at h
    clear hb
    by_cases hb : b = c.cmd.rsten
    · rw [if_pos hb] at h
      obtain ⟨rfl, rfl⟩ := bareCommand_ok h
      exact ⟨by rw [hb]; rfl, fun a' d' e => by cases e⟩
    rw [if_neg hb] at h
    clear hb
    by_cases hb : b = c.cmd.rst
    · rw [if_pos hb] at h
      obtain ⟨rfl, rfl⟩ := bareCommand_ok h
      exact ⟨by rw [hb]; rfl, fun a' d' e => by cases e⟩
    rw [if_neg hb] at h
    clear hb
    by_cases hb : b = c.cmd.read
    · rw [if_pos hb] at h
      obtain ⟨a, rfl, rfl⟩ := addressCommand_ok h
      exact ⟨by rw [hb]; rfl, fun a' d' e => by cases e⟩
    rw [if_neg hb] at h
    clear hb
    cases h

@[simp] theorem be24_length (a : BitVec 24) : (be24 a).length = 3 := rfl
@[simp] theorem be16_length (a : BitVec 16) : (be16 a).length = 2 := rfl

end Sys2Proof
end

