-- ==== Sys2Proof/Laws/State.lean ====
section
/-! SUPPORT. What each update of a state or of a world leaves in each field. -/

namespace Sys2Proof.Machine

/-! `State.emit` -/

@[simp] theorem State.emit_cfg (e : Event) (s : State) : (s.emit e).cfg = s.cfg := rfl
@[simp] theorem State.emit_reqOp (e : Event) (s : State) : (s.emit e).reqOp = s.reqOp := rfl
@[simp] theorem State.emit_reqAddr (e : Event) (s : State) : (s.emit e).reqAddr = s.reqAddr := rfl
@[simp] theorem State.emit_reqArg (e : Event) (s : State) : (s.emit e).reqArg = s.reqArg := rfl
@[simp] theorem State.emit_din (e : Event) (s : State) : (s.emit e).din = s.din := rfl
@[simp] theorem State.emit_dout (e : Event) (s : State) : (s.emit e).dout = s.dout := rfl
@[simp] theorem State.emit_seq (e : Event) (s : State) : (s.emit e).seq = s.seq := rfl
@[simp] theorem State.emit_norPhase (e : Event) (s : State) : (s.emit e).norPhase = s.norPhase := rfl
@[simp] theorem State.emit_attempts (e : Event) (s : State) : (s.emit e).attempts = s.attempts := rfl
@[simp] theorem State.emit_resCode (e : Event) (s : State) : (s.emit e).resCode = s.resCode := rfl
@[simp] theorem State.emit_resAddr (e : Event) (s : State) : (s.emit e).resAddr = s.resAddr := rfl
@[simp] theorem State.emit_resExpected (e : Event) (s : State) : (s.emit e).resExpected = s.resExpected := rfl
@[simp] theorem State.emit_resObserved (e : Event) (s : State) : (s.emit e).resObserved = s.resObserved := rfl
@[simp] theorem State.emit_resAttempts (e : Event) (s : State) : (s.emit e).resAttempts = s.resAttempts := rfl
@[simp] theorem State.emit_failCount (e : Event) (s : State) : (s.emit e).failCount = s.failCount := rfl
@[simp] theorem State.emit_resLen (e : Event) (s : State) : (s.emit e).resLen = s.resLen := rfl
@[simp] theorem State.emit_warn (e : Event) (s : State) : (s.emit e).warn = s.warn := rfl
@[simp] theorem State.emit_norIdent (e : Event) (s : State) : (s.emit e).norIdent = s.norIdent := rfl
@[simp] theorem State.emit_norIdentValid (e : Event) (s : State) : (s.emit e).norIdentValid = s.norIdentValid := rfl
@[simp] theorem State.emit_parDir (e : Event) (s : State) : (s.emit e).parDir = s.parDir := rfl
@[simp] theorem State.emit_world (e : Event) (s : State) : (s.emit e).world = s.world.emit e := rfl
@[simp] theorem State.emit_caller (e : Event) (s : State) : (s.emit e).caller = s.caller := rfl
@[simp] theorem State.emit_rx (e : Event) (s : State) : (s.emit e).rx = s.rx := rfl
@[simp] theorem State.emit_phaseLog (e : Event) (s : State) : (s.emit e).phaseLog = s.phaseLog := rfl

/-! `State.delay` -/

@[simp] theorem State.delay_cfg (t : DelayName) (s : State) : (s.delay t).cfg = s.cfg := rfl
@[simp] theorem State.delay_reqOp (t : DelayName) (s : State) : (s.delay t).reqOp = s.reqOp := rfl
@[simp] theorem State.delay_reqAddr (t : DelayName) (s : State) : (s.delay t).reqAddr = s.reqAddr := rfl
@[simp] theorem State.delay_reqArg (t : DelayName) (s : State) : (s.delay t).reqArg = s.reqArg := rfl
@[simp] theorem State.delay_din (t : DelayName) (s : State) : (s.delay t).din = s.din := rfl
@[simp] theorem State.delay_dout (t : DelayName) (s : State) : (s.delay t).dout = s.dout := rfl
@[simp] theorem State.delay_seq (t : DelayName) (s : State) : (s.delay t).seq = s.seq := rfl
@[simp] theorem State.delay_norPhase (t : DelayName) (s : State) : (s.delay t).norPhase = s.norPhase := rfl
@[simp] theorem State.delay_attempts (t : DelayName) (s : State) : (s.delay t).attempts = s.attempts := rfl
@[simp] theorem State.delay_resCode (t : DelayName) (s : State) : (s.delay t).resCode = s.resCode := rfl
@[simp] theorem State.delay_resAddr (t : DelayName) (s : State) : (s.delay t).resAddr = s.resAddr := rfl
@[simp] theorem State.delay_resExpected (t : DelayName) (s : State) : (s.delay t).resExpected = s.resExpected := rfl
@[simp] theorem State.delay_resObserved (t : DelayName) (s : State) : (s.delay t).resObserved = s.resObserved := rfl
@[simp] theorem State.delay_resAttempts (t : DelayName) (s : State) : (s.delay t).resAttempts = s.resAttempts := rfl
@[simp] theorem State.delay_failCount (t : DelayName) (s : State) : (s.delay t).failCount = s.failCount := rfl
@[simp] theorem State.delay_resLen (t : DelayName) (s : State) : (s.delay t).resLen = s.resLen := rfl
@[simp] theorem State.delay_warn (t : DelayName) (s : State) : (s.delay t).warn = s.warn := rfl
@[simp] theorem State.delay_norIdent (t : DelayName) (s : State) : (s.delay t).norIdent = s.norIdent := rfl
@[simp] theorem State.delay_norIdentValid (t : DelayName) (s : State) : (s.delay t).norIdentValid = s.norIdentValid := rfl
@[simp] theorem State.delay_parDir (t : DelayName) (s : State) : (s.delay t).parDir = s.parDir := rfl
@[simp] theorem State.delay_world (t : DelayName) (s : State) : (s.delay t).world = s.world.delay s.cfg t := rfl
@[simp] theorem State.delay_caller (t : DelayName) (s : State) : (s.delay t).caller = s.caller := rfl
@[simp] theorem State.delay_rx (t : DelayName) (s : State) : (s.delay t).rx = s.rx := rfl
@[simp] theorem State.delay_phaseLog (t : DelayName) (s : State) : (s.delay t).phaseLog = s.phaseLog := rfl

/-! `State.setPhase` -/

@[simp] theorem State.setPhase_cfg (p : NorPhase) (s : State) : (s.setPhase p).cfg = s.cfg := rfl
@[simp] theorem State.setPhase_reqOp (p : NorPhase) (s : State) : (s.setPhase p).reqOp = s.reqOp := rfl
@[simp] theorem State.setPhase_reqAddr (p : NorPhase) (s : State) : (s.setPhase p).reqAddr = s.reqAddr := rfl
@[simp] theorem State.setPhase_reqArg (p : NorPhase) (s : State) : (s.setPhase p).reqArg = s.reqArg := rfl
@[simp] theorem State.setPhase_din (p : NorPhase) (s : State) : (s.setPhase p).din = s.din := rfl
@[simp] theorem State.setPhase_dout (p : NorPhase) (s : State) : (s.setPhase p).dout = s.dout := rfl
@[simp] theorem State.setPhase_seq (p : NorPhase) (s : State) : (s.setPhase p).seq = s.seq := rfl
@[simp] theorem State.setPhase_norPhase (p : NorPhase) (s : State) : (s.setPhase p).norPhase = p := rfl
@[simp] theorem State.setPhase_attempts (p : NorPhase) (s : State) : (s.setPhase p).attempts = s.attempts := rfl
@[simp] theorem State.setPhase_resCode (p : NorPhase) (s : State) : (s.setPhase p).resCode = s.resCode := rfl
@[simp] theorem State.setPhase_resAddr (p : NorPhase) (s : State) : (s.setPhase p).resAddr = s.resAddr := rfl
@[simp] theorem State.setPhase_resExpected (p : NorPhase) (s : State) : (s.setPhase p).resExpected = s.resExpected := rfl
@[simp] theorem State.setPhase_resObserved (p : NorPhase) (s : State) : (s.setPhase p).resObserved = s.resObserved := rfl
@[simp] theorem State.setPhase_resAttempts (p : NorPhase) (s : State) : (s.setPhase p).resAttempts = s.resAttempts := rfl
@[simp] theorem State.setPhase_failCount (p : NorPhase) (s : State) : (s.setPhase p).failCount = s.failCount := rfl
@[simp] theorem State.setPhase_resLen (p : NorPhase) (s : State) : (s.setPhase p).resLen = s.resLen := rfl
@[simp] theorem State.setPhase_warn (p : NorPhase) (s : State) : (s.setPhase p).warn = s.warn := rfl
@[simp] theorem State.setPhase_norIdent (p : NorPhase) (s : State) : (s.setPhase p).norIdent = s.norIdent := rfl
@[simp] theorem State.setPhase_norIdentValid (p : NorPhase) (s : State) : (s.setPhase p).norIdentValid = s.norIdentValid := rfl
@[simp] theorem State.setPhase_parDir (p : NorPhase) (s : State) : (s.setPhase p).parDir = s.parDir := rfl
@[simp] theorem State.setPhase_world (p : NorPhase) (s : State) : (s.setPhase p).world = s.world := rfl
@[simp] theorem State.setPhase_caller (p : NorPhase) (s : State) : (s.setPhase p).caller = s.caller := rfl
@[simp] theorem State.setPhase_rx (p : NorPhase) (s : State) : (s.setPhase p).rx = s.rx := rfl
@[simp] theorem State.setPhase_phaseLog (p : NorPhase) (s : State) : (s.setPhase p).phaseLog = if s.norPhase = p then s.phaseLog else s.phaseLog ++ [p] := rfl

/-! `State.beginOperation` -/

@[simp] theorem State.beginOperation_cfg (s : State) : (s.beginOperation).cfg = s.cfg := rfl
@[simp] theorem State.beginOperation_reqOp (s : State) : (s.beginOperation).reqOp = s.reqOp := rfl
@[simp] theorem State.beginOperation_reqAddr (s : State) : (s.beginOperation).reqAddr = s.reqAddr := rfl
@[simp] theorem State.beginOperation_reqArg (s : State) : (s.beginOperation).reqArg = s.reqArg := rfl
@[simp] theorem State.beginOperation_din (s : State) : (s.beginOperation).din = s.din := rfl
@[simp] theorem State.beginOperation_dout (s : State) : (s.beginOperation).dout = [] := rfl
@[simp] theorem State.beginOperation_seq (s : State) : (s.beginOperation).seq = s.seq := rfl
@[simp] theorem State.beginOperation_norPhase (s : State) : (s.beginOperation).norPhase = s.norPhase := rfl
@[simp] theorem State.beginOperation_attempts (s : State) : (s.beginOperation).attempts = s.attempts := rfl
@[simp] theorem State.beginOperation_resCode (s : State) : (s.beginOperation).resCode = s.resCode := rfl
@[simp] theorem State.beginOperation_resAddr (s : State) : (s.beginOperation).resAddr = s.resAddr := rfl
@[simp] theorem State.beginOperation_resExpected (s : State) : (s.beginOperation).resExpected = s.resExpected := rfl
@[simp] theorem State.beginOperation_resObserved (s : State) : (s.beginOperation).resObserved = s.resObserved := rfl
@[simp] theorem State.beginOperation_resAttempts (s : State) : (s.beginOperation).resAttempts = s.resAttempts := rfl
@[simp] theorem State.beginOperation_failCount (s : State) : (s.beginOperation).failCount = 0 := rfl
@[simp] theorem State.beginOperation_resLen (s : State) : (s.beginOperation).resLen = s.resLen := rfl
@[simp] theorem State.beginOperation_warn (s : State) : (s.beginOperation).warn = s.warn := rfl
@[simp] theorem State.beginOperation_norIdent (s : State) : (s.beginOperation).norIdent = s.norIdent := rfl
@[simp] theorem State.beginOperation_norIdentValid (s : State) : (s.beginOperation).norIdentValid = s.norIdentValid := rfl
@[simp] theorem State.beginOperation_parDir (s : State) : (s.beginOperation).parDir = s.parDir := rfl
@[simp] theorem State.beginOperation_world (s : State) : (s.beginOperation).world = s.world := rfl
@[simp] theorem State.beginOperation_caller (s : State) : (s.beginOperation).caller = s.caller := rfl
@[simp] theorem State.beginOperation_rx (s : State) : (s.beginOperation).rx = s.rx := rfl
@[simp] theorem State.beginOperation_phaseLog (s : State) : (s.beginOperation).phaseLog = s.phaseLog := rfl

/-! `State.complete` -/

@[simp] theorem State.complete_cfg (code : BitVec 8) (s : State) : (s.complete code).cfg = s.cfg := rfl
@[simp] theorem State.complete_reqOp (code : BitVec 8) (s : State) : (s.complete code).reqOp = s.reqOp := rfl
@[simp] theorem State.complete_reqAddr (code : BitVec 8) (s : State) : (s.complete code).reqAddr = s.reqAddr := rfl
@[simp] theorem State.complete_reqArg (code : BitVec 8) (s : State) : (s.complete code).reqArg = s.reqArg := rfl
@[simp] theorem State.complete_din (code : BitVec 8) (s : State) : (s.complete code).din = s.din := rfl
@[simp] theorem State.complete_dout (code : BitVec 8) (s : State) : (s.complete code).dout = s.dout := rfl
@[simp] theorem State.complete_seq (code : BitVec 8) (s : State) : (s.complete code).seq = .idle := rfl
@[simp] theorem State.complete_norPhase (code : BitVec 8) (s : State) : (s.complete code).norPhase = s.norPhase := rfl
@[simp] theorem State.complete_attempts (code : BitVec 8) (s : State) : (s.complete code).attempts = s.attempts := rfl
@[simp] theorem State.complete_resCode (code : BitVec 8) (s : State) : (s.complete code).resCode = code := rfl
@[simp] theorem State.complete_resAddr (code : BitVec 8) (s : State) : (s.complete code).resAddr = s.resAddr := rfl
@[simp] theorem State.complete_resExpected (code : BitVec 8) (s : State) : (s.complete code).resExpected = s.resExpected := rfl
@[simp] theorem State.complete_resObserved (code : BitVec 8) (s : State) : (s.complete code).resObserved = s.resObserved := rfl
@[simp] theorem State.complete_resAttempts (code : BitVec 8) (s : State) : (s.complete code).resAttempts = s.resAttempts := rfl
@[simp] theorem State.complete_failCount (code : BitVec 8) (s : State) : (s.complete code).failCount = s.failCount := rfl
@[simp] theorem State.complete_resLen (code : BitVec 8) (s : State) : (s.complete code).resLen = BitVec.ofNat 32 s.dout.length := rfl
@[simp] theorem State.complete_warn (code : BitVec 8) (s : State) : (s.complete code).warn = s.warn := rfl
@[simp] theorem State.complete_norIdent (code : BitVec 8) (s : State) : (s.complete code).norIdent = s.norIdent := rfl
@[simp] theorem State.complete_norIdentValid (code : BitVec 8) (s : State) : (s.complete code).norIdentValid = s.norIdentValid := rfl
@[simp] theorem State.complete_parDir (code : BitVec 8) (s : State) : (s.complete code).parDir = s.parDir := rfl
@[simp] theorem State.complete_world (code : BitVec 8) (s : State) : (s.complete code).world = s.world.emit (.done code) := rfl
@[simp] theorem State.complete_caller (code : BitVec 8) (s : State) : (s.complete code).caller = s.caller := rfl
@[simp] theorem State.complete_rx (code : BitVec 8) (s : State) : (s.complete code).rx = s.rx := rfl
@[simp] theorem State.complete_phaseLog (code : BitVec 8) (s : State) : (s.complete code).phaseLog = s.phaseLog := rfl

/-! `State.clearWarn` -/

@[simp] theorem State.clearWarn_cfg (bit : BitVec 8) (s : State) : (s.clearWarn bit).cfg = s.cfg := rfl
@[simp] theorem State.clearWarn_reqOp (bit : BitVec 8) (s : State) : (s.clearWarn bit).reqOp = s.reqOp := rfl
@[simp] theorem State.clearWarn_reqAddr (bit : BitVec 8) (s : State) : (s.clearWarn bit).reqAddr = s.reqAddr := rfl
@[simp] theorem State.clearWarn_reqArg (bit : BitVec 8) (s : State) : (s.clearWarn bit).reqArg = s.reqArg := rfl
@[simp] theorem State.clearWarn_din (bit : BitVec 8) (s : State) : (s.clearWarn bit).din = s.din := rfl
@[simp] theorem State.clearWarn_dout (bit : BitVec 8) (s : State) : (s.clearWarn bit).dout = s.dout := rfl
@[simp] theorem State.clearWarn_seq (bit : BitVec 8) (s : State) : (s.clearWarn bit).seq = s.seq := rfl
@[simp] theorem State.clearWarn_norPhase (bit : BitVec 8) (s : State) : (s.clearWarn bit).norPhase = s.norPhase := rfl
@[simp] theorem State.clearWarn_attempts (bit : BitVec 8) (s : State) : (s.clearWarn bit).attempts = s.attempts := rfl
@[simp] theorem State.clearWarn_resCode (bit : BitVec 8) (s : State) : (s.clearWarn bit).resCode = s.resCode := rfl
@[simp] theorem State.clearWarn_resAddr (bit : BitVec 8) (s : State) : (s.clearWarn bit).resAddr = s.resAddr := rfl
@[simp] theorem State.clearWarn_resExpected (bit : BitVec 8) (s : State) : (s.clearWarn bit).resExpected = s.resExpected := rfl
@[simp] theorem State.clearWarn_resObserved (bit : BitVec 8) (s : State) : (s.clearWarn bit).resObserved = s.resObserved := rfl
@[simp] theorem State.clearWarn_resAttempts (bit : BitVec 8) (s : State) : (s.clearWarn bit).resAttempts = s.resAttempts := rfl
@[simp] theorem State.clearWarn_failCount (bit : BitVec 8) (s : State) : (s.clearWarn bit).failCount = s.failCount := rfl
@[simp] theorem State.clearWarn_resLen (bit : BitVec 8) (s : State) : (s.clearWarn bit).resLen = s.resLen := rfl
@[simp] theorem State.clearWarn_warn (bit : BitVec 8) (s : State) : (s.clearWarn bit).warn = s.warn &&& ~~~bit := rfl
@[simp] theorem State.clearWarn_norIdent (bit : BitVec 8) (s : State) : (s.clearWarn bit).norIdent = s.norIdent := rfl
@[simp] theorem State.clearWarn_norIdentValid (bit : BitVec 8) (s : State) : (s.clearWarn bit).norIdentValid = s.norIdentValid := rfl
@[simp] theorem State.clearWarn_parDir (bit : BitVec 8) (s : State) : (s.clearWarn bit).parDir = s.parDir := rfl
@[simp] theorem State.clearWarn_world (bit : BitVec 8) (s : State) : (s.clearWarn bit).world = s.world := rfl
@[simp] theorem State.clearWarn_caller (bit : BitVec 8) (s : State) : (s.clearWarn bit).caller = s.caller := rfl
@[simp] theorem State.clearWarn_rx (bit : BitVec 8) (s : State) : (s.clearWarn bit).rx = s.rx := rfl
@[simp] theorem State.clearWarn_phaseLog (bit : BitVec 8) (s : State) : (s.clearWarn bit).phaseLog = s.phaseLog := rfl

/-! `State.setWarn` -/

@[simp] theorem State.setWarn_cfg (bit : BitVec 8) (s : State) : (s.setWarn bit).cfg = s.cfg := rfl
@[simp] theorem State.setWarn_reqOp (bit : BitVec 8) (s : State) : (s.setWarn bit).reqOp = s.reqOp := rfl
@[simp] theorem State.setWarn_reqAddr (bit : BitVec 8) (s : State) : (s.setWarn bit).reqAddr = s.reqAddr := rfl
@[simp] theorem State.setWarn_reqArg (bit : BitVec 8) (s : State) : (s.setWarn bit).reqArg = s.reqArg := rfl
@[simp] theorem State.setWarn_din (bit : BitVec 8) (s : State) : (s.setWarn bit).din = s.din := rfl
@[simp] theorem State.setWarn_dout (bit : BitVec 8) (s : State) : (s.setWarn bit).dout = s.dout := rfl
@[simp] theorem State.setWarn_seq (bit : BitVec 8) (s : State) : (s.setWarn bit).seq = s.seq := rfl
@[simp] theorem State.setWarn_norPhase (bit : BitVec 8) (s : State) : (s.setWarn bit).norPhase = s.norPhase := rfl
@[simp] theorem State.setWarn_attempts (bit : BitVec 8) (s : State) : (s.setWarn bit).attempts = s.attempts := rfl
@[simp] theorem State.setWarn_resCode (bit : BitVec 8) (s : State) : (s.setWarn bit).resCode = s.resCode := rfl
@[simp] theorem State.setWarn_resAddr (bit : BitVec 8) (s : State) : (s.setWarn bit).resAddr = s.resAddr := rfl
@[simp] theorem State.setWarn_resExpected (bit : BitVec 8) (s : State) : (s.setWarn bit).resExpected = s.resExpected := rfl
@[simp] theorem State.setWarn_resObserved (bit : BitVec 8) (s : State) : (s.setWarn bit).resObserved = s.resObserved := rfl
@[simp] theorem State.setWarn_resAttempts (bit : BitVec 8) (s : State) : (s.setWarn bit).resAttempts = s.resAttempts := rfl
@[simp] theorem State.setWarn_failCount (bit : BitVec 8) (s : State) : (s.setWarn bit).failCount = s.failCount := rfl
@[simp] theorem State.setWarn_resLen (bit : BitVec 8) (s : State) : (s.setWarn bit).resLen = s.resLen := rfl
@[simp] theorem State.setWarn_warn (bit : BitVec 8) (s : State) : (s.setWarn bit).warn = s.warn ||| bit := rfl
@[simp] theorem State.setWarn_norIdent (bit : BitVec 8) (s : State) : (s.setWarn bit).norIdent = s.norIdent := rfl
@[simp] theorem State.setWarn_norIdentValid (bit : BitVec 8) (s : State) : (s.setWarn bit).norIdentValid = s.norIdentValid := rfl
@[simp] theorem State.setWarn_parDir (bit : BitVec 8) (s : State) : (s.setWarn bit).parDir = s.parDir := rfl
@[simp] theorem State.setWarn_world (bit : BitVec 8) (s : State) : (s.setWarn bit).world = s.world := rfl
@[simp] theorem State.setWarn_caller (bit : BitVec 8) (s : State) : (s.setWarn bit).caller = s.caller := rfl
@[simp] theorem State.setWarn_rx (bit : BitVec 8) (s : State) : (s.setWarn bit).rx = s.rx := rfl
@[simp] theorem State.setWarn_phaseLog (bit : BitVec 8) (s : State) : (s.setWarn bit).phaseLog = s.phaseLog := rfl

/-! `State.lineSet` -/

@[simp] theorem State.lineSet_cfg (id : Nat) (v : Bool) (s : State) : (s.lineSet id v).cfg = s.cfg := rfl
@[simp] theorem State.lineSet_reqOp (id : Nat) (v : Bool) (s : State) : (s.lineSet id v).reqOp = s.reqOp := rfl
@[simp] theorem State.lineSet_reqAddr (id : Nat) (v : Bool) (s : State) : (s.lineSet id v).reqAddr = s.reqAddr := rfl
@[simp] theorem State.lineSet_reqArg (id : Nat) (v : Bool) (s : State) : (s.lineSet id v).reqArg = s.reqArg := rfl
@[simp] theorem State.lineSet_din (id : Nat) (v : Bool) (s : State) : (s.lineSet id v).din = s.din := rfl
@[simp] theorem State.lineSet_dout (id : Nat) (v : Bool) (s : State) : (s.lineSet id v).dout = s.dout := rfl
@[simp] theorem State.lineSet_seq (id : Nat) (v : Bool) (s : State) : (s.lineSet id v).seq = s.seq := rfl
@[simp] theorem State.lineSet_norPhase (id : Nat) (v : Bool) (s : State) : (s.lineSet id v).norPhase = s.norPhase := rfl
@[simp] theorem State.lineSet_attempts (id : Nat) (v : Bool) (s : State) : (s.lineSet id v).attempts = s.attempts := rfl
@[simp] theorem State.lineSet_resCode (id : Nat) (v : Bool) (s : State) : (s.lineSet id v).resCode = s.resCode := rfl
@[simp] theorem State.lineSet_resAddr (id : Nat) (v : Bool) (s : State) : (s.lineSet id v).resAddr = s.resAddr := rfl
@[simp] theorem State.lineSet_resExpected (id : Nat) (v : Bool) (s : State) : (s.lineSet id v).resExpected = s.resExpected := rfl
@[simp] theorem State.lineSet_resObserved (id : Nat) (v : Bool) (s : State) : (s.lineSet id v).resObserved = s.resObserved := rfl
@[simp] theorem State.lineSet_resAttempts (id : Nat) (v : Bool) (s : State) : (s.lineSet id v).resAttempts = s.resAttempts := rfl
@[simp] theorem State.lineSet_failCount (id : Nat) (v : Bool) (s : State) : (s.lineSet id v).failCount = s.failCount := rfl
@[simp] theorem State.lineSet_resLen (id : Nat) (v : Bool) (s : State) : (s.lineSet id v).resLen = s.resLen := rfl
@[simp] theorem State.lineSet_warn (id : Nat) (v : Bool) (s : State) : (s.lineSet id v).warn = s.warn := rfl
@[simp] theorem State.lineSet_norIdent (id : Nat) (v : Bool) (s : State) : (s.lineSet id v).norIdent = s.norIdent := rfl
@[simp] theorem State.lineSet_norIdentValid (id : Nat) (v : Bool) (s : State) : (s.lineSet id v).norIdentValid = s.norIdentValid := rfl
@[simp] theorem State.lineSet_parDir (id : Nat) (v : Bool) (s : State) : (s.lineSet id v).parDir = s.parDir := rfl
@[simp] theorem State.lineSet_world (id : Nat) (v : Bool) (s : State) : (s.lineSet id v).world = s.world.lineSet s.cfg id v := rfl
@[simp] theorem State.lineSet_caller (id : Nat) (v : Bool) (s : State) : (s.lineSet id v).caller = s.caller := rfl
@[simp] theorem State.lineSet_rx (id : Nat) (v : Bool) (s : State) : (s.lineSet id v).rx = s.rx := rfl
@[simp] theorem State.lineSet_phaseLog (id : Nat) (v : Bool) (s : State) : (s.lineSet id v).phaseLog = s.phaseLog := rfl

/-! `State.lineDir` -/

@[simp] theorem State.lineDir_cfg (id : Nat) (d : LineDirection) (s : State) : (s.lineDir id d).cfg = s.cfg := rfl
@[simp] theorem State.lineDir_reqOp (id : Nat) (d : LineDirection) (s : State) : (s.lineDir id d).reqOp = s.reqOp := rfl
@[simp] theorem State.lineDir_reqAddr (id : Nat) (d : LineDirection) (s : State) : (s.lineDir id d).reqAddr = s.reqAddr := rfl
@[simp] theorem State.lineDir_reqArg (id : Nat) (d : LineDirection) (s : State) : (s.lineDir id d).reqArg = s.reqArg := rfl
@[simp] theorem State.lineDir_din (id : Nat) (d : LineDirection) (s : State) : (s.lineDir id d).din = s.din := rfl
@[simp] theorem State.lineDir_dout (id : Nat) (d : LineDirection) (s : State) : (s.lineDir id d).dout = s.dout := rfl
@[simp] theorem State.lineDir_seq (id : Nat) (d : LineDirection) (s : State) : (s.lineDir id d).seq = s.seq := rfl
@[simp] theorem State.lineDir_norPhase (id : Nat) (d : LineDirection) (s : State) : (s.lineDir id d).norPhase = s.norPhase := rfl
@[simp] theorem State.lineDir_attempts (id : Nat) (d : LineDirection) (s : State) : (s.lineDir id d).attempts = s.attempts := rfl
@[simp] theorem State.lineDir_resCode (id : Nat) (d : LineDirection) (s : State) : (s.lineDir id d).resCode = s.resCode := rfl
@[simp] theorem State.lineDir_resAddr (id : Nat) (d : LineDirection) (s : State) : (s.lineDir id d).resAddr = s.resAddr := rfl
@[simp] theorem State.lineDir_resExpected (id : Nat) (d : LineDirection) (s : State) : (s.lineDir id d).resExpected = s.resExpected := rfl
@[simp] theorem State.lineDir_resObserved (id : Nat) (d : LineDirection) (s : State) : (s.lineDir id d).resObserved = s.resObserved := rfl
@[simp] theorem State.lineDir_resAttempts (id : Nat) (d : LineDirection) (s : State) : (s.lineDir id d).resAttempts = s.resAttempts := rfl
@[simp] theorem State.lineDir_failCount (id : Nat) (d : LineDirection) (s : State) : (s.lineDir id d).failCount = s.failCount := rfl
@[simp] theorem State.lineDir_resLen (id : Nat) (d : LineDirection) (s : State) : (s.lineDir id d).resLen = s.resLen := rfl
@[simp] theorem State.lineDir_warn (id : Nat) (d : LineDirection) (s : State) : (s.lineDir id d).warn = s.warn := rfl
@[simp] theorem State.lineDir_norIdent (id : Nat) (d : LineDirection) (s : State) : (s.lineDir id d).norIdent = s.norIdent := rfl
@[simp] theorem State.lineDir_norIdentValid (id : Nat) (d : LineDirection) (s : State) : (s.lineDir id d).norIdentValid = s.norIdentValid := rfl
@[simp] theorem State.lineDir_parDir (id : Nat) (d : LineDirection) (s : State) : (s.lineDir id d).parDir = s.parDir := rfl
@[simp] theorem State.lineDir_world (id : Nat) (d : LineDirection) (s : State) : (s.lineDir id d).world = s.world.lineDir id d := rfl
@[simp] theorem State.lineDir_caller (id : Nat) (d : LineDirection) (s : State) : (s.lineDir id d).caller = s.caller := rfl
@[simp] theorem State.lineDir_rx (id : Nat) (d : LineDirection) (s : State) : (s.lineDir id d).rx = s.rx := rfl
@[simp] theorem State.lineDir_phaseLog (id : Nat) (d : LineDirection) (s : State) : (s.lineDir id d).phaseLog = s.phaseLog := rfl

/-! `State.lineGet` -/

@[simp] theorem State.lineGet_cfg (i : Nat) (s : State) : ((s.lineGet i).2).cfg = s.cfg := rfl
@[simp] theorem State.lineGet_reqOp (i : Nat) (s : State) : ((s.lineGet i).2).reqOp = s.reqOp := rfl
@[simp] theorem State.lineGet_reqAddr (i : Nat) (s : State) : ((s.lineGet i).2).reqAddr = s.reqAddr := rfl
@[simp] theorem State.lineGet_reqArg (i : Nat) (s : State) : ((s.lineGet i).2).reqArg = s.reqArg := rfl
@[simp] theorem State.lineGet_din (i : Nat) (s : State) : ((s.lineGet i).2).din = s.din := rfl
@[simp] theorem State.lineGet_dout (i : Nat) (s : State) : ((s.lineGet i).2).dout = s.dout := rfl
@[simp] theorem State.lineGet_seq (i : Nat) (s : State) : ((s.lineGet i).2).seq = s.seq := rfl
@[simp] theorem State.lineGet_norPhase (i : Nat) (s : State) : ((s.lineGet i).2).norPhase = s.norPhase := rfl
@[simp] theorem State.lineGet_attempts (i : Nat) (s : State) : ((s.lineGet i).2).attempts = s.attempts := rfl
@[simp] theorem State.lineGet_resCode (i : Nat) (s : State) : ((s.lineGet i).2).resCode = s.resCode := rfl
@[simp] theorem State.lineGet_resAddr (i : Nat) (s : State) : ((s.lineGet i).2).resAddr = s.resAddr := rfl
@[simp] theorem State.lineGet_resExpected (i : Nat) (s : State) : ((s.lineGet i).2).resExpected = s.resExpected := rfl
@[simp] theorem State.lineGet_resObserved (i : Nat) (s : State) : ((s.lineGet i).2).resObserved = s.resObserved := rfl
@[simp] theorem State.lineGet_resAttempts (i : Nat) (s : State) : ((s.lineGet i).2).resAttempts = s.resAttempts := rfl
@[simp] theorem State.lineGet_failCount (i : Nat) (s : State) : ((s.lineGet i).2).failCount = s.failCount := rfl
@[simp] theorem State.lineGet_resLen (i : Nat) (s : State) : ((s.lineGet i).2).resLen = s.resLen := rfl
@[simp] theorem State.lineGet_warn (i : Nat) (s : State) : ((s.lineGet i).2).warn = s.warn := rfl
@[simp] theorem State.lineGet_norIdent (i : Nat) (s : State) : ((s.lineGet i).2).norIdent = s.norIdent := rfl
@[simp] theorem State.lineGet_norIdentValid (i : Nat) (s : State) : ((s.lineGet i).2).norIdentValid = s.norIdentValid := rfl
@[simp] theorem State.lineGet_parDir (i : Nat) (s : State) : ((s.lineGet i).2).parDir = s.parDir := rfl
@[simp] theorem State.lineGet_world (i : Nat) (s : State) : ((s.lineGet i).2).world = (s.world.lineGet i).2 := rfl
@[simp] theorem State.lineGet_caller (i : Nat) (s : State) : ((s.lineGet i).2).caller = s.caller := rfl
@[simp] theorem State.lineGet_rx (i : Nat) (s : State) : ((s.lineGet i).2).rx = s.rx := rfl
@[simp] theorem State.lineGet_phaseLog (i : Nat) (s : State) : ((s.lineGet i).2).phaseLog = s.phaseLog := rfl

/-! `State.spi` -/

@[simp] theorem State.spi_cfg (tx : List Byte) (n : Nat) (s : State) : ((s.spi tx n).2).cfg = s.cfg := rfl
@[simp] theorem State.spi_reqOp (tx : List Byte) (n : Nat) (s : State) : ((s.spi tx n).2).reqOp = s.reqOp := rfl
@[simp] theorem State.spi_reqAddr (tx : List Byte) (n : Nat) (s : State) : ((s.spi tx n).2).reqAddr = s.reqAddr := rfl
@[simp] theorem State.spi_reqArg (tx : List Byte) (n : Nat) (s : State) : ((s.spi tx n).2).reqArg = s.reqArg := rfl
@[simp] theorem State.spi_din (tx : List Byte) (n : Nat) (s : State) : ((s.spi tx n).2).din = s.din := rfl
@[simp] theorem State.spi_dout (tx : List Byte) (n : Nat) (s : State) : ((s.spi tx n).2).dout = s.dout := rfl
@[simp] theorem State.spi_seq (tx : List Byte) (n : Nat) (s : State) : ((s.spi tx n).2).seq = s.seq := rfl
@[simp] theorem State.spi_norPhase (tx : List Byte) (n : Nat) (s : State) : ((s.spi tx n).2).norPhase = s.norPhase := rfl
@[simp] theorem State.spi_attempts (tx : List Byte) (n : Nat) (s : State) : ((s.spi tx n).2).attempts = s.attempts := rfl
@[simp] theorem State.spi_resCode (tx : List Byte) (n : Nat) (s : State) : ((s.spi tx n).2).resCode = s.resCode := rfl
@[simp] theorem State.spi_resAddr (tx : List Byte) (n : Nat) (s : State) : ((s.spi tx n).2).resAddr = s.resAddr := rfl
@[simp] theorem State.spi_resExpected (tx : List Byte) (n : Nat) (s : State) : ((s.spi tx n).2).resExpected = s.resExpected := rfl
@[simp] theorem State.spi_resObserved (tx : List Byte) (n : Nat) (s : State) : ((s.spi tx n).2).resObserved = s.resObserved := rfl
@[simp] theorem State.spi_resAttempts (tx : List Byte) (n : Nat) (s : State) : ((s.spi tx n).2).resAttempts = s.resAttempts := rfl
@[simp] theorem State.spi_failCount (tx : List Byte) (n : Nat) (s : State) : ((s.spi tx n).2).failCount = s.failCount := rfl
@[simp] theorem State.spi_resLen (tx : List Byte) (n : Nat) (s : State) : ((s.spi tx n).2).resLen = s.resLen := rfl
@[simp] theorem State.spi_warn (tx : List Byte) (n : Nat) (s : State) : ((s.spi tx n).2).warn = s.warn := rfl
@[simp] theorem State.spi_norIdent (tx : List Byte) (n : Nat) (s : State) : ((s.spi tx n).2).norIdent = s.norIdent := rfl
@[simp] theorem State.spi_norIdentValid (tx : List Byte) (n : Nat) (s : State) : ((s.spi tx n).2).norIdentValid = s.norIdentValid := rfl
@[simp] theorem State.spi_parDir (tx : List Byte) (n : Nat) (s : State) : ((s.spi tx n).2).parDir = s.parDir := rfl
@[simp] theorem State.spi_world (tx : List Byte) (n : Nat) (s : State) : ((s.spi tx n).2).world = (s.world.spiFrame s.cfg tx n).2 := rfl
@[simp] theorem State.spi_caller (tx : List Byte) (n : Nat) (s : State) : ((s.spi tx n).2).caller = s.caller := rfl
@[simp] theorem State.spi_rx (tx : List Byte) (n : Nat) (s : State) : ((s.spi tx n).2).rx = s.rx := rfl
@[simp] theorem State.spi_phaseLog (tx : List Byte) (n : Nat) (s : State) : ((s.spi tx n).2).phaseLog = s.phaseLog := rfl

/-! `World.emit` -/

@[simp] theorem World.emit_trace (e : Event) (s : World) : (s.emit e).trace = s.trace ++ [e] := rfl
@[simp] theorem World.emit_nor (e : Event) (s : World) : (s.emit e).nor = s.nor := rfl
@[simp] theorem World.emit_see (e : Event) (s : World) : (s.emit e).see = s.see := rfl
@[simp] theorem World.emit_par (e : Event) (s : World) : (s.emit e).par = s.par := rfl
@[simp] theorem World.emit_spiIn (e : Event) (s : World) : (s.emit e).spiIn = s.spiIn := rfl
@[simp] theorem World.emit_i2cIn (e : Event) (s : World) : (s.emit e).i2cIn = s.i2cIn := rfl
@[simp] theorem World.emit_samples (e : Event) (s : World) : (s.emit e).samples = s.samples := rfl
@[simp] theorem World.emit_scans (e : Event) (s : World) : (s.emit e).scans = s.scans := rfl
@[simp] theorem World.emit_free (e : Event) (s : World) : (s.emit e).free = s.free := rfl

/-! `World.log` -/

@[simp] theorem World.log_trace (es : List Event) (s : World) : (s.log es).trace = s.trace ++ es := rfl
@[simp] theorem World.log_nor (es : List Event) (s : World) : (s.log es).nor = s.nor := rfl
@[simp] theorem World.log_see (es : List Event) (s : World) : (s.log es).see = s.see := rfl
@[simp] theorem World.log_par (es : List Event) (s : World) : (s.log es).par = s.par := rfl
@[simp] theorem World.log_spiIn (es : List Event) (s : World) : (s.log es).spiIn = s.spiIn := rfl
@[simp] theorem World.log_i2cIn (es : List Event) (s : World) : (s.log es).i2cIn = s.i2cIn := rfl
@[simp] theorem World.log_samples (es : List Event) (s : World) : (s.log es).samples = s.samples := rfl
@[simp] theorem World.log_scans (es : List Event) (s : World) : (s.log es).scans = s.scans := rfl
@[simp] theorem World.log_free (es : List Event) (s : World) : (s.log es).free = s.free := rfl

/-! `World.delay` -/

@[simp] theorem World.delay_trace (c : Config) (t : DelayName) (s : World) : (s.delay c t).trace = s.trace ++ [.delay t] := rfl
@[simp] theorem World.delay_nor (c : Config) (t : DelayName) (s : World) : (s.delay c t).nor = { s.nor with powerUpLeft := s.nor.powerUpLeft - duration c t } := rfl
@[simp] theorem World.delay_see (c : Config) (t : DelayName) (s : World) : (s.delay c t).see = { s.see with cycleLeft := s.see.cycleLeft - duration c t } := rfl
@[simp] theorem World.delay_par (c : Config) (t : DelayName) (s : World) : (s.delay c t).par = s.par := rfl
@[simp] theorem World.delay_spiIn (c : Config) (t : DelayName) (s : World) : (s.delay c t).spiIn = s.spiIn := rfl
@[simp] theorem World.delay_i2cIn (c : Config) (t : DelayName) (s : World) : (s.delay c t).i2cIn = s.i2cIn := rfl
@[simp] theorem World.delay_samples (c : Config) (t : DelayName) (s : World) : (s.delay c t).samples = s.samples := rfl
@[simp] theorem World.delay_scans (c : Config) (t : DelayName) (s : World) : (s.delay c t).scans = s.scans := rfl
@[simp] theorem World.delay_free (c : Config) (t : DelayName) (s : World) : (s.delay c t).free = s.free := rfl

/-! `World.lineDir` -/

@[simp] theorem World.lineDir_trace (id : Nat) (d : LineDirection) (s : World) : (s.lineDir id d).trace = s.trace ++ [.lineDir id d] := rfl
@[simp] theorem World.lineDir_nor (id : Nat) (d : LineDirection) (s : World) : (s.lineDir id d).nor = s.nor := rfl
@[simp] theorem World.lineDir_see (id : Nat) (d : LineDirection) (s : World) : (s.lineDir id d).see = s.see := rfl
@[simp] theorem World.lineDir_par (id : Nat) (d : LineDirection) (s : World) : (s.lineDir id d).par = { s.par with inputs := setLineBit s.par.inputs id (d == .input), outputs := setLineBit s.par.outputs id (d == .output) } := rfl
@[simp] theorem World.lineDir_spiIn (id : Nat) (d : LineDirection) (s : World) : (s.lineDir id d).spiIn = s.spiIn := rfl
@[simp] theorem World.lineDir_i2cIn (id : Nat) (d : LineDirection) (s : World) : (s.lineDir id d).i2cIn = s.i2cIn := rfl
@[simp] theorem World.lineDir_samples (id : Nat) (d : LineDirection) (s : World) : (s.lineDir id d).samples = s.samples := rfl
@[simp] theorem World.lineDir_scans (id : Nat) (d : LineDirection) (s : World) : (s.lineDir id d).scans = s.scans := rfl
@[simp] theorem World.lineDir_free (id : Nat) (d : LineDirection) (s : World) : (s.lineDir id d).free = s.free := rfl

/-! `World.lineGet` -/

@[simp] theorem World.lineGet_trace (i : Nat) (s : World) : ((s.lineGet i).2).trace = s.trace ++ [.lineGet (lineD i) (s.par.drive.getLsbD i)] := rfl
@[simp] theorem World.lineGet_nor (i : Nat) (s : World) : ((s.lineGet i).2).nor = s.nor := rfl
@[simp] theorem World.lineGet_see (i : Nat) (s : World) : ((s.lineGet i).2).see = s.see := rfl
@[simp] theorem World.lineGet_par (i : Nat) (s : World) : ((s.lineGet i).2).par = s.par := rfl
@[simp] theorem World.lineGet_spiIn (i : Nat) (s : World) : ((s.lineGet i).2).spiIn = s.spiIn := rfl
@[simp] theorem World.lineGet_i2cIn (i : Nat) (s : World) : ((s.lineGet i).2).i2cIn = s.i2cIn := rfl
@[simp] theorem World.lineGet_samples (i : Nat) (s : World) : ((s.lineGet i).2).samples = s.samples := rfl
@[simp] theorem World.lineGet_scans (i : Nat) (s : World) : ((s.lineGet i).2).scans = s.scans := rfl
@[simp] theorem World.lineGet_free (i : Nat) (s : World) : ((s.lineGet i).2).free = s.free := rfl

end Sys2Proof.Machine
end

