-- ==== Sys2Proof/Laws/NorBus.lean ====
section
/-! SUPPORT. What a frame, a poll, the latch check and the whole skeleton do when every answer is given from outside, for any
device: one lemma for each shared procedure of R141 to R145. -/

namespace Sys2Proof.Machine

theorem World.spiFrame_send (c : Config) (tx : List Byte) (w : World) :
    w.spiFrame c tx 0 = ([], { w.log (sendEvents tx) with
      nor := (w.nor.react c w.free tx).1, free := (w.nor.react c w.free tx).2 }) := by
  simp [World.spiFrame, sendEvents, World.log]

/-- A frame that reads nothing (R141). -/
theorem State.spiSend_eq (tx : List Byte) (s : State) :
    s.spiSend tx = { s with world := { s.world.log (sendEvents tx) with
      nor := (s.world.nor.react s.cfg s.world.free tx).1, free := (s.world.nor.react s.cfg s.world.free tx).2 } } := by
  simp [State.spiSend, State.spi, World.spiFrame_send]

/-- A frame that reads, when the bytes are given from outside (R141). -/
theorem State.spi_answered (tx : List Byte) {data rest : List Byte} {s : State} (h0 : data ≠ [])
    (h : s.world.spiIn = data ++ rest) :
    ∃ nor k, s.spi tx data.length = (data, { s with world := { s.world.log (askEvents tx data) with
      nor := nor, free := k, spiIn := rest } }) := by
  have hn : data.length ≠ 0 := fun e => h0 (List.length_eq_zero_iff.mp e)
  have hlen : ((s.world.nor.answer s.cfg s.world.free tx data.length).1).length ≤ data.length := by
    have hpad : ∀ known k, (padFree known data.length k).1.length ≤ data.length := by
      intro known k; simp [padFree]
    unfold NorDevice.answer
    split
    · exact hpad _ _
    · split
      · exact hpad _ _
      · split
        · exact hpad _ _
        · split
          · exact hpad _ _
          · exact hpad _ _
  unfold State.spi World.spiFrame
  simp only [hn, if_false]
  rw [h, List.take_left, List.drop_of_length_le (Nat.le_trans hlen (by simp)), List.append_nil, List.drop_left]
  exact ⟨_, _, rfl⟩

/-- A status read, when the byte is given from outside (R142). -/
theorem State.readStatus_answered (command : Byte) {b : Byte} {rest : List Byte} {s : State}
    (h : s.world.spiIn = b :: rest) :
    ∃ nor k, s.readStatus command = (b, { s with world := { s.world.log (askEvents [command] [b]) with
      nor := nor, free := k, spiIn := rest } }) := by
  obtain ⟨nor, k, hs⟩ := State.spi_answered [command] (data := [b]) (by simp) (show s.world.spiIn = [b] ++ rest from h)
  refine ⟨nor, k, ?_⟩
  unfold State.readStatus
  rw [show (1 : Nat) = [b].length from rfl, hs]
  rfl

theorem statusEvents_cons (c : Config) (b : Byte) (l : List Byte) :
    statusEvents c (b :: l) = askEvents [c.cmd.rdsr1] [b] ++ statusEvents c l := by
  simp [statusEvents]

theorem statusEvents_append (c : Config) (l m : List Byte) :
    statusEvents c (l ++ m) = statusEvents c l ++ statusEvents c m := by
  simp [statusEvents]

/-- `N` busy answers and one that is not take `N + 1` polls (R143). -/
theorem waitNotBusy_answered {busy : List Byte} {last : Byte} {rest : List Byte} (hb : ∀ b ∈ busy, busyFlag b = true)
    (hl : busyFlag last = false) : ∀ {fuel : Nat} {s : State}, busy.length < fuel →
      s.world.spiIn = busy ++ last :: rest →
      ∃ nor k, waitNotBusy fuel s = (true, { s with world := { s.world.log (statusEvents s.cfg (busy ++ [last])) with
        nor := nor, free := k, spiIn := rest } }) := by
  induction busy with
  | nil =>
    intro fuel s hf h
    obtain ⟨n, rfl⟩ : ∃ n, fuel = n + 1 := ⟨fuel - 1, by simp at hf; omega⟩
    obtain ⟨nor, k, hs⟩ := State.readStatus_answered s.cfg.cmd.rdsr1 (show s.world.spiIn = last :: rest from h)
    refine ⟨nor, k, ?_⟩
    simp [waitNotBusy, hs, hl, statusEvents]
  | cons b l ih =>
    intro fuel s hf h
    obtain ⟨n, rfl⟩ : ∃ n, fuel = n + 1 := ⟨fuel - 1, by simp at hf; omega⟩
    obtain ⟨nor, k, hs⟩ := State.readStatus_answered s.cfg.cmd.rdsr1 (show s.world.spiIn = b :: (l ++ last :: rest) from h)
    simp only [waitNotBusy, hs, hb b (by simp), if_true]
    obtain ⟨nor2, k2, h2⟩ := ih (fun x hx => hb x (by simp [hx])) (fuel := n)
      (s := { s with world := { s.world.log (askEvents [s.cfg.cmd.rdsr1] [b]) with
        nor := nor, free := k, spiIn := l ++ last :: rest } }) (by simp at hf; omega) rfl
    refine ⟨nor2, k2, ?_⟩
    rw [h2]
    simp [World.log, statusEvents_cons]

/-- A poll whose answers are given from outside and end (R143). -/
theorem State.poll_answered {answers rest : List Byte} {s : State} (ha : PollAnswers answers)
    (h : s.world.spiIn = answers ++ rest) :
    ∃ nor k, s.poll = (true, { s with world := { s.world.log (statusEvents s.cfg answers) with
      nor := nor, free := k, spiIn := rest } }) := by
  obtain ⟨busy, last, rfl, hb, hl⟩ := ha
  unfold State.poll
  refine waitNotBusy_answered hb hl ?_ (by simpa using h)
  unfold pollFuel
  rw [h]
  simp only [List.length_append, List.length_cons, List.length_nil]
  omega

/-- The latch check that ends well (R144). -/
theorem ensureWriteEnabled_answered {answers rest : List Byte} {s : State} (ha : LatchAnswers answers)
    (h : s.world.spiIn = answers ++ rest) :
    ∃ nor k, ensureWriteEnabled s = (none, { s.setPhase .writeEnableAsserted with
      world := { s.world.log (latchEvents s.cfg answers) with nor := nor, free := k, spiIn := rest } }) := by
  rcases ha with ⟨a, rfl, hl⟩ | ⟨a, b, rfl, hl, hl2⟩
  · obtain ⟨nor, k, hs⟩ := State.readStatus_answered s.cfg.cmd.rdsr1 (b := a) (rest := rest)
      (s := (s.setPhase .writeEnableAsserted).spiSend [s.cfg.cmd.wren]) (by rw [State.spiSend_eq]; exact h)
    refine ⟨nor, k, ?_⟩
    simp only [ensureWriteEnabled, hs, hl, if_true]
    rw [State.spiSend_eq]
    simp [latchEvents, statusEvents, World.log]
  · obtain ⟨nor, k, hs⟩ := State.readStatus_answered s.cfg.cmd.rdsr1 (b := a) (rest := b :: rest)
      (s := (s.setPhase .writeEnableAsserted).spiSend [s.cfg.cmd.wren]) (by rw [State.spiSend_eq]; exact h)
    simp only [ensureWriteEnabled, hs, hl]
    obtain ⟨nor2, k2, hs2⟩ := State.readStatus_answered s.cfg.cmd.rdsr1 (b := b) (rest := rest)
      (s := State.spiSend [s.cfg.cmd.wren]
        { (s.setPhase .writeEnableAsserted).spiSend [s.cfg.cmd.wren] with
          world := { ((s.setPhase .writeEnableAsserted).spiSend [s.cfg.cmd.wren]).world.log
            (askEvents [s.cfg.cmd.rdsr1] [a]) with nor := nor, free := k, spiIn := b :: rest } })
      (by rw [State.spiSend_eq]; rfl)
    refine ⟨nor2, k2, ?_⟩
    simp [State.spiSend_eq] at hs2 ⊢
    simp [hs2, hl2, latchEvents, statusEvents]

/-- The latch check that fails: the second byte read (R144, R232). -/
theorem ensureWriteEnabled_refused {a b : Byte} {rest : List Byte} {s : State} (hl : latchFlag a = false)
    (hl2 : latchFlag b = false) (h : s.world.spiIn = a :: b :: rest) :
    ∃ nor k, ensureWriteEnabled s = (some b, { s.setPhase .writeEnableAsserted with
      world := { s.world.log (latchEvents s.cfg [a, b]) with nor := nor, free := k, spiIn := rest } }) := by
  obtain ⟨nor, k, hs⟩ := State.readStatus_answered s.cfg.cmd.rdsr1 (b := a) (rest := b :: rest)
    (s := (s.setPhase .writeEnableAsserted).spiSend [s.cfg.cmd.wren]) (by rw [State.spiSend_eq]; exact h)
  simp only [ensureWriteEnabled, hs, hl]
  obtain ⟨nor2, k2, hs2⟩ := State.readStatus_answered s.cfg.cmd.rdsr1 (b := b) (rest := rest)
    (s := State.spiSend [s.cfg.cmd.wren]
      { (s.setPhase .writeEnableAsserted).spiSend [s.cfg.cmd.wren] with
        world := { ((s.setPhase .writeEnableAsserted).spiSend [s.cfg.cmd.wren]).world.log
          (askEvents [s.cfg.cmd.rdsr1] [a]) with nor := nor, free := k, spiIn := b :: rest } })
    (by rw [State.spiSend_eq]; rfl)
  refine ⟨nor2, k2, ?_⟩
  simp [State.spiSend_eq] at hs2 ⊢
  simp [hs2, hl2, latchEvents, statusEvents]

/-- The skeleton that ends well (R140, R145), from `NOR_PHASE` `Idle`. -/
theorem mutate_answered {first latch final rest tx : List Byte} {opAddr : Addr} {after : After} {s : State}
    (h1 : PollAnswers first) (h2 : LatchAnswers latch) (h3 : PollAnswers final) (hp : s.norPhase = .idle)
    (h : s.world.spiIn = first ++ latch ++ final ++ rest) :
    ∃ nor k, mutate tx opAddr after s = continueAfter after { s with
      phaseLog := s.phaseLog ++ [.writeEnableAsserted, .commandIssued, .busy, .idle]
      world := { s.world.log (mutateEvents s.cfg first latch tx final) with nor := nor, free := k, spiIn := rest } } := by
  obtain ⟨nor1, k1, hs1⟩ := State.poll_answered h1 (s := s) (rest := latch ++ final ++ rest) (by rw [h]; simp)
  obtain ⟨nor2, k2, hs2⟩ := ensureWriteEnabled_answered h2 (rest := final ++ rest)
    (s := { s with world := { s.world.log (statusEvents s.cfg first) with
      nor := nor1, free := k1, spiIn := latch ++ final ++ rest } }) (by simp)
  simp only [mutate, hs1, if_true, mutateCommand, hs2, finalWait]
  generalize hg : State.setPhase NorPhase.busy (State.spiSend tx (State.setPhase NorPhase.commandIssued _)) = u
  have hu : u.world.spiIn = final ++ rest := by rw [← hg, State.spiSend_eq]; rfl
  obtain ⟨nor3, k3, hs3⟩ := State.poll_answered h3 hu
  refine ⟨nor3, k3, ?_⟩
  simp only [hs3, if_true]
  congr 1
  subst hg
  simp [State.spiSend_eq, State.setPhase, hp, World.log, mutateEvents]

/-- The skeleton whose latch check fails (R144, R145, R232), from `NOR_PHASE` `Idle`. -/
theorem mutate_refused {first rest tx : List Byte} {a b : Byte} {opAddr : Addr} {after : After} {s : State}
    (h1 : PollAnswers first) (ha : latchFlag a = false) (hb : latchFlag b = false) (hp : s.norPhase = .idle)
    (h : s.world.spiIn = first ++ [a, b] ++ rest) :
    ∃ nor k, mutate tx opAddr after s = State.complete 0x02 { s with
      resAddr := opAddr, resObserved := b
      phaseLog := s.phaseLog ++ [.writeEnableAsserted, .idle]
      world := { s.world.log (statusEvents s.cfg first ++ latchEvents s.cfg [a, b]) with
        nor := nor, free := k, spiIn := rest } } := by
  obtain ⟨nor1, k1, hs1⟩ := State.poll_answered h1 (s := s) (rest := a :: b :: rest) (by rw [h]; simp)
  obtain ⟨nor2, k2, hs2⟩ := ensureWriteEnabled_refused ha hb (rest := rest)
    (s := { s with world := { s.world.log (statusEvents s.cfg first) with
      nor := nor1, free := k1, spiIn := a :: b :: rest } }) (by simp)
  refine ⟨nor2, k2, ?_⟩
  simp only [mutate, hs1, if_true, mutateCommand, hs2]
  simp [State.raise, State.recordContext, State.setPhase, hp, World.log, OpError.code]

end Sys2Proof.Machine
end

