-- ==== Sys2Proof/Laws/NorDevice.lean ====
section
/-! SUPPORT. What the shared procedures of R141 to R145 do with the reference NOR device when no answer is given from outside:
one lemma for each procedure and each condition of the device. -/

namespace Sys2Proof.Machine

theorem Config.wf_nodup {c : Config} (h : c.wf) : c.cmd.all.Nodup := h.2.2.2.2.2.2.2.2.2.2.2.2

/-- A command without payload is decoded from its own frame (R108). -/
theorem decodeNor_plain {c : Config} (h : c.wf) (cmd : NorCmd) (hp : ∀ a d, cmd ≠ .pp a d) :
    decodeNor c (cmd.bytes c) = .ok cmd :=
  decodeNor_bytes (Config.wf_nodup h) cmd (fun a d e => absurd e (hp a d))

/-- The reaction of an awake, powered and idle device to a command is `perform` (R80). -/
theorem NorDevice.react_ready {c : Config} {d : NorDevice} {tx : List Byte} {cmd : NorCmd} (hd : d.Ready)
    (h : decodeNor c tx = .ok cmd) (k : Nat) : d.react c k tx = d.perform c k cmd := by
  obtain ⟨h1, h2, h3⟩ := hd
  simp [NorDevice.react, h, h1, h2, h3]

theorem padFree_self (known : List Byte) (k : Nat) : padFree known known.length k = (known, k) := by
  simp [padFree, freeBytes]

/-- The byte and the device after an SR1 read of an awake and powered device (R36, R82, R83). -/
theorem NorDevice.answer_rdsr1 {c : Config} (hc : c.wf) {d : NorDevice} (h1 : d.asleep = false) (h2 : d.powerUpLeft = 0)
    (k : Nat) : d.answer c k [c.cmd.rdsr1] 1 = ([(d.tick c k).1.sr1], (d.tick c k).1, (d.tick c k).2) := by
  have h : decodeNor c [c.cmd.rdsr1] = .ok .rdsr1 := decodeNor_plain hc .rdsr1 (by simp)
  have e := padFree_self [(d.tick c k).1.sr1] (d.tick c k).2
  simp only [List.length_cons, List.length_nil, Nat.zero_add] at e
  simp [NorDevice.answer, h, h1, h2, e]

/-- An internal operation changes memory alone when it ends. -/
theorem NorDevice.applyEffect_eq (c : Config) (d : NorDevice) (k : Nat) (e : NorEffect) :
    (d.applyEffect c k e).1 = { d with mem := (d.applyEffect c k e).1.mem } := by
  cases e <;> rfl

/-- The device's bus at an SR1 read: the answer, the device and the counter after it, if no answer is given from outside. -/
theorem State.readStatus_own {s : State} (hc : s.cfg.wf) (hi : s.world.spiIn = []) (h1 : s.world.nor.asleep = false)
    (h2 : s.world.nor.powerUpLeft = 0) :
    s.readStatus s.cfg.cmd.rdsr1 = ((s.world.nor.tick s.cfg s.world.free).1.sr1, { s with
      world := { s.world.log (askEvents [s.cfg.cmd.rdsr1] [(s.world.nor.tick s.cfg s.world.free).1.sr1]) with
        nor := ((s.world.nor.tick s.cfg s.world.free).1.react s.cfg (s.world.nor.tick s.cfg s.world.free).2
          [s.cfg.cmd.rdsr1]).1
        free := ((s.world.nor.tick s.cfg s.world.free).1.react s.cfg (s.world.nor.tick s.cfg s.world.free).2
          [s.cfg.cmd.rdsr1]).2 } }) := by
  simp [State.readStatus, State.spi, World.spiFrame, NorDevice.answer_rdsr1 hc h1 h2, hi, World.log, askEvents]

/-- SR1 of an idle device (R36). -/
theorem NorDevice.sr1_idle {d : NorDevice} (h : d.job = none) :
    d.sr1 = d.settings ||| (if d.wel then 0x02#8 else 0#8) := by
  simp [NorDevice.sr1, NorDevice.settings, h]

theorem busyFlag_idle {d : NorDevice} (h : d.job = none) : busyFlag d.sr1 = false := by
  rw [NorDevice.sr1_idle h]
  unfold busyFlag NorDevice.settings
  cases d.wel <;> simp

theorem busyFlag_busy {d : NorDevice} (h : d.job ≠ none) : busyFlag d.sr1 = true := by
  obtain ⟨j, hj⟩ := Option.ne_none_iff_exists'.mp h
  unfold busyFlag NorDevice.sr1
  rw [hj]
  cases d.wel <;> simp

theorem busyFlag_settings (d : NorDevice) : busyFlag d.settings = false := by
  unfold busyFlag NorDevice.settings; simp

theorem latchFlag_settings (d : NorDevice) : latchFlag d.settings = false := by
  unfold latchFlag NorDevice.settings; simp

theorem latchFlag_set (b : Byte) : latchFlag (b ||| 0x02#8) = true := by
  unfold latchFlag; simp

theorem busyFlag_set (b : Byte) : busyFlag (b ||| 0x03#8) = true := by
  unfold busyFlag; simp

/-- An SR1 read of an awake, powered and idle device (R36, R142). -/
theorem State.readStatus_ready {s : State} (hc : s.cfg.wf) (hi : s.world.spiIn = []) (hd : s.world.nor.Ready) :
    s.readStatus s.cfg.cmd.rdsr1 = (s.world.nor.sr1, { s with
      world := { s.world.log (askEvents [s.cfg.cmd.rdsr1] [s.world.nor.sr1]) with
        nor := { s.world.nor with resetArmed := false } } }) := by
  have h := decodeNor_plain hc .rdsr1 (by simp)
  simp only [NorCmd.bytes] at h
  rw [State.readStatus_own hc hi hd.1 hd.2.1]
  have ht : s.world.nor.tick s.cfg s.world.free = (s.world.nor, s.world.free) := by
    simp [NorDevice.tick, hd.2.2]
  rw [ht, NorDevice.react_ready hd h]
  rfl

/-- An SR1 read of a device whose operation goes on: nothing but the count of polls changes (R82). -/
theorem State.readStatus_busy {s : State} (hc : s.cfg.wf) (hi : s.world.spiIn = []) (h1 : s.world.nor.asleep = false)
    (h2 : s.world.nor.powerUpLeft = 0) {e : NorEffect} {n : Nat} (hj : s.world.nor.job = some ⟨e, some (n + 1)⟩) :
    s.readStatus s.cfg.cmd.rdsr1 = (s.world.nor.sr1, { s with
      world := { s.world.log (askEvents [s.cfg.cmd.rdsr1] [s.world.nor.sr1]) with
        nor := { s.world.nor with job := some ⟨e, some n⟩ } } }) := by
  have h := decodeNor_plain hc .rdsr1 (by simp)
  simp only [NorCmd.bytes] at h
  rw [State.readStatus_own hc hi h1 h2]
  have ht : s.world.nor.tick s.cfg s.world.free = ({ s.world.nor with job := some ⟨e, some n⟩ }, s.world.free) := by
    simp [NorDevice.tick, hj]
  rw [ht]
  simp [NorDevice.react, h, h1, h2, NorDevice.disturb, commandEffect, NorDevice.sr1, hj, World.log]

/-- An SR1 read of a device whose operation never ends (R82, R249). -/
theorem State.readStatus_stuck {s : State} (hc : s.cfg.wf) (hi : s.world.spiIn = []) (h1 : s.world.nor.asleep = false)
    (h2 : s.world.nor.powerUpLeft = 0) {e : NorEffect} (hj : s.world.nor.job = some ⟨e, none⟩) :
    s.readStatus s.cfg.cmd.rdsr1 = (s.world.nor.sr1, { s with
      world := s.world.log (askEvents [s.cfg.cmd.rdsr1] [s.world.nor.sr1]) }) := by
  have h := decodeNor_plain hc .rdsr1 (by simp)
  simp only [NorCmd.bytes] at h
  rw [State.readStatus_own hc hi h1 h2]
  have ht : s.world.nor.tick s.cfg s.world.free = (s.world.nor, s.world.free) := by
    simp [NorDevice.tick, hj]
  rw [ht]
  simp [NorDevice.react, h, h1, h2, NorDevice.disturb, commandEffect, hj, World.log]

/-- The SR1 read at which an operation ends (R82, R83). -/
theorem State.readStatus_due {s : State} (hc : s.cfg.wf) (hi : s.world.spiIn = []) (h1 : s.world.nor.asleep = false)
    (h2 : s.world.nor.powerUpLeft = 0) {e : NorEffect} (hj : s.world.nor.job = some ⟨e, some 0⟩) :
    s.readStatus s.cfg.cmd.rdsr1 = (s.world.nor.settings, { s with
      world := { s.world.log (askEvents [s.cfg.cmd.rdsr1] [s.world.nor.settings]) with
        nor := { s.world.nor with
          mem := (s.world.nor.applyEffect s.cfg s.world.free e).1.mem, job := none, wel := false, resetArmed := false }
        free := (s.world.nor.applyEffect s.cfg s.world.free e).2 } }) := by
  have h := decodeNor_plain hc .rdsr1 (by simp)
  simp only [NorCmd.bytes] at h
  rw [State.readStatus_own hc hi h1 h2]
  have ht : s.world.nor.tick s.cfg s.world.free = ({ s.world.nor with
      mem := (s.world.nor.applyEffect s.cfg s.world.free e).1.mem, job := none, wel := false },
      (s.world.nor.applyEffect s.cfg s.world.free e).2) := by
    simp only [NorDevice.tick, hj, NorDevice.finishJob]
    rw [NorDevice.applyEffect_eq]
  rw [ht]
  dsimp only
  rw [NorDevice.react_ready (d := { s.world.nor with
    mem := (s.world.nor.applyEffect s.cfg s.world.free e).1.mem, job := none, wel := false }) ⟨h1, h2, rfl⟩ h]
  simp [NorDevice.perform, NorDevice.sr1, NorDevice.settings, World.log]

/-- A poll of an idle device reads SR1 once (R143). -/
theorem State.poll_ready {s : State} (hc : s.cfg.wf) (hi : s.world.spiIn = []) (hd : s.world.nor.Ready) :
    s.poll = (true, { s with world := { s.world.log (statusEvents s.cfg [s.world.nor.sr1]) with
      nor := { s.world.nor with resetArmed := false } } }) := by
  unfold State.poll pollFuel
  rw [hi, hd.2.2]
  simp [waitNotBusy, State.readStatus_ready hc hi hd, busyFlag_idle hd.2.2, statusEvents]

/-- A poll of a device whose operation ends after `n` busy reads takes `n + 1` (R82, R83, R143). -/
theorem waitNotBusy_busy {n fuel : Nat} (hf : n < fuel) {e : NorEffect} : ∀ {s : State}, s.cfg.wf → s.world.spiIn = [] →
    s.world.nor.asleep = false → s.world.nor.powerUpLeft = 0 → s.world.nor.job = some ⟨e, some n⟩ →
    waitNotBusy fuel s = (true, { s with
      world := { s.world.log (statusEvents s.cfg (List.replicate n s.world.nor.sr1 ++ [s.world.nor.settings])) with
        nor := { s.world.nor with
          mem := (s.world.nor.applyEffect s.cfg s.world.free e).1.mem, job := none, wel := false, resetArmed := false }
        free := (s.world.nor.applyEffect s.cfg s.world.free e).2 } }) := by
  induction n generalizing fuel with
  | zero =>
    intro s hc hi h1 h2 hj
    obtain ⟨m, rfl⟩ : ∃ m, fuel = m + 1 := ⟨fuel - 1, by omega⟩
    simp [waitNotBusy, State.readStatus_due hc hi h1 h2 hj, busyFlag_settings, statusEvents]
  | succ n ih =>
    intro s hc hi h1 h2 hj
    obtain ⟨m, rfl⟩ : ∃ m, fuel = m + 1 := ⟨fuel - 1, by omega⟩
    have hb : busyFlag s.world.nor.sr1 = true := busyFlag_busy (by rw [hj]; simp)
    rw [waitNotBusy, State.readStatus_busy hc hi h1 h2 hj]
    simp only [hb, if_true]
    rw [ih (fuel := m) (by omega) (s := { s with
      world := { s.world.log (askEvents [s.cfg.cmd.rdsr1] [s.world.nor.sr1]) with
        nor := { s.world.nor with job := some ⟨e, some n⟩ } } }) hc hi h1 h2 rfl]
    have e1 : NorDevice.sr1 { s.world.nor with job := some ⟨e, some n⟩ } = s.world.nor.sr1 := by
      simp [NorDevice.sr1, hj]
    have e2 : NorDevice.applyEffect s.cfg { s.world.nor with job := some ⟨e, some n⟩ } s.world.free e =
        ({ (s.world.nor.applyEffect s.cfg s.world.free e).1 with job := some ⟨e, some n⟩ },
          (s.world.nor.applyEffect s.cfg s.world.free e).2) := by
      cases e <;> rfl
    simp [World.log, e1, e2, List.replicate_succ, statusEvents_cons, NorDevice.settings]

/-- The busy poll of a device whose operation ends after `n` busy reads (R143). -/
theorem State.poll_busy {s : State} {e : NorEffect} {n : Nat} (hc : s.cfg.wf) (hi : s.world.spiIn = [])
    (h1 : s.world.nor.asleep = false) (h2 : s.world.nor.powerUpLeft = 0) (hj : s.world.nor.job = some ⟨e, some n⟩) :
    s.poll = (true, { s with
      world := { s.world.log (statusEvents s.cfg (List.replicate n s.world.nor.sr1 ++ [s.world.nor.settings])) with
        nor := { s.world.nor with
          mem := (s.world.nor.applyEffect s.cfg s.world.free e).1.mem, job := none, wel := false, resetArmed := false }
        free := (s.world.nor.applyEffect s.cfg s.world.free e).2 } }) := by
  unfold State.poll
  refine waitNotBusy_busy ?_ hc hi h1 h2 hj
  unfold pollFuel
  rw [hj]
  simp only
  omega

/-- The busy poll of a device whose operation never ends reads SR1 once and has not ended (R249). -/
theorem State.poll_stuck {s : State} {e : NorEffect} (hc : s.cfg.wf) (hi : s.world.spiIn = [])
    (h1 : s.world.nor.asleep = false) (h2 : s.world.nor.powerUpLeft = 0) (hj : s.world.nor.job = some ⟨e, none⟩) :
    s.poll = (false, { s with world := s.world.log (statusEvents s.cfg [s.world.nor.sr1]) }) := by
  have hb : busyFlag s.world.nor.sr1 = true := busyFlag_busy (by rw [hj]; simp)
  unfold State.poll pollFuel
  rw [hi, hj]
  simp [waitNotBusy, State.readStatus_stuck hc hi h1 h2 hj, hb, statusEvents]

/-- A frame that reads nothing at an awake, powered and idle device (R141). -/
theorem State.spiSend_ready {s : State} {tx : List Byte} {cmd : NorCmd} (hd : s.world.nor.Ready)
    (h : decodeNor s.cfg tx = .ok cmd) :
    s.spiSend tx = { s with world := { s.world.log (sendEvents tx) with
      nor := (s.world.nor.perform s.cfg s.world.free cmd).1
      free := (s.world.nor.perform s.cfg s.world.free cmd).2 } } := by
  rw [State.spiSend_eq, NorDevice.react_ready hd h]

/-- The latch check whose first try finds the latch set (R144). -/
theorem ensureWriteEnabled_first {s t u : State} {b : Byte}
    (h1 : (s.setPhase .writeEnableAsserted).spiSend [s.cfg.cmd.wren] = t)
    (h2 : t.readStatus s.cfg.cmd.rdsr1 = (b, u)) (hb : latchFlag b = true) : ensureWriteEnabled s = (none, u) := by
  simp [ensureWriteEnabled, h1, h2, hb]

/-- The latch check that finds the latch clear twice (R144). -/
theorem ensureWriteEnabled_twice {s t u v w : State} {b b' : Byte}
    (h1 : (s.setPhase .writeEnableAsserted).spiSend [s.cfg.cmd.wren] = t)
    (h2 : t.readStatus s.cfg.cmd.rdsr1 = (b, u)) (hb : latchFlag b = false)
    (h3 : u.spiSend [s.cfg.cmd.wren] = v) (h4 : v.readStatus s.cfg.cmd.rdsr1 = (b', w))
    (hb' : latchFlag b' = false) (hc : u.cfg = s.cfg) : ensureWriteEnabled s = (some b', w) := by
  simp [ensureWriteEnabled, h1, h2, hb, h3, h4, hb']

/-- The final poll that ends (R145). -/
theorem finalWait_of {tx : List Byte} {after : After} {s t : State} (h : s.poll = (true, t)) :
    finalWait tx after s = continueAfter after (t.setPhase .idle) := by
  simp [finalWait, h]

/-- The skeleton whose latch check succeeds, step by step (R145). -/
theorem mutate_of {tx : List Byte} {opAddr : Addr} {after : After} {s t u v w : State} (h1 : s.poll = (true, t))
    (h2 : ensureWriteEnabled t = (none, u)) (h3 : (u.setPhase .commandIssued).spiSend tx = v)
    (h4 : (v.setPhase .busy).poll = (true, w)) : mutate tx opAddr after s = continueAfter after (w.setPhase .idle) := by
  simp [mutate, mutateCommand, h1, h2, h3, finalWait_of h4]

/-- The skeleton whose latch check fails (R145). -/
theorem mutate_latch {tx : List Byte} {opAddr : Addr} {after : After} {s t u : State} {b : Byte}
    (h1 : s.poll = (true, t)) (h2 : ensureWriteEnabled t = (some b, u)) :
    mutate tx opAddr after s = u.raise (.writeProtected opAddr b) := by
  simp [mutate, mutateCommand, h1, h2]

/-- A write enable at a ready device, and the SR1 read after it (R81, R144). -/
theorem State.latch_ready {s : State} (hc : s.cfg.wf) (hi : s.world.spiIn = []) (hd : s.world.nor.Ready)
    (hw : s.world.nor.wpPin = false) :
    (s.spiSend [s.cfg.cmd.wren]).readStatus s.cfg.cmd.rdsr1 = (s.world.nor.settings ||| 0x02#8, { s with
      world := { s.world.log (latchEvents s.cfg [s.world.nor.settings ||| 0x02#8]) with
        nor := { s.world.nor with wel := true, resetArmed := false } } }) := by
  have h := decodeNor_plain hc .wren (by simp)
  simp only [NorCmd.bytes] at h
  have e1 : s.spiSend [s.cfg.cmd.wren] = { s with
      world := { s.world.log (sendEvents [s.cfg.cmd.wren]) with
        nor := { s.world.nor with wel := true, resetArmed := false } } } := by
    rw [State.spiSend_ready hd h]
    simp [NorDevice.perform, hw, World.log]
  rw [e1]
  refine (State.readStatus_ready (s := { s with
      world := { s.world.log (sendEvents [s.cfg.cmd.wren]) with
        nor := { s.world.nor with wel := true, resetArmed := false } } }) hc hi hd).trans ?_
  have hs := NorDevice.sr1_idle (d := { s.world.nor with wel := true, resetArmed := false }) hd.2.2
  simp only [hs, if_true]
  simp [World.log, latchEvents, statusEvents, NorDevice.settings]

/-- The latch check at a device without the hardware write-protect condition: the latch is set at the first try (R81, R144). -/
theorem ensureWriteEnabled_ready {s : State} (hc : s.cfg.wf) (hi : s.world.spiIn = []) (hd : s.world.nor.Ready)
    (hw : s.world.nor.wpPin = false) :
    ensureWriteEnabled s = (none, { s.setPhase .writeEnableAsserted with
      world := { s.world.log (latchEvents s.cfg [s.world.nor.settings ||| 0x02#8]) with
        nor := { s.world.nor with wel := true, resetArmed := false } } }) :=
  ensureWriteEnabled_first rfl (State.latch_ready (s := s.setPhase .writeEnableAsserted) hc hi hd hw) (latchFlag_set _)

/-- A write enable at a device whose hardware write-protect condition holds, and the SR1 read after it (R81). -/
theorem State.latch_pin {s : State} (hc : s.cfg.wf) (hi : s.world.spiIn = []) (hd : s.world.nor.Ready)
    (hw : s.world.nor.wpPin = true) (hl : s.world.nor.wel = false) :
    (s.spiSend [s.cfg.cmd.wren]).readStatus s.cfg.cmd.rdsr1 = (s.world.nor.settings, { s with
      world := { s.world.log (latchEvents s.cfg [s.world.nor.settings]) with
        nor := { s.world.nor with resetArmed := false } } }) := by
  have h := decodeNor_plain hc .wren (by simp)
  simp only [NorCmd.bytes] at h
  have e1 : s.spiSend [s.cfg.cmd.wren] = { s with
      world := { s.world.log (sendEvents [s.cfg.cmd.wren]) with
        nor := { s.world.nor with resetArmed := false } } } := by
    rw [State.spiSend_ready hd h]
    simp [NorDevice.perform, hw, World.log]
  rw [e1]
  refine (State.readStatus_ready (s := { s with
      world := { s.world.log (sendEvents [s.cfg.cmd.wren]) with
        nor := { s.world.nor with resetArmed := false } } }) hc hi hd).trans ?_
  simp [World.log, latchEvents, statusEvents, NorDevice.settings, NorDevice.sr1, hl, hd.2.2]

/-- The latch check at a device whose hardware write-protect condition keeps the latch clear (R81, R144, R232). -/
theorem ensureWriteEnabled_pin {s : State} (hc : s.cfg.wf) (hi : s.world.spiIn = []) (hd : s.world.nor.Ready)
    (hw : s.world.nor.wpPin = true) (hl : s.world.nor.wel = false) :
    ensureWriteEnabled s = (some s.world.nor.settings, { s.setPhase .writeEnableAsserted with
      world := { s.world.log (latchEvents s.cfg [s.world.nor.settings, s.world.nor.settings]) with
        nor := { s.world.nor with resetArmed := false } } }) := by
  refine (ensureWriteEnabled_twice rfl (State.latch_pin (s := s.setPhase .writeEnableAsserted) hc hi hd hw hl)
    (latchFlag_settings _) rfl (State.latch_pin (s := { s.setPhase .writeEnableAsserted with
      world := { s.world.log (latchEvents s.cfg [s.world.nor.settings]) with
        nor := { s.world.nor with resetArmed := false } } }) hc hi hd hw hl) (latchFlag_settings _) rfl).trans ?_
  simp [World.log, latchEvents, statusEvents, NorDevice.settings]

/-- The skeleton at an awake, powered and idle device that accepts the command with effect `e` and settings `st` and then runs
it for `n` busy polls (R140, R145). -/
theorem mutate_ready {tx : List Byte} {opAddr : Addr} {after : After} {s : State} {cmd : NorCmd} {e : NorEffect}
    {n : Nat} {st : Byte} (hc : s.cfg.wf) (hi : s.world.spiIn = []) (hd : s.world.nor.Ready)
    (hw : s.world.nor.wpPin = false) (hp : s.norPhase = .idle) (hcmd : decodeNor s.cfg tx = .ok cmd)
    (hacc : NorDevice.perform s.cfg { s.world.nor with wel := true, resetArmed := false } s.world.free cmd =
      ({ s.world.nor with wel := true, resetArmed := false, status := st, job := some ⟨e, some n⟩ }, s.world.free)) :
    mutate tx opAddr after s = continueAfter after { s with
      phaseLog := s.phaseLog ++ [.writeEnableAsserted, .commandIssued, .busy, .idle]
      world := { s.world.log (mutateEvents s.cfg [s.world.nor.sr1] [s.world.nor.settings ||| 0x02#8] tx
          (List.replicate n ((st &&& 0xFC#8) ||| 0x03#8) ++ [st &&& 0xFC#8])) with
        nor := { s.world.nor with
          mem := (NorDevice.applyEffect s.cfg { s.world.nor with status := st } s.world.free e).1.mem
          status := st, wel := false, resetArmed := false }
        free := (NorDevice.applyEffect s.cfg { s.world.nor with status := st } s.world.free e).2 } } := by
  have e3 : ∀ t : State, t.cfg = s.cfg → t.world.nor = { s.world.nor with wel := true, resetArmed := false } →
      t.world.free = s.world.free → t.spiSend tx = { t with world := { t.world.log (sendEvents tx) with
        nor := { s.world.nor with wel := true, resetArmed := false, status := st, job := some ⟨e, some n⟩ } } } := by
    intro t h0 h1 h2
    rw [State.spiSend_ready (by rw [h1]; exact hd) (by rw [h0]; exact hcmd), h0, h1, h2, hacc]
    simp [World.log, ← h2]
  have e4 : ∀ t : State, t.cfg = s.cfg → t.world.spiIn = [] → t.world.free = s.world.free →
      t.world.nor = { s.world.nor with wel := true, resetArmed := false, status := st, job := some ⟨e, some n⟩ } →
      t.poll = (true, { t with
        world := { t.world.log (statusEvents s.cfg
            (List.replicate n ((st &&& 0xFC#8) ||| 0x03#8) ++ [st &&& 0xFC#8])) with
          nor := { s.world.nor with
            mem := (NorDevice.applyEffect s.cfg { s.world.nor with status := st } s.world.free e).1.mem
            status := st, wel := false, resetArmed := false }
          free := (NorDevice.applyEffect s.cfg { s.world.nor with status := st } s.world.free e).2 } }) := by
    intro t h0 h1 h2 h3
    rw [State.poll_busy (by rw [h0]; exact hc) h1 (by rw [h3]; exact hd.1) (by rw [h3]; exact hd.2.1)
      (show t.world.nor.job = some ⟨e, some n⟩ by rw [h3])]
    have a1 : t.world.nor.sr1 = (st &&& 0xFC#8) ||| 0x03#8 := by
      rw [h3]
      simp only [NorDevice.sr1, if_true, Option.isSome_some]
      rw [BitVec.or_assoc]; rfl
    have a2 : t.world.nor.settings = st &&& 0xFC#8 := by rw [h3]; rfl
    have a3 : t.world.nor.applyEffect t.cfg t.world.free e =
        ({ t.world.nor with mem := (NorDevice.applyEffect s.cfg { s.world.nor with status := st } s.world.free e).1.mem },
          (NorDevice.applyEffect s.cfg { s.world.nor with status := st } s.world.free e).2) := by
      rw [h0, h2, h3]; cases e <;> rfl
    rw [a1, a2, a3, h3, h0]
    simp only [hd.2.2]
  refine (mutate_of (State.poll_ready hc hi hd)
    (ensureWriteEnabled_ready (s := { s with
      world := { s.world.log (statusEvents s.cfg [s.world.nor.sr1]) with
        nor := { s.world.nor with resetArmed := false } } }) hc hi hd hw)
    (e3 _ ?_ ?_ ?_) (e4 _ ?_ ?_ ?_ ?_)).trans ?_
  all_goals first | rfl | exact hi | skip
  congr 1
  simp [State.setPhase, hp, World.log, mutateEvents, NorDevice.settings]

/-- The skeleton at a device whose hardware write-protect condition keeps the latch clear (R232). -/
theorem mutate_pin {tx : List Byte} {opAddr : Addr} {after : After} {s : State} (hc : s.cfg.wf)
    (hi : s.world.spiIn = []) (hd : s.world.nor.Ready) (hw : s.world.nor.wpPin = true) (hl : s.world.nor.wel = false)
    (hp : s.norPhase = .idle) :
    mutate tx opAddr after s = State.complete 0x02 { s with
      resAddr := opAddr, resObserved := s.world.nor.settings
      phaseLog := s.phaseLog ++ [.writeEnableAsserted, .idle]
      world := { s.world.log (statusEvents s.cfg [s.world.nor.settings] ++
          latchEvents s.cfg [s.world.nor.settings, s.world.nor.settings]) with
        nor := { s.world.nor with resetArmed := false } } } := by
  have e3 : s.world.nor.sr1 = s.world.nor.settings := by
    rw [NorDevice.sr1_idle hd.2.2, hl]; simp
  refine (mutate_latch (State.poll_ready hc hi hd)
    (ensureWriteEnabled_pin (s := { s with
      world := { s.world.log (statusEvents s.cfg [s.world.nor.sr1]) with
        nor := { s.world.nor with resetArmed := false } } }) hc hi hd hw hl)).trans ?_
  simp [State.raise, State.recordContext, State.setPhase, hp, World.log, OpError.code, e3, NorDevice.settings]

end Sys2Proof.Machine
end

