-- ==== Sys2Proof/Laws/Operands.lean ====
section
/-! SUPPORT. What the operand checks and the page arithmetic say, as propositions. -/

namespace Sys2Proof.Machine

theorem overWide_iff (cap : Nat) (a : Addr) : overWide cap a = true ↔ cap ≤ a.toNat := by
  unfold overWide; exact decide_eq_true_iff

theorem overWide_eq_false {cap : Nat} {a : Addr} (h : a.toNat < cap) : overWide cap a = false := by
  unfold overWide; exact decide_eq_false (by omega)

theorem pastEnd_iff (cap : Nat) (a : Addr) (n : BitVec 32) : pastEnd cap a n = true ↔ cap < a.toNat + n.toNat := by
  unfold pastEnd; exact decide_eq_true_iff

theorem pastEnd_eq_false {cap : Nat} {a : Addr} {n : BitVec 32} (h : a.toNat + n.toNat ≤ cap) :
    pastEnd cap a n = false := by
  unfold pastEnd; exact decide_eq_false (by omega)

theorem payloadMismatch_iff (d : List Byte) (n : BitVec 32) : payloadMismatch d n = true ↔ d.length ≠ n.toNat := by
  unfold payloadMismatch; exact decide_eq_true_iff

theorem payloadMismatch_eq_false {d : List Byte} {n : BitVec 32} (h : d.length = n.toNat) :
    payloadMismatch d n = false := by
  unfold payloadMismatch; exact decide_eq_false (fun hn => hn h)

theorem protectedStatus_iff (c : Config) (s : Byte) : protectedStatus c s = true ↔ s &&& c.norProtMask ≠ 0 := by
  unfold protectedStatus; exact decide_eq_true_iff

/-- A region does not reach past its own start, and an aligned address is not above the address (R66). -/
theorem alignDown_le (a n : Nat) : alignDown a n ≤ a := Nat.sub_le _ _

theorem alignDown_add_mod (a n : Nat) : alignDown a n + a % n = a := by
  have := Nat.mod_le a n
  unfold alignDown; omega

theorem alignDown_eq (a n : Nat) : alignDown a n = n * (a / n) := by
  have := Nat.div_add_mod a n
  unfold alignDown; omega

/-- A region inside a device: it ends inside it if its size divides the capacity (R9, R66). -/
theorem alignDown_region {a n cap : Nat} (hd : n ∣ cap) (ha : a < cap) : alignDown a n + n ≤ cap := by
  obtain ⟨k, rfl⟩ := hd
  rcases Nat.eq_zero_or_pos n with rfl | hn
  · simp at ha
  · rw [alignDown_eq]
    have : a / n < k := Nat.div_lt_of_lt_mul ha
    calc n * (a / n) + n = n * (a / n + 1) := by ring
      _ ≤ n * k := Nat.mul_le_mul_left n this

/-- A wrapped target lies in the page of the address (R85, R91). -/
theorem wrapInPage_mem {page : Nat} (hp : 0 < page) (a i : Nat) :
    alignDown a page ≤ wrapInPage page a i ∧ wrapInPage page a i < alignDown a page + page := by
  have := Nat.mod_lt (a % page + i) hp
  unfold wrapInPage; omega

theorem wrapInPage_lt {page cap a : Nat} (hp : 0 < page) (hd : page ∣ cap) (ha : a < cap) (i : Nat) :
    wrapInPage page a i < cap :=
  Nat.lt_of_lt_of_le (wrapInPage_mem hp a i).2 (alignDown_region hd ha)

/-- Two payload bytes less than a page apart are aimed at different addresses (R85, R91). -/
theorem wrapInPage_ne {page a i j : Nat} (hij : i < j) (hj : j < i + page) :
    wrapInPage page a i ≠ wrapInPage page a j := by
  intro h
  unfold wrapInPage at h
  have h : (a % page + i) % page = (a % page + j) % page := by omega
  have h2 := (Nat.modEq_iff_dvd' hij.le).mp (Nat.ModEq.add_left_cancel' (a % page) h)
  have := Nat.le_of_dvd (by omega) h2
  omega

/-- Two payload bytes of at most a page are aimed at different addresses (R85). -/
theorem wrapInPage_inj {page a i j : Nat} (hi : i < page) (hj : j < page) (h : wrapInPage page a i = wrapInPage page a j) :
    i = j := by
  rcases Nat.lt_trichotomy i j with hlt | he | hlt
  · exact absurd h (wrapInPage_ne hlt (by omega))
  · exact he
  · exact absurd h.symm (wrapInPage_ne hlt (by omega))

/-- Without a wrap byte `i` is aimed at the address plus `i` (R85, R91, R265). -/
theorem wrapInPage_eq {page a i : Nat} (h : a % page + i < page) : wrapInPage page a i = a + i := by
  have := alignDown_add_mod a page
  unfold wrapInPage
  rw [Nat.mod_eq_of_lt h]; omega

/-- The two forms of the page-boundary predicate (R212). -/
theorem crosses_iff {page a len : Nat} (hp : 0 < page) : crosses page a len = true ↔ 0 < len ∧ page < a % page + len := by
  have h1 := Nat.div_add_mod a page
  have h2 := Nat.mod_lt a hp
  unfold crosses
  rw [decide_eq_true_iff]
  constructor
  · rintro ⟨hl, h⟩
    refine ⟨hl, ?_⟩
    by_contra hc
    apply h
    rw [eq_comm]
    apply Nat.div_eq_of_lt_le
    · rw [Nat.mul_comm]; omega
    · rw [Nat.add_mul, Nat.mul_comm]; omega
  · rintro ⟨hl, h⟩
    refine ⟨hl, fun he => ?_⟩
    have h3 : (a / page + 1) * page ≤ a + len - 1 := by rw [Nat.add_mul, Nat.mul_comm]; omega
    have := (Nat.le_div_iff_mul_le hp).mpr h3
    omega

theorem addrOf_toNat {a : Nat} (h : a < 2 ^ 24) : (addrOf a).toNat = a := by
  unfold addrOf; rw [BitVec.toNat_ofNat]; exact Nat.mod_eq_of_lt h

/-- An address of a request, written back as one, is itself. -/
theorem addrOf_self (a : Addr) : addrOf a.toNat = a := by
  unfold addrOf; simp

end Sys2Proof.Machine
end

