-- ==== Sys2Proof/Laws/NorFrames.lean ====
section
/-! SUPPORT. What the procedures of the NOR and WP units can change, said once (`NorStep`), and how an operation of theirs
ends (`NorEnds`). -/

namespace Sys2Proof.Machine

/-! The reference NOR device -/

/-- The NOR part of `MemoryInv`. -/
structure NorGood (c : Config) (d : NorDevice) : Prop where
  memWf : d.mem.wf
  memBelow : d.mem.below c.norCapacity
  settings : d.status &&& 0x03#8 = 0#8
  jobInside : ∀ j, d.job = some j → j.effect.inside c.norCapacity

theorem Config.wf_norCapacity {c : Config} (h : c.wf) : 0 < c.norCapacity := by
  rw [h.1]; exact Nat.two_pow_pos _

theorem Config.wf_block {c : Config} (h : c.wf) : c.norBlock ∣ c.norCapacity := h.2.2.2.2.2.1

theorem Config.wf_sector {c : Config} (h : c.wf) : c.norSector ∣ c.norCapacity := h.2.2.2.2.1.trans h.2.2.2.2.2.1

theorem Config.wf_page {c : Config} (h : c.wf) : c.norPage ∣ c.norCapacity := h.2.2.2.1.trans (Config.wf_sector h)

theorem Config.wf_norPage_pos {c : Config} (h : c.wf) : 0 < c.norPage :=
  Nat.pos_of_dvd_of_pos (Config.wf_page h) (Config.wf_norCapacity h)

/-- One programmed byte keeps the memory's form and bounds. -/
theorem programByte_good {c : Config} {prot : List (Nat × Nat)} {m : Memory} {cap k a : Nat} {b : Byte} (h : m.wf ∧ m.below cap)
    (ha : a < cap) : (programByte c prot m k a b).1.wf ∧ (programByte c prot m k a b).1.below cap := by
  unfold programByte
  split
  · exact h
  · split
    · exact ⟨Memory.write_wf h.1 _ _, Memory.write_below h.2 ha⟩
    · split <;> exact ⟨Memory.write_wf h.1 _ _, Memory.write_below h.2 ha⟩

/-- A page program keeps the memory's form and bounds. -/
theorem programBytes_good {c : Config} (hc : c.wf) {prot : List (Nat × Nat)} {a : Nat} (ha : a < c.norCapacity) :
    ∀ (data : List Byte) (i : Nat) (m : Memory) (k : Nat), m.wf ∧ m.below c.norCapacity →
      (programBytes c prot a data i m k).1.wf ∧ (programBytes c prot a data i m k).1.below c.norCapacity := by
  intro data
  induction data with
  | nil => exact fun _ _ _ h => h
  | cons b rest ih =>
    intro i m k h
    exact ih _ _ _ (programByte_good h (wrapInPage_lt (Config.wf_norPage_pos hc) (Config.wf_page hc) ha i))

/-- Whether an address lies in one of some segments. -/
def inSegments (segments : List (Nat × Nat)) (a : Nat) : Prop := ∃ g ∈ segments, g.1 ≤ a ∧ a < g.2

/-- What a cut leaves: the addresses of the segments that the range does not hold. -/
theorem inSegments_cutRange (r : Nat × Nat) (segments : List (Nat × Nat)) (a : Nat) :
    inSegments (cutRange r segments) a ↔ inSegments segments a ∧ ¬(r.1 ≤ a ∧ a < r.1 + r.2) := by
  unfold inSegments cutRange
  simp only [List.mem_flatMap, List.mem_cons, List.not_mem_nil, or_false]
  constructor
  · rintro ⟨_, ⟨g, hg, rfl | rfl⟩, h⟩ <;> exact ⟨⟨g, hg, by omega⟩, by omega⟩
  · rintro ⟨⟨g, hg, h⟩, hr⟩
    by_cases ha : a < r.1
    · exact ⟨_, ⟨g, hg, .inl rfl⟩, by dsimp only; omega⟩
    · exact ⟨_, ⟨g, hg, .inr rfl⟩, by dsimp only; omega⟩

/-- Cutting ranges out one after another. -/
theorem inSegments_cutRanges (prot : List (Nat × Nat)) (a : Nat) : ∀ segments : List (Nat × Nat),
    inSegments (prot.foldl (fun segments r => cutRange r segments) segments) a ↔
      inSegments segments a ∧ inRanges prot a = false := by
  induction prot with
  | nil => simp [inRanges]
  | cons r rest ih =>
    intro segments
    rw [List.foldl_cons, ih, inSegments_cutRange]
    simp [inRanges, and_assoc]

/-- The addresses of a region that no protected range holds. -/
theorem inSegments_unprotected (prot : List (Nat × Nat)) (start len a : Nat) :
    inSegments (unprotected prot start len) a ↔ (start ≤ a ∧ a < start + len) ∧ inRanges prot a = false := by
  rw [unprotected, inSegments_cutRanges]
  simp [inSegments]

/-- What a cut leaves ends no later than a bound the segments keep. -/
theorem unprotected_stop {prot : List (Nat × Nat)} {start len cap : Nat} (hr : start + len ≤ cap) :
    ∀ g ∈ unprotected prot start len, g.2 ≤ cap := by
  have key : ∀ (prot segments : List (Nat × Nat)), (∀ g ∈ segments, g.2 ≤ cap) →
      ∀ g ∈ prot.foldl (fun segments r => cutRange r segments) segments, g.2 ≤ cap := by
    intro prot
    induction prot with
    | nil => exact fun _ h => h
    | cons r rest ih =>
      intro segments h
      refine ih _ (fun g hg => ?_)
      simp only [cutRange, List.mem_flatMap, List.mem_cons, List.not_mem_nil, or_false] at hg
      obtain ⟨f, hf, rfl | rfl⟩ := hg
      · exact Nat.le_trans (Nat.min_le_left _ _) (h f hf)
      · exact h f hf
  exact key prot _ (by simpa using hr)

/-- Filling segments keeps the memory's form and bounds. -/
theorem fillSegments_good {v : Byte} {cap : Nat} : ∀ (segments : List (Nat × Nat)) (m : Memory),
    (∀ g ∈ segments, g.2 ≤ cap) → m.wf ∧ m.below cap →
    (segments.foldl (fun m g => Memory.fill m g.1 (g.2 - g.1) v) m).wf ∧
      (segments.foldl (fun m g => Memory.fill m g.1 (g.2 - g.1) v) m).below cap := by
  intro segments
  induction segments with
  | nil => exact fun _ _ h => h
  | cons g rest ih =>
    intro m hs h
    refine ih _ (fun f hf => hs f (List.mem_cons_of_mem _ hf)) ?_
    by_cases hg : g.1 ≤ g.2
    · exact ⟨Memory.fill_wf h.1 _ _ _, Memory.fill_below h.2 (by have := hs g (by simp); omega)⟩
    · refine ⟨Memory.fill_wf h.1 _ _ _, fun x hx => ?_⟩
      rcases Memory.mem_fill hx with ⟨_, _, h1, h2⟩ | hx
      · omega
      · exact h.2 x hx

open Classical in
/-- The byte that filled segments hold at an address. -/
theorem read_fillSegments (v : Byte) (a : Nat) : ∀ (segments : List (Nat × Nat)) (m : Memory),
    (segments.foldl (fun m g => Memory.fill m g.1 (g.2 - g.1) v) m).read a =
      if inSegments segments a then v else m.read a := by
  intro segments
  induction segments with
  | nil => simp [inSegments]
  | cons g rest ih =>
    intro m
    rw [List.foldl_cons, ih, Memory.read_fill]
    have he : inSegments (g :: rest) a ↔ (g.1 ≤ a ∧ a < g.2) ∨ inSegments rest a := by simp [inSegments]
    by_cases h1 : inSegments rest a
    · rw [if_pos h1, if_pos (he.mpr (.inr h1))]
    · rw [if_neg h1]
      by_cases h2 : g.1 ≤ a ∧ a < g.2
      · rw [if_pos (by omega), if_pos (he.mpr (.inl h2))]
      · rw [if_neg (by omega), if_neg (by rw [he]; tauto)]

/-- An erase keeps the memory's form and bounds (R86). -/
theorem eraseRegion_good {c : Config} {prot : List (Nat × Nat)} {start len cap : Nat} {m : Memory}
    (h : m.wf ∧ m.below cap) (hr : start + len ≤ cap) :
    (eraseRegion c prot start len m).wf ∧ (eraseRegion c prot start len m).below cap :=
  fillSegments_good _ _ (unprotected_stop hr) h

/-- The byte an erased region holds at an address (R86, R87). -/
theorem read_eraseRegion (c : Config) (prot : List (Nat × Nat)) (start len : Nat) (m : Memory) (a : Nat) :
    (eraseRegion c prot start len m).read a =
      if start ≤ a ∧ a < start + len ∧ inRanges prot a = false then c.norEraseValue else m.read a := by
  rw [eraseRegion, read_fillSegments]
  simp only [inSegments_unprotected, and_assoc]

theorem NorGood.applyEffect {c : Config} (hc : c.wf) {d : NorDevice} {e : NorEffect} (h : NorGood c d)
    (he : e.inside c.norCapacity) (k : Nat) : NorGood c (d.applyEffect c k e).1 := by
  cases e with
  | program a data =>
    have := programBytes_good hc he data 0 d.mem k (prot := d.protectedRanges c) ⟨h.memWf, h.memBelow⟩
    exact ⟨this.1, this.2, h.settings, h.jobInside⟩
  | erase start len =>
    have := eraseRegion_good (c := c) (prot := d.protectedRanges c) ⟨h.memWf, h.memBelow⟩ he
    exact ⟨this.1, this.2, h.settings, h.jobInside⟩
  | writeStatus v => exact h
  | nothing => exact h

theorem NorGood.finishJob {c : Config} (hc : c.wf) {d : NorDevice} {e : NorEffect} (h : NorGood c d)
    (he : e.inside c.norCapacity) (k : Nat) : NorGood c (d.finishJob c k e).1 := by
  have := h.applyEffect hc he k
  exact ⟨this.memWf, this.memBelow, this.settings, by simp [NorDevice.finishJob]⟩

theorem NorGood.tick {c : Config} (hc : c.wf) {d : NorDevice} (h : NorGood c d) (k : Nat) : NorGood c (d.tick c k).1 := by
  unfold NorDevice.tick
  split
  · exact h
  · exact h.finishJob hc (h.jobInside _ ‹_›) k
  · rename_i hj
    exact ⟨h.memWf, h.memBelow, h.settings, by rintro j ⟨⟩; have := h.jobInside _ hj; exact this⟩
  · exact h

theorem NorGood.spoil {c : Config} (hc : c.wf) {d : NorDevice} {e : NorEffect} (h : NorGood c d)
    (he : e.inside c.norCapacity) (k : Nat) : NorGood c (d.spoil c k e).1 := by
  cases e with
  | program a data =>
    exact ⟨Memory.scramble_wf h.memWf _ _ _, Memory.scramble_below h.memBelow (alignDown_region (Config.wf_page hc) he) _,
      h.settings, h.jobInside⟩
  | erase start len =>
    exact ⟨Memory.scramble_wf h.memWf _ _ _, Memory.scramble_below h.memBelow he _, h.settings, h.jobInside⟩
  | writeStatus v =>
    refine ⟨h.memWf, h.memBelow, ?_, h.jobInside⟩
    simp [NorDevice.spoil, BitVec.and_assoc]
  | nothing => exact h

/-- What a command asks for aims inside the device (log 27). -/
theorem commandEffect_inside {c : Config} (hc : c.wf) {cmd : NorCmd} {e : NorEffect} (h : commandEffect c cmd = some e) :
    e.inside c.norCapacity := by
  have hp := Config.wf_norCapacity hc
  cases cmd <;> simp only [commandEffect, Option.some.injEq, reduceCtorEq] at h <;> subst h
  · trivial
  · split
    · trivial
    · exact Nat.mod_lt _ hp
  · exact alignDown_region (Config.wf_sector hc) (Nat.mod_lt _ hp)
  · exact alignDown_region (Config.wf_block hc) (Nat.mod_lt _ hp)
  · simp [NorEffect.inside]

theorem NorGood.accept {c : Config} {d : NorDevice} {e : NorEffect} (h : NorGood c d) (he : e.inside c.norCapacity)
    (k : Nat) : NorGood c (d.accept k e).1 := by
  unfold NorDevice.accept
  split
  · exact ⟨h.memWf, h.memBelow, h.settings, by rintro j ⟨⟩; exact he⟩
  · exact h

theorem NorGood.powerOn {c : Config} (hc : c.wf) {d : NorDevice} (h : NorGood c d) (k : Nat) :
    NorGood c (d.powerOn c k).1 := by
  unfold NorDevice.powerOn
  split
  · exact ⟨h.memWf, h.memBelow, h.settings, by simp⟩
  · have := h.spoil hc (h.jobInside _ ‹_›) k
    exact ⟨this.memWf, this.memBelow, this.settings, by simp⟩

theorem NorGood.perform {c : Config} (hc : c.wf) {d : NorDevice} (h : NorGood c d) (k : Nat) (cmd : NorCmd) :
    NorGood c (d.perform c k cmd).1 := by
  have h' : ∀ b, NorGood c { d with resetArmed := b } := fun b => ⟨h.memWf, h.memBelow, h.settings, h.jobInside⟩
  have hp := Config.wf_norCapacity hc
  cases cmd with
  | wrsr1 v =>
    simp only [NorDevice.perform, NorDevice.acceptStatus]
    split
    · refine ⟨h.memWf, h.memBelow, ?_, by rintro j ⟨⟩; trivial⟩
      dsimp only
      split
      · simp [BitVec.and_assoc]
      · exact h.settings
    · exact h' false
  | pp a data =>
    simp only [NorDevice.perform]
    split
    · unfold NorDevice.acceptEmpty
      split
      · refine ⟨h.memWf, h.memBelow, h.settings, ?_⟩
        intro j hj
        dsimp only at hj
        split at hj
        · cases hj; trivial
        · cases hj
      · exact h' false
    · exact (h' false).accept (e := .program _ _) (Nat.mod_lt _ hp) k
  | se a => exact (h' false).accept (commandEffect_inside hc (cmd := .se a) rfl) k
  | be64 a => exact (h' false).accept (commandEffect_inside hc (cmd := .be64 a) rfl) k
  | ce => exact (h' false).accept (commandEffect_inside hc (cmd := .ce) rfl) k
  | rst =>
    simp only [NorDevice.perform]
    split
    · exact h.powerOn hc k
    · exact h
  | _ => exact ⟨h.memWf, h.memBelow, h.settings, h.jobInside⟩

theorem NorGood.disturb {c : Config} (hc : c.wf) {d : NorDevice} (h : NorGood c d) (k : Nat) (cmd : NorCmd) :
    NorGood c (d.disturb c k cmd).1 := by
  unfold NorDevice.disturb
  split
  · have := h.spoil hc (commandEffect_inside hc ‹_›) (k + 1)
    exact ⟨this.memWf, this.memBelow, this.settings, this.jobInside⟩
  · split
    · exact ⟨h.memWf, h.memBelow, h.settings, h.jobInside⟩
    · split
      · exact ⟨h.memWf, h.memBelow, h.settings, h.jobInside⟩
      · split
        · split
          · exact h.powerOn hc (k + 1)
          · exact h
        · exact h

theorem NorGood.react {c : Config} (hc : c.wf) {d : NorDevice} (h : NorGood c d) (k : Nat) (tx : List Byte) :
    NorGood c (d.react c k tx).1 := by
  unfold NorDevice.react
  split
  · exact h
  · split
    · split
      · exact ⟨h.memWf, h.memBelow, h.settings, h.jobInside⟩
      · exact h
    · split
      · exact h.disturb hc k _
      · exact h.perform hc k _

theorem NorGood.answer {c : Config} (hc : c.wf) {d : NorDevice} (h : NorGood c d) (k : Nat) (tx : List Byte) (n : Nat) :
    NorGood c (d.answer c k tx n).2.1 := by
  unfold NorDevice.answer
  split
  · exact h
  · split
    · exact h
    · split
      · exact h
      · split
        · exact h.tick hc k
        · exact h

/-- All that freeing what an effect aims at can do to the device (U6): the bytes outside the page or region, the settings but
for a status write, every other field and the time an operation still lasts are kept. -/
theorem NorDevice.abandon_spec (c : Config) (d : NorDevice) (k : Nat) (e : NorEffect) :
    ∃ mem status wel job, (d.abandon c k e).1 = { d with mem := mem, status := status, wel := wel, job := job } ∧
      job.map (·.left) = d.job.map (·.left) ∧
      ((∀ v, e ≠ .writeStatus v) → status = d.status ∧ wel = d.wel) ∧
      ∀ x, (∀ a data, e = .program a data → x < alignDown a c.norPage ∨ alignDown a c.norPage + c.norPage ≤ x) →
        (∀ start len, e = .erase start len → x < start ∨ start + len ≤ x) → mem.read x = d.mem.read x := by
  have left : (d.job.map (fun j => if j.effect = e then { j with effect := .nothing } else j)).map (·.left) =
      d.job.map (·.left) := by
    cases d.job with
    | none => rfl
    | some j => simp only [Option.map_some]; split <;> rfl
  cases e with
  | program a data => exact ⟨_, _, _, _, rfl, left, fun _ => ⟨rfl, rfl⟩, fun x h1 _ =>
      Memory.read_scramble_outside (h1 a data rfl) k⟩
  | erase start len => exact ⟨_, _, _, _, rfl, left, fun _ => ⟨rfl, rfl⟩, fun x _ h2 =>
      Memory.read_scramble_outside (h2 start len rfl) k⟩
  | writeStatus v => exact ⟨_, _, _, _, rfl, left, fun h => absurd rfl (h v), fun _ _ _ => rfl⟩
  | nothing => exact ⟨_, _, _, _, rfl, left, fun _ => ⟨rfl, rfl⟩, fun _ _ _ => rfl⟩

theorem asksFor_inside {c : Config} (hc : c.wf) (cmd : NorCmd) : (asksFor c cmd).inside c.norCapacity := by
  unfold asksFor
  cases h : commandEffect c cmd with
  | none => trivial
  | some e => exact commandEffect_inside hc h

/-- A frame with an effect is a command that asks for it. -/
theorem frameEffect_eq {c : Config} {tx : List Byte} {e : NorEffect} (h : frameEffect c tx = e) (he : e ≠ .nothing) :
    ∃ cmd, decodeNor c tx = .ok cmd ∧ commandEffect c cmd = some e := by
  unfold frameEffect at h
  split at h
  · exact absurd h.symm he
  · rename_i cmd hcmd
    refine ⟨cmd, hcmd, ?_⟩
    unfold asksFor at h
    cases h2 : commandEffect c cmd with
    | none => rw [h2] at h; exact absurd h.symm he
    | some e' => rw [h2] at h; exact congrArg some h

theorem frameEffect_inside {c : Config} (hc : c.wf) (tx : List Byte) : (frameEffect c tx).inside c.norCapacity := by
  unfold frameEffect
  split
  · trivial
  · exact asksFor_inside hc _

theorem NorEffect.unsent_inside {e : NorEffect} {n : Nat} (h : e.inside n) : e.unsent.inside n := by
  cases e <;> first | exact h | trivial

theorem NorGood.abandon {c : Config} (hc : c.wf) {d : NorDevice} (h : NorGood c d) (k : Nat) {e : NorEffect}
    (he : e.inside c.norCapacity) : NorGood c (d.abandon c k e).1 := by
  have hs := h.spoil hc he k
  refine ⟨hs.memWf, hs.memBelow, hs.settings, ?_⟩
  intro j hj
  simp only [NorDevice.abandon, Option.map_eq_some_iff] at hj
  obtain ⟨j', hj', rfl⟩ := hj
  split
  · trivial
  · exact h.jobInside j' hj'

/-! The block's procedures -/

/-- Whether a frame starts with the status-write command, as a number. -/
def statusWrites (c : Config) (tx : List Byte) : Nat := if tx.head? = some c.cmd.wrsr1 then 1 else 0

/-- What a NOR or WP procedure can change before its operation ends, with at most `n` status writes among its events. The
fields not named are free: `DOUT`, `NOR_PHASE` and its log, `RES_ADDR` and `RES_OBSERVED` (an error's context),
`NOR_IDENT`, the NOR device, the answers it takes, the counter of free values. -/
structure NorStep (n : Nat) (s t : State) : Prop where
  cfg : t.cfg = s.cfg
  caller : t.caller = s.caller
  request : t.reqOp = s.reqOp ∧ t.reqAddr = s.reqAddr ∧ t.reqArg = s.reqArg ∧ t.din = s.din
  rx : t.rx = s.rx
  parDir : t.parDir = s.parDir
  attempts : t.attempts = s.attempts
  results : t.resCode = s.resCode ∧ t.resLen = s.resLen ∧ t.resExpected = s.resExpected ∧
    t.resAttempts = s.resAttempts ∧ t.failCount = s.failCount
  seq : t.seq = s.seq
  par : t.world.par = s.world.par
  inputs : t.world.samples = s.world.samples ∧ t.world.scans = s.world.scans ∧ t.world.i2cIn = s.world.i2cIn
  see : t.world.see = { s.world.see with cycleLeft := t.world.see.cycleLeft }
  warn : s.warn &&& 0xFC#8 = 0#8 → t.warn &&& 0xFC#8 = 0#8
  trace : ∃ events, quiet events ∧ t.world.trace = s.world.trace ++ events ∧
    (s.cfg.wf → (events.filter (sends s.cfg.cmd.wrsr1)).length ≤ n)
  good : s.cfg.wf → NorGood s.cfg s.world.nor → NorGood s.cfg t.world.nor

theorem quiet_nil : quiet [] := by simp [quiet]

theorem quiet_append {l m : List Event} (h : quiet l) (h2 : quiet m) : quiet (l ++ m) := by
  intro code hm
  rcases List.mem_append.mp hm with h3 | h3
  · exact h code h3
  · exact h2 code h3

theorem NorStep.refl (s : State) : NorStep 0 s s where
  cfg := rfl
  caller := rfl
  request := ⟨rfl, rfl, rfl, rfl⟩
  rx := rfl
  parDir := rfl
  attempts := rfl
  results := ⟨rfl, rfl, rfl, rfl, rfl⟩
  seq := rfl
  par := rfl
  inputs := ⟨rfl, rfl, rfl⟩
  see := rfl
  warn := id
  trace := ⟨[], quiet_nil, by simp, by simp⟩
  good := fun _ => id

theorem NorStep.trans {n m : Nat} {s t u : State} (h : NorStep n s t) (h2 : NorStep m t u) : NorStep (n + m) s u where
  cfg := h2.cfg.trans h.cfg
  caller := h2.caller.trans h.caller
  request := ⟨h2.request.1.trans h.request.1, h2.request.2.1.trans h.request.2.1, h2.request.2.2.1.trans h.request.2.2.1,
    h2.request.2.2.2.trans h.request.2.2.2⟩
  rx := h2.rx.trans h.rx
  parDir := h2.parDir.trans h.parDir
  attempts := h2.attempts.trans h.attempts
  results := ⟨h2.results.1.trans h.results.1, h2.results.2.1.trans h.results.2.1, h2.results.2.2.1.trans h.results.2.2.1,
    h2.results.2.2.2.1.trans h.results.2.2.2.1, h2.results.2.2.2.2.trans h.results.2.2.2.2⟩
  seq := h2.seq.trans h.seq
  par := h2.par.trans h.par
  inputs := ⟨h2.inputs.1.trans h.inputs.1, h2.inputs.2.1.trans h.inputs.2.1, h2.inputs.2.2.trans h.inputs.2.2⟩
  see := by rw [h2.see, h.see]
  warn := fun hw => h2.warn (h.warn hw)
  trace := by
    obtain ⟨e1, q1, t1, n1⟩ := h.trace
    obtain ⟨e2, q2, t2, n2⟩ := h2.trace
    refine ⟨e1 ++ e2, quiet_append q1 q2, by rw [t2, t1, List.append_assoc], fun hc => ?_⟩
    rw [List.filter_append, List.length_append]
    have := n2 (h.cfg ▸ hc)
    rw [h.cfg] at this
    exact Nat.add_le_add (n1 hc) this
  good := fun hc hg => by
    have := h2.good (h.cfg ▸ hc)
    rw [h.cfg] at this
    exact this (h.good hc hg)

theorem NorStep.mono {n m : Nat} {s t : State} (h : NorStep n s t) (hn : n ≤ m) : NorStep m s t := by
  obtain ⟨e, q, ht, l⟩ := h.trace
  exact { h with trace := ⟨e, q, ht, fun hc => (l hc).trans hn⟩ }

/-- The frame of one command (R141). -/
theorem State.spi_step (tx : List Byte) (n : Nat) (s : State) : NorStep (statusWrites s.cfg tx) s (s.spi tx n).2 := by
  have hfilter : ∀ e : List Event, (∀ x ∈ e, sends s.cfg.cmd.wrsr1 x = false) →
      ((.sel :: .spiW tx :: e).filter (sends s.cfg.cmd.wrsr1)).length ≤ statusWrites s.cfg tx := by
    intro e he
    have h0 : e.filter (sends s.cfg.cmd.wrsr1) = [] := by simpa using he
    cases tx with
    | nil => simp [sends, h0]
    | cons b rest =>
      by_cases hb : b = s.cfg.cmd.wrsr1 <;> simp [sends, h0, hb, statusWrites]
  have hq : ∀ e : List Event, quiet e → quiet (.sel :: .spiW tx :: e) := by
    intro e he code; simp [he code]
  have hr : ∀ d k, s.cfg.wf → NorGood s.cfg d → NorGood s.cfg (d.react s.cfg k tx).1 := fun d k hc hd => hd.react hc k tx
  unfold State.spi World.spiFrame
  split
  · refine ⟨rfl, rfl, ⟨rfl, rfl, rfl, rfl⟩, rfl, rfl, rfl, ⟨rfl, rfl, rfl, rfl, rfl⟩, rfl, rfl, ⟨rfl, rfl, rfl⟩, rfl, id,
      ⟨_, hq _ ?_, rfl, fun _ => hfilter _ (by simp [sends])⟩, hr _ _⟩
    simp [quiet]
  · refine ⟨rfl, rfl, ⟨rfl, rfl, rfl, rfl⟩, rfl, rfl, rfl, ⟨rfl, rfl, rfl, rfl, rfl⟩, rfl, rfl, ⟨rfl, rfl, rfl⟩, rfl, id,
      ⟨_, hq _ ?_, rfl, fun _ => hfilter _ (by simp [sends])⟩, fun hc hd => hr _ _ hc (hd.answer hc _ tx n)⟩
    simp [quiet]

theorem State.spiSend_step (tx : List Byte) (s : State) : NorStep (statusWrites s.cfg tx) s (s.spiSend tx) :=
  State.spi_step tx 0 s

theorem State.readStatus_step (command : Byte) (s : State) :
    NorStep (statusWrites s.cfg [command]) s (s.readStatus command).2 := State.spi_step [command] 1 s

/-- A frame of another command is no status write (R109). -/
theorem NorStep.other {command : Byte} {s t : State} (h : NorStep (statusWrites s.cfg [command]) s t)
    (hn : s.cfg.wf → command ≠ s.cfg.cmd.wrsr1) : NorStep 0 s t := by
  obtain ⟨e, q, ht, l⟩ := h.trace
  exact { h with trace := ⟨e, q, ht, fun hc => by simpa [statusWrites, hn hc] using l hc⟩ }

/-- The command bytes of the block's own frames are not the status write's (R109). -/
theorem Config.wf_distinct {c : Config} (hc : c.wf) : c.cmd.rdsr1 ≠ c.cmd.wrsr1 ∧ c.cmd.rdsr2 ≠ c.cmd.wrsr1 ∧
    c.cmd.rdsr3 ≠ c.cmd.wrsr1 ∧ c.cmd.wren ≠ c.cmd.wrsr1 ∧ c.cmd.wrdi ≠ c.cmd.wrsr1 ∧ c.cmd.rdid ≠ c.cmd.wrsr1 ∧
    c.cmd.wake ≠ c.cmd.wrsr1 ∧ c.cmd.rsten ≠ c.cmd.wrsr1 ∧ c.cmd.rst ≠ c.cmd.wrsr1 ∧ c.cmd.read ≠ c.cmd.wrsr1 := by
  have h := Config.wf_nodup hc
  refine ⟨?_, ?_, ?_, ?_, ?_, ?_, ?_, ?_, ?_, ?_⟩ <;> intro e <;> simp [Commands.all, e] at h

theorem State.rdsr1_step (s : State) : NorStep 0 s (s.readStatus s.cfg.cmd.rdsr1).2 :=
  (State.readStatus_step _ s).other fun hc => (Config.wf_distinct hc).1

theorem State.rdsr2_step (s : State) : NorStep 0 s (s.readStatus s.cfg.cmd.rdsr2).2 :=
  (State.readStatus_step _ s).other fun hc => (Config.wf_distinct hc).2.1

theorem State.rdsr3_step (s : State) : NorStep 0 s (s.readStatus s.cfg.cmd.rdsr3).2 :=
  (State.readStatus_step _ s).other fun hc => (Config.wf_distinct hc).2.2.1

theorem State.wren_step (s : State) : NorStep 0 s (s.spiSend [s.cfg.cmd.wren]) :=
  (State.spiSend_step _ s).other fun hc => (Config.wf_distinct hc).2.2.2.1

theorem State.setPhase_step (p : NorPhase) (s : State) : NorStep 0 s (s.setPhase p) :=
  ⟨rfl, rfl, ⟨rfl, rfl, rfl, rfl⟩, rfl, rfl, rfl, ⟨rfl, rfl, rfl, rfl, rfl⟩, rfl, rfl, ⟨rfl, rfl, rfl⟩, rfl, id,
    ⟨[], quiet_nil, by simp, by simp⟩, fun _ => id⟩

theorem State.dout_step (l : List Byte) (s : State) : NorStep 0 s { s with dout := l } :=
  ⟨rfl, rfl, ⟨rfl, rfl, rfl, rfl⟩, rfl, rfl, rfl, ⟨rfl, rfl, rfl, rfl, rfl⟩, rfl, rfl, ⟨rfl, rfl, rfl⟩, rfl, id,
    ⟨[], quiet_nil, by simp, by simp⟩, fun _ => id⟩

theorem State.delay_step (t : DelayName) (s : State) : NorStep 0 s (s.delay t) :=
  ⟨rfl, rfl, ⟨rfl, rfl, rfl, rfl⟩, rfl, rfl, rfl, ⟨rfl, rfl, rfl, rfl, rfl⟩, rfl, rfl, ⟨rfl, rfl, rfl⟩, rfl, id,
    ⟨[.delay t], by simp [quiet], rfl, by simp [sends]⟩, fun _ h => ⟨h.memWf, h.memBelow, h.settings, h.jobInside⟩⟩

theorem and_or_zero {a b m : BitVec 8} (ha : a &&& m = 0#8) (hb : b &&& m = 0#8) : (a ||| b) &&& m = 0#8 := by
  have : (a ||| b) &&& m = (a &&& m) ||| (b &&& m) := by ext i hi; simp; cases a[i] <;> cases b[i] <;> simp
  rw [this, ha, hb]; rfl

theorem and_and_zero {a b m : BitVec 8} (ha : a &&& m = 0#8) : (a &&& b) &&& m = 0#8 := by
  rw [BitVec.and_assoc, BitVec.and_comm b m, ← BitVec.and_assoc, ha]; simp

theorem State.clearWarn_step (b : BitVec 8) (s : State) : NorStep 0 s (s.clearWarn b) :=
  ⟨rfl, rfl, ⟨rfl, rfl, rfl, rfl⟩, rfl, rfl, rfl, ⟨rfl, rfl, rfl, rfl, rfl⟩, rfl, rfl, ⟨rfl, rfl, rfl⟩, rfl, and_and_zero,
    ⟨[], quiet_nil, by simp, by simp⟩, fun _ => id⟩

theorem State.storeIdentity_step (id1 : BitVec 24) (s : State) : NorStep 0 s (s.storeIdentity id1) := by
  unfold State.storeIdentity
  dsimp only
  split
  · exact ⟨rfl, rfl, ⟨rfl, rfl, rfl, rfl⟩, rfl, rfl, rfl, ⟨rfl, rfl, rfl, rfl, rfl⟩, rfl, rfl, ⟨rfl, rfl, rfl⟩, rfl, id,
      ⟨[], quiet_nil, by simp, by simp⟩, fun _ => id⟩
  · exact ⟨rfl, rfl, ⟨rfl, rfl, rfl, rfl⟩, rfl, rfl, rfl, ⟨rfl, rfl, rfl, rfl, rfl⟩, rfl, rfl, ⟨rfl, rfl, rfl⟩, rfl,
      fun h => and_or_zero h (by decide), ⟨[.warn .deviceIdentityMismatch], by simp [quiet], rfl,
        by simp [sends]⟩, fun _ => id⟩

theorem waitNotBusy_step (fuel : Nat) : ∀ s : State, NorStep 0 s (waitNotBusy fuel s).2 := by
  induction fuel with
  | zero => exact NorStep.refl
  | succ n ih =>
    intro s
    unfold waitNotBusy
    split
    · exact (State.rdsr1_step s).trans (ih _)
    · exact State.rdsr1_step s

theorem State.poll_step (s : State) : NorStep 0 s s.poll.2 := waitNotBusy_step _ s

theorem State.spi_phase (tx : List Byte) (n : Nat) (s : State) : (s.spi tx n).2.norPhase = s.norPhase := rfl

theorem waitNotBusy_phase (fuel : Nat) : ∀ s : State, (waitNotBusy fuel s).2.norPhase = s.norPhase := by
  induction fuel with
  | zero => exact fun _ => rfl
  | succ n ih =>
    intro s
    unfold waitNotBusy
    split
    · exact ih _
    · rfl

theorem State.poll_phase (s : State) : s.poll.2.norPhase = s.norPhase := waitNotBusy_phase _ s

theorem ensureWriteEnabled_step (s : State) : NorStep 0 s (ensureWriteEnabled s).2 := by
  have a1 := State.setPhase_step .writeEnableAsserted s
  have a2 := State.wren_step (s.setPhase .writeEnableAsserted)
  have a3 := State.rdsr1_step ((s.setPhase .writeEnableAsserted).spiSend [s.cfg.cmd.wren])
  have a := (a1.trans a2).trans a3
  unfold ensureWriteEnabled
  dsimp only
  split
  · exact a
  · have b1 := State.wren_step (((s.setPhase .writeEnableAsserted).spiSend [s.cfg.cmd.wren]).readStatus s.cfg.cmd.rdsr1).2
    have b2 := State.rdsr1_step
      ((((s.setPhase .writeEnableAsserted).spiSend [s.cfg.cmd.wren]).readStatus s.cfg.cmd.rdsr1).2.spiSend [s.cfg.cmd.wren])
    have b := (a.trans b1).trans b2
    split <;> exact b

/-- How a NOR or WP operation, or its continuation, ends: with one of the codes 0x00 and 0x02, or waiting in a busy poll;
from phase `p` the phase fits in both cases. -/
def NorEnds (p : NorPhase) (n : Nat) (s t : State) : Prop :=
  ∃ u, NorStep n s u ∧
    (((t = u.complete 0x00 ∨ t = u.complete 0x02) ∧ (s.norPhase = p → u.norPhase = .idle)) ∨
      ∃ q, q ≠ .idle ∧ t = { u with seq := q } ∧ (s.norPhase = p → u.norPhase = phaseAt q))

theorem NorEnds.after {p : NorPhase} {n m : Nat} {s t u : State} (h : NorStep n s t) (h2 : NorEnds p m t u) {p' : NorPhase}
    (hp : s.norPhase = p' → t.norPhase = p) : NorEnds p' (n + m) s u := by
  obtain ⟨v, hv, h3⟩ := h2
  refine ⟨v, h.trans hv, ?_⟩
  rcases h3 with ⟨h4, h5⟩ | ⟨q, h4, h5, h6⟩
  · exact .inl ⟨h4, fun h => h5 (hp h)⟩
  · exact .inr ⟨q, h4, h5, fun h => h6 (hp h)⟩

theorem State.returnOk_ends (s : State) : NorEnds .idle 0 s s.returnOk := ⟨s, NorStep.refl s, .inl ⟨.inl rfl, id⟩⟩

theorem State.readIdentity_step (s : State) : NorStep 0 s s.readIdentity.2 :=
  (State.spi_step [s.cfg.cmd.rdid] 3 s).other fun hc => (Config.wf_distinct hc).2.2.2.2.2.1

theorem State.readIdentity_phase (s : State) : s.readIdentity.2.norPhase = s.norPhase := rfl

theorem State.delay_phase (t : DelayName) (s : State) : (s.delay t).norPhase = s.norPhase := rfl

theorem State.storeIdentity_phase (id1 : BitVec 24) (s : State) : (s.storeIdentity id1).norPhase = s.norPhase := by
  unfold State.storeIdentity
  dsimp only
  split <;> rfl

theorem identify_ends (s : State) : NorEnds .idle 0 s (identify s) := by
  unfold identify
  dsimp only
  have a1 := State.readIdentity_step s
  split
  · have a2 := State.delay_step .idRetry s.readIdentity.2
    have a3 := State.readIdentity_step (s.readIdentity.2.delay .idRetry)
    have a4 := State.storeIdentity_step (s.readIdentity.2.delay .idRetry).readIdentity.1
      (s.readIdentity.2.delay .idRetry).readIdentity.2
    refine NorEnds.after (((a1.trans a2).trans a3).trans a4) (State.returnOk_ends _) (fun h => ?_)
    rw [State.storeIdentity_phase, State.readIdentity_phase, State.delay_phase, State.readIdentity_phase]
    exact h
  · have a4 := State.storeIdentity_step s.readIdentity.1 s.readIdentity.2
    refine NorEnds.after (a1.trans a4) (State.returnOk_ends _) (fun h => ?_)
    rw [State.storeIdentity_phase]
    exact (State.readIdentity_phase _).trans h

theorem continueAfter_ends (after : After) (s : State) : NorEnds .idle 0 s (continueAfter after s) := by
  cases after with
  | finish => exact State.returnOk_ends s
  | identify => exact identify_ends s

theorem finalWait_ends (tx : List Byte) (after : After) (s : State) : NorEnds .busy 0 s (finalWait tx after s) := by
  unfold finalWait
  have a := State.poll_step s
  split
  · exact NorEnds.after (a.trans (State.setPhase_step .idle _)) (continueAfter_ends after _) (fun _ => rfl)
  · exact ⟨_, a, .inr ⟨_, by simp, rfl, fun h => (State.poll_phase s).trans h⟩⟩

theorem mutateCommand_ends (tx : List Byte) (opAddr : Addr) (after : After) (s : State) (p : NorPhase) :
    NorEnds p (statusWrites s.cfg tx) s (mutateCommand tx opAddr after s) := by
  unfold mutateCommand
  have a := ensureWriteEnabled_step s
  split
  · rename_i observed _
    have a2 : NorStep 0 (ensureWriteEnabled s).2
        (((ensureWriteEnabled s).2.recordContext (.writeProtected opAddr observed)).setPhase .idle) :=
      ⟨rfl, rfl, ⟨rfl, rfl, rfl, rfl⟩, rfl, rfl, rfl, ⟨rfl, rfl, rfl, rfl, rfl⟩, rfl, rfl, ⟨rfl, rfl, rfl⟩, rfl, id,
        ⟨[], quiet_nil, by simp [State.recordContext], by simp⟩, fun _ => id⟩
    exact ⟨_, (a.trans a2).mono (Nat.zero_le _), .inl ⟨.inr rfl, fun _ => rfl⟩⟩
  · have a2 := State.setPhase_step .commandIssued (ensureWriteEnabled s).2
    have a3 := State.spiSend_step tx ((ensureWriteEnabled s).2.setPhase .commandIssued)
    have a4 := State.setPhase_step .busy (((ensureWriteEnabled s).2.setPhase .commandIssued).spiSend tx)
    have hcfg : ((ensureWriteEnabled s).2.setPhase .commandIssued).cfg = s.cfg := a.cfg
    rw [hcfg] at a3
    have := NorEnds.after (((a.trans a2).trans a3).trans a4) (finalWait_ends tx after _) (p' := p) (fun _ => rfl)
    simpa using this

theorem mutate_ends (tx : List Byte) (opAddr : Addr) (after : After) (s : State) :
    NorEnds .idle (statusWrites s.cfg tx) s (mutate tx opAddr after s) := by
  unfold mutate
  have a := State.poll_step s
  split
  · have := NorEnds.after a (mutateCommand_ends tx opAddr after _ .idle) (p' := .idle) (fun h => (State.poll_phase s).trans h)
    rw [a.cfg] at this
    simpa using this
  · exact ⟨_, a.mono (Nat.zero_le _), .inr ⟨_, by simp, rfl, fun h => (State.poll_phase s).trans h⟩⟩

theorem pollAndRead_ends (addr : Addr) (count : Nat) (s : State) : NorEnds .idle 0 s (pollAndRead addr count s) := by
  unfold pollAndRead readMemory
  have a := State.poll_step s
  dsimp only
  split
  · have b : NorStep 0 s.poll.2 (s.poll.2.spi (NorCmd.bytes s.poll.2.cfg (.read addr)) count).2 := by
      have := State.spi_step (NorCmd.bytes s.poll.2.cfg (.read addr)) count s.poll.2
      obtain ⟨e, q, ht, l⟩ := this.trace
      exact { this with trace := ⟨e, q, ht, fun hc => by
        simpa [statusWrites, NorCmd.bytes, (Config.wf_distinct hc).2.2.2.2.2.2.2.2.2] using l hc⟩ }
    exact NorEnds.after ((a.trans b).trans (State.dout_step _ _)) (State.returnOk_ends _)
      (fun h => (State.poll_phase s).trans h)
  · exact ⟨_, a, .inr ⟨_, by simp, rfl, fun h => (State.poll_phase s).trans h⟩⟩

theorem statusOperation_ends (command : Byte) (s : State) :
    NorEnds .idle (statusWrites s.cfg [command]) s (statusOperation command s) := by
  have a := (State.readStatus_step command s).trans (State.dout_step [(s.readStatus command).1] (s.readStatus command).2)
  exact NorEnds.after a (State.returnOk_ends _) id

/-- The protection step (R181): one status write if SR1 is protected, none if it is not. -/
theorem disableProtection_ends (after : After) (s : State) : NorEnds .idle
    (if protectedStatus s.cfg (s.readStatus s.cfg.cmd.rdsr1).1 then 1 else 0) s (disableProtection after s) := by
  unfold disableProtection
  dsimp only
  have a1 := State.rdsr1_step s
  have a2 : NorStep 0 _ ((s.readStatus s.cfg.cmd.rdsr1).2.readStatus s.cfg.cmd.rdsr2).2 := State.rdsr2_step _
  have a3 : NorStep 0 _
      (((s.readStatus s.cfg.cmd.rdsr1).2.readStatus s.cfg.cmd.rdsr2).2.readStatus s.cfg.cmd.rdsr3).2 := State.rdsr3_step _
  have a := ((a1.trans a2).trans a3).trans (State.dout_step [(s.readStatus s.cfg.cmd.rdsr1).1,
    ((s.readStatus s.cfg.cmd.rdsr1).2.readStatus s.cfg.cmd.rdsr2).1,
    (((s.readStatus s.cfg.cmd.rdsr1).2.readStatus s.cfg.cmd.rdsr2).2.readStatus s.cfg.cmd.rdsr3).1] _)
  split
  · have b := mutate_ends (NorCmd.bytes s.cfg (.wrsr1 (clearedStatus s.cfg (s.readStatus s.cfg.cmd.rdsr1).1))) 0 after
      { (((s.readStatus s.cfg.cmd.rdsr1).2.readStatus s.cfg.cmd.rdsr2).2.readStatus s.cfg.cmd.rdsr3).2 with
        dout := [(s.readStatus s.cfg.cmd.rdsr1).1, ((s.readStatus s.cfg.cmd.rdsr1).2.readStatus s.cfg.cmd.rdsr2).1,
          (((s.readStatus s.cfg.cmd.rdsr1).2.readStatus s.cfg.cmd.rdsr2).2.readStatus s.cfg.cmd.rdsr3).1] }
    rw [a.cfg] at b
    have e : statusWrites s.cfg (NorCmd.bytes s.cfg (.wrsr1 (clearedStatus s.cfg (s.readStatus s.cfg.cmd.rdsr1).1))) = 1 := by
      simp [statusWrites, NorCmd.bytes]
    rw [e] at b
    exact NorEnds.after a b id
  · exact NorEnds.after a (continueAfter_ends after _) id

/-- The continuation of a suspended operation (R143, R249). -/
theorem resume_ends (s : State) (hs : s.seq ≠ .idle) : ∃ n, NorEnds (phaseAt s.seq) n s (resume s) := by
  unfold resume
  cases hq : s.seq with
  | idle => exact absurd hq hs
  | firstPoll tx a after => exact ⟨_, mutate_ends tx a after s⟩
  | finalPoll tx after => exact ⟨_, finalWait_ends tx after s⟩
  | readPoll addr count => exact ⟨_, pollAndRead_ends addr count s⟩

/-- What follows a mutating command ends the operation. -/
theorem continueAfter_seq (after : After) (s : State) : (continueAfter after s).seq = .idle := by
  cases after with
  | finish => rfl
  | identify => simp only [continueAfter, identify]; split <;> rfl

/-- An operation that has sent its command has none left to send (R145). -/
theorem finalWait_left (tx : List Byte) (after : After) (s : State) : commandsLeft (finalWait tx after s).seq = 0 := by
  unfold finalWait
  split
  · rw [continueAfter_seq]; rfl
  · rfl

/-- So has one that is past its latch check, or has failed it. -/
theorem mutateCommand_left (tx : List Byte) (opAddr : Addr) (after : After) (s : State) :
    commandsLeft (mutateCommand tx opAddr after s).seq = 0 := by
  unfold mutateCommand
  split
  · rfl
  · exact finalWait_left _ _ _

end Sys2Proof.Machine
end

