-- ==== Sys2Proof/Laws/ParMemory.lean ====
section
/-! SUPPORT. What samples and write pulses can do to the memory of the reference parallel EEPROM (R95, R96). -/

namespace Sys2Proof.Machine

/-- What samples do: a running write cycle goes on, or it ends and its byte is stored (R95, R96). -/
def Ticked (c : Config) (p q : ParDevice) : Prop :=
  (q.mem = p.mem ∧ q.cycle.map (fun y => (y.addr, y.data)) = p.cycle.map (fun y => (y.addr, y.data))) ∨
    ∃ y, p.cycle = some y ∧ q.mem = p.mem.write (y.addr % c.parCapacity) y.data ∧ q.cycle = none

theorem Ticked.refl (c : Config) (p : ParDevice) : Ticked c p p := .inl ⟨rfl, rfl⟩

theorem Ticked.trans {c : Config} {p q r : ParDevice} (h : Ticked c p q) (h2 : Ticked c q r) : Ticked c p r := by
  rcases h with ⟨m, y⟩ | ⟨y, hy, m, e⟩
  · rcases h2 with ⟨m2, y2⟩ | ⟨z, hz, m2, e2⟩
    · exact .inl ⟨m2.trans m, y2.trans y⟩
    · rw [hz] at y
      obtain ⟨y', hy', he⟩ := Option.map_eq_some_iff.mp y.symm
      simp only [Prod.mk.injEq] at he
      exact .inr ⟨y', hy', by rw [m2, m, he.1, he.2], e2⟩
  · rcases h2 with ⟨m2, y2⟩ | ⟨z, hz, -, -⟩
    · refine .inr ⟨y, hy, m2.trans m, ?_⟩
      rw [e] at y2
      exact Option.map_eq_none_iff.mp y2
    · rw [e] at hz; cases hz

/-- One sample (R96). -/
theorem ParDevice.tick_ticked (c : Config) (p : ParDevice) : Ticked c p (p.tick c) := by
  unfold ParDevice.tick
  split
  · exact Ticked.refl c p
  · exact .inr ⟨_, ‹_›, rfl, rfl⟩
  · rename_i h; exact .inl ⟨rfl, by rw [h]; rfl⟩
  · exact Ticked.refl c p

/-- What a write pulse with a byte on the data lines does: a write cycle starts; the byte of one that was running becomes free
(R95, log 24). -/
def Latched (c : Config) (p q : ParDevice) (a : Nat) (v : Byte) : Prop :=
  q.cycle = some ⟨a, v, p.cycleSamples⟩ ∧ (p.cycle = none → q.mem = p.mem) ∧
    ∀ y, p.cycle = some y → ∃ k, q.mem = p.mem.write (y.addr % c.parCapacity) (Config.freeByte k)

theorem ParDevice.latch_latched (c : Config) (p : ParDevice) (k : Nat) (level : BitVec 27) :
    Latched c p (p.latch c k level).1 (lineAddress c level) (p.latched k level) := by
  unfold ParDevice.latch Latched
  cases h : p.cycle with
  | none => exact ⟨rfl, fun _ => rfl, nofun⟩
  | some old => exact ⟨rfl, nofun, fun y hy => by cases hy; exact ⟨_, rfl⟩⟩

/-- No byte changes but those of a range and the one of a cycle that was running, and a cycle that runs now is one of them. -/
def Touched (c : Config) (p q : ParDevice) (start len : Nat) : Prop :=
  OnlyTouches c p q start len ∧ ∀ y, q.cycle = some y →
    (start ≤ y.addr % c.parCapacity ∧ y.addr % c.parCapacity < start + len) ∨ ∃ z, p.cycle = some z ∧ z.addr = y.addr

theorem Touched.refl (c : Config) (p : ParDevice) (start : Nat) : Touched c p p start 0 :=
  ⟨fun _ _ _ => rfl, fun y hy => .inr ⟨y, hy, rfl⟩⟩

/-- A range and the one after it. -/
theorem Touched.append {c : Config} {p q r : ParDevice} {start n m : Nat} (h : Touched c p q start n)
    (h2 : Touched c q r (start + n) m) : Touched c p r start (n + m) := by
  refine ⟨fun a ha hy => ?_, fun y hy => ?_⟩
  · rw [h2.1 a (by omega) fun y hq he => ?_, h.1 a (by omega) hy]
    rcases h.2 y hq with hr | ⟨z, hz, hza⟩
    · omega
    · exact hy z hz (by rw [hza]; exact he)
  · rcases h2.2 y hy with hr | ⟨z, hz, hza⟩
    · exact .inl (by omega)
    · rcases h.2 z hz with hr | ⟨w, hw, hwa⟩
      · exact .inl (by rw [← hza]; omega)
      · exact .inr ⟨w, hw, hwa.trans hza⟩

/-- A write pulse and the samples after it (R95, R96). -/
theorem Latched.written {c : Config} {p q r : ParDevice} {a : Nat} {v : Byte} (h : Latched c p q a v) (h2 : Ticked c q r)
    (ha : a < c.parCapacity) : ByteWritten c p r a v ∧ Touched c p r a 1 := by
  obtain ⟨hcyc, hnone, hsome⟩ := h
  have hq : ∀ x, (∀ y, p.cycle = some y → x ≠ y.addr % c.parCapacity) → q.mem.read x = p.mem.read x := by
    intro x hx
    cases hp : p.cycle with
    | none => rw [hnone hp]
    | some y =>
      obtain ⟨k, hk⟩ := hsome y hp
      rw [hk]
      exact Memory.read_write_other _ _ (hx y hp)
  have hwf : p.mem.wf → q.mem.wf := by
    intro hw
    cases hp : p.cycle with
    | none => rw [hnone hp]; exact hw
    | some y =>
      obtain ⟨k, hk⟩ := hsome y hp
      rw [hk]
      exact Memory.write_wf hw _ _
  have htouch : OnlyTouches c p r a 1 := by
    intro x hx hy
    rcases h2 with ⟨m, -⟩ | ⟨y, hy2, m, -⟩
    · rw [m]; exact hq x hy
    · rw [hcyc] at hy2
      cases hy2
      rw [m, Nat.mod_eq_of_lt ha, Memory.read_write_other _ _ (by omega)]
      exact hq x hy
  refine ⟨⟨htouch, fun hw hr => ?_⟩, htouch, fun y hy => .inl ?_⟩
  · rcases h2 with ⟨-, e⟩ | ⟨y, hy2, m, -⟩
    · rw [hr, hcyc] at e; cases e
    · rw [hcyc] at hy2
      cases hy2
      rw [m, Nat.mod_eq_of_lt ha]
      exact Memory.read_write_same (hwf hw) _ _
  · rcases h2 with ⟨-, e⟩ | ⟨z, -, -, e⟩
    · rw [hy, hcyc] at e
      simp only [Option.map_some, Option.some.injEq, Prod.mk.injEq] at e
      rw [e.1, Nat.mod_eq_of_lt ha]; omega
    · rw [e] at hy; cases hy

end Sys2Proof.Machine
end

