-- ==== Sys2Proof/Laws/ParLines.lean ====
section
/-! SUPPORT. The line procedures of the PAR unit from the read-safe configuration: the exact state after each of them. -/

namespace Sys2Proof.Machine

/-! Line registers -/

theorem setLineBit_getLsbD (v : BitVec 27) {id1 : Nat} (b : Bool) (h : id1 < 27) (j : Nat) :
    (setLineBit v id1 b).getLsbD j = if j = id1 then b else v.getLsbD j := by
  unfold setLineBit lineBit
  have hs : (1#27 <<< id1).getLsbD j = decide (j = id1) := by
    simp only [BitVec.getLsbD_shiftLeft, BitVec.getLsbD_one]
    by_cases hj : j = id1
    · subst hj; simp [h]
    · have : ¬ (j < 27 ∧ ¬ j < id1 ∧ j - id1 = 0) := by omega
      simp [hj]; omega
  by_cases hj : j = id1
  · subst hj; cases b <;> simp [h]
  · cases b
    · simp only [Bool.false_eq_true, if_false, BitVec.getLsbD_and, BitVec.getLsbD_not, hs, hj, decide_false]
      by_cases hl : j < 27
      · simp [hl]
      · simp [BitVec.getLsbD_of_ge _ _ (Nat.not_lt.mp hl)]
    · simp [hs, hj]

theorem setLineBit_self (v : BitVec 27) {id1 : Nat} {b : Bool} (h : id1 < 27) (hv : v.getLsbD id1 = b) :
    setLineBit v id1 b = v := by
  apply BitVec.eq_of_getLsbD_eq
  intro i hi
  rw [setLineBit_getLsbD v b h]
  split
  · subst i; exact hv.symm
  · rfl

theorem setLineBit_twice (v : BitVec 27) {id1 : Nat} (a b : Bool) (h : id1 < 27) :
    setLineBit (setLineBit v id1 a) id1 b = setLineBit v id1 b := by
  apply BitVec.eq_of_getLsbD_eq
  intro i hi
  simp only [setLineBit_getLsbD _ _ h]
  split <;> rfl

theorem setLineBit_comm (v : BitVec 27) {i j : Nat} (a b : Bool) (hi : i < 27) (hj : j < 27) (hne : i ≠ j) :
    setLineBit (setLineBit v i a) j b = setLineBit (setLineBit v j b) i a := by
  apply BitVec.eq_of_getLsbD_eq
  intro k hk
  simp only [setLineBit_getLsbD _ _ hi, setLineBit_getLsbD _ _ hj]
  split <;> split <;> first | rfl | (exfalso; omega)

/-- Lines `base + i` of a register set to `bit i`, for `i` from `first` on, `n` of them. -/
def setLevels (base : Nat) (bit : Nat → Bool) : Nat → Nat → BitVec 27 → BitVec 27
  | 0, _, v => v
  | n + 1, first, v => setLevels base bit n (first + 1) (setLineBit v (base + first) (bit first))

theorem setLevels_getLsbD (base : Nat) (bit : Nat → Bool) (n : Nat) : ∀ (first : Nat) (v : BitVec 27) (j : Nat),
    base + first + n ≤ 27 → (setLevels base bit n first v).getLsbD j =
      if base + first ≤ j ∧ j < base + first + n then bit (j - base) else v.getLsbD j := by
  induction n with
  | zero => intro first v j h; rw [if_neg (by omega)]; rfl
  | succ n ih =>
    intro first v j h
    unfold setLevels
    rw [ih (first + 1) _ j (by omega), setLineBit_getLsbD _ _ (by omega)]
    split
    · rw [if_pos (by omega)]
    · split
      · rename_i h1 h2
        rw [if_pos (by omega), h2, Nat.add_sub_cancel_left]
      · rw [if_neg (by omega)]

/-- Lines the procedure does not name keep their level. -/
theorem setLevels_other {base : Nat} {bit : Nat → Bool} {n first : Nat} {v : BitVec 27} {j : Nat} (h : base + first + n ≤ 27)
    (hj : j < base + first ∨ base + first + n ≤ j) : (setLevels base bit n first v).getLsbD j = v.getLsbD j := by
  rw [setLevels_getLsbD base bit n first v j h, if_neg (by omega)]

theorem extract_eq (v : BitVec 27) (b : Byte) : v.extractLsb' 16 8 = b ↔ ∀ i < 8, v.getLsbD (16 + i) = b.getLsbD i := by
  constructor
  · intro h i hi
    rw [← h, BitVec.getLsbD_extractLsb']
    simp [hi]
  · intro h
    apply BitVec.eq_of_getLsbD_eq
    intro i hi
    rw [BitVec.getLsbD_extractLsb', h i hi]
    simp [hi]

/-- The address lines after `SetAddress` (R191). -/
theorem lineAddress_of_bits {c : Config} {level : BitVec 27} {a : Nat} (hb : c.parAddrBits ≤ 24) (ha : a < 2 ^ c.parAddrBits)
    (h : ∀ i < c.parAddrBits, level.getLsbD i = a.testBit i) : lineAddress c level = a := by
  unfold lineAddress
  apply Nat.eq_of_testBit_eq
  intro i
  rw [Nat.testBit_mod_two_pow]
  by_cases hi : i < c.parAddrBits
  · simp only [hi, decide_true, Bool.true_and]
    rw [← h i hi]; rfl
  · simp only [hi, decide_false, Bool.false_and]
    rw [Nat.testBit_lt_two_pow]
    exact Nat.lt_of_lt_of_le ha (Nat.pow_le_pow_right (by omega) (by omega))

/-! One line event -/

/-- A line set that neither ends a write pulse nor starts a read (R95, R96). -/
theorem State.lineSet_quiet {id1 : Nat} {b : Bool} {s : State}
    (h : (writePulse s.world.par.level && !writePulse (setLineBit s.world.par.level id1 b)) = false)
    (h2 : startsRead id1 b = false) :
    s.lineSet id1 b = { s with world := { s.world.log [.lineSet id1 b] with
      par := { s.world.par with level := setLineBit s.world.par.level id1 b } } } := by
  simp only [State.lineSet, World.lineSet, World.endPulse, h, h2, Bool.false_eq_true, if_false]
  rfl

/-- An address or data line set while chip-enable is high: the level changes and nothing else (R95, R96). -/
theorem State.lineSet_deselected {id1 : Nat} {b : Bool} {s : State} (h : s.world.par.level.getLsbD lineCE = true)
    (h2 : id1 < 24) :
    s.lineSet id1 b = { s with world := { s.world.log [.lineSet id1 b] with
      par := { s.world.par with level := setLineBit s.world.par.level id1 b } } } :=
  State.lineSet_quiet (by simp [writePulse, h])
    (by have : (id1 == lineOE) = false := by simp [lineOE]; omega
        simp [startsRead, this])

theorem World.log_log (w : World) (e f : List Event) : (w.log e).log f = w.log (e ++ f) := by
  simp [World.log, List.append_assoc]

/-- Address or data lines set while the device is deselected (R111, R191). -/
theorem setLines_deselected (base : Nat) (bit : Nat → Bool) (n : Nat) : ∀ (first : Nat) (s : State), base + first + n ≤ 24 →
    s.world.par.level.getLsbD lineCE = true → setLines base bit n first s = { s with
      world := { s.world.log ((List.range n).map (fun i => .lineSet (base + first + i) (bit (first + i)))) with
        par := { s.world.par with level := setLevels base bit n first s.world.par.level } } } := by
  induction n with
  | zero => intro first s h hce; simp [setLines, setLevels, World.log]
  | succ n ih =>
    intro first s h hce
    have h2 : (setLineBit s.world.par.level (base + first) (bit first)).getLsbD lineCE = true := by
      rw [setLineBit_getLsbD _ _ (by omega), if_neg (by unfold lineCE; omega)]; exact hce
    have e1 := State.lineSet_deselected (id1 := base + first) (b := bit first) hce (by omega)
    unfold setLines setLevels
    rw [e1]
    refine (ih (first + 1) { s with world := { s.world.log [.lineSet (base + first) (bit first)] with
      par := { s.world.par with level := setLineBit s.world.par.level (base + first) (bit first) } } }
      (by omega) h2).trans ?_
    have e2 : (List.range (n + 1)).map (fun i => Event.lineSet (base + first + i) (bit (first + i))) =
        .lineSet (base + first) (bit first) ::
          (List.range n).map (fun i => Event.lineSet (base + (first + 1) + i) (bit (first + 1 + i))) := by
      rw [List.range_succ_eq_map, List.map_cons, List.map_map]
      simp only [Nat.add_zero, List.cons.injEq, true_and]
      apply List.map_congr_left
      intro i _
      simp only [Function.comp, Nat.succ_eq_add_one]
      rw [show base + first + (i + 1) = base + (first + 1) + i by omega, show first + (i + 1) = first + 1 + i by omega]
    rw [e2]
    simp [World.log]

/-- Directions set (R111). -/
theorem setDirections_eq (base : Nat) (dir : LineDirection) (n : Nat) : ∀ (first : Nat) (s : State),
    setDirections base dir n first s = { s with
      world := { s.world.log ((List.range n).map (fun i => .lineDir (base + first + i) dir)) with
        par := { s.world.par with
          inputs := setLevels base (fun _ => dir == .input) n first s.world.par.inputs
          outputs := setLevels base (fun _ => dir == .output) n first s.world.par.outputs } } } := by
  induction n with
  | zero => intro first s; simp [setDirections, setLevels, World.log]
  | succ n ih =>
    intro first s
    unfold setDirections setLevels
    rw [ih]
    have e2 : (List.range (n + 1)).map (fun i => Event.lineDir (base + first + i) dir) =
        .lineDir (base + first) dir :: (List.range n).map (fun i => Event.lineDir (base + (first + 1) + i) dir) := by
      rw [List.range_succ_eq_map, List.map_cons, List.map_map]
      simp only [Nat.add_zero, List.cons.injEq, true_and]
      apply List.map_congr_left
      intro i _
      simp only [Function.comp, Nat.succ_eq_add_one]
      rw [show base + first + (i + 1) = base + (first + 1) + i by omega]
    rw [e2]
    simp [State.lineDir, World.lineDir, World.log]

theorem Config.wf_parAddrBits {c : Config} (h : c.wf) : c.parAddrBits ≤ 11 := h.2.2.2.2.2.2.2.2.2.2.1

/-- The line levels after `SetAddress` (R191). -/
def addressLevel (c : Config) (a : Nat) (level : BitVec 27) : BitVec 27 :=
  setLevels 0 (fun i => a.testBit i) c.parAddrBits 0 level

/-- `SetAddress` at a deselected device (R191). -/
theorem setAddress_eq {a : Nat} {s : State} (hc : s.cfg.wf) (h : s.world.par.level.getLsbD lineCE = true) :
    setAddress a s = { s with world := { s.world.log (addressEvents s.cfg a) with
      par := { s.world.par with level := addressLevel s.cfg a s.world.par.level } } } := by
  have hb := Config.wf_parAddrBits hc
  unfold setAddress addressEvents addressLevel
  rw [setLines_deselected 0 _ _ 0 s (by omega) h]
  simp

theorem addressLevel_getLsbD {c : Config} (hc : c.wf) (a : Nat) (level : BitVec 27) (j : Nat) :
    (addressLevel c a level).getLsbD j = if j < c.parAddrBits then a.testBit j else level.getLsbD j := by
  have hb := Config.wf_parAddrBits hc
  unfold addressLevel
  rw [setLevels_getLsbD 0 _ _ 0 level j (by omega)]
  simp

theorem addressLevel_address {c : Config} (hc : c.wf) {a : Nat} (ha : a < c.parCapacity) (level : BitVec 27) :
    lineAddress c (addressLevel c a level) = a := by
  have hb := Config.wf_parAddrBits hc
  refine lineAddress_of_bits (by omega) (by rw [← hc.2.1]; exact ha) (fun i hi => ?_)
  rw [addressLevel_getLsbD hc, if_pos hi]

/-- Levels of two registers that agree on the address lines address the same byte. -/
theorem lineAddress_congr {c : Config} {v w : BitVec 27} (hb : c.parAddrBits ≤ 24)
    (h : ∀ i < c.parAddrBits, v.getLsbD i = w.getLsbD i) : lineAddress c v = lineAddress c w :=
  lineAddress_of_bits hb (Nat.mod_lt _ (Nat.two_pow_pos _)) (fun i hi => by
    rw [h i hi]; unfold lineAddress
    rw [Nat.testBit_mod_two_pow]; simp [hi]; rfl)

/-! A read cycle -/

/-- The bits of the byte on the data lines, read one by one (R111, R192). -/
theorem sampleLines_eq (n : Nat) : ∀ (first : Nat) (s : State),
    sampleLines n first s = (((List.range n).map (fun i => if s.world.par.drive.getLsbD (first + i) then 2 ^ (first + i) else 0)).sum,
      { s with world := s.world.log ((List.range n).map (fun i => .lineGet (16 + first + i) (s.world.par.drive.getLsbD (first + i)))) }) := by
  induction n with
  | zero => intro first s; simp [sampleLines, World.log]
  | succ n ih =>
    intro first s
    unfold sampleLines
    simp only [State.lineGet, World.lineGet, ih, List.range_succ_eq_map, List.map_cons, List.map_map, Nat.add_zero, List.sum_cons,
      lineD, Prod.mk.injEq]
    constructor
    · congr 2
      apply List.map_congr_left
      intro i _
      simp only [Function.comp, Nat.succ_eq_add_one]
      rw [show first + (i + 1) = first + 1 + i by omega]
    · simp only [World.log, List.append_assoc, List.cons_append, List.nil_append]
      congr 4
      apply List.map_congr_left
      intro i _
      simp only [Function.comp, Nat.succ_eq_add_one]
      rw [show 16 + first + (i + 1) = 16 + (first + 1) + i by omega, show first + (i + 1) = first + 1 + i by omega]

/-- Eight sampled bits make the byte on the data lines. -/
theorem byte_of_bits (b : Byte) :
    BitVec.ofNat 8 (((List.range 8).map (fun i => if b.getLsbD i then 2 ^ i else 0)).sum) = b := by
  apply BitVec.eq_of_toNat_eq
  revert b
  decide

/-- The byte a read finds on the data lines (R96): the one given from outside, else the device's. -/
def sampled (c : Config) (level : BitVec 27) (w : World) : Byte :=
  w.samples.headD (if dataLinesIn (w.par.tick c) && (w.par.tick c).cycle.isNone then (w.par.tick c).mem.read (lineAddress c level)
    else Config.freeByte w.free)

theorem ParDevice.tick_lines (c : Config) (p : ParDevice) : (p.tick c).level = p.level ∧ (p.tick c).inputs = p.inputs ∧
    (p.tick c).outputs = p.outputs ∧ (p.tick c).cycleSamples = p.cycleSamples := by
  unfold ParDevice.tick
  split <;> exact ⟨rfl, rfl, rfl, rfl⟩

theorem ParDevice.tick_level (c : Config) (p : ParDevice) (v : BitVec 27) :
    ({ p with level := v } : ParDevice).tick c = { p.tick c with level := v } := by
  obtain ⟨mem, cycle, cs, l, i, o, d⟩ := p
  unfold ParDevice.tick
  rcases cycle with _ | ⟨a, b, _ | _ | n⟩ <;> rfl

/-- `ReadCycle` with the control lines released (R192): one sample, the control lines released again. -/
theorem readCycle_eq {s : State} (hc : s.cfg.wf) (h : s.world.par.Released) : readCycle s = (sampled s.cfg s.world.par.level s.world, { s with
    world := { s.world.log (sampleEvents (sampled s.cfg s.world.par.level s.world)) with
      par := { s.world.par.tick s.cfg with drive := sampled s.cfg s.world.par.level s.world }
      samples := s.world.samples.drop 1
      free := s.world.free + 1 } }) := by
  obtain ⟨h1, h2, h3⟩ := h
  have hce : lineCE < 27 := by decide
  have hoe : lineOE < 27 := by decide
  obtain ⟨L, hL⟩ : ∃ L, L = s.world.par.level := ⟨_, rfl⟩
  obtain ⟨L1, hL1⟩ : ∃ L1, L1 = setLineBit L lineCE false := ⟨_, rfl⟩
  obtain ⟨L2, hL2⟩ : ∃ L2, L2 = setLineBit L1 lineOE false := ⟨_, rfl⟩
  obtain ⟨L3, hL3⟩ : ∃ L3, L3 = setLineBit L2 lineOE true := ⟨_, rfl⟩
  rw [← hL] at h1 h2 h3
  have b1 : L1.getLsbD lineCE = false ∧ L1.getLsbD lineOE = true ∧ L1.getLsbD lineWE = true := by
    rw [hL1]; simp only [setLineBit_getLsbD _ _ hce]
    exact ⟨rfl, h2, h3⟩
  have b2 : L2.getLsbD lineCE = false ∧ L2.getLsbD lineOE = false ∧ L2.getLsbD lineWE = true := by
    rw [hL2]; simp only [setLineBit_getLsbD _ _ hoe]
    exact ⟨b1.1, rfl, b1.2.2⟩
  have hL3' : L3 = L1 := by
    rw [hL3, hL2, setLineBit_twice _ _ _ hoe]
    exact setLineBit_self _ hoe b1.2.1
  have hL4 : setLineBit L3 lineCE true = L := by
    rw [hL3', hL1, setLineBit_twice _ _ _ hce]
    exact setLineBit_self _ hce h1
  have c0 : readStrobe L = false ∧ writePulse L = false := by simp [readStrobe, writePulse, h1]
  have c1 : readStrobe L1 = false ∧ writePulse L1 = false := by simp [readStrobe, writePulse, b1]
  have c2 : readStrobe L2 = true ∧ writePulse L2 = false := by simp [readStrobe, writePulse, b2]
  have s1 : s.lineSet lineCE false = { s with world := { s.world.log [.lineSet lineCE false] with
      par := { s.world.par with level := L1 } } } := by
    rw [State.lineSet_quiet (by rw [← hL]; simp [c0]) rfl, ← hL, ← hL1]
  obtain ⟨v, hv⟩ : ∃ v, v = sampled s.cfg s.world.par.level s.world := ⟨_, rfl⟩
  have hb := Config.wf_parAddrBits hc
  have haddr : lineAddress s.cfg L2 = lineAddress s.cfg L := by
    refine lineAddress_congr (by omega) (fun i hi => ?_)
    rw [hL2, setLineBit_getLsbD _ _ hoe, if_neg (by unfold lineOE; omega), hL1, setLineBit_getLsbD _ _ hce,
      if_neg (by unfold lineCE; omega)]
  have s2 : (s.lineSet lineCE false).lineSet lineOE false = { s with
      world := { s.world.log [.lineSet lineCE false, .lineSet lineOE false] with
        par := { s.world.par.tick s.cfg with level := L2, drive := v }
        samples := s.world.samples.drop 1
        free := s.world.free + 1 } } := by
    rw [s1]
    unfold State.lineSet World.lineSet World.endPulse
    dsimp only
    rw [← hL2, if_neg (show ¬((writePulse L1 && !writePulse L2) = true) by simp [c1]), if_pos (by rfl)]
    unfold World.startRead
    rw [hv]
    unfold sampled dataLinesIn
    simp only [ParDevice.tick_level, haddr, ← hL, c2, Bool.true_and]
    simp [World.log]
  have s3 := sampleLines_eq 8 0 { s with
      world := { s.world.log [.lineSet lineCE false, .lineSet lineOE false] with
        par := { s.world.par.tick s.cfg with level := L2, drive := v }
        samples := s.world.samples.drop 1
        free := s.world.free + 1 } }
  have e3 : ∀ u : State, u.world.par.level = L2 → u.lineSet lineOE true = { u with
      world := { u.world.log [.lineSet lineOE true] with par := { u.world.par with level := L1 } } } := by
    intro u hu
    rw [State.lineSet_quiet (by rw [hu]; simp [c2]) rfl, hu, ← hL3, hL3']
  have e4 : ∀ u : State, u.world.par.level = L1 → u.lineSet lineCE true = { u with
      world := { u.world.log [.lineSet lineCE true] with par := { u.world.par with level := L } } } := by
    intro u hu
    rw [hL3'] at hL4
    rw [State.lineSet_quiet (by rw [hu]; simp [c1]) rfl, hu, hL4]
  unfold readCycle
  rw [s2, s3]
  simp only [Nat.zero_add, byte_of_bits]
  rw [e3]
  case a => rfl
  rw [e4]
  case a => rfl
  have e := (ParDevice.tick_lines s.cfg s.world.par).1
  rw [← hv]
  simp only [World.log, sampleEvents, lineCE, lineOE, List.append_assoc, Nat.add_zero]
  rw [hL, ← e]
  rfl

/-- What the end of a write pulse leaves of the device, whatever its level register. -/
theorem ParDevice.latch_level (c : Config) (p : ParDevice) (k : Nat) (v w : BitVec 27)
    (ha : lineAddress c v = lineAddress c w) (hd : lineData v = lineData w) (l : BitVec 27) :
    ({ p with level := l } : ParDevice).latch c k v = ({ (p.latch c k w).1 with level := l }, (p.latch c k w).2) := by
  unfold ParDevice.latch ParDevice.latched dataLinesOut
  rw [ha, hd]
  cases p.cycle <;> rfl

theorem ParDevice.latch_lines (c : Config) (p : ParDevice) (k : Nat) (v : BitVec 27) : (p.latch c k v).1.level = p.level ∧
    (p.latch c k v).1.inputs = p.inputs ∧ (p.latch c k v).1.outputs = p.outputs ∧
    (p.latch c k v).1.cycleSamples = p.cycleSamples := by
  unfold ParDevice.latch
  split <;> exact ⟨rfl, rfl, rfl, rfl⟩

/-- The write pulse with the control lines released (R95, R194): the address and data lines are latched, the control lines
released again. -/
theorem pulse_eq {s : State} (hc : s.cfg.wf) (h : s.world.par.Released) : pulse s = { s with
    world := { s.world.log [.lineSet 24 false, .lineSet 26 false, .delay .writePulse, .lineSet 26 true, .lineSet 24 true] with
      par := (s.world.par.latch s.cfg s.world.free s.world.par.level).1
      free := (s.world.par.latch s.cfg s.world.free s.world.par.level).2
      see := { s.world.see with cycleLeft := s.world.see.cycleLeft - s.cfg.tWritePulse }
      nor := { s.world.nor with powerUpLeft := s.world.nor.powerUpLeft - s.cfg.tWritePulse } } } := by
  obtain ⟨h1, h2, h3⟩ := h
  have hb := Config.wf_parAddrBits hc
  have hce : lineCE < 27 := by decide
  have hwe : lineWE < 27 := by decide
  obtain ⟨L, hL⟩ : ∃ L, L = s.world.par.level := ⟨_, rfl⟩
  obtain ⟨L1, hL1⟩ : ∃ L1, L1 = setLineBit L lineCE false := ⟨_, rfl⟩
  obtain ⟨L2, hL2⟩ : ∃ L2, L2 = setLineBit L1 lineWE false := ⟨_, rfl⟩
  rw [← hL] at h1 h2 h3
  have b1 : L1.getLsbD lineCE = false ∧ L1.getLsbD lineOE = true ∧ L1.getLsbD lineWE = true := by
    rw [hL1]; simp only [setLineBit_getLsbD _ _ hce]
    exact ⟨rfl, h2, h3⟩
  have b2 : L2.getLsbD lineCE = false ∧ L2.getLsbD lineOE = true ∧ L2.getLsbD lineWE = false := by
    rw [hL2]; simp only [setLineBit_getLsbD _ _ hwe]
    exact ⟨b1.1, b1.2.1, rfl⟩
  have hL3 : setLineBit L2 lineWE true = L1 := by
    rw [hL2, setLineBit_twice _ _ _ hwe]; exact setLineBit_self _ hwe b1.2.2
  have hL4 : setLineBit L1 lineCE true = L := by
    rw [hL1, setLineBit_twice _ _ _ hce]; exact setLineBit_self _ hce h1
  have c0 : readStrobe L = false ∧ writePulse L = false := by simp [readStrobe, writePulse, h1]
  have c1 : readStrobe L1 = false ∧ writePulse L1 = false := by simp [readStrobe, writePulse, b1]
  have c2 : readStrobe L2 = false ∧ writePulse L2 = true := by simp [readStrobe, writePulse, b2]
  have low : ∀ i < 24, L2.getLsbD i = L.getLsbD i := by
    intro i hi
    rw [hL2, setLineBit_getLsbD _ _ hwe, if_neg (by unfold lineWE; omega), hL1, setLineBit_getLsbD _ _ hce,
      if_neg (by unfold lineCE; omega)]
  have haddr : lineAddress s.cfg L2 = lineAddress s.cfg L := lineAddress_congr (by omega) (fun i hi => low i (by omega))
  have hdata : lineData L2 = lineData L := by
    unfold lineData
    rw [extract_eq]
    intro i hi
    rw [low _ (by omega), BitVec.getLsbD_extractLsb']
    simp [hi]
  have e1 : ∀ u : State, u.world.par.level = L → u.lineSet lineCE false = { u with
      world := { u.world.log [.lineSet lineCE false] with par := { u.world.par with level := L1 } } } := by
    intro u hu
    rw [State.lineSet_quiet (by rw [hu]; simp [c0]) rfl, hu, ← hL1]
  have e2 : ∀ u : State, u.world.par.level = L1 → u.lineSet lineWE false = { u with
      world := { u.world.log [.lineSet lineWE false] with par := { u.world.par with level := L2 } } } := by
    intro u hu
    rw [State.lineSet_quiet (by rw [hu]; simp [c1]) rfl, hu, ← hL2]
  have e3 : ∀ u : State, u.world.par.level = L2 → u.cfg = s.cfg → u.lineSet lineWE true = { u with
      world := { u.world.log [.lineSet lineWE true] with
        par := { (u.world.par.latch s.cfg u.world.free L).1 with level := L1 }
        free := (u.world.par.latch s.cfg u.world.free L).2 } } := by
    intro u hu hcfg
    unfold State.lineSet World.lineSet World.endPulse
    rw [if_neg (by decide)]
    rw [hu, hL3, if_pos (by simp [c1, c2]), hcfg]
    dsimp only
    rw [ParDevice.latch_level s.cfg u.world.par u.world.free L2 L haddr hdata L1]
    simp [World.log]
  have e4 : ∀ u : State, u.world.par.level = L1 → u.lineSet lineCE true = { u with
      world := { u.world.log [.lineSet lineCE true] with par := { u.world.par with level := L } } } := by
    intro u hu
    rw [State.lineSet_quiet (by rw [hu]; simp [c1]) rfl, hu, hL4]
  unfold pulse
  rw [e1]
  case a => exact hL.symm
  rw [e2]
  case a => rfl
  rw [e3]
  case a => rfl
  case a => rfl
  rw [e4]
  case a => rfl
  have e5 := ParDevice.latch_level s.cfg s.world.par s.world.free L L rfl rfl L2
  have e6 := (ParDevice.latch_lines s.cfg s.world.par s.world.free L).1
  simp only [State.delay, World.delay, duration]
  have e7 : ({ s.world.par with level := L2 } : ParDevice).latch s.cfg s.world.free L =
      ({ (s.world.par.latch s.cfg s.world.free L).1 with level := L2 }, (s.world.par.latch s.cfg s.world.free L).2) := e5
  simp only [World.log, e7, List.append_assoc, lineCE, lineWE]
  rw [hL] at e6 ⊢
  have e8 : ∀ p : ParDevice, p.level = s.world.par.level → p = { p with level := s.world.par.level } := by
    intro p hp; rw [← hp]
  conv_rhs => rw [e8 _ e6]
  rfl

/-! A byte written or read -/

/-- The write-pulse part of `WriteByte` (R194) from released control lines: the events of the rule; the lines are read-safe and
address the byte; the device starts a write cycle with that byte. -/
theorem driveByte_eq {a : Nat} (v : Byte) {s : State} (hc : s.cfg.wf) (h : s.world.par.Released) (ha : a < s.cfg.parCapacity) :
    ∃ par k, dataInput (pulse (driveData v (dataOutput (setAddress a s)))) = { s with
      parDir := .input
      world := { s.world.log (driveByteEvents s.cfg a v) with
        par := par
        free := k
        see := { s.world.see with cycleLeft := s.world.see.cycleLeft - s.cfg.tWritePulse }
        nor := { s.world.nor with powerUpLeft := s.world.nor.powerUpLeft - s.cfg.tWritePulse } } } ∧
      par.Released ∧ par.DataIn ∧ lineAddress s.cfg par.level = a ∧ par.cycleSamples = s.world.par.cycleSamples ∧
      Latched s.cfg s.world.par par a v := by
  have hb := Config.wf_parAddrBits hc
  obtain ⟨h1, h2, h3⟩ := h
  obtain ⟨A, hA⟩ : ∃ A, A = addressLevel s.cfg a s.world.par.level := ⟨_, rfl⟩
  have bA : ∀ j, s.cfg.parAddrBits ≤ j → A.getLsbD j = s.world.par.level.getLsbD j := by
    intro j hj; rw [hA, addressLevel_getLsbD hc, if_neg (by omega)]
  have rA : A.getLsbD lineCE = true ∧ A.getLsbD lineOE = true ∧ A.getLsbD lineWE = true :=
    ⟨(bA _ (by unfold lineCE; omega)).trans h1, (bA _ (by unfold lineOE; omega)).trans h2,
      (bA _ (by unfold lineWE; omega)).trans h3⟩
  obtain ⟨D, hD⟩ : ∃ D, D = setLevels 16 (fun i => v.getLsbD i) 8 0 A := ⟨_, rfl⟩
  have bD : ∀ j, j < 16 ∨ 24 ≤ j → D.getLsbD j = A.getLsbD j := by
    intro j hj; rw [hD, setLevels_other (by omega) (by omega)]
  have rD : D.getLsbD lineCE = true ∧ D.getLsbD lineOE = true ∧ D.getLsbD lineWE = true :=
    ⟨(bD _ (by unfold lineCE; omega)).trans rA.1, (bD _ (by unfold lineOE; omega)).trans rA.2.1,
      (bD _ (by unfold lineWE; omega)).trans rA.2.2⟩
  have addrD : lineAddress s.cfg D = a := by
    rw [lineAddress_congr (v := D) (w := A) (by omega) (fun i hi => bD i (by omega)), hA]
    exact addressLevel_address hc ha _
  have dataD : lineData D = v := by
    unfold lineData
    rw [extract_eq]
    intro i hi
    rw [hD, setLevels_getLsbD _ _ _ _ _ _ (by omega), if_pos (by omega)]
    simp
  obtain ⟨I, hI⟩ : ∃ I, I = setLevels 16 (fun _ => true) 8 0 (setLevels 16 (fun _ => false) 8 0 s.world.par.inputs) := ⟨_, rfl⟩
  obtain ⟨O, hO⟩ : ∃ O, O = setLevels 16 (fun _ => false) 8 0 (setLevels 16 (fun _ => true) 8 0 s.world.par.outputs) := ⟨_, rfl⟩
  obtain ⟨u, hu⟩ : ∃ u : State, u = driveData v (dataOutput (setAddress a s)) := ⟨_, rfl⟩
  have hu2 : u = { s with
      parDir := .output
      world := { s.world.log (addressEvents s.cfg a ++ directionEvents .output ++ driveEvents v) with
        par := { s.world.par with
          level := D
          inputs := setLevels 16 (fun _ => false) 8 0 s.world.par.inputs
          outputs := setLevels 16 (fun _ => true) 8 0 s.world.par.outputs } } } := by
    rw [hu, setAddress_eq hc h1]
    unfold dataOutput driveData
    rw [setDirections_eq, setLines_deselected 16 _ 8 0 _ (by omega) (by dsimp only; rw [← hA]; exact rA.1)]
    simp only [World.log, directionEvents, driveEvents, List.append_assoc, ← hA, Nat.add_zero, Nat.zero_add, hD]
    rfl
  obtain ⟨w, hw⟩ : ∃ w : ParDevice, w = ({ s.world.par with
      level := D
      inputs := setLevels 16 (fun _ => false) 8 0 s.world.par.inputs
      outputs := setLevels 16 (fun _ => true) 8 0 s.world.par.outputs } : ParDevice) := ⟨_, rfl⟩
  have hpar : u.world.par = w := by rw [hu2, hw]
  have hl := ParDevice.latch_lines s.cfg w s.world.free D
  have hp := pulse_eq (s := u) (by rw [hu2]; exact hc) (by rw [hpar, hw]; exact rD)
  rw [hpar, show w.level = D by rw [hw]] at hp
  rw [← hu, hp]
  refine ⟨{ (w.latch s.cfg s.world.free D).1 with inputs := I, outputs := O }, (w.latch s.cfg s.world.free D).2, ?_, ?_, ?_, ?_,
    ?_, ?_⟩
  · unfold dataInput
    rw [setDirections_eq]
    simp only [World.log, directionEvents, driveByteEvents, List.append_assoc, Nat.add_zero, hu2]
    have e1 : (w.latch s.cfg s.world.free D).1.inputs = setLevels 16 (fun _ => false) 8 0 s.world.par.inputs := by
      rw [hl.2.1, hw]
    have e2 : (w.latch s.cfg s.world.free D).1.outputs = setLevels 16 (fun _ => true) 8 0 s.world.par.outputs := by
      rw [hl.2.2.1, hw]
    rw [e1, e2, hI, hO]
    rfl
  · have : ({ (w.latch s.cfg s.world.free D).1 with inputs := I, outputs := O } : ParDevice).level = D := by
      rw [hl.1, hw]
    unfold ParDevice.Released
    rw [this]; exact rD
  · constructor
    · dsimp only
      rw [hI, extract_eq]
      intro i hi
      rw [setLevels_getLsbD _ _ _ _ _ _ (by omega), if_pos (by omega)]
      have : ∀ i < 8, true = (0xFF#8).getLsbD i := by decide
      exact this i hi
    · dsimp only
      rw [hO, extract_eq]
      intro i hi
      rw [setLevels_getLsbD _ _ _ _ _ _ (by omega), if_pos (by omega)]
      simp
  · dsimp only
    rw [hl.1, hw]; exact addrD
  · dsimp only
    rw [hl.2.2.2, hw]
  · have hout : w.latched s.world.free D = v := by
      have : dataLinesOut w = true := by
        rw [hw, dataLinesOut, beq_iff_eq, extract_eq]
        intro i hi
        dsimp only
        rw [setLevels_getLsbD _ _ _ _ _ _ (by omega), if_pos (by omega)]
        have : ∀ i < 8, true = (0xFF#8).getLsbD i := by decide
        exact this i hi
      rw [ParDevice.latched, if_pos this, dataD]
    have hlat := ParDevice.latch_latched s.cfg w s.world.free D
    rw [addrD, hout] at hlat
    rw [hw] at hlat ⊢
    exact hlat

/-- The lines as the verify loop leaves them (R192, R195). -/
def SameLines (p q : ParDevice) : Prop :=
  q.level = p.level ∧ q.inputs = p.inputs ∧ q.outputs = p.outputs ∧ q.cycleSamples = p.cycleSamples

theorem SameLines.readSafe {p q : ParDevice} (h : SameLines p q) (hd : p.DataIn) (hr : p.Released) : q.DataIn ∧ q.Released := by
  obtain ⟨h1, h2, h3, -⟩ := h
  unfold ParDevice.DataIn ParDevice.Released
  rw [h1, h2, h3]
  exact ⟨hd, hr⟩

theorem sampled_cons {c : Config} {level : BitVec 27} {w : World} {v : Byte} {rest : List Byte} (h : w.samples = v :: rest) :
    sampled c level w = v := by simp [sampled, h]

/-- A verify loop whose sample number `bad.length + 1` is the first that matches (R195). -/
theorem verifyLoop_match {v : Byte} {rest : List Byte} (bad : List Byte) : ∀ {left : Nat} {s : State}, s.cfg.wf →
    s.world.par.Released → v ∉ bad → bad.length < left → s.world.samples = bad ++ [v] ++ rest →
    ∃ par k, verifyLoop v left s = (none, { s with
      attempts := s.attempts + (bad.length + 1), resAttempts := BitVec.ofNat 32 (s.attempts + (bad.length + 1))
      world := { s.world.log (verifyEvents (bad ++ [v])) with
        par := par, free := k, samples := rest
        see := { s.world.see with cycleLeft := s.world.see.cycleLeft - bad.length * s.cfg.tRetry }
        nor := { s.world.nor with powerUpLeft := s.world.nor.powerUpLeft - bad.length * s.cfg.tRetry } } }) ∧
      SameLines s.world.par par ∧ Ticked s.cfg s.world.par par := by
  induction bad with
  | nil =>
    intro left s hc hr hv hl hs
    obtain ⟨n, rfl⟩ : ∃ n, left = n + 1 := ⟨left - 1, by simp at hl; omega⟩
    have h := readCycle_eq (s := { s with attempts := s.attempts + 1 }) hc hr
    have hsm : sampled s.cfg s.world.par.level s.world = v := sampled_cons (rest := rest) (by simpa using hs)
    refine ⟨{ s.world.par.tick s.cfg with drive := v }, s.world.free + 1, ?_, ?_⟩
    · unfold verifyLoop
      simp only [h, hsm, if_true]
      simp [hs, verifyEvents]
    · obtain ⟨t1, t2, t3, t4⟩ := ParDevice.tick_lines s.cfg s.world.par
      exact ⟨⟨t1, t2, t3, t4⟩, ParDevice.tick_ticked s.cfg s.world.par⟩
  | cons b bad ih =>
    intro left s hc hr hv hl hs
    obtain ⟨n, rfl⟩ : ∃ n, left = n + 1 := ⟨left - 1, by simp at hl; omega⟩
    have h := readCycle_eq (s := { s with attempts := s.attempts + 1 }) hc hr
    have hsm : sampled s.cfg s.world.par.level s.world = b := sampled_cons (rest := bad ++ [v] ++ rest) (by simpa using hs)
    have hbv : b ≠ v := fun e => hv (by simp [e])
    obtain ⟨t1, t2, t3, t4⟩ := ParDevice.tick_lines s.cfg s.world.par
    obtain ⟨par, k, h1, h2⟩ := ih (left := n) (s := State.delay .retry { s with
        attempts := s.attempts + 1
        world := { s.world.log (sampleEvents b) with
          par := { s.world.par.tick s.cfg with drive := b }, samples := s.world.samples.drop 1
          free := s.world.free + 1 } }) hc
      (by simp only [State.delay, World.delay]; unfold ParDevice.Released; dsimp only; rw [t1]; exact hr)
      (fun e => hv (by simp [e])) (by simpa using hl) (by simp [State.delay, World.delay, hs])
    refine ⟨par, k, ?_, ?_⟩
    · have hn : n ≠ 0 := by simp at hl; omega
      have e : verifyLoop v (n + 1) s = verifyLoop v n (State.delay .retry { s with
        attempts := s.attempts + 1
        world := { s.world.log (sampleEvents b) with
          par := { s.world.par.tick s.cfg with drive := b }, samples := s.world.samples.drop 1
          free := s.world.free + 1 } }) := by
        conv_lhs => unfold verifyLoop
        simp only [h, hsm, hbv, hn, if_false]
      rw [e, h1]
      have ev : verifyEvents (b :: bad ++ [v]) = sampleEvents b ++ [.delay .retry] ++ verifyEvents (bad ++ [v]) := by
        cases bad <;> rfl
      simp only [State.delay, World.delay, duration, World.log, ev, List.length_cons]
      simp [Nat.sub_sub, Nat.add_mul, Nat.add_comm, Nat.add_left_comm]
      exact ⟨by omega, by congr 1; omega⟩
    · simp only [State.delay, World.delay] at h2
      exact ⟨⟨h2.1.1.trans t1, h2.1.2.1.trans t2, h2.1.2.2.1.trans t3, h2.1.2.2.2.trans t4⟩,
        (ParDevice.tick_ticked s.cfg s.world.par).trans h2.2⟩

/-- A verify loop whose samples never match takes them all and answers the last (R195). -/
theorem verifyLoop_fail {v last : Byte} {rest : List Byte} (bad : List Byte) : ∀ {s : State}, s.cfg.wf →
    s.world.par.Released → v ∉ bad ++ [last] → s.world.samples = bad ++ [last] ++ rest →
    ∃ par k, verifyLoop v (bad.length + 1) s = (some last, { s with
      attempts := s.attempts + (bad.length + 1), resAttempts := BitVec.ofNat 32 (s.attempts + (bad.length + 1))
      world := { s.world.log (verifyEvents (bad ++ [last])) with
        par := par, free := k, samples := rest
        see := { s.world.see with cycleLeft := s.world.see.cycleLeft - bad.length * s.cfg.tRetry }
        nor := { s.world.nor with powerUpLeft := s.world.nor.powerUpLeft - bad.length * s.cfg.tRetry } } }) ∧
      SameLines s.world.par par ∧ Ticked s.cfg s.world.par par := by
  induction bad with
  | nil =>
    intro s hc hr hv hs
    have h := readCycle_eq (s := { s with attempts := s.attempts + 1 }) hc hr
    have hsm : sampled s.cfg s.world.par.level s.world = last := sampled_cons (rest := rest) (by simpa using hs)
    have hlv : last ≠ v := fun e => hv (by simp [e])
    refine ⟨{ s.world.par.tick s.cfg with drive := last }, s.world.free + 1, ?_, ?_⟩
    · simp only [List.length_nil, Nat.zero_add]
      unfold verifyLoop
      simp only [h, hsm, hlv, if_false, if_true]
      simp [hs, verifyEvents]
    · obtain ⟨t1, t2, t3, t4⟩ := ParDevice.tick_lines s.cfg s.world.par
      exact ⟨⟨t1, t2, t3, t4⟩, ParDevice.tick_ticked s.cfg s.world.par⟩
  | cons b bad ih =>
    intro s hc hr hv hs
    have h := readCycle_eq (s := { s with attempts := s.attempts + 1 }) hc hr
    have hsm : sampled s.cfg s.world.par.level s.world = b := sampled_cons (rest := bad ++ [last] ++ rest) (by simpa using hs)
    have hbv : b ≠ v := fun e => hv (by simp [e])
    obtain ⟨t1, t2, t3, t4⟩ := ParDevice.tick_lines s.cfg s.world.par
    obtain ⟨par, k, h1, h2⟩ := ih (s := State.delay .retry { s with
        attempts := s.attempts + 1
        world := { s.world.log (sampleEvents b) with
          par := { s.world.par.tick s.cfg with drive := b }, samples := s.world.samples.drop 1
          free := s.world.free + 1 } }) hc
      (by simp only [State.delay, World.delay]; unfold ParDevice.Released; dsimp only; rw [t1]; exact hr)
      (fun e => hv (by simp at e ⊢; tauto)) (by simp [State.delay, World.delay, hs])
    refine ⟨par, k, ?_, ?_⟩
    · have e : verifyLoop v ((b :: bad).length + 1) s = verifyLoop v (bad.length + 1) (State.delay .retry { s with
        attempts := s.attempts + 1
        world := { s.world.log (sampleEvents b) with
          par := { s.world.par.tick s.cfg with drive := b }, samples := s.world.samples.drop 1
          free := s.world.free + 1 } }) := by
        conv_lhs => unfold verifyLoop
        simp only [h, hsm, hbv, if_false, List.length_cons, Nat.add_eq_zero_iff, Nat.one_ne_zero, and_false]
      rw [e, h1]
      have ev : verifyEvents (b :: bad ++ [last]) = sampleEvents b ++ [.delay .retry] ++ verifyEvents (bad ++ [last]) := by
        cases bad <;> rfl
      simp only [State.delay, World.delay, duration, World.log, ev, List.length_cons]
      simp [Nat.sub_sub, Nat.add_mul, Nat.add_comm, Nat.add_left_comm]
      exact ⟨by omega, by congr 1; omega⟩
    · simp only [State.delay, World.delay] at h2
      exact ⟨⟨h2.1.1.trans t1, h2.1.2.1.trans t2, h2.1.2.2.1.trans t3, h2.1.2.2.2.trans t4⟩,
        (ParDevice.tick_ticked s.cfg s.world.par).trans h2.2⟩

/-- The address lines leave the released control lines and the data lines alone. -/
theorem addressLevel_released {c : Config} (hc : c.wf) {p : ParDevice} (a : Nat) (h : p.Released) :
    ({ p with level := addressLevel c a p.level } : ParDevice).Released := by
  have hb := Config.wf_parAddrBits hc
  obtain ⟨h1, h2, h3⟩ := h
  have hl : 11 < lineCE ∧ 11 < lineOE ∧ 11 < lineWE := by decide
  unfold ParDevice.Released
  simp only [addressLevel_getLsbD hc]
  rw [if_neg (by omega), if_neg (by omega), if_neg (by omega)]
  exact ⟨h1, h2, h3⟩

/-- A byte read (R196) with released control lines. -/
theorem readByte_eq {a : Nat} {s : State} (hc : s.cfg.wf) (h : s.world.par.Released) :
    readByte a s = { s with
      dout := s.dout ++ [sampled s.cfg (addressLevel s.cfg a s.world.par.level) s.world]
      world := { s.world.log (addressEvents s.cfg a ++ sampleEvents (sampled s.cfg (addressLevel s.cfg a s.world.par.level) s.world)) with
        par := { s.world.par.tick s.cfg with
          level := addressLevel s.cfg a s.world.par.level
          drive := sampled s.cfg (addressLevel s.cfg a s.world.par.level) s.world }
        samples := s.world.samples.drop 1
        free := s.world.free + 1 } } := by
  unfold readByte
  rw [setAddress_eq hc h.1]
  have h2 := readCycle_eq (s := { s with world := { s.world.log (addressEvents s.cfg a) with
      par := { s.world.par with level := addressLevel s.cfg a s.world.par.level } } }) hc (addressLevel_released hc a h)
  have e : sampled s.cfg (addressLevel s.cfg a s.world.par.level) ({ s.world.log (addressEvents s.cfg a) with
      par := { s.world.par with level := addressLevel s.cfg a s.world.par.level } }) =
      sampled s.cfg (addressLevel s.cfg a s.world.par.level) s.world := by
    simp only [sampled, ParDevice.tick_level, dataLinesIn]
    rfl
  simp only [h2, e, ParDevice.tick_level]
  simp [World.log]

/-- What the end of a write pulse can change: the device but for its lines, and the counter of free values (R95). -/
theorem World.endPulse_any (c : Config) (before after : BitVec 27) (w : World) : ∃ par k, w.endPulse c before after = { w with
    par := par, free := k } ∧ par.level = w.par.level ∧ par.inputs = w.par.inputs ∧ par.outputs = w.par.outputs := by
  unfold World.endPulse
  split
  · obtain ⟨t1, t2, t3, -⟩ := ParDevice.latch_lines c w.par w.free before
    exact ⟨_, _, rfl, t1, t2, t3⟩
  · exact ⟨w.par, w.free, rfl, rfl, rfl, rfl⟩

/-- Any line set (R95, R96, R111): the level of that line, the directions as they were. -/
theorem World.lineSet_any (c : Config) (id1 : Nat) (b : Bool) (w : World) : ∃ par k samples, w.lineSet c id1 b =
    { w.log [.lineSet id1 b] with par := par, free := k, samples := samples } ∧
    par.level = setLineBit w.par.level id1 b ∧ par.inputs = w.par.inputs ∧ par.outputs = w.par.outputs := by
  obtain ⟨par, k, he, h1, h2, h3⟩ := World.endPulse_any c w.par.level (setLineBit w.par.level id1 b)
    { w with
      trace := w.trace ++ [.lineSet id1 b]
      par := { w.par with level := setLineBit w.par.level id1 b } }
  unfold World.lineSet
  dsimp only
  rw [he]
  split
  · obtain ⟨t1, t2, t3, -⟩ := ParDevice.tick_lines c par
    exact ⟨_, _, _, rfl, t1.trans h1, t2.trans h2, t3.trans h3⟩
  · exact ⟨_, _, _, rfl, h1, h2, h3⟩

theorem State.lineSet_any (id1 : Nat) (b : Bool) (s : State) : ∃ par k samples, s.lineSet id1 b = { s with
    world := { s.world.log [.lineSet id1 b] with par := par, free := k, samples := samples } } ∧
    par.level = setLineBit s.world.par.level id1 b ∧ par.inputs = s.world.par.inputs ∧ par.outputs = s.world.par.outputs := by
  obtain ⟨par, k, samples, h, hr⟩ := World.lineSet_any s.cfg id1 b s.world
  exact ⟨par, k, samples, by rw [State.lineSet, h], hr⟩

end Sys2Proof.Machine
end

