-- ==== Sys2Proof/Laws/ParFrames.lean ====
section
/-! SUPPORT. What the procedures of the PAR unit can change, said once (`ParStep`), whatever the lines, and how a PAR operation
ends (`ParEnds`). -/

namespace Sys2Proof.Machine

/-- The PAR part of `MemoryInv`. -/
abbrev ParGood (c : Config) (p : ParDevice) : Prop := p.mem.wf ∧ p.mem.below c.parCapacity

theorem Config.wf_parCapacity {c : Config} (h : c.wf) : 0 < c.parCapacity := by
  rw [h.2.1]; exact Nat.two_pow_pos _

theorem ParGood.latch {c : Config} (hc : c.wf) {p : ParDevice} (h : ParGood c p) (k : Nat) (level : BitVec 27) :
    ParGood c (p.latch c k level).1 := by
  unfold ParDevice.latch
  split
  · exact h
  · exact ⟨Memory.write_wf h.1 _ _, Memory.write_below h.2 (Nat.mod_lt _ (Config.wf_parCapacity hc))⟩

theorem ParGood.tick {c : Config} (hc : c.wf) {p : ParDevice} (h : ParGood c p) : ParGood c (p.tick c) := by
  unfold ParDevice.tick
  split
  · exact h
  · exact ⟨Memory.write_wf h.1 _ _, Memory.write_below h.2 (Nat.mod_lt _ (Config.wf_parCapacity hc))⟩
  · exact h
  · exact h

/-- What a PAR procedure can change before its operation ends. The fields not named are free: `DOUT`, `PAR_DIR`, `ATTEMPTS`, the
error context, `RES_ATTEMPTS`, `FAIL_COUNT`, the parallel device and its lines, the samples it takes, the counter of free
values. -/
structure ParStep (s t : State) : Prop where
  cfg : t.cfg = s.cfg
  caller : t.caller = s.caller
  request : t.reqOp = s.reqOp ∧ t.reqAddr = s.reqAddr ∧ t.reqArg = s.reqArg ∧ t.din = s.din
  rx : t.rx = s.rx
  results : t.resCode = s.resCode ∧ t.resLen = s.resLen
  seq : t.seq = s.seq
  phase : s.norPhase = .idle → t.norPhase = .idle
  kept : t.warn = s.warn ∧ t.norIdent = s.norIdent ∧ t.norIdentValid = s.norIdentValid
  inputs : t.world.spiIn = s.world.spiIn ∧ t.world.scans = s.world.scans ∧ t.world.i2cIn = s.world.i2cIn
  see : t.world.see = { s.world.see with cycleLeft := t.world.see.cycleLeft }
  nor : t.world.nor = { s.world.nor with powerUpLeft := t.world.nor.powerUpLeft }
  trace : ∃ events, quiet events ∧ t.world.trace = s.world.trace ++ events
  good : s.cfg.wf → ParGood s.cfg s.world.par → ParGood s.cfg t.world.par

theorem ParStep.refl (s : State) : ParStep s s :=
  ⟨rfl, rfl, ⟨rfl, rfl, rfl, rfl⟩, rfl, ⟨rfl, rfl⟩, rfl, id, ⟨rfl, rfl, rfl⟩, ⟨rfl, rfl, rfl⟩, rfl, rfl,
    ⟨[], quiet_nil, by simp⟩, fun _ => id⟩

theorem ParStep.trans {s t u : State} (h : ParStep s t) (h2 : ParStep t u) : ParStep s u where
  cfg := h2.cfg.trans h.cfg
  caller := h2.caller.trans h.caller
  request := ⟨h2.request.1.trans h.request.1, h2.request.2.1.trans h.request.2.1, h2.request.2.2.1.trans h.request.2.2.1,
    h2.request.2.2.2.trans h.request.2.2.2⟩
  rx := h2.rx.trans h.rx
  results := ⟨h2.results.1.trans h.results.1, h2.results.2.trans h.results.2⟩
  seq := h2.seq.trans h.seq
  phase := fun hp => h2.phase (h.phase hp)
  kept := ⟨h2.kept.1.trans h.kept.1, h2.kept.2.1.trans h.kept.2.1, h2.kept.2.2.trans h.kept.2.2⟩
  inputs := ⟨h2.inputs.1.trans h.inputs.1, h2.inputs.2.1.trans h.inputs.2.1, h2.inputs.2.2.trans h.inputs.2.2⟩
  see := by rw [h2.see, h.see]
  nor := by rw [h2.nor, h.nor]
  trace := by
    obtain ⟨e1, q1, t1⟩ := h.trace
    obtain ⟨e2, q2, t2⟩ := h2.trace
    exact ⟨e1 ++ e2, quiet_append q1 q2, by rw [t2, t1, List.append_assoc]⟩
  good := fun hc hg => by
    have := h2.good (h.cfg ▸ hc)
    rw [h.cfg] at this
    exact this (h.good hc hg)

theorem ParGood.endPulse {c : Config} (hc : c.wf) {w : World} (h : ParGood c w.par) (before after : BitVec 27) :
    ParGood c (w.endPulse c before after).par := by
  unfold World.endPulse
  split
  · exact h.latch hc _ _
  · exact h

theorem ParGood.lineSet {c : Config} (hc : c.wf) {w : World} (h : ParGood c w.par) (id1 : Nat) (level : Bool) :
    ParGood c (w.lineSet c id1 level).par := by
  have he : ParGood c (World.endPulse c w.par.level (setLineBit w.par.level id1 level) { w with
      trace := w.trace ++ [.lineSet id1 level]
      par := { w.par with level := setLineBit w.par.level id1 level } }).par := by
    refine ParGood.endPulse hc ?_ _ _
    exact h
  unfold World.lineSet
  dsimp only
  split
  · exact he.tick hc
  · exact he

theorem State.lineSet_step (id1 : Nat) (level : Bool) (s : State) : ParStep s (s.lineSet id1 level) := by
  obtain ⟨par, k, samples, e, -⟩ := State.lineSet_any id1 level s
  have hg := fun hc hg => ParGood.lineSet (c := s.cfg) (w := s.world) hc hg id1 level
  rw [e]
  refine ⟨rfl, rfl, ⟨rfl, rfl, rfl, rfl⟩, rfl, ⟨rfl, rfl⟩, rfl, id, ⟨rfl, rfl, rfl⟩, ⟨rfl, rfl, rfl⟩, rfl, rfl,
    ⟨[.lineSet id1 level], by simp [quiet], rfl⟩, fun hc h => ?_⟩
  have := hg hc h
  rw [show s.world.lineSet s.cfg id1 level = (s.lineSet id1 level).world from rfl, e] at this
  exact this

theorem State.lineDir_step (id1 : Nat) (dir : LineDirection) (s : State) : ParStep s (s.lineDir id1 dir) :=
  ⟨rfl, rfl, ⟨rfl, rfl, rfl, rfl⟩, rfl, ⟨rfl, rfl⟩, rfl, id, ⟨rfl, rfl, rfl⟩, ⟨rfl, rfl, rfl⟩, rfl, rfl,
    ⟨[.lineDir id1 dir], by simp [quiet], rfl⟩, fun _ => id⟩

theorem State.lineGet_step (i : Nat) (s : State) : ParStep s (s.lineGet i).2 :=
  ⟨rfl, rfl, ⟨rfl, rfl, rfl, rfl⟩, rfl, ⟨rfl, rfl⟩, rfl, id, ⟨rfl, rfl, rfl⟩, ⟨rfl, rfl, rfl⟩, rfl, rfl,
    ⟨[.lineGet (lineD i) (s.world.par.drive.getLsbD i)], by simp [quiet], rfl⟩, fun _ => id⟩

theorem State.delay_parStep (t : DelayName) (s : State) : ParStep s (s.delay t) :=
  ⟨rfl, rfl, ⟨rfl, rfl, rfl, rfl⟩, rfl, ⟨rfl, rfl⟩, rfl, id, ⟨rfl, rfl, rfl⟩, ⟨rfl, rfl, rfl⟩, rfl, rfl,
    ⟨[.delay t], by simp [quiet], rfl⟩, fun _ => id⟩

/-- An update of fields a PAR procedure is free to change. -/
theorem ParStep.registers (s : State) (dout : List Byte) (parDir : ParDir) (attempts : Nat) (resAddr : Addr)
    (resExpected resObserved : Byte) (resAttempts failCount : BitVec 32) : ParStep s { s with
      dout := dout, parDir := parDir, attempts := attempts, resAddr := resAddr, resExpected := resExpected
      resObserved := resObserved, resAttempts := resAttempts, failCount := failCount } :=
  ⟨rfl, rfl, ⟨rfl, rfl, rfl, rfl⟩, rfl, ⟨rfl, rfl⟩, rfl, id, ⟨rfl, rfl, rfl⟩, ⟨rfl, rfl, rfl⟩, rfl, rfl,
    ⟨[], quiet_nil, by simp⟩, fun _ => id⟩

theorem setLines_step (base : Nat) (bit : Nat → Bool) (n : Nat) : ∀ (first : Nat) (s : State),
    ParStep s (setLines base bit n first s) := by
  induction n with
  | zero => exact fun _ s => ParStep.refl s
  | succ n ih => exact fun first s => (State.lineSet_step _ _ s).trans (ih (first + 1) _)

theorem setDirections_step (base : Nat) (dir : LineDirection) (n : Nat) : ∀ (first : Nat) (s : State),
    ParStep s (setDirections base dir n first s) := by
  induction n with
  | zero => exact fun _ s => ParStep.refl s
  | succ n ih => exact fun first s => (State.lineDir_step _ _ s).trans (ih (first + 1) _)

theorem setAddress_step (a : Nat) (s : State) : ParStep s (setAddress a s) := setLines_step _ _ _ _ s

theorem driveData_step (v : Byte) (s : State) : ParStep s (driveData v s) := setLines_step _ _ _ _ s

theorem dataInput_step (s : State) : ParStep s (dataInput s) :=
  (setDirections_step 16 .input 8 0 s).trans (ParStep.registers _ _ _ _ _ _ _ _ _)

theorem dataOutput_step (s : State) : ParStep s (dataOutput s) :=
  (setDirections_step 16 .output 8 0 s).trans (ParStep.registers _ _ _ _ _ _ _ _ _)

theorem sampleLines_step (n : Nat) : ∀ (first : Nat) (s : State), ParStep s (sampleLines n first s).2 := by
  induction n with
  | zero => exact fun _ s => ParStep.refl s
  | succ n ih => exact fun first s => (State.lineGet_step _ s).trans (ih (first + 1) _)

theorem readCycle_step (s : State) : ParStep s (readCycle s).2 := by
  unfold readCycle
  exact ((((State.lineSet_step lineCE false s).trans (State.lineSet_step lineOE false _)).trans
    (sampleLines_step 8 0 _)).trans (State.lineSet_step lineOE true _)).trans (State.lineSet_step lineCE true _)

theorem pulse_step (s : State) : ParStep s (pulse s) := by
  unfold pulse
  exact ((((State.lineSet_step lineCE false s).trans (State.lineSet_step lineWE false _)).trans
    (State.delay_parStep .writePulse _)).trans (State.lineSet_step lineWE true _)).trans (State.lineSet_step lineCE true _)

theorem verifyLoop_step (v : Byte) (left : Nat) : ∀ s : State, ParStep s (verifyLoop v left s).2 := by
  induction left with
  | zero => exact ParStep.refl
  | succ n ih =>
    intro s
    have a : ParStep s (readCycle { s with attempts := s.attempts + 1 }).2 :=
      (ParStep.registers s s.dout s.parDir (s.attempts + 1) s.resAddr s.resExpected s.resObserved s.resAttempts
        s.failCount).trans (readCycle_step _)
    unfold verifyLoop
    dsimp only
    split
    · exact a.trans (ParStep.registers _ _ _ _ _ _ _ _ _)
    · split
      · exact a.trans (ParStep.registers _ _ _ _ _ _ _ _ _)
      · exact (a.trans (State.delay_parStep .retry _)).trans (ih _)

theorem writeByte_step (a : Nat) (v : Byte) (s : State) : ParStep s (writeByte a v s).2 := by
  unfold writeByte
  exact (((((setAddress_step a s).trans (dataOutput_step _)).trans (driveData_step v _)).trans (pulse_step _)).trans
    (dataInput_step _)).trans ((ParStep.registers _ _ _ _ _ _ _ _ _).trans (verifyLoop_step v _ _))

theorem readByte_step (a : Nat) (s : State) : ParStep s (readByte a s) := by
  unfold readByte
  exact ((setAddress_step a s).trans (readCycle_step _)).trans (ParStep.registers _ _ _ _ _ _ _ _ _)

/-- An event that is no `Done`. -/
theorem State.emit_parStep {e : Event} (he : quiet [e]) (s : State) : ParStep s (s.emit e) :=
  ⟨rfl, rfl, ⟨rfl, rfl, rfl, rfl⟩, rfl, ⟨rfl, rfl⟩, rfl, id, ⟨rfl, rfl, rfl⟩, ⟨rfl, rfl, rfl⟩, rfl, rfl,
    ⟨[e], he, rfl⟩, fun _ => id⟩

theorem State.progress_step (label : ProgressLabel) (i a : Nat) (s : State) : ParStep s (s.progress label i a) := by
  unfold State.progress
  split
  · exact State.emit_parStep (by simp [quiet]) s
  · exact ParStep.refl s

theorem bulkReadLoop_step (start n : Nat) : ∀ (i : Nat) (s : State), ParStep s (bulkReadLoop start n i s) := by
  induction n with
  | zero => exact fun _ s => ParStep.refl s
  | succ n ih => exact fun i s => ((State.progress_step .read i (start + i) s).trans (readByte_step _ _)).trans (ih _ _)

/-- How a PAR operation ends: with one of the codes 0x00 and 0x01. -/
def ParEnds (s t : State) : Prop := ∃ u, ParStep s u ∧ (t = u.complete 0x00 ∨ t = u.complete 0x01)

theorem ParEnds.after {s t u : State} (h : ParStep s t) (h2 : ParEnds t u) : ParEnds s u := by
  obtain ⟨v, hv, h3⟩ := h2
  exact ⟨v, h.trans hv, h3⟩

theorem State.returnOk_parEnds (s : State) : ParEnds s s.returnOk := ⟨s, ParStep.refl s, .inl rfl⟩

theorem State.raise_parEnds (a : Addr) (x o : Byte) (s : State) : ParEnds s (s.raise (.verifyFailure a x o)) := by
  refine ⟨(s.recordContext (.verifyFailure a x o)).setPhase .idle, ?_, .inr rfl⟩
  exact ⟨rfl, rfl, ⟨rfl, rfl, rfl, rfl⟩, rfl, ⟨rfl, rfl⟩, rfl, fun _ => rfl, ⟨rfl, rfl, rfl⟩, ⟨rfl, rfl, rfl⟩, rfl, rfl,
    ⟨[], quiet_nil, by simp [State.recordContext]⟩, fun _ => id⟩

theorem recordFailure_step (a : Nat) (x o : Byte) (s : State) : ParStep s (recordFailure a x o s) := by
  unfold recordFailure
  dsimp only
  split <;> exact ParStep.registers _ _ _ _ _ _ _ _ _

theorem bulkWriteLoop_ends (start : Nat) (data : List Byte) : ∀ (i : Nat) (s : State),
    ParEnds s (bulkWriteLoop start data i s) := by
  induction data with
  | nil =>
    intro i s
    unfold bulkWriteLoop
    split
    · exact State.raise_parEnds _ _ _ s
    · exact State.returnOk_parEnds s
  | cons v rest ih =>
    intro i s
    have a := (State.progress_step .write i (start + i) s).trans (writeByte_step (start + i) v _)
    unfold bulkWriteLoop
    dsimp only
    split
    · exact ParEnds.after a (ih (i + 1) _)
    · rename_i observed _
      have b := a.trans (recordFailure_step (start + i) v observed _)
      split
      · refine ParEnds.after b ?_
        exact State.raise_parEnds _ _ _ _
      · exact ParEnds.after (b.trans (State.emit_parStep (by simp [quiet]) _)) (ih (i + 1) _)

end Sys2Proof.Machine
end

