-- ==== Sys2Proof/Laws/SeeFrames.lean ====
section
/-! SUPPORT. The serial EEPROM's memory after a write frame, what the procedures of the SEE unit can change, said once (`SeeStep`),
and what they do outside a write cycle. -/

namespace Sys2Proof.Machine

/-- The SEE part of `MemoryInv`. -/
abbrev SeeGood (c : Config) (d : SeeDevice) : Prop := d.mem.wf ∧ d.mem.below c.seeCapacity

theorem Config.wf_seeCapacity {c : Config} (h : c.wf) : 0 < c.seeCapacity := by
  rw [h.2.2.1]; exact Nat.two_pow_pos _

theorem Config.wf_seePage {c : Config} (h : c.wf) : c.seePage ∣ c.seeCapacity := h.2.2.2.2.2.2.1

theorem Config.wf_seePage_pos {c : Config} (h : c.wf) : 0 < c.seePage :=
  Nat.pos_of_dvd_of_pos (Config.wf_seePage h) (Config.wf_seeCapacity h)

theorem seeStore_good {c : Config} (hc : c.wf) {a : Nat} (ha : a < c.seeCapacity) : ∀ (data : List Byte) (i : Nat)
    (m : Memory), m.wf ∧ m.below c.seeCapacity → (seeStore c a data i m).wf ∧ (seeStore c a data i m).below c.seeCapacity := by
  intro data
  induction data with
  | nil => exact fun _ _ h => h
  | cons b rest ih =>
    intro i m h
    exact ih _ _ ⟨Memory.write_wf h.1 _ _,
      Memory.write_below h.2 (wrapInPage_lt (Config.wf_seePage_pos hc) (Config.wf_seePage hc) ha i)⟩

/-- What a write frame's payload leaves in memory (R91): nothing outside its targets changes, and of the bytes aimed at one
target the last stays, which is one of the last page's worth. -/
theorem seeStore_spec (c : Config) (a : Nat) : ∀ (data : List Byte) (i : Nat) (m : Memory), m.wf →
    (∀ x, (∀ j, j < data.length → x ≠ wrapInPage c.seePage a (i + j)) → (seeStore c a data i m).read x = m.read x) ∧
    (∀ j (h : j < data.length), data.length ≤ j + c.seePage →
      (seeStore c a data i m).read (wrapInPage c.seePage a (i + j)) = data[j]) := by
  intro data
  induction data with
  | nil => intro i m hm; exact ⟨fun x _ => rfl, fun j h => absurd h (by simp)⟩
  | cons b rest ih =>
    intro i m hm
    obtain ⟨i1, i2⟩ := ih (i + 1) (m.write (wrapInPage c.seePage a i) b) (Memory.write_wf hm _ _)
    simp only [seeStore, List.length_cons]
    refine ⟨fun x hx => ?_, fun j h hp => ?_⟩
    · rw [i1 x (fun j hj => by
        have := hx (j + 1) (by simpa using hj)
        rwa [show i + (j + 1) = i + 1 + j by omega] at this)]
      exact Memory.read_write_other _ _ (by simpa using hx 0 (by simp))
    · cases j with
      | zero =>
        simp only [Nat.add_zero]
        rw [i1 _ (fun j hj => wrapInPage_ne (by omega) (by omega))]
        exact Memory.read_write_same hm _ _
      | succ j =>
        have := i2 j (by simpa using h) (by omega)
        rw [show i + (j + 1) = i + 1 + j by omega]
        simpa using this

/-- What a SEE procedure can change before its operation ends. The fields not named are free: `DOUT`, the serial device, the
answers it takes, the counter of free values. -/
structure SeeStep (s t : State) : Prop where
  cfg : t.cfg = s.cfg
  caller : t.caller = s.caller
  request : t.reqOp = s.reqOp ∧ t.reqAddr = s.reqAddr ∧ t.reqArg = s.reqArg ∧ t.din = s.din
  rx : t.rx = s.rx
  results : t.resCode = s.resCode ∧ t.resLen = s.resLen
  seq : t.seq = s.seq
  phase : t.norPhase = s.norPhase
  attempts : t.attempts = s.attempts
  parDir : t.parDir = s.parDir
  kept : t.norIdent = s.norIdent ∧ t.norIdentValid = s.norIdentValid ∧ t.failCount = s.failCount
  warn : s.warn &&& 0xFC#8 = 0#8 → t.warn &&& 0xFC#8 = 0#8
  inputs : t.world.spiIn = s.world.spiIn ∧ t.world.samples = s.world.samples
  par : t.world.par = s.world.par
  nor : t.world.nor = { s.world.nor with powerUpLeft := t.world.nor.powerUpLeft }
  trace : ∃ events, quiet events ∧ t.world.trace = s.world.trace ++ events
  good : s.cfg.wf → SeeGood s.cfg s.world.see → SeeGood s.cfg t.world.see

theorem SeeStep.refl (s : State) : SeeStep s s :=
  ⟨rfl, rfl, ⟨rfl, rfl, rfl, rfl⟩, rfl, ⟨rfl, rfl⟩, rfl, rfl, rfl, rfl, ⟨rfl, rfl, rfl⟩, id, ⟨rfl, rfl⟩, rfl, rfl,
    ⟨[], quiet_nil, by simp⟩, fun _ => id⟩

theorem SeeStep.trans {s t u : State} (h : SeeStep s t) (h2 : SeeStep t u) : SeeStep s u where
  cfg := h2.cfg.trans h.cfg
  caller := h2.caller.trans h.caller
  request := ⟨h2.request.1.trans h.request.1, h2.request.2.1.trans h.request.2.1, h2.request.2.2.1.trans h.request.2.2.1,
    h2.request.2.2.2.trans h.request.2.2.2⟩
  rx := h2.rx.trans h.rx
  results := ⟨h2.results.1.trans h.results.1, h2.results.2.trans h.results.2⟩
  seq := h2.seq.trans h.seq
  phase := h2.phase.trans h.phase
  attempts := h2.attempts.trans h.attempts
  parDir := h2.parDir.trans h.parDir
  kept := ⟨h2.kept.1.trans h.kept.1, h2.kept.2.1.trans h.kept.2.1, h2.kept.2.2.trans h.kept.2.2⟩
  warn := fun hw => h2.warn (h.warn hw)
  inputs := ⟨h2.inputs.1.trans h.inputs.1, h2.inputs.2.trans h.inputs.2⟩
  par := h2.par.trans h.par
  nor := by rw [h2.nor, h.nor]
  trace := by
    obtain ⟨e1, q1, t1⟩ := h.trace
    obtain ⟨e2, q2, t2⟩ := h2.trace
    exact ⟨e1 ++ e2, quiet_append q1 q2, by rw [t2, t1, List.append_assoc]⟩
  good := fun hc hg => by
    have := h2.good (h.cfg ▸ hc)
    rw [h.cfg] at this
    exact this (h.good hc hg)

/-- An event that is no `Done`. -/
theorem State.emit_seeStep {e : Event} (he : quiet [e]) (s : State) : SeeStep s (s.emit e) :=
  ⟨rfl, rfl, ⟨rfl, rfl, rfl, rfl⟩, rfl, ⟨rfl, rfl⟩, rfl, rfl, rfl, rfl, ⟨rfl, rfl, rfl⟩, id, ⟨rfl, rfl⟩, rfl, rfl,
    ⟨[e], he, rfl⟩, fun _ => id⟩

theorem State.delay_seeStep (t : DelayName) (s : State) : SeeStep s (s.delay t) :=
  ⟨rfl, rfl, ⟨rfl, rfl, rfl, rfl⟩, rfl, ⟨rfl, rfl⟩, rfl, rfl, rfl, rfl, ⟨rfl, rfl, rfl⟩, id, ⟨rfl, rfl⟩, rfl, rfl,
    ⟨[.delay t], by simp [quiet], rfl⟩, fun _ => id⟩

theorem State.dout_seeStep (l : List Byte) (s : State) : SeeStep s { s with dout := l } :=
  ⟨rfl, rfl, ⟨rfl, rfl, rfl, rfl⟩, rfl, ⟨rfl, rfl⟩, rfl, rfl, rfl, rfl, ⟨rfl, rfl, rfl⟩, id, ⟨rfl, rfl⟩, rfl, rfl,
    ⟨[], quiet_nil, by simp⟩, fun _ => id⟩

/-- A write frame: refused inside the write cycle (U5), else the device's reaction (R90, R91, R110). -/
theorem State.i2cWrite_eq (a : Nat) (data : List Byte) (s : State) : s.i2cWrite a data =
    if s.world.see.cycleLeft ≠ 0 then .error .insideWriteCycle
    else .ok { s with world := { s.world.log [.i2cW s.cfg.seeDevAddr (frameAddress a ++ data)] with
      see := s.world.see.writeFrame s.cfg a data } } := by
  unfold State.i2cWrite World.i2cWrite
  by_cases h : s.world.see.cycleLeft = 0 <;> simp [h, World.log]

theorem State.i2cWrite_step {a : Nat} {data : List Byte} {s t : State} (h : s.i2cWrite a data = .ok t) : SeeStep s t := by
  rw [State.i2cWrite_eq] at h
  split at h
  · cases h
  · cases h
    refine ⟨rfl, rfl, ⟨rfl, rfl, rfl, rfl⟩, rfl, ⟨rfl, rfl⟩, rfl, rfl, rfl, rfl, ⟨rfl, rfl, rfl⟩, id, ⟨rfl, rfl⟩, rfl, rfl,
      ⟨[.i2cW s.cfg.seeDevAddr (frameAddress a ++ data)], by simp [quiet], rfl⟩, fun hc hg => ?_⟩
    dsimp only
    unfold SeeDevice.writeFrame
    split
    · exact hg
    · exact seeStore_good hc (Nat.mod_lt _ (Config.wf_seeCapacity hc)) data 0 _ hg

/-- A write frame with its settle delay (R211). -/
theorem State.writeFrame_step {a : Nat} {data : List Byte} {s t : State} (h : s.writeFrame a data = .ok t) :
    SeeStep s t := by
  unfold State.writeFrame at h
  split at h
  · rename_i u hu
    have a1 := State.i2cWrite_step hu
    cases h
    split
    · exact a1
    · exact a1.trans (State.delay_seeStep .settle u)
  · cases h

/-- A read frame (R90, R110): refused inside the write cycle (U5). -/
theorem World.i2cRead_eq (c : Config) (n : Nat) (w : World) : w.i2cRead c n =
    if w.see.cycleLeft ≠ 0 then .error .insideWriteCycle
    else .ok (w.i2cAnswer c n, { w.log [.i2cR c.seeDevAddr n (w.i2cAnswer c n)] with
      see := { w.see with pointer := w.see.pointer + n }
      free := w.free + (n - (seeReadBytes c w.see n).length)
      i2cIn := w.i2cIn.drop n }) := by
  unfold World.i2cRead
  by_cases h : w.see.cycleLeft = 0 <;> simp [h, World.log]

theorem State.readFrame_step {a n : Nat} {s t : State} (h : s.readFrame a n = .ok t) : SeeStep s t := by
  unfold State.readFrame at h
  split at h
  · cases h
  · rename_i u hu
    have a1 := State.i2cWrite_step hu
    rw [World.i2cRead_eq] at h
    by_cases h0 : u.world.see.cycleLeft = 0
    · simp only [h0, ne_eq, not_true, if_false] at h
      cases h
      refine a1.trans ⟨rfl, rfl, ⟨rfl, rfl, rfl, rfl⟩, rfl, ⟨rfl, rfl⟩, rfl, rfl, rfl, rfl, ⟨rfl, rfl, rfl⟩, id, ⟨rfl, rfl⟩,
        rfl, rfl, ⟨[.i2cR u.cfg.seeDevAddr n (u.world.i2cAnswer u.cfg n)], by simp [quiet], rfl⟩, fun _ => id⟩
    · simp only [ne_eq, h0, not_false_iff, if_true] at h
      cases h

theorem bulkEraseLoop_step (fill : Byte) (n : Nat) : ∀ (p : Nat) (s t : State), bulkEraseLoop fill n p s = .ok t →
    SeeStep s t := by
  induction n with
  | zero => intro p s t h; cases h; exact SeeStep.refl s
  | succ n ih =>
    intro p s t h
    unfold bulkEraseLoop at h
    dsimp only at h
    have a1 : SeeStep s (if progressDue s.cfg p then s.emit (.progress .erase (addrOf (p * s.cfg.seePage))) else s) := by
      split
      · exact State.emit_seeStep (by simp [quiet]) s
      · exact SeeStep.refl s
    split at h
    · rename_i u hu
      exact (a1.trans (State.writeFrame_step hu)).trans (ih _ _ _ h)
    · cases h

end Sys2Proof.Machine
end

