-- ==== Sys2Proof/Laws/CutShort.lean ====
section
/-! SUPPORT. What a reset in the middle of an operation leaves: the reset values, and memories in canonical form inside the
devices. -/

namespace Sys2Proof.Machine

/-- The devices' part of `MemoryInv`. -/
abbrev WorldGood (c : Config) (w : World) : Prop := NorGood c w.nor ∧ SeeGood c w.see ∧ ParGood c w.par

theorem WorldGood.hear {c : Config} (hc : c.wf) {w : World} (h : WorldGood c w) (tx : List Byte) (e : Event) :
    WorldGood c (w.hear c tx e) := by
  obtain ⟨hn, hs, hp⟩ := h
  have hset : ∀ (id : Nat) (v : Bool), WorldGood c (w.lineSet c id v) := by
    intro id v
    have hg := ParGood.lineSet hc hp id v
    obtain ⟨par, k, samples, e, -⟩ := World.lineSet_any c id v w
    rw [e] at hg ⊢
    exact ⟨hn, hs, hg⟩
  cases e with
  | spiR n a => exact ⟨hn.answer hc _ _ _, hs, hp⟩
  | rel => exact ⟨hn.react hc _ _, hs, hp⟩
  | i2cW d bytes =>
    refine ⟨hn, ?_, hp⟩
    simp only [World.hear, SeeDevice.writeFrame]
    split
    · exact hs
    · exact seeStore_good hc (Nat.mod_lt _ (Config.wf_seeCapacity hc)) _ _ _ hs
  | lineSet id v => exact hset id v
  | delay t => exact ⟨⟨hn.memWf, hn.memBelow, hn.settings, hn.jobInside⟩, hs, hp⟩
  | _ => exact ⟨hn, hs, hp⟩

theorem WorldGood.replay {c : Config} (hc : c.wf) : ∀ (events : List Event) (tx : List Byte) {w : World}, WorldGood c w →
    WorldGood c (World.replay c events tx w)
  | [], _, _, h => h
  | e :: rest, _, _, h => WorldGood.replay hc rest _ (h.hear hc _ e)

theorem WorldGood.abandonNor {c : Config} (hc : c.wf) {w : World} (h : WorldGood c w) {e : NorEffect}
    (he : e.inside c.norCapacity) : WorldGood c (w.abandonNor c e) := ⟨h.1.abandon hc _ he, h.2⟩

theorem ParGood.abandon {c : Config} (hc : c.wf) (start : Nat) : ∀ (n : Nat) {p : ParDevice} (k : Nat), ParGood c p →
    ParGood c (p.abandon c start n k)
  | 0, _, _, h => h
  | n + 1, _, k, h => ParGood.abandon hc start n (k + 2)
      ⟨Memory.write_wf h.1 _ _, Memory.write_below h.2 (Nat.mod_lt _ (Config.wf_parCapacity hc))⟩

theorem WorldGood.abandonSee {c : Config} {w : World} (h : WorldGood c w) {start n : Nat} (hr : start + n ≤ c.seeCapacity) :
    WorldGood c (w.abandonSee start n) :=
  ⟨h.1, ⟨Memory.scramble_wf h.2.1.1 _ _ _, Memory.scramble_below h.2.1.2 hr _⟩, h.2.2⟩

theorem WorldGood.abandonBytes {c : Config} (hc : c.wf) {w : World} (h : WorldGood c w) (i : Instr) :
    WorldGood c (w.abandonBytes c i) := by
  have hsee : ∀ a, a % c.seeCapacity < c.seeCapacity := fun a => Nat.mod_lt a (Config.wf_seeCapacity hc)
  have hpar : ∀ start n, WorldGood c (w.abandonPar c start n) := fun start n => ⟨h.1, h.2.1, h.2.2.abandon hc start n _⟩
  cases i with
  | norWritePage a n data => exact h.abandonNor hc (asksFor_inside hc _)
  | norSectorErase a => exact h.abandonNor hc (asksFor_inside hc _)
  | norBlockErase64k a => exact h.abandonNor hc (asksFor_inside hc _)
  | norChipErase => exact h.abandonNor hc (asksFor_inside hc _)
  | parWriteByte a v => exact hpar _ _
  | parBulkWrite a n data => exact hpar _ _
  | seeWriteByte a v => exact h.abandonSee (hsee _)
  | seeWritePage a n data =>
    simp only [World.abandonBytes]
    split
    · exact h
    · exact h.abandonSee (alignDown_region (Config.wf_seePage hc) (hsee _))
  | seeBulkErase v => exact h.abandonSee (by omega)
  | _ => exact h

theorem WorldGood.abandonOperation {c : Config} (hc : c.wf) {w : World} (h : WorldGood c w) (i : Option Instr)
    (past : List Event) (t : State) : WorldGood c (w.abandonOperation c i past t) := by
  have hv : WorldGood c (w.abandonStatus c (statusUnderWay c none past)) := by
    unfold World.abandonStatus
    split
    · exact h.abandonNor hc trivial
    · exact h
  unfold World.abandonOperation
  split
  · split
    · exact hv
    · exact hv.abandonBytes hc _
  · exact hv

theorem WorldGood.abandoned {s : State} (hc : s.cfg.wf) (h : WorldGood s.cfg s.world) :
    WorldGood s.cfg (abandonedWorld s) := by
  unfold abandonedWorld
  split
  · exact h
  · exact h
  · exact h.abandonNor hc (NorEffect.unsent_inside (frameEffect_inside hc _))
  · exact h.abandonNor hc (frameEffect_inside hc _)

/-- A reset leaves every register at its reset value; only the configuration, the world and the caller are not the reset
state's. -/
theorem State.takeReset_eq (s : State) : s.takeReset = { State.reset with
    cfg := s.cfg, world := { abandonedWorld s with trace := [] }, caller := s.caller } := rfl

/-- So does a reset in the middle of an operation, whatever event it comes at. -/
theorem State.abandonAt_eq (i : Option Instr) (count : Nat) (s t : State) :
    ∃ w : World, s.abandonAt i count t = { State.reset with
      cfg := s.cfg, world := { w with trace := [] }, caller := s.caller } ∧
      (s.cfg.wf → WorldGood s.cfg s.world → WorldGood s.cfg w) :=
  ⟨_, State.takeReset_eq _, fun hc hg =>
    WorldGood.abandoned (s := { s with world := World.abandonOperation s.cfg i _ t _ }) hc
      ((WorldGood.replay hc _ _ hg).abandonOperation hc i _ t)⟩

/-- So does a reset that comes with a request, whether the operation has ended by then or not. -/
theorem State.cutShort_eq {i : Option Instr} {count : Nat} {s t : State} (h : t.cfg = s.cfg) (h2 : t.caller = s.caller) :
    ∃ w : World, State.cutShort i count s t = { State.reset with
      cfg := s.cfg, world := { w with trace := [] }, caller := s.caller } ∧
      (s.cfg.wf → WorldGood s.cfg s.world → WorldGood s.cfg t.world → WorldGood s.cfg w) := by
  unfold State.cutShort
  split
  · refine ⟨abandonedWorld t, by rw [State.takeReset_eq, h, h2], fun hc _ hg => ?_⟩
    rw [← h] at hc hg ⊢
    exact WorldGood.abandoned hc hg
  · obtain ⟨w, e, hw⟩ := State.abandonAt_eq i count s t
    exact ⟨w, e, fun hc hg _ => hw hc hg⟩

end Sys2Proof.Machine
end

