-- ==== Sys2Proof/Laws/NorRequests.lean ====
section
/-! SUPPORT. The procedures the NOR and WP requests are made of, and the frames,
    at the reference device and with answers given
from outside. -/

namespace Sys2Proof.Machine

/-- Padding gives the number of bytes asked for. -/
theorem padFree_length (known : List Byte) (n k : Nat) : (padFree known n k).1.length = n := by
  simp [padFree, freeBytes]; omega

/-- The device answers as many bytes as the frame reads (R80). -/
theorem NorDevice.answer_length (c : Config) (d : NorDevice) (k : Nat) (tx : List Byte) (n : Nat) :
    (d.answer c k tx n).1.length = n := by
  unfold NorDevice.answer
  split
  · simp [padFree_length]
  · split
    · simp [padFree_length]
    · split
      · simp [padFree_length]
      · split
        · simp [padFree_length]
        · simp [padFree_length]

/-- A frame gives as many bytes as it reads (R141). -/
theorem World.spiFrame_length (c : Config) (tx : List Byte) (n : Nat) (w : World) :
    (w.spiFrame c tx n).1.length = n := by
  unfold World.spiFrame
  split
  · rename_i h; simp [h]
  · simp [NorDevice.answer_length]; omega

/-- A status frame reads one byte (R142). -/
theorem State.spi_status (command : Byte) (s : State) :
    s.spi [command] 1 = ([(s.readStatus command).1], (s.readStatus command).2) := by
  unfold State.readStatus
  have h : (s.spi [command] 1).1.length = 1 := World.spiFrame_length _ _ _ _
  obtain ⟨b, hb⟩ := List.length_eq_one_iff.mp h
  ext1
  · simp [hb]
  · rfl

/-- Known bytes in the number asked for are not padded. -/
theorem padFree_exact {known : List Byte} {n : Nat} (h : known.length = n) (k : Nat) : padFree known n k = (known,
    k) := by
  subst h; exact padFree_self known k

/-- A frame that reads, at a ready device that answers with its own bytes (R141). -/
theorem State.spi_ready {s : State} {tx data : List Byte} {cmd : NorCmd} {n : Nat} (hi : s.world.spiIn = [])
    (hd : s.world.nor.Ready)
    {k : Nat} (h : decodeNor s.cfg tx = .ok cmd) (h0 : 0 < n) (hn : data.length = n)
    (ha : s.world.nor.answer s.cfg s.world.free tx n = (data, s.world.nor, k)) :
    s.spi tx n = (data, { s with world := { s.world.log (askEvents tx data) with
      nor := (s.world.nor.perform s.cfg k cmd).1
      free := (s.world.nor.perform s.cfg k cmd).2 } }) := by
  unfold State.spi World.spiFrame
  rw [ha, if_neg (by omega)]
  simp only [NorDevice.react_ready hd h]
  simp [hi, World.log, askEvents, hn]

/-- A memory read at a ready device (R89). -/
theorem State.spi_read {s : State} (hc : s.cfg.wf) (hi : s.world.spiIn = []) (hd : s.world.nor.Ready) {a : Addr} {n
    : Nat}
    (h0 : 0 < n) (hn : a.toNat + n ≤ s.cfg.norCapacity) :
    s.spi (NorCmd.bytes s.cfg (.read a)) n = ((List.range n).map (fun j => s.world.nor.mem.read (a.toNat + j)), { s with
      world := { s.world.log (askEvents (s.cfg.cmd.read :: be24 a) ((List.range n).map
          (fun j => s.world.nor.mem.read (a.toNat + j)))) with
        nor := { s.world.nor with resetArmed := false } } }) := by
  have h := decodeNor_plain hc (.read a) (by simp)
  obtain ⟨h1, h2, h3⟩ := hd
  have hl : norReadBytes s.cfg s.world.nor a.toNat n = (List.range n).map (fun j => s.world.nor.mem.read
      (a.toNat + j)) := by
    unfold norReadBytes; rw [Nat.min_eq_left (by omega)]
  have ha : s.world.nor.answer s.cfg s.world.free (NorCmd.bytes s.cfg (.read a)) n = ((List.range n).map
      (fun j => s.world.nor.mem.read (a.toNat + j)), s.world.nor, s.world.free) := by
    simp only [NorDevice.answer, h, h1, h2, h3, hl]
    simp [padFree_exact (known := (List.range n).map (fun j => s.world.nor.mem.read (a.toNat + j))) (n := n) (by simp)]
  rw [State.spi_ready hi ⟨h1, h2, h3⟩ h h0 (by simp) ha]
  simp [NorDevice.perform, World.log, NorCmd.bytes]

/-- A memory read that goes on past the end of a ready device (R89): the device's bytes come first. -/
theorem State.spi_read_past {s : State} (hc : s.cfg.wf) (hi : s.world.spiIn = []) (hd : s.world.nor.Ready) {a : Addr}
    {n : Nat} (h0 : 0 < n) : ∃ data k, s.spi (NorCmd.bytes s.cfg (.read a)) n = (data, { s with
      world := { s.world.log (askEvents (s.cfg.cmd.read :: be24 a) data) with
        nor := { s.world.nor with resetArmed := false }, free := k } }) ∧ data.length = n ∧
      ∀ j (h : j < data.length), a.toNat + j < s.cfg.norCapacity → data[j] = s.world.nor.mem.read (a.toNat + j) := by
  have h := decodeNor_plain hc (.read a) (by simp)
  obtain ⟨h1, h2, h3⟩ := hd
  have hl : (norReadBytes s.cfg s.world.nor a.toNat n).length = min n (s.cfg.norCapacity - a.toNat) := by
    simp [norReadBytes]
  have hp : (padFree (norReadBytes s.cfg s.world.nor a.toNat n) n s.world.free).1.length = n := by
    simp [padFree, freeBytes, hl]
  refine ⟨(padFree (norReadBytes s.cfg s.world.nor a.toNat n) n s.world.free).1,
    (padFree (norReadBytes s.cfg s.world.nor a.toNat n) n s.world.free).2, ?_, hp, fun j hj hb => ?_⟩
  · rw [State.spi_ready (k := (padFree (norReadBytes s.cfg s.world.nor a.toNat n) n s.world.free).2) hi ⟨h1, h2,
      h3⟩ h h0 hp
      (by simp only [NorDevice.answer, h, h1, h2, h3]; simp)]
    simp [NorDevice.perform, World.log, NorCmd.bytes]
  · have hjl : j < (norReadBytes s.cfg s.world.nor a.toNat n).length := by rw [hl]; omega
    simp only [padFree, List.getElem_take]
    rw [List.getElem_append_left hjl]
    simp [norReadBytes]

/-- An identity read at a ready device (R89). -/
theorem State.spi_rdid {s : State} (hc : s.cfg.wf) (hi : s.world.spiIn = []) (hd : s.world.nor.Ready) :
    s.spi [s.cfg.cmd.rdid] 3 = (be24 s.world.nor.ident, { s with
      world := { s.world.log (askEvents [s.cfg.cmd.rdid] (be24 s.world.nor.ident)) with
        nor := { s.world.nor with resetArmed := false } } }) := by
  have h := decodeNor_plain hc .rdid (by simp)
  simp only [NorCmd.bytes] at h
  obtain ⟨h1, h2, h3⟩ := hd
  have ha : s.world.nor.answer s.cfg s.world.free [s.cfg.cmd.rdid] 3 = (be24 s.world.nor.ident, s.world.nor,
      s.world.free) := by
    simp only [NorDevice.answer, h, h1, h2, h3]
    simp [padFree_exact (known := be24 s.world.nor.ident) (n := 3) rfl]
  rw [State.spi_ready (n := 3) hi ⟨h1, h2, h3⟩ h (by omega) (show (be24 s.world.nor.ident).length = 3 from rfl) ha]
  simp [NorDevice.perform, World.log]

/-- A lone frame that reads nothing, at a ready device. -/
theorem norFrame_send {cmd : NorCmd} {s : State} (hs : s.seq = .idle) (hd : s.world.nor.Ready)
    (h : decodeNor s.cfg (cmd.bytes s.cfg) = .ok cmd) :
    norFrame cmd 0 true s = .next { s with
      rx := []
      world := { s.world.log (sendEvents (cmd.bytes s.cfg)) with
        nor := (s.world.nor.perform s.cfg s.world.free cmd).1
        free := (s.world.nor.perform s.cfg s.world.free cmd).2 } } := by
  simp [norFrame, hs, State.spi, World.spiFrame_send, NorDevice.react_ready hd h]

/-- A frame other than the wake frame at a sleeping device changes nothing there, and what it reads is open (R89). -/
theorem State.spi_asleep {s : State} {cmd : NorCmd} {tx : List Byte} (n : Nat) (h : decodeNor s.cfg tx = .ok cmd)
    (ha : s.world.nor.asleep = true) (hw : cmd ≠ .wake) :
    ∃ data k, data.length = n ∧ s.spi tx n = (data, { s with
      world := { s.world.log (if n = 0 then sendEvents tx else askEvents tx data) with
        free := k, spiIn := s.world.spiIn.drop n } }) := by
  have hr : ∀ k, s.world.nor.react s.cfg k tx = (s.world.nor, k) := by
    intro k; simp [NorDevice.react, h, ha, hw]
  by_cases hn : n = 0
  · subst hn
    exact ⟨[], s.world.free, rfl, by simp [State.spi, World.spiFrame_send, hr]⟩
  · have hl : (s.spi tx n).1.length = n := World.spiFrame_length _ _ _ _
    refine ⟨(s.spi tx n).1, (padFree [] n s.world.free).2, hl, Prod.ext rfl ?_⟩
    dsimp only
    rw [if_neg hn, askEvents, hl]
    simp [State.spi, World.spiFrame, hn, NorDevice.answer, h, ha, hr, World.log]

/-- A mutating request that passes its checks runs the skeleton (R140, R145). -/
theorem exec_mutation {s : State} {i tx a} (hs : s.seq = .idle) (hm : mutation s.cfg i = some (tx, a)) :
    exec i s = .next (mutate tx a .finish s.beginOperation) := by
  cases i <;> simp only [mutation] at hm <;> try (cases hm; done)
  case norChipErase =>
    cases hm
    simp [exec, execNorChipErase, State.request, hs, NorCmd.bytes]
  case norWritePage addr arg data =>
    split at hm
    · obtain ⟨h1, h2, h3⟩ := ‹_ ∧ _ ∧ _›
      cases hm
      simp [exec, execNorWritePage, State.request, hs, overWide_eq_false h1, payloadMismatch_eq_false h2,
          Nat.not_lt.mpr h3, NorCmd.bytes]
    · cases hm
  case norSectorErase addr =>
    split at hm
    · cases hm
      simp [exec, execNorSectorErase, State.request, hs, eraseOperation, overWide_eq_false ‹_›, NorCmd.bytes]
    · cases hm
  case norBlockErase64k addr =>
    split at hm
    · cases hm
      simp [exec, execNorBlockErase64k, State.request, hs, eraseOperation, overWide_eq_false ‹_›, NorCmd.bytes]
    · cases hm

/-- A latch frame changes nothing but the latch, whatever the device's condition (R81). -/
theorem send_latch (s : State) (hc : s.cfg.wf) (cmd : NorCmd) (h : cmd = .wren ∨ cmd = .wrdi) :
    ∃ nor k, s.spiSend (cmd.bytes s.cfg) = { s with world := { s.world.log (sendEvents (cmd.bytes s.cfg)) with
        nor := nor, free := k } } ∧
      nor = { s.world.nor with wel := nor.wel, resetArmed := nor.resetArmed } ∧
      (s.world.nor.Ready → nor.wel = (if cmd = .wren then s.world.nor.wel || !s.world.nor.wpPin else false)) := by
  rw [State.spiSend_eq]
  refine ⟨_, _, rfl, ?_, ?_⟩
  · have hd : decodeNor s.cfg (cmd.bytes s.cfg) = .ok cmd := decodeNor_plain hc _ (by rcases h with rfl | rfl <;> simp)
    unfold NorDevice.react
    rw [hd]
    dsimp only
    split
    · rcases h with rfl | rfl <;> rfl
    · split
      · rcases h with rfl | rfl <;> simp [NorDevice.disturb, commandEffect]
      · rcases h with rfl | rfl <;> simp [NorDevice.perform]
  · intro hr
    have hd : decodeNor s.cfg (cmd.bytes s.cfg) = .ok cmd := decodeNor_plain hc _ (by rcases h with rfl | rfl <;> simp)
    rw [NorDevice.react_ready hr hd]
    rcases h with rfl | rfl
    · simp [NorDevice.perform]; cases s.world.nor.wpPin <;> simp
    · simp [NorDevice.perform]

/-- A status read, whatever the device's condition (R142). -/
theorem State.readStatus_any (command : Byte) (s : State) :
    ∃ b nor k, s.readStatus command = (b, { s with world := { s.world.log (askEvents [command] [b]) with
      nor := nor, free := k, spiIn := s.world.spiIn.drop 1 } }) ∧ (∀ a rest, s.world.spiIn = a :: rest → b = a) ∧
      (s.world.spiIn = [] → b = ((s.world.nor.answer s.cfg s.world.free [command] 1).1).headD 0) ∧
      nor = ((s.world.nor.answer s.cfg s.world.free [command] 1).2.1.react s.cfg
          (s.world.nor.answer s.cfg s.world.free [command] 1).2.2 [command]).1 := by
  have hl := NorDevice.answer_length s.cfg s.world.nor s.world.free [command] 1
  obtain ⟨b, hb⟩ := List.length_eq_one_iff.mp hl
  unfold State.readStatus State.spi World.spiFrame
  rw [if_neg (by omega), hb]
  cases hin : s.world.spiIn with
  | nil =>
    refine ⟨b, _, ((s.world.nor.answer s.cfg s.world.free [command] 1).2.1.react s.cfg
        (s.world.nor.answer s.cfg s.world.free [command] 1).2.2 [command]).2, ?_, by simp, by simp, rfl⟩
    simp [World.log, askEvents, hb]
  | cons a rest =>
    refine ⟨a, _, ((s.world.nor.answer s.cfg s.world.free [command] 1).2.1.react s.cfg
        (s.world.nor.answer s.cfg s.world.free [command] 1).2.2 [command]).2, ?_, by simp, by simp, rfl⟩
    simp [World.log, askEvents, hl]

/-- A status command changes nothing but the reset-enable memory (R36). -/
theorem react_status {c : Config} {d : NorDevice} {k : Nat} {cmd : NorCmd} (hc : c.wf) (h : cmd = .rdsr1 ∨ cmd =
    .rdsr2 ∨ cmd = .rdsr3) :
   ∃ r, (d.react c k (cmd.bytes c)).1 = { d with resetArmed := r } := by
  have hd : decodeNor c (cmd.bytes c) = .ok cmd := decodeNor_plain hc _ (by rcases h with rfl | rfl | rfl <;> simp)
  unfold NorDevice.react
  rw [hd]
  dsimp only
  split
  · split
    · rcases h with rfl | rfl | rfl <;> cases ‹_›
    · exact ⟨_, rfl⟩
  · split
    · rcases h with rfl | rfl | rfl <;> exact ⟨_, rfl⟩
    · rcases h with rfl | rfl | rfl <;> exact ⟨_, rfl⟩

/-- A request that is rejected at once (R234, R239). -/
theorem raise_clean (s : State) (hs : s.seq = .idle) (hp : s.norPhase = .idle) (e : OpError) (a : Addr) (code)
    (he : (e = .argument a ∧ code = 0x04#8) ∨ (e = .pageBoundary a ∧ code = 0x03#8)) :
   s.beginOperation.raise e = { s with
      dout := [], failCount := 0, resLen := 0, resAddr := a, resCode := code
      world := s.world.log [.done code] } := by
  rcases he with ⟨rfl, rfl⟩ | ⟨rfl, rfl⟩ <;>
  simp [State.raise, State.recordContext, State.setPhase, State.complete, State.beginOperation, hp, hs, World.log,
      World.emit, OpError.code]

/-- The identity read, when the bytes are given from outside (R155). -/
theorem readIdentity_answered {s : State} {id : BitVec 24} {rest} (h : s.world.spiIn = be24 id ++ rest) :
    ∃ nor k, s.readIdentity = (id, { s with world := { s.world.log (askEvents [s.cfg.cmd.rdid] (be24 id)) with
        nor := nor, free := k, spiIn := rest } }) := by
  obtain ⟨nor, k, hk⟩ := State.spi_answered [s.cfg.cmd.rdid] (by simp [be24]) h
  rw [show (be24 id).length = 3 from rfl] at hk
  refine ⟨nor, k, ?_⟩
  simp only [State.readIdentity, hk]
  congr 1
  exact ofBe24_bytes id

/-- The protection step, when the status bytes are given from outside (R181). -/
theorem inspect_answered {s : State} {s1 s2 s3 : Byte} {rest} (h : s.world.spiIn = [s1, s2,
    s3] ++ rest) (after : After) :
  ∃ nor k t, t = { s with dout := [s1, s2, s3], world := { s.world.log (inspectEvents s.cfg s1 s2 s3) with
        nor := nor, free := k, spiIn := rest } } ∧ disableProtection after s =
     if protectedStatus s.cfg s1 then mutate (NorCmd.bytes s.cfg (.wrsr1
         (clearedStatus s.cfg s1))) 0 after t else continueAfter after t := by
  obtain ⟨n1, k1, h1⟩ := State.readStatus_answered s.cfg.cmd.rdsr1 (b := s1) (rest := [s2, s3] ++ rest) (s := s) h
  obtain ⟨n2, k2, h2⟩ := State.readStatus_answered s.cfg.cmd.rdsr2 (b := s2) (rest := [s3] ++ rest) (s :=
      { s with world := { s.world.log (askEvents [s.cfg.cmd.rdsr1] [s1]) with
      nor := n1, free := k1, spiIn := [s2, s3] ++ rest } }) rfl
  obtain ⟨n3, k3, h3⟩ := State.readStatus_answered s.cfg.cmd.rdsr3 (b := s3) (rest := rest) (s := { s with world :=
      { s.world.log (askEvents [s.cfg.cmd.rdsr1] [s1] ++ askEvents [s.cfg.cmd.rdsr2] [s2]) with
      nor := n2, free := k2, spiIn := [s3] ++ rest } }) rfl
  refine ⟨n3, k3, _, rfl, ?_⟩
  simp only [World.log, List.append_assoc] at h1 h2 h3
  simp only [disableProtection, h1, h2, h3, World.log, inspectEvents, List.append_assoc]

/-- Aligning twice is aligning once (R66). -/
theorem alignDown_idem (a n : Nat) : alignDown (alignDown a n) n = alignDown a n := by
  have : alignDown a n % n = 0 := by rw [alignDown_eq]; exact Nat.mul_mod_right _ _
  rw [alignDown, this]; rfl

/-- The address an erase frame carries (R152). -/
theorem eraseAddress_toNat (c : Config) (region : Nat) (a : Addr) :
    (eraseAddress c region a).toNat = if c.norAlignErase then alignDown a.toNat region else a.toNat := by
  unfold eraseAddress
  split
  · exact addrOf_toNat (Nat.lt_of_le_of_lt (alignDown_le _ _) a.isLt)
  · rfl

/-- The region an erase frame aims at (R86, R152). -/
theorem eraseAddress_region (c : Config) (region : Nat) (a : Addr) :
    alignDown (eraseAddress c region a).toNat region = alignDown a.toNat region := by
  rw [eraseAddress_toNat]; split
  · exact alignDown_idem _ _
  · rfl

/-- The address an erase frame carries lies inside the device (R234). -/
theorem eraseAddress_lt {c : Config} {region : Nat} {a : Addr} (h : a.toNat < c.norCapacity) :
    (eraseAddress c region a).toNat < c.norCapacity := by
  rw [eraseAddress_toNat]; split
  · exact Nat.lt_of_le_of_lt (alignDown_le _ _) h
  · exact h

/-- What a page program leaves in memory (R84, R85, R87). -/
theorem programBytes_spec (c : Config) (prot : List (Nat × Nat)) (a : Nat) : ∀ (data : List Byte) (i : Nat) (m : Memory)
    (k : Nat), m.wf → i + data.length ≤ c.norPage →
    (∀ x, (∀ j, j < data.length → x ≠ wrapInPage c.norPage a (i + j)) → (programBytes c prot a data i m k).1.read x =
        m.read x) ∧
    (∀ j (h : j < data.length), (programBytes c prot a data i m k).1.read (wrapInPage c.norPage a (i + j)) =
          (if inRanges prot (wrapInPage c.norPage a (i + j)) then m.read (wrapInPage c.norPage a (i + j))
          else if m.read (wrapInPage c.norPage a (i + j)) = c.norEraseValue then data[j]
          else if c.norAndLaw then m.read (wrapInPage c.norPage a (i + j)) &&& data[j]
          else (programBytes c prot a data i m k).1.read (wrapInPage c.norPage a (i + j)))) := by
  intro data
  induction data with
  | nil => intro i m k hm hl; exact ⟨fun x _ => rfl, fun j h => absurd h (by simp)⟩
  | cons b rest ih =>
    intro i m k hm hl
    simp only [List.length_cons] at hl
    have hother : ∀ x, x ≠ wrapInPage c.norPage a i → (programByte c prot m k
        (wrapInPage c.norPage a i) b).1.read x = m.read x := by
      intro x hx
      unfold programByte
      split
      · rfl
      · split
        · exact Memory.read_write_other _ _ hx
        · split <;> exact Memory.read_write_other _ _ hx
    have hwf : (programByte c prot m k (wrapInPage c.norPage a i) b).1.wf := by
      unfold programByte
      split
      · exact hm
      · split
        · exact Memory.write_wf hm _ _
        · split <;> exact Memory.write_wf hm _ _
    obtain ⟨i1, i2⟩ := ih (i + 1) (programByte c prot m k (wrapInPage c.norPage a i) b).1 (programByte c prot m k
        (wrapInPage c.norPage a i) b).2 hwf (by omega)
    simp only [programBytes]
    refine ⟨fun x hx => ?_, fun j h => ?_⟩
    · rw [i1 x (fun j hj => by have := hx (j + 1) (by simpa using hj); rwa [show i + (j + 1) =
        i + 1 + j by omega] at this)]
      exact hother x (by simpa using hx 0 (by simp))
    · cases j with
      | zero =>
        simp only [Nat.add_zero]
        rw [i1 (wrapInPage c.norPage a i) (fun j hj he => by have := wrapInPage_inj (by omega) (by omega) he; omega)]
        unfold programByte
        simp only [List.getElem_cons_zero]
        split
        · rfl
        · split
          · exact Memory.read_write_same hm _ _
          · split
            · exact Memory.read_write_same hm _ _
            · rfl
      | succ j =>
        have hj : j < rest.length := by simpa using h
        have := i2 j hj
        rw [show i + (j + 1) = i + 1 + j by omega]
        rw [hother _ (fun he => by have := wrapInPage_inj (by omega) (by omega) he; omega)] at this
        simpa using this

/-- `NOR_READ` whose poll ends (R157). -/
theorem pollAndRead_of {s t u : State} {addr : Addr} {n : Nat} {d : List Byte} (h1 : s.poll = (true, t))
    (h2 : t.spi (NorCmd.bytes t.cfg (.read addr)) n = (d, u)) : pollAndRead addr n s = { u with dout := d }.returnOk
        := by
  simp [pollAndRead, readMemory, h1, h2]

/-- The protection step at a ready device (R181). -/
theorem inspect_ready {s : State} (hc : s.cfg.wf) (hi : s.world.spiIn = []) (hd : s.world.nor.Ready) :
    ∃ t : State, t = { s with dout := [s.world.nor.sr1, s.world.nor.sr2, s.world.nor.sr3], world := { s.world.log
        (inspectEvents s.cfg s.world.nor.sr1 s.world.nor.sr2 s.world.nor.sr3) with
        nor := { s.world.nor with resetArmed := false } } } ∧ ∀ after, disableProtection after s =
     if protectedStatus s.cfg s.world.nor.sr1 then mutate (NorCmd.bytes s.cfg (.wrsr1
         (clearedStatus s.cfg s.world.nor.sr1))) 0 after t else continueAfter after t := by
  have hst : ∀ (u : State) (cmd : NorCmd) (b : Byte), u.cfg = s.cfg → u.world.spiIn = [] → u.world.nor.Ready →
      (cmd = .rdsr2 ∧ b = u.world.nor.sr2 ∨ cmd = .rdsr3 ∧ b = u.world.nor.sr3) →
      u.readStatus ((cmd.bytes s.cfg).headD 0) = (b, { u with world := { u.world.log (askEvents
          (cmd.bytes s.cfg) [b]) with nor := { u.world.nor with resetArmed := false } } }) := by
    intro u cmd b h0 h1 h2 h3
    have hn : ∀ a d, cmd ≠ .pp a d := by rcases h3 with ⟨rfl, -⟩ | ⟨rfl, -⟩ <;> simp
    have h := decodeNor_plain hc cmd hn
    rw [← h0] at h ⊢
    have hb : cmd.bytes u.cfg = [(cmd.bytes u.cfg).headD 0] := by rcases h3 with ⟨rfl, -⟩ | ⟨rfl, -⟩ <;> rfl
    rw [hb] at h
    have ha : u.world.nor.answer u.cfg u.world.free [(cmd.bytes u.cfg).headD 0] 1 = ([b], u.world.nor,
        u.world.free) := by
      simp only [NorDevice.answer, h, h2.1, h2.2.1]
      rcases h3 with ⟨rfl, rfl⟩ | ⟨rfl, rfl⟩
      · simp [padFree_exact (known := [u.world.nor.sr2]) (n := 1) rfl]
      · simp [padFree_exact (known := [u.world.nor.sr3]) (n := 1) rfl]
    unfold State.readStatus
    rw [State.spi_ready h1 h2 h Nat.one_pos rfl ha, hb]
    rcases h3 with ⟨rfl, rfl⟩ | ⟨rfl, rfl⟩ <;> simp [NorDevice.perform, World.log]
  refine ⟨_, rfl, fun after => ?_⟩
  have e1 := State.readStatus_ready hc hi hd
  have e2 := hst { s with world := { s.world.log (askEvents [s.cfg.cmd.rdsr1] [s.world.nor.sr1]) with
        nor := { s.world.nor with resetArmed := false } } } .rdsr2 s.world.nor.sr2 rfl hi hd (.inl ⟨rfl, rfl⟩)
  have e3 := hst { s with world := { s.world.log (askEvents [s.cfg.cmd.rdsr1] [s.world.nor.sr1] ++
      askEvents [s.cfg.cmd.rdsr2] [s.world.nor.sr2]) with
        nor := { s.world.nor with resetArmed := false } } } .rdsr3 s.world.nor.sr3 rfl hi hd (.inr ⟨rfl, rfl⟩)
  simp only [NorCmd.bytes, List.headD_cons] at e2 e3
  have key : ∀ {s t u v : State} {b1 b2 b3 : Byte}, s.readStatus s.cfg.cmd.rdsr1 = (b1, t) →
      t.readStatus s.cfg.cmd.rdsr2 = (b2, u) → u.readStatus s.cfg.cmd.rdsr3 = (b3, v) → t.cfg = s.cfg → u.cfg = s.cfg →
    disableProtection after s = if protectedStatus s.cfg b1 then mutate (NorCmd.bytes s.cfg (.wrsr1
        (clearedStatus s.cfg b1))) 0 after { v with dout := [b1, b2, b3] } else continueAfter after { v with dout :=
            [b1, b2, b3] } := by
    intro s t u v b1 b2 b3 h1 h2 h3 h4 h5
    simp [disableProtection, h1, h2, h3, h4, h5]
  refine (key e1 e2 (Eq.trans (congrArg _ ?_) e3) rfl rfl).trans ?_
  · simp [World.log]
  · simp [World.log, inspectEvents]

/-- The identity step at a ready device with an identity that is not zero (R156). -/
theorem identify_ready {s : State} (hc : s.cfg.wf) (hi : s.world.spiIn = []) (hd : s.world.nor.Ready)
    (h0 : s.world.nor.ident ≠ 0) :
    identify s = ({ s with
      world := { s.world.log (askEvents [s.cfg.cmd.rdid] (be24 s.world.nor.ident)) with
        nor := { s.world.nor with resetArmed := false } } }.storeIdentity s.world.nor.ident).returnOk := by
  have h : s.readIdentity = (s.world.nor.ident, { s with
      world := { s.world.log (askEvents [s.cfg.cmd.rdid] (be24 s.world.nor.ident)) with
        nor := { s.world.nor with resetArmed := false } } }) := by
    simp only [State.readIdentity, State.spi_rdid hc hi hd]
    congr 1
    exact ofBe24_bytes _
  simp only [identify, h, h0, if_false]

/-- The last part of `NOR_INIT` when the identity bytes are given from outside (R155, R156, R236). -/
theorem identify_answered {s : State} {id1 id2 id : BitVec 24} {rest : List Byte} (hid : id = if id1 = 0 then id2
    else id1)
    (h : s.world.spiIn = be24 id1 ++ ((if id1 = 0 then be24 id2 else []) ++ rest)) :
    ∃ nor k, identify s = { s with
      seq := .idle, dout := be24 id, resLen := 3, resCode := 0x00, norIdent := id, norIdentValid := true
      warn := s.warn ||| (if id = s.cfg.norExpectedId then 0#8 else 0x01#8)
      world := { s.world.log (identityEvents s.cfg id1 id2 ++
          (if id = s.cfg.norExpectedId then [] else [.warn .deviceIdentityMismatch]) ++ [.done 0x00]) with
        nor := nor, free := k, spiIn := rest
        see := { s.world.see with
          cycleLeft := s.world.see.cycleLeft - (if id1 = 0 then s.cfg.tIdRetry else 0) } } } := by
  obtain ⟨n1, k1, h1⟩ := readIdentity_answered h
  by_cases h0 : id1 = 0
  · rw [if_pos h0] at hid h1
    obtain ⟨n2, k2, h2⟩ := readIdentity_answered (s := State.delay .idRetry { s with
      world := { s.world.log (askEvents [s.cfg.cmd.rdid] (be24 id1)) with
        nor := n1, free := k1, spiIn := be24 id2 ++ rest } }) (id := id2) (rest := rest) rfl
    refine ⟨n2, k2, ?_⟩
    unfold identify
    simp only [h1, h0] at h2 ⊢
    simp only [h2, hid, if_true, State.storeIdentity]
    by_cases hx : id2 = s.cfg.norExpectedId
    · simp [hx, State.delay, World.delay, duration, State.returnOk, State.complete, World.emit, World.log,
        identityEvents]
    · simp [hx, State.delay, World.delay, duration, State.returnOk, State.complete, World.emit, World.log,
        identityEvents,
        State.setWarn, State.emit, idMismatch]
  · rw [if_neg h0] at hid h1
    subst hid
    refine ⟨n1, k1, ?_⟩
    unfold identify
    simp only [h1, h0, if_false, State.storeIdentity]
    have he : identityEvents s.cfg id id2 = askEvents [s.cfg.cmd.rdid] (be24 id) := by
      rw [identityEvents, if_neg h0, List.append_nil]
    rw [he]
    by_cases hx : id = s.cfg.norExpectedId
    · simp only [hx, if_true, State.returnOk, State.complete, World.emit, World.log, List.append_nil, List.append_assoc]
      simp
    · simp only [hx, if_false, State.returnOk, State.complete, World.emit, World.log, State.setWarn, State.emit,
        idMismatch]
      simp

/-- A frame that reads nothing, at any device (R141). -/
theorem State.spiSend_any (tx : List Byte) (s : State) : ∃ nor k,
    s.spiSend tx = { s with world := { s.world.log (sendEvents tx) with nor := nor, free := k } } :=
  ⟨_, _, State.spiSend_eq tx s⟩

/-- The three frames that `NOR_INIT` begins with, whatever the device (R156). -/
theorem wake_any (s : State) : ∃ nor k,
    ((((s.clearWarn idMismatch).spiSend [s.cfg.cmd.wake]).spiSend [s.cfg.cmd.rsten]).spiSend [s.cfg.cmd.rst]) = { s with
      warn := s.warn &&& ~~~0x01#8
      world := { s.world.log (wakeEvents s.cfg) with nor := nor, free := k } } := by
  obtain ⟨n1, k1, h1⟩ := State.spiSend_any [s.cfg.cmd.wake] (s.clearWarn idMismatch)
  obtain ⟨n2, k2, h2⟩ := State.spiSend_any [s.cfg.cmd.rsten] ((s.clearWarn idMismatch).spiSend [s.cfg.cmd.wake])
  obtain ⟨n3, k3, h3⟩ := State.spiSend_any [s.cfg.cmd.rst] (((s.clearWarn idMismatch).spiSend
      [s.cfg.cmd.wake]).spiSend [s.cfg.cmd.rsten])
  refine ⟨n3, k3, ?_⟩
  rw [h3, h2, h1]
  simp [State.clearWarn, idMismatch, World.log, wakeEvents]

/-- A suspended operation at a device that stays busy (R249). -/
theorem resume_stuck {s : State} {e : NorEffect} (hc : s.cfg.wf) (hs : s.seq ≠ .idle) (hi : s.world.spiIn = [])
    (h1 : s.world.nor.asleep = false)
    (h2 : s.world.nor.powerUpLeft = 0) (hj : s.world.nor.job = some ⟨e, none⟩) :
    resume s = { s with world := s.world.log (statusEvents s.cfg [s.world.nor.sr1]) } := by
  have hp := State.poll_stuck hc hi h1 h2 hj
  unfold resume
  cases hq : s.seq with
  | idle => exact absurd hq hs
  | firstPoll tx op after => simp only [mutate, hp]; simp [hq]
  | finalPoll tx after => simp only [finalWait, hp]; simp [hq]
  | readPoll a n => simp only [pollAndRead, hp]; simp [hq]

/-- Status reads are no status writes. -/
theorem filter_status (c : Config) (b : Byte) (hb : c.cmd.rdsr1 ≠ b) (l : List Byte) : (statusEvents c l).filter
    (sends b) = [] := by
  induction l with
  | nil => rfl
  | cons a l ih => rw [statusEvents_cons, List.filter_append, ih]; simp [askEvents, sends, hb]

/-- Latch checks are no status writes. -/
theorem filter_latch (c : Config) (b : Byte) (hb : c.cmd.rdsr1 ≠ b) (hb2 : c.cmd.wren ≠ b) (l : List Byte) :
    (latchEvents c l).filter (sends b) = [] := by
  induction l with
  | nil => rfl
  | cons a l ih =>
    have : latchEvents c (a :: l) = sendEvents [c.cmd.wren] ++ statusEvents c [a] ++ latchEvents c l :=
        by simp [latchEvents]
    rw [this, List.filter_append, List.filter_append, ih, filter_status c b hb]; simp [sendEvents, sends, hb2,
        List.filter_cons]

/-- The three status reads are no status writes. -/
theorem filter_inspect (c : Config) (b : Byte) (h1 : c.cmd.rdsr1 ≠ b) (h2 : c.cmd.rdsr2 ≠ b) (h3 : c.cmd.rdsr3 ≠ b)
    (a1 a2 a3) : (inspectEvents c a1 a2 a3).filter (sends b) = [] := by
  simp [inspectEvents, askEvents, sends, h1, h2, h3]

/-- Clearing bits that are clear changes nothing. -/
theorem and_clear (a m : BitVec 8) (h : a &&& m = 0) : a &&& ~~~m = a := by
  ext i hi
  have := congrArg (fun v => v.getLsbD i) h
  simp [hi] at this ⊢
  cases hm : m[i] <;> simp_all

/-- A masked sum that is zero has masked parts that are zero. -/
theorem or_and_zero (a b m : BitVec 8) (h : (a ||| b) &&& m = 0) : a &&& m = 0 := by
  ext i hi
  have := congrArg (fun v => v.getLsbD i) h
  simp [hi] at this ⊢
  intro ha
  cases hm : m[i] <;> simp_all

/-- The settings after the status write of R183. -/
theorem clear_settings (st w m : BitVec 8) (hw : w = 2#8 ∨ w = 0#8) :
    (((st &&& 252#8) ||| w) &&& ~~~m) &&& 252#8 &&& 252#8 = (st &&& 252#8) &&& ~~~m := by
  have hwz : w &&& 252#8 = 0 := by rcases hw with rfl | rfl <;> decide
  ext i hi
  have := congrArg (fun v => v.getLsbD i) hwz
  simp [hi] at this ⊢
  cases hm : m[i] <;> cases h1 : st[i] <;> cases h2 : (252#8)[i] <;> cases h3 : w[i] <;> simp_all

/-- The cleared byte has no bit of the mask set (R183). -/
theorem cleared_zero (a m : BitVec 8) : (a &&& ~~~m) &&& m = 0 := by
  ext i hi
  simp

end Sys2Proof.Machine
end

