-- ==== Sys2Proof/Laws/NorPowerUp.lean ====
section
/-! SUPPORT. The frames and procedures of the NOR unit at a device that has not yet powered up (R89). -/

namespace Sys2Proof.Machine

/-- A frame at an awake device that has not yet powered up (R89, log 14). -/
theorem react_poweringUp {c : Config} {d : NorDevice} (k : Nat) {cmd : NorCmd} {tx} (h : decodeNor c tx = .ok cmd)
    (ha : d.asleep = false) (hp : d.powerUpLeft ≠ 0) :
    d.react c k tx = d.disturb c k cmd := by
  simp [NorDevice.react, h, ha, hp]

/-- A status or identity frame at a device that has not yet powered up changes no condition of it (R89). -/
theorem spi_poweringUp {s : State} {tx : List Byte} {cmd : NorCmd} {n : Nat} (hn : n ≠ 0) 
    (h : decodeNor s.cfg tx = .ok cmd) (hcmd : cmd = .rdsr1 ∨ cmd = .rdsr2 ∨ cmd = .rdsr3 ∨ cmd = .rdid)
    (ha : s.world.nor.asleep = false) (hp : s.world.nor.powerUpLeft ≠ 0) : ∃ k,
    s.spi tx n = (s.world.spiIn.take n ++
        (padFree (if cmd = .rdid then [0, 0, 0] else []) n s.world.free).1.drop s.world.spiIn.length,
      { s with world := { s.world.log (askEvents tx (s.spi tx n).1) with
          free := k, spiIn := s.world.spiIn.drop n } }) := by
  have hl : (s.spi tx n).1.length = n := World.spiFrame_length _ _ _ _
  have hd : ∀ k, s.world.nor.disturb s.cfg k cmd = (s.world.nor, k) := by
    intro k; rcases hcmd with rfl | rfl | rfl | rfl <;> simp [NorDevice.disturb, commandEffect]
  have e1 : (s.spi tx n).1 = s.world.spiIn.take n ++
      (padFree (if cmd = .rdid then [0, 0, 0] else []) n s.world.free).1.drop s.world.spiIn.length := by
    simp [State.spi, World.spiFrame, hn, NorDevice.answer, h, ha, hp]
  refine ⟨(padFree (if cmd = .rdid then [0, 0, 0] else []) n s.world.free).2, Prod.ext e1 ?_⟩
  dsimp only
  rw [askEvents, hl, e1]
  simp only [State.spi, World.spiFrame, hn, if_false, NorDevice.answer, h, ha, hp, Bool.false_eq_true, ne_eq,
      not_false_eq_true, if_true]
  rw [react_poweringUp _ h ha hp, hd]
  rfl

/-- A status read at a device that has not yet powered up, its answer given from outside (R89). -/
theorem status_poweringUp {s : State} {cmd : NorCmd} (hc : s.cfg.wf) (hcmd : cmd = .rdsr1 ∨ cmd = .rdsr2 ∨ cmd = .rdsr3)
    (ha : s.world.nor.asleep = false) (hp : s.world.nor.powerUpLeft ≠ 0) {b rest}
    (hi : s.world.spiIn = b :: rest) : ∃ k, ∀ com, cmd.bytes s.cfg = [com] →
      s.readStatus com = (b, { s with
        world := { s.world.log (askEvents [com] [b]) with free := k, spiIn := rest } }) := by
  have h := decodeNor_plain hc cmd (by rcases hcmd with rfl | rfl | rfl <;> simp)
  obtain ⟨k, hk⟩ := spi_poweringUp (s := s) (n := 1) (by simp) h (by tauto) ha hp
  refine ⟨k, fun com hcom => ?_⟩
  rw [hcom] at hk
  have e : (s.spi [com] 1).1 = [b] := by
    rw [hk, hi]
    have : (padFree (if cmd = .rdid then [0, 0, 0] else []) 1 s.world.free).1.length = 1 := padFree_length _ _ _
    rw [List.drop_eq_nil_of_le (by rw [this]; simp)]
    rfl
  have e2 := congrArg Prod.snd hk
  rw [e] at e2
  simp only [State.readStatus, e, e2, hi]
  simp

/-- The identity read at a device that has not yet powered up: all zero (R89, R155). -/
theorem rdid_poweringUp {s : State} (hc : s.cfg.wf)
    (ha : s.world.nor.asleep = false) (hp : s.world.nor.powerUpLeft ≠ 0) (hi : s.world.spiIn = []) :
    s.readIdentity = (0, { s with world := s.world.log (askEvents [s.cfg.cmd.rdid] (be24 0)) }) := by
  have h := decodeNor_plain hc .rdid (by simp)
  simp only [NorCmd.bytes] at h
  have e : padFree [0#8, 0#8, 0#8] 3 s.world.free = ([0#8, 0#8, 0#8], s.world.free) := 
    padFree_self [0, 0, 0] s.world.free
  have hspi : s.spi [s.cfg.cmd.rdid] 3 = ([0, 0, 0], { s with
      world := s.world.log (askEvents [s.cfg.cmd.rdid] [0, 0, 0]) }) := by
    simp [State.spi, World.spiFrame, NorDevice.answer, h, ha, hp, hi, NorDevice.react, NorDevice.disturb,
        commandEffect, e, World.log, askEvents]
  have : (be24 0 : List Byte) = [0, 0, 0] := by decide
  rw [State.readIdentity, hspi, this]
  simp [ofBe24]

/-- The frames that begin `NOR_INIT` at a device that has not yet powered up. -/
theorem wake_poweringUp {t : State} (hc : t.cfg.wf) (ha : t.world.nor.asleep = false)
    (hp : t.world.nor.powerUpLeft ≠ 0) (hj : t.world.nor.job = none) :
    ∃ wel armed k, (((t.spiSend [t.cfg.cmd.wake]).spiSend [t.cfg.cmd.rsten]).spiSend [t.cfg.cmd.rst]) = { t with
      world := { t.world.log (wakeEvents t.cfg) with
        nor := { t.world.nor with wel := wel, resetArmed := armed }, free := k } } := by
  have d1 := decodeNor_plain hc .wake (by simp)
  have d2 := decodeNor_plain hc .rsten (by simp)
  have d3 := decodeNor_plain hc .rst (by simp)
  simp only [NorCmd.bytes] at d1 d2 d3
  have a1 : t.spiSend [t.cfg.cmd.wake] = { t with world := t.world.log (sendEvents [t.cfg.cmd.wake]) } := by
    rw [State.spiSend_eq, react_poweringUp _ d1 ha hp]; simp [NorDevice.disturb, commandEffect, World.log]
  have a2 : ∀ u : State, u.cfg = t.cfg → u.world.nor = t.world.nor → u.spiSend [t.cfg.cmd.rsten] = { u with
      world := { u.world.log (sendEvents [t.cfg.cmd.rsten]) with
        nor := { t.world.nor with resetArmed := Config.freeBit u.world.free }, free := u.world.free + 1 } } := by
    intro u h1 h2
    rw [State.spiSend_eq, h1, h2, react_poweringUp _ d2 ha hp]; simp [NorDevice.disturb, commandEffect, World.log]
  have a3 : ∀ (u : State) b, u.cfg = t.cfg → u.world.nor = { t.world.nor with resetArmed := b } →
      ∃ wel armed, u.spiSend [t.cfg.cmd.rst] = { u with
        world := { u.world.log (sendEvents [t.cfg.cmd.rst]) with
          nor := { t.world.nor with wel := wel, resetArmed := armed }, free := u.world.free + 1 } } := by
    intro u b h1 h2
    have hr : ∀ k, NorDevice.react t.cfg { t.world.nor with resetArmed := b } k [t.cfg.cmd.rst] =
        NorDevice.disturb t.cfg { t.world.nor with resetArmed := b } k .rst :=
      fun k => react_poweringUp (d := { t.world.nor with resetArmed := b }) k d3 ha hp
    rw [State.spiSend_eq, h1, h2, hr]
    simp only [NorDevice.disturb, commandEffect]
    simp only [reduceCtorEq, or_self, if_false, if_true]
    split
    · exact ⟨false, false, by simp [NorDevice.powerOn, hj, World.log]⟩
    · exact ⟨t.world.nor.wel, b, by simp [World.log]⟩
  rw [a1, show State.spiSend [t.cfg.cmd.rsten]
    ({ t with world := t.world.log (sendEvents [t.cfg.cmd.wake]) } : State) = _ from a2 _ rfl rfl]
  generalize hu : ({ t with world := _ } : State) = u
  obtain ⟨wel, armed, h⟩ := a3 u _ (by rw [← hu]) (by rw [← hu])
  refine ⟨wel, armed, u.world.free + 1, ?_⟩
  rw [h]
  rw [← hu]
  simp [World.log, wakeEvents]

/-- The protection step at a device that has not yet powered up, with answers that show no protection (R181). -/
theorem inspect_poweringUp {s : State} (hc : s.cfg.wf) (ha : s.world.nor.asleep = false)
    (hp : s.world.nor.powerUpLeft ≠ 0) {s1 s2 s3 : Byte} (hi : s.world.spiIn = [s1, s2, s3])
    (hm : protectedStatus s.cfg s1 = false) (after : After) : ∃ k,
    disableProtection after s = continueAfter after { s with
        dout := [s1, s2, s3]
        world := { s.world.log (inspectEvents s.cfg s1 s2 s3) with free := k, spiIn := [] } } := by
  obtain ⟨k1, h1⟩ := status_poweringUp (cmd := .rdsr1) hc (by simp) ha hp hi
  have h1 := h1 _ rfl
  obtain ⟨k2, h2⟩ := status_poweringUp (s := { s with
    world := { s.world.log (askEvents [s.cfg.cmd.rdsr1] [s1]) with
      free := k1, spiIn := [s2, s3] } }) (cmd := .rdsr2) hc (by simp) ha hp rfl
  have h2 := h2 _ rfl
  obtain ⟨k3, h3⟩ := status_poweringUp (s := { s with
    world := { (s.world.log (askEvents [s.cfg.cmd.rdsr1] [s1])).log (askEvents [s.cfg.cmd.rdsr2] [s2]) with
      free := k2, spiIn := [s3] } }) (cmd := .rdsr3) hc (by simp) ha hp rfl
  have h3 := h3 _ rfl
  refine ⟨k3, ?_⟩
  simp only [World.log, List.append_assoc] at h1 h2 h3
  simp only [disableProtection, h1, h2, h3, World.log, inspectEvents, List.append_assoc]
  rw [hm]
  simp

end Sys2Proof.Machine
end

