-- ==== Sys2Proof/Laws/Requests.lean ====
section
/-! SUPPORT. How every request ends, unit by unit, and what a lone frame can change: what the statements about the whole machine
are proved from. -/

namespace Sys2Proof.Machine

/-- A request runs on an idle block alone (R158). -/
theorem State.request_next {s t : State} {f : State → State} (h : s.request f = .next t) :
    s.seq = .idle ∧ t = f s.beginOperation := by
  unfold State.request at h
  split at h
  · exact ⟨‹_›, by cases h; rfl⟩
  · cases h

theorem State.requestOrRefuse_next {s t : State} {f : State → Except Refusal State} (h : s.requestOrRefuse f = .next t) :
    s.seq = .idle ∧ f s.beginOperation = .ok t := by
  unfold State.requestOrRefuse at h
  split at h
  · refine ⟨‹_›, ?_⟩
    split at h
    · cases h; assumption
    · cases h
  · cases h

/-- The error a rejected request raises (R234, R212). -/
def rejection (a : Addr) (code : BitVec 8) : OpError := if code = 0x03 then .pageBoundary a else .argument a

/-- A request of the NOR or WP unit: rejected at once, or ended as `NorEnds` says. -/
theorem exec_nor {i : Instr} {s t : State} (hi : norRequest i = true) (h : exec i s = .next t) : s.seq = .idle ∧
    ((∃ a, malformed s.cfg i = some (a, 0x04) ∧ t = s.beginOperation.raise (.argument a)) ∨
      (malformed s.cfg i = none ∧ ∃ n, NorEnds .idle n s.beginOperation t)) := by
  cases i <;> simp only [norRequest, Bool.false_eq_true] at hi <;> simp only [exec, execNorInit, execNorWriteEnable, execNorWriteDisable, execNorReadStatus1, execNorReadStatus2,
    execNorReadStatus3, execNorWritePage, execNorSectorErase, execNorBlockErase64k, execNorChipErase, execNorRead,
    execWpDisableProtection] at h <;>
    obtain ⟨hs, rfl⟩ := State.request_next h <;>
    refine ⟨hs, ?_⟩ <;> try simp only [State.beginOperation_cfg]
  case norInit =>
    have a1 := State.clearWarn_step idMismatch s.beginOperation
    have a2 := State.spiSend_step [s.cfg.cmd.wake] (s.beginOperation.clearWarn idMismatch)
    have a3 := State.spiSend_step [s.cfg.cmd.rsten] ((s.beginOperation.clearWarn idMismatch).spiSend [s.cfg.cmd.wake])
    have a4 := State.spiSend_step [s.cfg.cmd.rst]
      (((s.beginOperation.clearWarn idMismatch).spiSend [s.cfg.cmd.wake]).spiSend [s.cfg.cmd.rsten])
    exact .inr ⟨rfl, _, NorEnds.after (((a1.trans a2).trans a3).trans a4) (disableProtection_ends .identify _) id⟩
  case norWriteEnable =>
    exact .inr ⟨rfl, _, NorEnds.after (State.spiSend_step _ _) (State.returnOk_ends _) id⟩
  case norWriteDisable =>
    exact .inr ⟨rfl, _, NorEnds.after (State.spiSend_step _ _) (State.returnOk_ends _) id⟩
  case norReadStatus1 => exact .inr ⟨rfl, _, statusOperation_ends _ _⟩
  case norReadStatus2 => exact .inr ⟨rfl, _, statusOperation_ends _ _⟩
  case norReadStatus3 => exact .inr ⟨rfl, _, statusOperation_ends _ _⟩
  case norWritePage addr arg data =>
    simp only [malformed, overWide_iff, payloadMismatch_iff]
    by_cases h1 : s.cfg.norCapacity ≤ addr.toNat
    · exact .inl ⟨addr, by simp [h1], by simp [h1]⟩
    · by_cases h2 : data.length ≠ arg.toNat
      · exact .inl ⟨addr, by simp [h2], by simp [h1, h2]⟩
      · by_cases h3 : s.cfg.norPage < arg.toNat
        · exact .inl ⟨addr, by simp [h3], by simp [h1, h2, h3]⟩
        · simp only [h1, h2, h3, or_self, if_false]
          exact .inr ⟨trivial, _, mutate_ends _ _ _ _⟩
  case norSectorErase addr =>
    simp only [malformed, eraseOperation, overWide_iff, State.beginOperation_cfg]
    by_cases h1 : s.cfg.norCapacity ≤ addr.toNat
    · exact .inl ⟨addr, by simp [h1], by simp [h1]⟩
    · simp only [h1, if_false]
      exact .inr ⟨trivial, _, mutate_ends _ _ _ _⟩
  case norBlockErase64k addr =>
    simp only [malformed, eraseOperation, overWide_iff, State.beginOperation_cfg]
    by_cases h1 : s.cfg.norCapacity ≤ addr.toNat
    · exact .inl ⟨addr, by simp [h1], by simp [h1]⟩
    · simp only [h1, if_false]
      exact .inr ⟨trivial, _, mutate_ends _ _ _ _⟩
  case norChipErase => exact .inr ⟨rfl, _, mutate_ends _ _ _ _⟩
  case norRead addr arg =>
    simp only [malformed, overWide_iff, pastEnd_iff]
    by_cases h1 : s.cfg.norCapacity ≤ addr.toNat
    · exact .inl ⟨addr, by simp [h1], by simp [h1]⟩
    · by_cases h2 : s.cfg.norCapacity < addr.toNat + arg.toNat
      · exact .inl ⟨addr, by simp [h2], by simp [h1, h2]⟩
      · simp only [h1, h2, or_self, if_false]
        split
        · exact .inr ⟨trivial, _, State.returnOk_ends _⟩
        · exact .inr ⟨trivial, _, pollAndRead_ends _ _ _⟩
  case wpDisableProtection => exact .inr ⟨rfl, _, disableProtection_ends _ _⟩

/-- A request of the PAR unit: rejected at once, or ended as `ParEnds` says. -/
theorem exec_par {i : Instr} {s t : State} (hi : parRequest i = true) (h : exec i s = .next t) : s.seq = .idle ∧
    ((∃ a, malformed s.cfg i = some (a, 0x04) ∧ t = s.beginOperation.raise (.argument a)) ∨
      (malformed s.cfg i = none ∧ ParEnds s.beginOperation t)) := by
  cases i <;> simp only [parRequest, Bool.false_eq_true] at hi <;> simp only [exec, execParInit, execParWriteByte, execParReadByte, execParBulkRead, execParBulkWrite] at h <;>
    obtain ⟨hs, rfl⟩ := State.request_next h <;>
    refine ⟨hs, ?_⟩ <;> try simp only [State.beginOperation_cfg]
  case parInit =>
    refine .inr ⟨rfl, ParEnds.after ?_ (State.returnOk_parEnds _)⟩
    exact ((((((((dataInput_step _).trans (State.lineSet_step _ _ _)).trans (State.lineSet_step _ _ _)).trans
      (State.lineSet_step _ _ _)).trans (State.lineDir_step _ _ _)).trans (State.lineDir_step _ _ _)).trans
      (State.lineDir_step _ _ _)).trans (setLines_step _ _ _ _ _)).trans (setDirections_step _ _ _ _ _)
  case parWriteByte addr arg =>
    simp only [malformed, overWide_iff]
    by_cases h1 : s.cfg.parCapacity ≤ addr.toNat
    · exact .inl ⟨addr, by simp [h1], by simp [h1]⟩
    · simp only [h1, if_false]
      refine .inr ⟨trivial, ParEnds.after (writeByte_step addr.toNat (byteValue arg) _) ?_⟩
      split
      · exact State.returnOk_parEnds _
      · exact ParEnds.after (ParStep.registers _ _ _ _ _ _ _ _ _) (State.raise_parEnds _ _ _ _)
  case parReadByte addr =>
    simp only [malformed, overWide_iff]
    by_cases h1 : s.cfg.parCapacity ≤ addr.toNat
    · exact .inl ⟨addr, by simp [h1], by simp [h1]⟩
    · simp only [h1, if_false]
      exact .inr ⟨trivial, ParEnds.after (readByte_step _ _) (State.returnOk_parEnds _)⟩
  case parBulkRead addr arg =>
    simp only [malformed, overWide_iff, pastEnd_iff]
    by_cases h1 : s.cfg.parCapacity ≤ addr.toNat
    · exact .inl ⟨addr, by simp [h1], by simp [h1]⟩
    · by_cases h2 : s.cfg.parCapacity < addr.toNat + arg.toNat
      · exact .inl ⟨addr, by simp [h2], by simp [h1, h2]⟩
      · simp only [h1, h2, or_self, if_false]
        exact .inr ⟨trivial, ParEnds.after (bulkReadLoop_step _ _ _ _) (State.returnOk_parEnds _)⟩
  case parBulkWrite addr arg data =>
    simp only [malformed, overWide_iff, payloadMismatch_iff, pastEnd_iff]
    by_cases h1 : s.cfg.parCapacity ≤ addr.toNat
    · exact .inl ⟨addr, by simp [h1], by simp [h1]⟩
    · by_cases h2 : data.length ≠ arg.toNat
      · exact .inl ⟨addr, by simp [h2], by simp [h1, h2]⟩
      · by_cases h3 : s.cfg.parCapacity < addr.toNat + arg.toNat
        · exact .inl ⟨addr, by simp [h3], by simp [h1, h2, h3]⟩
        · simp only [h1, h2, h3, or_self, if_false]
          exact .inr ⟨trivial, bulkWriteLoop_ends _ _ _ _⟩

theorem andReturnOk_ok {r : Except Refusal State} {t : State} (h : andReturnOk r = .ok t) :
    ∃ u, r = .ok u ∧ t = u.complete 0x00 := by
  unfold andReturnOk at h
  split at h
  · cases h; exact ⟨_, rfl, rfl⟩
  · cases h

/-- A request of the SEE unit: rejected at once, or completed with code 0x00 after a `SeeStep`. -/
theorem exec_see {i : Instr} {s t : State} (hi : seeRequest i = true) (h : exec i s = .next t) : s.seq = .idle ∧
    ((∃ a code, malformed s.cfg i = some (a, code) ∧ t = s.beginOperation.raise (rejection a code)) ∨
      (malformed s.cfg i = none ∧ ∃ u, SeeStep s.beginOperation u ∧ t = u.complete 0x00)) := by
  cases i <;> simp only [seeRequest, Bool.false_eq_true] at hi <;> simp only [exec, execSeeInit, execSeeWriteByte, execSeeWritePage, execSeeReadByte, execSeeReadBytes, execSeeBulkErase] at h
  case seeInit =>
    obtain ⟨hs, rfl⟩ := State.request_next h
    refine ⟨hs, .inr ⟨rfl, ?_⟩⟩
    have a1 : SeeStep s.beginOperation { s.beginOperation.clearWarn scanAbsent with
        world := ((s.beginOperation.clearWarn scanAbsent).world.i2cScan s.cfg).2 } :=
      ⟨rfl, rfl, ⟨rfl, rfl, rfl, rfl⟩, rfl, ⟨rfl, rfl⟩, rfl, rfl, rfl, rfl, ⟨rfl, rfl, rfl⟩, and_and_zero, ⟨rfl, rfl⟩, rfl,
        rfl, ⟨[.i2cScan (s.world.scanAnswer s.cfg)], by simp [quiet], rfl⟩, fun _ => id⟩
    by_cases hm : s.cfg.seeDevAddr ∈ ((s.beginOperation.clearWarn scanAbsent).world.i2cScan s.cfg).1
    · exact ⟨_, a1, if_pos hm⟩
    · refine ⟨_, a1.trans ?_, if_neg hm⟩
      refine SeeStep.trans (t := State.setWarn scanAbsent _) ?_ (State.emit_seeStep (by simp [quiet]) _)
      exact ⟨rfl, rfl, ⟨rfl, rfl, rfl, rfl⟩, rfl, ⟨rfl, rfl⟩, rfl, rfl, rfl, rfl, ⟨rfl, rfl, rfl⟩,
        fun h => and_or_zero h (by decide), ⟨rfl, rfl⟩, rfl, rfl, ⟨[], quiet_nil, by simp⟩, fun _ => id⟩
  case seeWriteByte addr arg =>
    obtain ⟨hs, hr⟩ := State.requestOrRefuse_next h
    refine ⟨hs, ?_⟩
    simp only [malformed, overWide_iff, State.beginOperation_cfg] at hr ⊢
    by_cases h1 : s.cfg.seeCapacity ≤ addr.toNat
    · simp only [h1, if_true] at hr
      cases hr; exact .inl ⟨addr, 0x04, by simp [h1], rfl⟩
    · simp only [h1, if_false] at hr ⊢
      obtain ⟨u, hu, rfl⟩ := andReturnOk_ok hr
      exact .inr ⟨trivial, u, State.writeFrame_step hu, rfl⟩
  case seeWritePage addr arg data =>
    obtain ⟨hs, hr⟩ := State.requestOrRefuse_next h
    refine ⟨hs, ?_⟩
    simp only [malformed, overWide_iff, payloadMismatch_iff, State.beginOperation_cfg] at hr ⊢
    by_cases h1 : s.cfg.seeCapacity ≤ addr.toNat
    · simp only [h1, if_true] at hr
      cases hr; exact .inl ⟨addr, 0x04, by simp [h1], rfl⟩
    · by_cases h2 : data.length ≠ arg.toNat
      · simp only [h1, if_false, if_pos h2] at hr
        cases hr; exact .inl ⟨addr, 0x04, by simp [h2], rfl⟩
      · rw [if_neg h1, if_neg h2] at hr
        rw [if_neg (by simp only [h1, h2, or_self, not_false_iff])]
        by_cases h3 : crosses s.cfg.seePage addr.toNat arg.toNat = true
        · simp only [h3, if_true] at hr
          cases hr
          exact .inl ⟨addr, 0x03, by rw [if_pos (by simpa [crosses] using h3)], rfl⟩
        · simp only [h3, if_false, Bool.false_eq_true] at hr
          rw [if_neg (by simpa [crosses] using h3)]
          obtain ⟨u, hu, rfl⟩ := andReturnOk_ok hr
          exact .inr ⟨rfl, u, State.writeFrame_step hu, rfl⟩
  case seeReadByte addr =>
    obtain ⟨hs, hr⟩ := State.requestOrRefuse_next h
    refine ⟨hs, ?_⟩
    simp only [malformed, overWide_iff, State.beginOperation_cfg] at hr ⊢
    by_cases h1 : s.cfg.seeCapacity ≤ addr.toNat
    · simp only [h1, if_true] at hr
      cases hr; exact .inl ⟨addr, 0x04, by simp [h1], rfl⟩
    · simp only [h1, if_false] at hr ⊢
      obtain ⟨u, hu, rfl⟩ := andReturnOk_ok hr
      exact .inr ⟨trivial, u, State.readFrame_step hu, rfl⟩
  case seeReadBytes addr arg =>
    obtain ⟨hs, hr⟩ := State.requestOrRefuse_next h
    refine ⟨hs, ?_⟩
    simp only [malformed, overWide_iff, pastEnd_iff, State.beginOperation_cfg] at hr ⊢
    by_cases h1 : s.cfg.seeCapacity ≤ addr.toNat
    · simp only [h1, if_true] at hr
      cases hr; exact .inl ⟨addr, 0x04, by simp [h1], rfl⟩
    · by_cases h2 : s.cfg.seeCapacity < addr.toNat + arg.toNat
      · simp only [h1, h2, if_false, if_true] at hr
        cases hr; exact .inl ⟨addr, 0x04, by simp [h2], rfl⟩
      · simp only [h1, h2, or_self, if_false] at hr ⊢
        split at hr
        · cases hr; exact .inr ⟨trivial, s.beginOperation, SeeStep.refl _, rfl⟩
        · obtain ⟨u, hu, rfl⟩ := andReturnOk_ok hr
          exact .inr ⟨trivial, u, State.readFrame_step hu, rfl⟩
  case seeBulkErase arg =>
    obtain ⟨hs, hr⟩ := State.requestOrRefuse_next h
    obtain ⟨u, hu, rfl⟩ := andReturnOk_ok hr
    exact ⟨hs, .inr ⟨rfl, u, bulkEraseLoop_step _ _ _ _ _ hu, rfl⟩⟩

/-- What a lone frame can change: the trace, the device it reaches, the answers it takes, the counter of free values, and
`rx`. -/
structure FrameStep (s t : State) : Prop where
  block : t = { s with world := t.world, rx := t.rx }
  idle : s.seq = .idle
  lines : t.world.par = s.world.par ∧ t.world.samples = s.world.samples ∧ t.world.scans = s.world.scans
  trace : ∃ events, quiet events ∧ t.world.trace = s.world.trace ++ events
  nor : s.cfg.wf → NorGood s.cfg s.world.nor → NorGood s.cfg t.world.nor
  see : s.cfg.wf → SeeGood s.cfg s.world.see → SeeGood s.cfg t.world.see

theorem norFrame_step {cmd : NorCmd} {n : Nat} {inside : Bool} {s t : State} (h : norFrame cmd n inside s = .next t) :
    FrameStep s t := by
  unfold norFrame at h
  split at h
  · cases h
  · rename_i hs
    split at h
    · cases h
      have a := State.spi_step (cmd.bytes s.cfg) n s
      obtain ⟨e, q, ht, -⟩ := a.trace
      refine ⟨rfl, by simpa using hs, ⟨a.par, a.inputs.1, a.inputs.2.1⟩, ⟨e, q, ht⟩, a.good, fun _ hg => ?_⟩
      have : (s.spi (cmd.bytes s.cfg) n).2.world.see = s.world.see := by
        unfold State.spi World.spiFrame; split <;> rfl
      dsimp only
      rw [this]
      exact hg
    · cases h

theorem i2cWriteFrame_step {addr : BitVec 15} {data : List Byte} {s t : State} (h : i2cWriteFrame addr data s = .next t) :
    FrameStep s t := by
  unfold i2cWriteFrame at h
  split at h
  · cases h
  · rename_i hs
    split at h
    · split at h
      · rename_i u hu
        cases h
        have a := State.i2cWrite_step hu
        rw [State.i2cWrite_eq] at hu
        split at hu
        · cases hu
        · cases hu
          exact ⟨rfl, by simpa using hs, ⟨rfl, rfl, rfl⟩, a.trace, fun _ => id, a.good⟩
      · cases h
    · cases h

theorem i2cReadFrame_step {n : Nat} {s t : State} (h : i2cReadFrame n s = .next t) : FrameStep s t := by
  unfold i2cReadFrame at h
  split at h
  · cases h
  · rename_i hs
    rw [World.i2cRead_eq] at h
    by_cases h0 : s.world.see.cycleLeft = 0
    · simp only [h0, ne_eq, not_true, if_false] at h
      cases h
      exact ⟨rfl, by simpa using hs, ⟨rfl, rfl, rfl⟩,
        ⟨[.i2cR s.cfg.seeDevAddr n (s.world.i2cAnswer s.cfg n)], by simp [quiet], rfl⟩, fun _ => id, fun _ => id⟩
    · simp only [ne_eq, h0, not_false_iff, if_true] at h
      cases h

/-- A lone frame. -/
theorem exec_frame {i : Instr} {s t : State} (hi : isRequest i = false) (h : exec i s = .next t) : FrameStep s t := by
  cases i <;> simp only [isRequest, norRequest, parRequest, seeRequest, Bool.or_false, Bool.or_true, Bool.true_or,
    Bool.true_eq_false, reduceCtorEq] at hi <;>
    first | exact norFrame_step h | exact i2cWriteFrame_step h | exact i2cReadFrame_step h

/-- The three kinds of requests (R102). -/
theorem isRequest_cases {i : Instr} (h : isRequest i = true) : norRequest i = true ∨ parRequest i =
    true ∨ seeRequest i = true := by
  unfold isRequest at h; simpa [Bool.or_eq_true, or_assoc] using h

/-- How any request ends: with one of the codes of R230, or suspended in a busy poll (R25, R143, R158). -/
theorem exec_request {i : Instr} {s t : State} (hi : isRequest i = true) (h : exec i s = .next t) :
    s.seq = .idle ∧ ∃ u : State, t.cfg = s.cfg ∧ t.caller = s.caller ∧ (t.reqOp = s.reqOp ∧ t.reqAddr = s.reqAddr ∧
        t.reqArg = s.reqArg ∧ t.din = s.din) ∧
     (∃ events, quiet events ∧ u.world.trace = s.world.trace ++ events) ∧ u.resCode = s.resCode ∧
     ((∃ code : BitVec 8, t = u.complete code ∧ (malformed s.cfg i = none → code = 0 ∨ code = 1 ∨ code = 2) ∧
         code.toNat ≤ 5) ∨ ∃ q : Seq, q ≠ .idle ∧ t = {u with seq := q}) := by
  have hraise : ∀ e : OpError, ∃ u : State, (s.beginOperation.raise e).cfg = s.cfg ∧
      (s.beginOperation.raise e).caller = s.caller ∧ ((s.beginOperation.raise e).reqOp = s.reqOp ∧
          (s.beginOperation.raise e).reqAddr = s.reqAddr ∧ (s.beginOperation.raise e).reqArg = s.reqArg ∧
              (s.beginOperation.raise e).din = s.din) ∧
     (∃ events, quiet events ∧ u.world.trace = s.world.trace ++ events) ∧ u.resCode = s.resCode ∧
         (s.beginOperation.raise e) = u.complete e.code := by
    intro e
    refine ⟨(s.beginOperation.recordContext e).setPhase .idle, ?_, ?_, ?_, ⟨[], quiet_nil, ?_⟩, ?_,
        rfl⟩ <;> cases e <;> simp [State.raise, State.recordContext, State.complete, State.beginOperation]
  rcases isRequest_cases hi with hn | hn | hn
  · obtain ⟨hs, h1⟩ := exec_nor hn h
    refine ⟨hs, ?_⟩
    rcases h1 with ⟨a, hm, rfl⟩ | ⟨hm, n, u, hu, h2⟩
    · obtain ⟨u, b1, b2, b3, b4, b5, b6⟩ := hraise (.argument a)
      exact ⟨u, b1, b2, b3, b4, b5, .inl ⟨_, b6, by simp [hm], by simp [OpError.code]⟩⟩
    · obtain ⟨e, q, ht, -⟩ := hu.trace
      rcases h2 with ⟨h2 | h2, -⟩ | ⟨q', hq, h2, -⟩ <;> subst h2
      · exact ⟨u, hu.cfg, hu.caller, hu.request, ⟨e, q, ht⟩, hu.results.1, .inl ⟨_, rfl, by simp, by decide⟩⟩
      · exact ⟨u, hu.cfg, hu.caller, hu.request, ⟨e, q, ht⟩, hu.results.1, .inl ⟨_, rfl, by simp, by decide⟩⟩
      · exact ⟨u, hu.cfg, hu.caller, hu.request, ⟨e, q, ht⟩, hu.results.1, .inr ⟨q', hq, rfl⟩⟩
  · obtain ⟨hs, h1⟩ := exec_par hn h
    refine ⟨hs, ?_⟩
    rcases h1 with ⟨a, hm, rfl⟩ | ⟨hm, u, hu, h2⟩
    · obtain ⟨u, b1, b2, b3, b4, b5, b6⟩ := hraise (.argument a)
      exact ⟨u, b1, b2, b3, b4, b5, .inl ⟨_, b6, by simp [hm], by simp [OpError.code]⟩⟩
    · obtain ⟨e, q, ht⟩ := hu.trace
      rcases h2 with h2 | h2 <;> subst h2
      · exact ⟨u, hu.cfg, hu.caller, hu.request, ⟨e, q, ht⟩, hu.results.1, .inl ⟨_, rfl, by simp, by decide⟩⟩
      · exact ⟨u, hu.cfg, hu.caller, hu.request, ⟨e, q, ht⟩, hu.results.1, .inl ⟨_, rfl, by simp, by decide⟩⟩
  · obtain ⟨hs, h1⟩ := exec_see hn h
    refine ⟨hs, ?_⟩
    rcases h1 with ⟨a, code, hm, rfl⟩ | ⟨hm, u, hu, h2⟩
    · obtain ⟨u, b1, b2, b3, b4, b5, b6⟩ := hraise (rejection a code)
      refine ⟨u, b1, b2, b3, b4, b5, .inl ⟨_, b6, by simp [hm], ?_⟩⟩
      unfold rejection; split <;> simp [OpError.code]
    · obtain ⟨e, q, ht⟩ := hu.trace
      subst h2
      exact ⟨u, hu.cfg, hu.caller, hu.request, ⟨e, q, ht⟩, hu.results.1, .inl ⟨_, rfl, by simp, by decide⟩⟩

end Sys2Proof.Machine
end

