-- ==== Sys2Proof/Laws/ParRequests.lean ====
section
/-! SUPPORT. The procedures of the PAR unit from released control lines, with samples given from outside. -/

namespace Sys2Proof.Machine

/-- A byte write whose sample number `bad.length + 1` is the first that matches (R194, R195). -/
theorem writeByte_match {a : Nat} {v : Byte} {bad rest : List Byte} {s : State} (hc : s.cfg.wf)
    (hr : s.world.par.Released) (ha : a < s.cfg.parCapacity)
    (hb : bad.length < s.cfg.parRetryBudget) (hv : v ∉ bad) (hs : s.world.samples = bad ++ [v] ++ rest) :
    ∃ par k, writeByte a v s = (none, { s with
      parDir := .input
      attempts := bad.length + 1, resAttempts := BitVec.ofNat 32 (bad.length + 1)
      world := { s.world.log (driveByteEvents s.cfg a v ++ verifyEvents (bad ++ [v])) with
        par := par, free := k, samples := rest
        see := { s.world.see with cycleLeft := s.world.see.cycleLeft - (s.cfg.tWritePulse + bad.length * s.cfg.tRetry) }
        nor := { s.world.nor with powerUpLeft := s.world.nor.powerUpLeft -
            (s.cfg.tWritePulse + bad.length * s.cfg.tRetry) } } }) ∧
      par.Released ∧ par.DataIn ∧ lineAddress s.cfg par.level = a ∧
      ByteWritten s.cfg s.world.par par a v ∧ Touched s.cfg s.world.par par a 1 := by
  obtain ⟨par, k, h1, h2, h3, h4, h5, h6⟩ := driveByte_eq v hc hr ha
  obtain ⟨u, hu⟩ : ∃ u : State, u = { dataInput (pulse (driveData v (dataOutput (setAddress a s)))) with attempts :=
      0 } := ⟨_, rfl⟩
  rw [h1] at hu
  obtain ⟨par2, k2, g1, g2⟩ := verifyLoop_match bad (left := s.cfg.parRetryBudget) (s := u) (v := v) (rest := rest)
      (by rw [hu]; exact hc) (by rw [hu]; exact h2) hv hb (by rw [hu]; exact hs)
  have e : writeByte a v s = verifyLoop v s.cfg.parRetryBudget u := by
    unfold writeByte; rw [h1, hu]
  refine ⟨par2, k2, ?_, ?_⟩
  · rw [e, g1, hu]
    simp [World.log, Nat.sub_sub]
  · have hp : u.world.par = par := by rw [hu]
    rw [hp, hu] at g2
    obtain ⟨q1, q2⟩ := g2.1.readSafe h3 h2
    refine ⟨q2, q1, ?_, h6.written g2.2 ha⟩
    rw [g2.1.1]; exact h4

/-- A byte write whose samples never match (R194, R195). -/
theorem writeByte_fail {a : Nat} {v last : Byte} {bad rest : List Byte} {s : State} (hc : s.cfg.wf)
    (hr : s.world.par.Released) (ha : a < s.cfg.parCapacity)
    (hb : bad.length + 1 = s.cfg.parRetryBudget) (hv : v ∉ bad ++ [last]) (hs : s.world.samples = bad ++ [last] ++ rest) :
    ∃ par k, writeByte a v s = (some last, { s with
      parDir := .input
      attempts := s.cfg.parRetryBudget, resAttempts := BitVec.ofNat 32 s.cfg.parRetryBudget
      world := { s.world.log (driveByteEvents s.cfg a v ++ verifyEvents (bad ++ [last])) with
        par := par, free := k, samples := rest
        see := { s.world.see with cycleLeft := s.world.see.cycleLeft - (s.cfg.tWritePulse + bad.length * s.cfg.tRetry) }
        nor := { s.world.nor with powerUpLeft := s.world.nor.powerUpLeft -
            (s.cfg.tWritePulse + bad.length * s.cfg.tRetry) } } }) ∧
      par.Released ∧ par.DataIn ∧ ByteWritten s.cfg s.world.par par a v ∧ Touched s.cfg s.world.par par a 1 := by
  obtain ⟨par, k, h1, h2, h3, h4, h5, h6⟩ := driveByte_eq v hc hr ha
  obtain ⟨u, hu⟩ : ∃ u : State, u = { dataInput (pulse (driveData v (dataOutput (setAddress a s)))) with attempts :=
      0 } := ⟨_, rfl⟩
  rw [h1] at hu
  obtain ⟨par2, k2, g1, g2⟩ := verifyLoop_fail bad (s := u) (v := v) (last := last) (rest := rest)
      (by rw [hu]; exact hc) (by rw [hu]; exact h2) hv (by rw [hu]; exact hs)
  have e : writeByte a v s = verifyLoop v (bad.length + 1) u := by
    unfold writeByte; rw [h1, hu, hb]
  refine ⟨par2, k2, ?_, ?_⟩
  · rw [e, g1, hu]
    simp [World.log, Nat.sub_sub, hb]
  · have hp : u.world.par = par := by rw [hu]
    rw [hp, hu] at g2
    obtain ⟨q1, q2⟩ := g2.1.readSafe h3 h2
    exact ⟨q2, q1, h6.written g2.2 ha⟩

/-- A progress event, if one is due (R247). -/
theorem progress_eq (label : ProgressLabel) (i a : Nat) (s : State) :
    s.progress label i a = { s with world := s.world.log (progressEvents s.cfg label i a) } := by
  unfold State.progress progressEvents
  split
  · rfl
  · simp [World.log]

/-- The loop of `PAR_BULK_READ` (R197). -/
theorem bulkReadLoop_eq (start n : Nat) : ∀ (i : Nat) (s : State), s.cfg.wf → s.world.par.Released → s.world.par.DataIn →
    start + i + n ≤ s.cfg.parCapacity →
    ∃ values par, values.length = n ∧ bulkReadLoop start n i s = { s with
      dout := s.dout ++ values
      world := { s.world.log (bulkReadEvents s.cfg start i values) with
        par := par, free := s.world.free + n, samples := s.world.samples.drop n } } ∧ par.Released ∧ par.DataIn ∧
      (∀ vs rest, vs.length = n → s.world.samples = vs ++ rest → values = vs) ∧
      (s.world.samples = [] → s.world.par.cycle = none →
        values = (List.range n).map (fun j => s.world.par.mem.read (start + i + j))) ∧
      (s.world.par.cycle = none → par.mem = s.world.par.mem) := by
  induction n with
  | zero =>
    intro i s hc hr hd hcap
    exact ⟨[], s.world.par, rfl, by simp [bulkReadLoop, World.log, bulkReadEvents], hr, hd, fun vs rest h _ =>
        (List.length_eq_zero_iff.mp h).symm, by simp, fun _ => rfl⟩
  | succ n ih =>
    intro i s hc hr hd hcap
    obtain ⟨t1, t2, t3, t4⟩ := ParDevice.tick_lines s.cfg s.world.par
    obtain ⟨v, hv⟩ : ∃ v, v = sampled s.cfg (addressLevel s.cfg (start + i) s.world.par.level) s.world := ⟨_, rfl⟩
    obtain ⟨u, hu⟩ : ∃ u : State, u = readByte (start + i) (s.progress .read i (start + i)) := ⟨_, rfl⟩
    have hu2 : u = { s with
      dout := s.dout ++ [v]
      world := { s.world.log (progressEvents s.cfg .read i (start + i) ++ addressEvents s.cfg (start + i) ++
          sampleEvents v) with
        par := { s.world.par.tick s.cfg with
          level := addressLevel s.cfg (start + i) s.world.par.level
          drive := v }
        samples := s.world.samples.drop 1
        free := s.world.free + 1 } } := by
      rw [hu, progress_eq, readByte_eq (by exact hc) (by exact hr)]
      have : sampled s.cfg (addressLevel s.cfg (start + i) s.world.par.level) (s.world.log
          (progressEvents s.cfg .read i (start + i))) = v := by rw [hv]; rfl
      simp only [World.log, List.append_assoc]
      rw [← this]; rfl
    have hur : u.world.par.Released := by rw [hu2]; exact addressLevel_released hc _ hr
    have hud : u.world.par.DataIn := by rw [hu2]; unfold ParDevice.DataIn; dsimp only; rw [t2, t3]; exact hd
    obtain ⟨values, par, h1, h2, h3, h4, h5, h6, h7⟩ := ih (i + 1) u (by rw [hu2]; exact hc) hur hud
        (by rw [hu2]; show _ ≤ s.cfg.parCapacity; omega)
    refine ⟨v :: values, par, by simp [h1], ?_, h3, h4, ?_, ?_, ?_⟩
    · have : bulkReadLoop start (n + 1) i s = bulkReadLoop start n (i + 1) u := by rw [hu]; rfl
      rw [this, h2, hu2]
      simp [World.log, bulkReadEvents, Nat.add_comm]
      omega
    · intro vs rest hl hs
      obtain ⟨b, vs', rfl⟩ : ∃ b vs', vs = b :: vs' := by cases vs with
        | nil => cases hl
        | cons b vs' => exact ⟨b, vs', rfl⟩
      have e1 : v = b := by rw [hv]; exact sampled_cons (by simpa using hs)
      rw [e1, h5 vs' rest (by simpa using hl) (by rw [hu2]; simp [hs])]
    · intro h0 hcyc
      have htick : s.world.par.tick s.cfg = s.world.par := by unfold ParDevice.tick; rw [hcyc]
      rw [h6 (by rw [hu2]; simp [h0]) (by rw [hu2]; simp [htick, hcyc])]
      rw [List.range_succ_eq_map, List.map_cons, List.map_map]
      congr 1
      · rw [hv]; simp [sampled, h0, htick, hcyc, dataLinesIn, hd.1, addressLevel_address hc
          (show start + i < s.cfg.parCapacity by omega)]
      · apply List.map_congr_left
        intro j _
        rw [hu2, htick]
        simp only [Function.comp, Nat.succ_eq_add_one]
        congr 1; omega
    · intro hcyc
      have htick : s.world.par.tick s.cfg = s.world.par := by unfold ParDevice.tick; rw [hcyc]
      rw [h7 (by rw [hu2]; simp [htick, hcyc]), hu2]; simp [htick]

/-- Samples that end with the byte have not failed. -/
theorem runFailed_match {v : Byte} {bad : List Byte} : runFailed (v, bad ++ [v]) = false := by simp [runFailed]

/-- Samples without the byte have failed. -/
theorem runFailed_fail {v : Byte} {l : List Byte} (h : v ∉ l) : runFailed (v, l) = true := by simp [runFailed, h]

/-- A byte that fails has taken the whole budget of samples (R195). -/
theorem ByteRun.budget {n : Nat} {r : Byte × List Byte} (h : ByteRun n r) (hf : runFailed r = true) : r.2.length = n := by
  rcases h with ⟨bad, h1, -, -⟩ | ⟨h1, -⟩
  · simp [runFailed, h1] at hf
  · exact h1

/-- A byte write that takes the samples of its run (R195). -/
theorem writeByte_samples {a : Nat} {r : Byte × List Byte} {rest : List Byte} {s : State} (hc : s.cfg.wf)
    (hr : s.world.par.Released) (ha : a < s.cfg.parCapacity)
    (hrun : ByteRun s.cfg.parRetryBudget r) (hs : s.world.samples = r.2 ++ rest) :
    ∃ t, writeByte a r.1 s = (if runFailed r then some (runObserved r) else none, t) ∧ ParStep s t ∧ t.world.trace =
        s.world.trace ++ (driveByteEvents s.cfg a r.1 ++ verifyEvents r.2) ∧
      t.world.samples = rest ∧ t.world.par.Released ∧ t.world.par.DataIn ∧ t.parDir = .input ∧ t.dout = s.dout ∧
          t.failCount = s.failCount ∧
      t.resAddr = s.resAddr ∧ t.resExpected = s.resExpected ∧ t.resObserved = s.resObserved ∧
      t.resAttempts = BitVec.ofNat 32 r.2.length ∧ t.norPhase = s.norPhase ∧
      Touched s.cfg s.world.par t.world.par a 1 := by
  obtain ⟨v, l⟩ := r
  have hst := writeByte_step a v s
  rcases hrun with ⟨bad, h1, h2, h3⟩ | ⟨h1, h2⟩
  · dsimp only at h1 h3 hs
    subst h1
    obtain ⟨par, k, g1, g2, g3, g4, -, g5⟩ := writeByte_match (v := v) (bad := bad) (rest := rest) hc hr ha h2 h3 hs
    rw [g1] at hst
    refine ⟨_, ?_, hst, rfl, rfl, g2, g3, rfl, rfl, rfl, rfl, rfl, rfl, by simp, rfl, g5⟩
    rw [runFailed_match]; exact g1
  · dsimp only at h1 h2 hs
    have hne : l ≠ [] := by rintro rfl; have := hc.2.2.2.2.2.2.2.1; simp at h1; omega
    obtain ⟨bad, last, rfl⟩ : ∃ bad last, l = bad ++ [last] := ⟨l.dropLast, l.getLast hne,
        (List.dropLast_append_getLast hne).symm⟩
    obtain ⟨par, k, g1, g2, g3, -, g5⟩ := writeByte_fail (v := v) (bad := bad) (rest := rest) hc hr ha (by simpa using h1) h2 hs
    rw [g1] at hst
    refine ⟨_, ?_, hst, rfl, rfl, g2, g3, rfl, rfl, rfl, rfl, rfl, rfl, by rw [h1], rfl, g5⟩
    rw [runFailed_fail h2, if_pos rfl]
    have : runObserved (v, bad ++ [last]) = last := by simp [runObserved]
    rw [this]; exact g1

/-- The loop of `PAR_BULK_WRITE` that never aborts (R198); `k` bytes have failed before. -/
theorem bulkWriteLoop_runs (start : Nat) (rest : List Byte) : ∀ (runs : List (Byte × List Byte)) (i k : Nat)
    (s : State), s.cfg.wf → s.world.par.Released → s.world.par.DataIn → s.parDir = .input →
    start + i + runs.length ≤ s.cfg.parCapacity → (∀ r ∈ runs, ByteRun s.cfg.parRetryBudget r) →
    (s.cfg.failPolicy = .collect ∨ ∀ r ∈ runs, runFailed r = false) → s.failCount = BitVec.ofNat 32 k →
        k + runs.length < 2 ^ 32 →
    s.world.samples = runs.flatMap (·.2) ++ rest →
    ∃ u, bulkWriteLoop start (runs.map (·.1)) i s = bulkWriteLoop start [] (i + runs.length) u ∧ ParStep s u ∧
        u.world.trace = s.world.trace ++ bulkWriteEvents s.cfg true start i runs ∧
      u.world.samples = rest ∧ u.world.par.Released ∧ u.world.par.DataIn ∧ u.parDir = .input ∧ u.dout = s.dout ∧
          u.failCount = BitVec.ofNat 32 (k + (runs.filter runFailed).length) ∧
      ((k ≠ 0 ∨ runs.find? runFailed = none) → u.resAddr = s.resAddr ∧ u.resExpected = s.resExpected ∧
          u.resObserved = s.resObserved) ∧
      (k = 0 → ∀ j (h : j < runs.length), runFailed runs[j] = true → (∀ l (h : l < j), runFailed runs[l] = false) →
        u.resAddr = addrOf (start + i + j) ∧ u.resExpected = runs[j].1 ∧ u.resObserved = runObserved runs[j]) ∧
      u.resAttempts = (if h : runs = [] then s.resAttempts else BitVec.ofNat 32 (runs.getLast h).2.length) ∧
      Touched s.cfg s.world.par u.world.par (start + i) runs.length := by
  intro runs
  induction runs with
  | nil =>
    intro i k s hc hr hd hdir hcap hrun hpol hk hlt hs
    exact ⟨s, rfl, ParStep.refl s, by simp [bulkWriteEvents], by simpa using hs, hr, hd, hdir, rfl,
        by simpa using hk, fun _ => ⟨rfl, rfl, rfl⟩, fun _ j h => absurd h (by simp), by simp, Touched.refl _ _ _⟩
  | cons r runs ih =>
    intro i k s hc hr hd hdir hcap hrun hpol hk hlt hs
    simp only [List.length_cons] at hcap hlt
    obtain ⟨p, hp⟩ : ∃ p : State, p = s.progress .write i (start + i) := ⟨_, rfl⟩
    have hp2 : p = { s with world := s.world.log (progressEvents s.cfg .write i (start + i)) } := by rw [hp, progress_eq]
    have hpst : ParStep s p := by rw [hp]; exact State.progress_step _ _ _ _
    obtain ⟨t, h1, h2, h3, h4, h5, h6, h7, h8, h9, h10, h11, h12, h14, h13, h15⟩ := writeByte_samples (s := p) (a :=
        start + i) (r := r) (rest := runs.flatMap (·.2) ++ rest) (by rw [hp2]; exact hc) (by rw [hp2]; exact hr)
            (by rw [hp2]; show _ < s.cfg.parCapacity; omega)
      (by rw [hp2]; exact hrun r (by simp)) (by rw [hp2]; simpa using hs)
    have hpc : p.cfg = s.cfg := by rw [hp2]
    have htc : t.cfg = s.cfg := h2.cfg.trans hpc
    have hpf : p.failCount = s.failCount ∧ p.resAddr = s.resAddr ∧ p.resExpected = s.resExpected ∧ p.resObserved =
        s.resObserved ∧ p.dout = s.dout := by rw [hp2]; exact ⟨rfl, rfl, rfl, rfl, rfl⟩
    have hptr : p.world.trace = s.world.trace ++ progressEvents s.cfg .write i (start + i) := by rw [hp2]; rfl
    cases hf : runFailed r with
    | false =>
      rw [hf] at h1
      obtain ⟨u, g1, g2, g3, g4, g5, g6, g7, g8, g9, g10, g11, g12, g13⟩ := ih (i + 1) k t (htc ▸ hc) h5 h6 h7
          (by rw [htc]; omega) (fun x hx => by rw [htc]; exact hrun x (by simp [hx]))
        (by rw [htc]; exact hpol.imp id (fun h x hx => h x (by simp [hx]))) (by rw [h9, hpf.1, hk]) (by omega) h4
      refine ⟨u, ?_, (hpst.trans h2).trans g2, ?_, g4, g5, g6, g7, by rw [g8, h8, hpf.2.2.2.2],
          by rw [g9]; simp [hf], ?_, ?_, ?_, ?_⟩
      · have : bulkWriteLoop start ((r :: runs).map (·.1)) i s = bulkWriteLoop start (runs.map (·.1)) (i + 1) t := by
          simp only [List.map_cons]
          conv_lhs => unfold bulkWriteLoop
          simp only [← hp, h1, if_false, Bool.false_eq_true]
        rw [this, g1]; congr 1; simp; omega
      · rw [g3, h3, hptr, htc, hpc]
        simp [bulkWriteEvents, hf]
      · intro h
        have := g10 (h.imp id (fun h => by simpa [hf] using h))
        rw [this.1, this.2.1, this.2.2, h10, h11, h12]; exact ⟨hpf.2.1, hpf.2.2.1, hpf.2.2.2.1⟩
      · intro h0 j hj hfj hall
        cases j with
        | zero => simp [hf] at hfj
        | succ j =>
          have := g11 h0 j (by simpa using hj) (by simpa using hfj) (fun l hl => by simpa using hall (l + 1) (by omega))
          rw [show start + (i + 1) + j = start + i + (j + 1) by omega] at this
          simpa using this
      · by_cases hr0 : runs = []
        · subst hr0; simpa [g12] using h14
        · simp [g12, hr0, List.getLast_cons]
      · have ht : Touched s.cfg s.world.par t.world.par (start + i) 1 := by
          rw [hp2] at h15; exact h15
        rw [List.length_cons, Nat.add_comm runs.length 1]
        rw [htc] at g13
        exact ht.append g13
    | true =>
      rw [hf, if_pos rfl] at h1
      have hcol : s.cfg.failPolicy = .collect := hpol.resolve_right (fun h => by simp [h r (by simp)] at hf)
      obtain ⟨q, hq⟩ : ∃ q : State, q = (recordFailure (start + i) r.1 (runObserved r) t).emit (.fail (addrOf
          (start + i)) r.1 (runObserved r)) := ⟨_, rfl⟩
      have hqst : ParStep t q := by rw [hq]; exact (recordFailure_step _ _ _ _).trans (State.emit_parStep
          (by simp [quiet]) _)
      have hqf : q.failCount = BitVec.ofNat 32 (k + 1) := by
        rw [hq]; unfold recordFailure; dsimp only
        have : t.failCount + 1 = BitVec.ofNat 32 (k + 1) := by rw [h9, hpf.1, hk, BitVec.ofNat_add]; rfl
        split <;> exact this
      have hone : t.failCount + 1 = 1 ↔ k = 0 := by
        rw [h9, hpf.1, hk]
        constructor
        · intro h
          have := congrArg BitVec.toNat h
          simp at this
          omega
        · rintro rfl; rfl
      have hqw : q.world = { t.world with trace := t.world.trace ++ [.fail (addrOf (start + i)) r.1
          (runObserved r)] } := by
        rw [hq]; unfold recordFailure; dsimp only; split <;> rfl
      have hqd : q.parDir = t.parDir ∧ q.dout = t.dout := by
        rw [hq]; unfold recordFailure; dsimp only; split <;> exact ⟨rfl, rfl⟩
      have hqa : q.resAttempts = t.resAttempts := by
        rw [hq]; unfold recordFailure; dsimp only; split <;> rfl
      have hqc : q.cfg = s.cfg := hqst.cfg.trans htc
      obtain ⟨u, g1, g2, g3, g4, g5, g6, g7, g8, g9, g10, g11, g12, g13⟩ := ih (i + 1) (k + 1) q (hqc ▸ hc)
          (by rw [hqw]; exact h5) (by rw [hqw]; exact h6) (by rw [hqd.1]; exact h7) (by rw [hqc]; omega)
              (fun x hx => by rw [hqc]; exact hrun x (by simp [hx]))
        (.inl (by rw [hqc]; exact hcol)) hqf (by omega) (by rw [hqw]; exact h4)
      refine ⟨u, ?_, ((hpst.trans h2).trans hqst).trans g2, ?_, g4, g5, g6, g7, by rw [g8, hqd.2, h8, hpf.2.2.2.2],
          by rw [g9]; simp [hf]; congr 1; omega, ?_, ?_, ?_, ?_⟩
      · have : bulkWriteLoop start ((r :: runs).map (·.1)) i s = bulkWriteLoop start (runs.map (·.1)) (i + 1) q := by
          simp only [List.map_cons]
          conv_lhs => unfold bulkWriteLoop
          simp only [← hp, h1, hcol, ← hq]
        rw [this, g1]; congr 1; simp; omega
      · rw [g3, hqw, hqc]
        simp only [h3, hptr, hpc]
        simp [bulkWriteEvents, hf]
      · intro h
        have hk0 : k ≠ 0 := h.resolve_right (by simp [hf])
        have := g10 (.inl (by omega))
        have hn1 : ¬ t.failCount + 1 = 1 := fun h => hk0 (hone.mp h)
        rw [this.1, this.2.1, this.2.2, hq]
        unfold recordFailure; dsimp only
        simp only [hn1, if_false]
        exact ⟨h10.trans hpf.2.1, h11.trans hpf.2.2.1, h12.trans hpf.2.2.2.1⟩
      · intro h0 j hj hfj hall
        have hj0 : j = 0 := by
          by_contra hne
          have := hall 0 (by omega); simp [hf] at this
        subst hj0
        have := g10 (.inl (by omega))
        rw [this.1, this.2.1, this.2.2, hq]
        have h1' := hone.mpr h0
        unfold recordFailure; dsimp only
        simp only [h1', if_true]
        exact ⟨rfl, rfl, rfl⟩
      · by_cases hr0 : runs = []
        · subst hr0; simpa [g12, hqa] using h14
        · simp [g12, hr0, List.getLast_cons]
      · have ht : Touched s.cfg s.world.par q.world.par (start + i) 1 := by
          rw [hp2] at h15; rw [hqw]; exact h15
        rw [List.length_cons, Nat.add_comm runs.length 1]
        rw [hqc] at g13
        exact ht.append g13

/-- The loop of `PAR_BULK_WRITE` under `ABORT` up to its first failure (R198). -/
theorem bulkWriteLoop_abort (start : Nat) (f : Byte × List Byte) (later rest : List Byte) : ∀ (good : List
    (Byte × List Byte)) (i : Nat) (s : State), s.cfg.wf → s.world.par.Released → s.world.par.DataIn → s.parDir = .input →
    start + i + good.length + 1 ≤ s.cfg.parCapacity → s.cfg.failPolicy = .abort → (∀ r ∈ good ++ [f],
        ByteRun s.cfg.parRetryBudget r) →
    (∀ r ∈ good, runFailed r = false) → runFailed f = true → s.failCount = 0 → s.norPhase = .idle →
    s.world.samples = (good ++ [f]).flatMap (·.2) ++ rest →
    ∃ u, bulkWriteLoop start (good.map (·.1) ++ f.1 :: later) i s = State.raise (.verifyFailure (addrOf
        (start + i + good.length)) f.1 (runObserved f)) u ∧
      u.failCount = 1 ∧ u.dout = s.dout ∧ u.resAttempts = BitVec.ofNat 32 s.cfg.parRetryBudget ∧ u.world.samples =
          rest ∧ u.world.par.Released ∧ u.world.par.DataIn ∧ u.parDir = .input ∧
      u.world.trace = s.world.trace ++ bulkWriteEvents s.cfg false start i (good ++ [f]) ∧
      Touched s.cfg s.world.par u.world.par (start + i) (good.length + 1) := by
  intro good
  induction good with
  | nil =>
    intro i s hc hr hd hdir hcap hpol hrun hg hf hfc hph hs
    obtain ⟨p, hp⟩ : ∃ p : State, p = s.progress .write i (start + i) := ⟨_, rfl⟩
    have hp2 : p = { s with world := s.world.log (progressEvents s.cfg .write i (start + i)) } := by rw [hp, progress_eq]
    obtain ⟨t, h1, h2, h3, h4, h5, h6, h7, h8, h9, h10, h11, h12, h14, h13, h15⟩ := writeByte_samples (s := p) (a :=
        start + i) (r := f) (rest := rest) (by rw [hp2]; exact hc) (by rw [hp2]; exact hr)
            (by rw [hp2]; show _ < s.cfg.parCapacity; simp at hcap; omega)
      (by rw [hp2]; exact hrun f (by simp)) (by rw [hp2]; simpa using hs)
    rw [hf, if_pos rfl] at h1
    refine ⟨recordFailure (start + i) f.1 (runObserved f) t, ?_, ?_, ?_, ?_, ?_, ?_, ?_, ?_, ?_, ?_⟩
    · simp only [List.map_nil, List.nil_append]
      conv_lhs => unfold bulkWriteLoop
      simp only [← hp, h1, hpol, List.length_nil, Nat.add_zero]
    · have : t.failCount + 1 = 1 := by rw [h9, hp2]; show s.failCount + 1 = 1; rw [hfc]; rfl
      unfold recordFailure; dsimp only; split <;> exact this
    · have : t.dout = s.dout := by rw [h8, hp2]
      unfold recordFailure; dsimp only; split <;> exact this
    · have : t.resAttempts = BitVec.ofNat 32 s.cfg.parRetryBudget := by
        rw [h14, show f.2.length = s.cfg.parRetryBudget from ByteRun.budget (hrun f (by simp)) hf]
      unfold recordFailure; dsimp only; split <;> exact this
    · unfold recordFailure; dsimp only; split <;> exact h4
    · unfold recordFailure; dsimp only; split <;> exact h5
    · unfold recordFailure; dsimp only; split <;> exact h6
    · unfold recordFailure; dsimp only; split <;> exact h7
    · have : t.world.trace = s.world.trace ++ bulkWriteEvents s.cfg false start i ([] ++ [f]) := by
        rw [h3, hp2]; simp [World.log, bulkWriteEvents]
      unfold recordFailure; dsimp only; split <;> exact this
    · have : Touched s.cfg s.world.par t.world.par (start + i) 1 := by rw [hp2] at h15; exact h15
      unfold recordFailure; dsimp only; split <;> exact this
  | cons r good ih =>
    intro i s hc hr hd hdir hcap hpol hrun hg hf hfc hph hs
    simp only [List.length_cons] at hcap
    obtain ⟨p, hp⟩ : ∃ p : State, p = s.progress .write i (start + i) := ⟨_, rfl⟩
    have hp2 : p = { s with world := s.world.log (progressEvents s.cfg .write i (start + i)) } := by rw [hp, progress_eq]
    obtain ⟨t, h1, h2, h3, h4, h5, h6, h7, h8, h9, h10, h11, h12, h14, h13, h15⟩ := writeByte_samples (s := p) (a :=
        start + i) (r := r) (rest := (good ++ [f]).flatMap (·.2) ++ rest) (by rw [hp2]; exact hc)
            (by rw [hp2]; exact hr) (by rw [hp2]; show _ < s.cfg.parCapacity; omega)
      (by rw [hp2]; exact hrun r (by simp)) (by rw [hp2]; simpa using hs)
    have hpc : p.cfg = s.cfg := by rw [hp2]
    have htc : t.cfg = s.cfg := h2.cfg.trans hpc
    rw [hg r (by simp)] at h1
    obtain ⟨u, g1, g2, g3, g4, g5, g6, g7, g8, g9, g10⟩ := ih (i + 1) t (htc ▸ hc) h5 h6 h7 (by rw [htc]; omega)
        (by rw [htc]; exact hpol) (fun x hx => by rw [htc]; exact hrun x (by simp at hx ⊢; tauto)) (fun x hx => hg x
            (by simp [hx])) hf (by rw [h9, hp2]; exact hfc) (by rw [h13, hp2]; exact hph) h4
    refine ⟨u, ?_, g2, by rw [g3, h8, hp2], by rw [g4, htc], g5, g6, g7, g8, ?_, ?_⟩
    · have : bulkWriteLoop start ((r :: good).map (·.1) ++ f.1 :: later) i s = bulkWriteLoop start (good.map (·.1) ++
        f.1 :: later) (i + 1) t := by
        simp only [List.map_cons, List.cons_append]
        conv_lhs => unfold bulkWriteLoop
        simp only [← hp, h1, if_false, Bool.false_eq_true]
      rw [this, g1]
      rw [show start + (i + 1) + good.length = start + i + (r :: good).length by simp; omega]
    · rw [g9, h3, htc, hpc, hp2]
      simp [World.log, bulkWriteEvents]
    · have ht : Touched s.cfg s.world.par t.world.par (start + i) 1 := by rw [hp2] at h15; exact h15
      rw [List.length_cons, Nat.add_comm (good.length + 1) 1]
      rw [htc] at g10
      exact ht.append g10

end Sys2Proof.Machine
end

