-- ==== Sys2Proof/Laws/ParSafety.lean ====
section
/-! SUPPORT. What the PAR procedures do to the lines, whatever the samples: the levels they leave, and that they stay out of
contention while output-enable is high or the data lines are no outputs (R97, R199). -/

namespace Sys2Proof.Machine

theorem State.lineSet_level (id1 : Nat) (b : Bool) (s : State) :
    (s.lineSet id1 b).world.par.level = setLineBit s.world.par.level id1 b := by
  obtain ⟨par, k, samples, e, h, -⟩ := State.lineSet_any id1 b s
  rw [e]; exact h

theorem State.lineSet_inputs (id1 : Nat) (b : Bool) (s : State) :
    (s.lineSet id1 b).world.par.inputs = s.world.par.inputs := by
  obtain ⟨par, k, samples, e, -, h, -⟩ := State.lineSet_any id1 b s
  rw [e]; exact h

theorem State.lineSet_outputs (id1 : Nat) (b : Bool) (s : State) :
    (s.lineSet id1 b).world.par.outputs = s.world.par.outputs := by
  obtain ⟨par, k, samples, e, -, -, h⟩ := State.lineSet_any id1 b s
  rw [e]; exact h


theorem State.lineSet_trace (id1 : Nat) (b : Bool) (s : State) :
    (s.lineSet id1 b).world.trace = s.world.trace ++ [.lineSet id1 b] := by
  obtain ⟨par, k, samples, e, -⟩ := State.lineSet_any id1 b s
  rw [e]; rfl

/-- A run of line events that stays out of contention as far as it goes: what comes after decides (R97). -/
structure LineRun (s t : State) : Prop where
  cfg : t.cfg = s.cfg
  events : ∃ events, t.world.trace = s.world.trace ++ events ∧ ∀ rest,
    neverContends s.world.par.level s.world.par.outputs (events ++ rest) =
      neverContends t.world.par.level t.world.par.outputs rest

theorem LineRun.refl (s : State) : LineRun s s := ⟨rfl, [], by simp, by simp⟩

theorem LineRun.trans {s t u : State} (h : LineRun s t) (h2 : LineRun t u) : LineRun s u := by
  obtain ⟨e1, t1, n1⟩ := h.events
  obtain ⟨e2, t2, n2⟩ := h2.events
  exact ⟨h2.cfg.trans h.cfg, e1 ++ e2, by rw [t2, t1, List.append_assoc], fun rest => by
    rw [List.append_assoc, n1, n2]⟩

/-- An update that touches neither the trace nor the lines. -/
theorem LineRun.same {s t u : State} (h : LineRun s t) (hc : u.cfg = t.cfg) (ht : u.world.trace = t.world.trace)
    (hl : u.world.par.level = t.world.par.level) (ho : u.world.par.outputs = t.world.par.outputs) : LineRun s u := by
  obtain ⟨e1, t1, n1⟩ := h.events
  exact ⟨hc.trans h.cfg, e1, by rw [ht, t1], fun rest => by rw [n1, hl, ho]⟩

theorem State.lineSet_run {id1 : Nat} {b : Bool} {s : State}
    (h : contention (setLineBit s.world.par.level id1 b) s.world.par.outputs = false) : LineRun s (s.lineSet id1 b) :=
  ⟨rfl, _, State.lineSet_trace id1 b s, fun rest => by
    rw [State.lineSet_level, State.lineSet_outputs]; simp [neverContends, h]⟩

theorem State.lineDir_run {id1 : Nat} {dir : LineDirection} {s : State}
    (h : contention s.world.par.level (setLineBit s.world.par.outputs id1 (dir == .output)) = false) :
    LineRun s (s.lineDir id1 dir) :=
  ⟨rfl, [.lineDir id1 dir], rfl, fun rest => by simp [neverContends, h, State.lineDir, World.lineDir]⟩

/-- No data line is an output, or output-enable is high. -/
abbrev ParDevice.Quiet (p : ParDevice) : Prop := p.outputs.extractLsb' 16 8 = 0#8 ∨ p.level.getLsbD lineOE = true

theorem contention_of_quiet {level outputs : BitVec 27} (h : outputs.extractLsb' 16 8 = 0#8 ∨ level.getLsbD lineOE = true) :
    contention level outputs = false := by
  rcases h with h | h <;> simp [contention, h]

/-- A line other than output-enable, or output-enable raised. -/
theorem State.lineSet_quiet_run {id1 : Nat} {b : Bool} {s : State} (hi : id1 < 27) (hq : s.world.par.Quiet)
    (h : id1 ≠ lineOE ∨ b = true) : LineRun s (s.lineSet id1 b) ∧ (s.lineSet id1 b).world.par.Quiet := by
  have h2 : s.world.par.outputs.extractLsb' 16 8 = 0#8 ∨ (setLineBit s.world.par.level id1 b).getLsbD lineOE = true := by
    rcases hq with hq | hq
    · exact .inl hq
    · right
      rw [setLineBit_getLsbD _ _ hi]
      split
      · rename_i e; rcases h with h | h
        · exact absurd e.symm h
        · exact h
      · exact hq
  exact ⟨State.lineSet_run (contention_of_quiet h2), by
    unfold ParDevice.Quiet; rw [State.lineSet_level, State.lineSet_outputs]; exact h2⟩

/-- Any line while no data line is an output. -/
theorem State.lineSet_input_run (id1 : Nat) (b : Bool) {s : State} (h : s.world.par.outputs.extractLsb' 16 8 = 0#8) :
    LineRun s (s.lineSet id1 b) := State.lineSet_run (contention_of_quiet (.inl h))

/-- Lines of a block below the control lines (R191). -/
theorem setLines_run (base : Nat) (bit : Nat → Bool) (n : Nat) : ∀ (first : Nat) (s : State), base + first + n ≤ 24 →
    (setLines base bit n first s).world.par.level = setLevels base bit n first s.world.par.level ∧
    (setLines base bit n first s).world.par.inputs = s.world.par.inputs ∧
    (setLines base bit n first s).world.par.outputs = s.world.par.outputs ∧
    (setLines base bit n first s).parDir = s.parDir ∧ (setLines base bit n first s).attempts = s.attempts ∧
    (s.world.par.Quiet → LineRun s (setLines base bit n first s)) := by
  induction n with
  | zero => intro first s _; exact ⟨rfl, rfl, rfl, rfl, rfl, fun _ => LineRun.refl s⟩
  | succ n ih =>
    intro first s h
    have hne : base + first ≠ lineOE := by unfold lineOE; omega
    unfold setLines
    obtain ⟨h1, h2, h3, h4, h5, h6⟩ := ih (first + 1) (s.lineSet (base + first) (bit first)) (by omega)
    refine ⟨?_, ?_, ?_, ?_, ?_, fun hq => ?_⟩
    · rw [h1, State.lineSet_level]; rfl
    · rw [h2, State.lineSet_inputs]
    · rw [h3, State.lineSet_outputs]
    · rw [h4, State.lineSet_parDir]
    · rw [h5, State.lineSet_attempts]
    · obtain ⟨r, q⟩ := State.lineSet_quiet_run (s := s) (b := bit first) (by omega : base + first < 27) hq (.inl hne)
      exact r.trans (h6 q)

/-- Directions while output-enable is high (R111). -/
theorem setDirections_run (base : Nat) (dir : LineDirection) (n : Nat) : ∀ (first : Nat) (s : State),
    s.world.par.level.getLsbD lineOE = true → LineRun s (setDirections base dir n first s) := by
  induction n with
  | zero => intro first s _; exact LineRun.refl s
  | succ n ih =>
    intro first s h
    exact (State.lineDir_run (contention_of_quiet (.inr h))).trans (ih (first + 1) _ h)

theorem setDirections_same (base : Nat) (dir : LineDirection) (n first : Nat) (s : State) :
    (setDirections base dir n first s).world.par.level = s.world.par.level ∧
    (setDirections base dir n first s).attempts = s.attempts := by
  rw [setDirections_eq]; exact ⟨rfl, rfl⟩

/-- The eight data lines switched (R111). -/
theorem setDirections_data (dir : LineDirection) (s : State) :
    (setDirections 16 dir 8 0 s).world.par.inputs.extractLsb' 16 8 = (if dir = .input then 0xFF#8 else 0#8) ∧
    (setDirections 16 dir 8 0 s).world.par.outputs.extractLsb' 16 8 = (if dir = .input then 0#8 else 0xFF#8) := by
  rw [setDirections_eq]
  constructor <;>
  · rw [extract_eq]
    intro i hi
    rw [setLevels_getLsbD _ _ _ _ _ _ (by omega), if_pos (by omega)]
    have : i = 0 ∨ i = 1 ∨ i = 2 ∨ i = 3 ∨ i = 4 ∨ i = 5 ∨ i = 6 ∨ i = 7 := by omega
    cases dir <;> rcases this with rfl | rfl | rfl | rfl | rfl | rfl | rfl | rfl <;> rfl

theorem dataInput_lines (s : State) : (dataInput s).world.par.level = s.world.par.level ∧
    (dataInput s).world.par.DataIn ∧ (dataInput s).parDir = .input ∧ (dataInput s).attempts = s.attempts ∧
    (s.world.par.level.getLsbD lineOE = true → LineRun s (dataInput s)) :=
  ⟨(setDirections_same _ _ _ _ s).1, ⟨(setDirections_data .input s).1, (setDirections_data .input s).2⟩, rfl,
    (setDirections_same _ _ _ _ s).2, fun h => (setDirections_run 16 .input 8 0 s h).same rfl rfl rfl rfl⟩

theorem dataOutput_lines (s : State) : (dataOutput s).world.par.level = s.world.par.level ∧
    (dataOutput s).attempts = s.attempts ∧
    (s.world.par.level.getLsbD lineOE = true → LineRun s (dataOutput s)) :=
  ⟨(setDirections_same _ _ _ _ s).1, (setDirections_same _ _ _ _ s).2,
    fun h => (setDirections_run 16 .output 8 0 s h).same rfl rfl rfl rfl⟩

theorem State.lineGet_run (i : Nat) (s : State) : LineRun s (s.lineGet i).2 :=
  ⟨rfl, [.lineGet (lineD i) (s.world.par.drive.getLsbD i)], rfl, fun rest => by simp [neverContends, State.lineGet, World.lineGet]⟩

theorem sampleLines_run (n : Nat) : ∀ (first : Nat) (s : State), LineRun s (sampleLines n first s).2 ∧
    (sampleLines n first s).2.world.par = s.world.par ∧ (sampleLines n first s).2.parDir = s.parDir ∧
    (sampleLines n first s).2.attempts = s.attempts := by
  induction n with
  | zero => intro first s; exact ⟨LineRun.refl s, rfl, rfl, rfl⟩
  | succ n ih =>
    intro first s
    obtain ⟨h1, h2, h3, h4⟩ := ih (first + 1) (s.lineGet first).2
    exact ⟨(State.lineGet_run first s).trans h1, h2, h3, h4⟩

/-- A read cycle leaves chip-enable and output-enable high and no other line changed (R192); it stays out of contention while
no data line is an output (R199). -/
theorem readCycle_run (s : State) :
    (readCycle s).2.world.par.inputs = s.world.par.inputs ∧ (readCycle s).2.world.par.outputs = s.world.par.outputs ∧
    (readCycle s).2.parDir = s.parDir ∧ (readCycle s).2.attempts = s.attempts ∧
    (readCycle s).2.world.par.level.getLsbD lineCE = true ∧ (readCycle s).2.world.par.level.getLsbD lineOE = true ∧
    (readCycle s).2.world.par.level.getLsbD lineWE = s.world.par.level.getLsbD lineWE ∧
    (s.world.par.outputs.extractLsb' 16 8 = 0#8 → LineRun s (readCycle s).2) := by
  have hce : lineCE < 27 := by decide
  have hoe : lineOE < 27 := by decide
  have d1 : ¬ lineCE = lineOE := by decide
  have d2 : ¬ lineWE = lineOE := by decide
  have d3 : ¬ lineWE = lineCE := by decide
  have d4 : ¬ lineOE = lineCE := by decide
  unfold readCycle
  dsimp only
  obtain ⟨s1, s2, s3, s4⟩ := sampleLines_run 8 0 ((s.lineSet lineCE false).lineSet lineOE false)
  simp only [State.lineSet_inputs, State.lineSet_outputs, State.lineSet_parDir, State.lineSet_attempts, State.lineSet_level,
    setLineBit_getLsbD _ _ hce, setLineBit_getLsbD _ _ hoe, s2, s3, s4, d1, d2, d3, d4, if_true, if_false, true_and]
  intro h
  refine (((State.lineSet_input_run lineCE false h).trans (State.lineSet_input_run lineOE false ?_)).trans s1).trans
    ((State.lineSet_input_run lineOE true ?_).trans (State.lineSet_input_run lineCE true ?_)) <;>
    simp only [State.lineSet_outputs, s2, h]

theorem State.delay_run (t : DelayName) (s : State) : LineRun s (s.delay t) :=
  ⟨rfl, [.delay t], rfl, fun rest => by simp [neverContends, State.delay, World.delay]⟩

/-- A write pulse leaves chip-enable and write-enable high and no other line changed (R194). -/
theorem pulse_run (s : State) :
    (pulse s).world.par.inputs = s.world.par.inputs ∧ (pulse s).world.par.outputs = s.world.par.outputs ∧
    (pulse s).parDir = s.parDir ∧ (pulse s).attempts = s.attempts ∧
    (pulse s).world.par.level.getLsbD lineCE = true ∧ (pulse s).world.par.level.getLsbD lineWE = true ∧
    (pulse s).world.par.level.getLsbD lineOE = s.world.par.level.getLsbD lineOE ∧
    (s.world.par.level.getLsbD lineOE = true → LineRun s (pulse s)) := by
  have hce : lineCE < 27 := by decide
  have hwe : lineWE < 27 := by decide
  have d1 : ¬ lineWE = lineCE := by decide
  have d2 : ¬ lineOE = lineCE := by decide
  have d3 : ¬ lineOE = lineWE := by decide
  have n1 : lineCE ≠ lineOE := by decide
  have n2 : lineWE ≠ lineOE := by decide
  unfold pulse
  have e1 : ∀ s : State, (s.delay .writePulse).world.par = s.world.par := fun _ => rfl
  have e2 : ∀ s : State, (s.delay .writePulse).parDir = s.parDir := fun _ => rfl
  have e3 : ∀ s : State, (s.delay .writePulse).attempts = s.attempts := fun _ => rfl
  simp only [State.lineSet_inputs, State.lineSet_outputs, State.lineSet_parDir, State.lineSet_attempts, State.lineSet_level,
    setLineBit_getLsbD _ _ hce, setLineBit_getLsbD _ _ hwe, e1, e2, e3, d1, d2, d3, if_true, if_false, true_and]
  intro h
  obtain ⟨r1, q1⟩ := State.lineSet_quiet_run (b := false) hce (.inr h) (.inl n1)
  obtain ⟨r2, q2⟩ := State.lineSet_quiet_run (b := false) hwe q1 (.inl n2)
  obtain ⟨r3, q3⟩ := State.lineSet_quiet_run (s := (((s.lineSet lineCE false).lineSet lineWE false).delay .writePulse)) (b := true) hwe q2 (.inr rfl)
  obtain ⟨r4, q4⟩ := State.lineSet_quiet_run (b := true) hce q3 (.inr rfl)
  exact (((r1.trans r2).trans (State.delay_run _ _)).trans r3).trans r4

/-- The verify loop keeps the data lines as they are, leaves chip-enable and output-enable high if it takes a sample, and takes
no more samples than it may (R33, R195, R199). -/
theorem verifyLoop_run (v : Byte) (left : Nat) : ∀ s : State,
    (verifyLoop v left s).2.world.par.inputs = s.world.par.inputs ∧
    (verifyLoop v left s).2.world.par.outputs = s.world.par.outputs ∧ (verifyLoop v left s).2.parDir = s.parDir ∧
    (verifyLoop v left s).2.attempts ≤ s.attempts + left ∧
    (0 < left → (verifyLoop v left s).2.world.par.level.getLsbD lineCE = true ∧
      (verifyLoop v left s).2.world.par.level.getLsbD lineOE = true) ∧
    (verifyLoop v left s).2.world.par.level.getLsbD lineWE = s.world.par.level.getLsbD lineWE ∧
    (s.world.par.outputs.extractLsb' 16 8 = 0#8 → LineRun s (verifyLoop v left s).2) := by
  induction left with
  | zero => intro s; exact ⟨rfl, rfl, rfl, Nat.le_refl _, by simp, rfl, fun _ => LineRun.refl s⟩
  | succ n ih =>
    intro s
    obtain ⟨r1, r2, r3, r4, r5, r6, r7, r8⟩ := readCycle_run { s with attempts := s.attempts + 1 }
    have r9 : s.world.par.outputs.extractLsb' 16 8 = 0#8 → LineRun s (readCycle { s with attempts := s.attempts + 1 }).2 :=
      fun h => ((LineRun.refl s).same (u := { s with attempts := s.attempts + 1 }) rfl rfl rfl rfl).trans (r8 h)
    unfold verifyLoop
    dsimp only
    split
    · exact ⟨r1, r2, r3, by simp only [r4]; omega, fun _ => ⟨r5, r6⟩, r7, fun h => (r9 h).same rfl rfl rfl rfl⟩
    · split
      · exact ⟨r1, r2, r3, by simp only [r4]; omega, fun _ => ⟨r5, r6⟩, r7, fun h => (r9 h).same rfl rfl rfl rfl⟩
      · rename_i hn
        obtain ⟨i1, i2, i3, i4, i5, i6, i7⟩ := ih ((readCycle { s with attempts := s.attempts + 1 }).2.delay .retry)
        refine ⟨i1.trans r1, i2.trans r2, i3.trans r3, ?_, fun _ => i5 (by omega), i6.trans r7, fun h => ?_⟩
        · have : ((readCycle { s with attempts := s.attempts + 1 }).2.delay .retry).attempts = s.attempts + 1 := r4
          omega
        · exact ((r9 h).trans (State.delay_run _ _)).trans (i7 (by
            show (readCycle { s with attempts := s.attempts + 1 }).2.world.par.outputs.extractLsb' 16 8 = 0#8
            rw [r2]; exact h))

theorem Config.wf_budget {c : Config} (h : c.wf) : 0 < c.parRetryBudget := h.2.2.2.2.2.2.2.1

/-- `SetAddress` moves address lines only (R191). -/
theorem setAddress_run (a : Nat) {s : State} (hc : s.cfg.wf) :
    (∀ j, 24 ≤ j → (setAddress a s).world.par.level.getLsbD j = s.world.par.level.getLsbD j) ∧
    (setAddress a s).world.par.inputs = s.world.par.inputs ∧ (setAddress a s).world.par.outputs = s.world.par.outputs ∧
    (setAddress a s).parDir = s.parDir ∧ (setAddress a s).attempts = s.attempts ∧
    (s.world.par.Quiet → LineRun s (setAddress a s)) := by
  have hb := Config.wf_parAddrBits hc
  obtain ⟨a1, a2, a3, a4, a5, a6⟩ := setLines_run 0 (fun i => a.testBit i) s.cfg.parAddrBits 0 s (by omega)
  refine ⟨fun j hj => ?_, a2, a3, a4, a5, a6⟩
  unfold setAddress
  rw [a1, setLevels_other (by omega) (by omega)]

/-- Driving a byte moves data lines only (R111). -/
theorem driveData_run (v : Byte) (s : State) :
    (∀ j, 24 ≤ j → (driveData v s).world.par.level.getLsbD j = s.world.par.level.getLsbD j) ∧
    (s.world.par.Quiet → LineRun s (driveData v s)) := by
  obtain ⟨a1, -, -, -, -, a6⟩ := setLines_run 16 (fun i => v.getLsbD i) 8 0 s (by omega)
  refine ⟨fun j hj => ?_, a6⟩
  unfold driveData
  rw [a1, setLevels_other (by omega) (by omega)]

/-- A byte write from any lines ends read-safe, within the budget; it stays out of contention if output-enable was high
(R33, R194, R199). -/
theorem writeByte_run (a : Nat) (v : Byte) {s : State} (hc : s.cfg.wf) :
    (writeByte a v s).2.ReadSafe ∧ (writeByte a v s).2.attempts ≤ s.cfg.parRetryBudget ∧
    (s.world.par.level.getLsbD lineOE = true → LineRun s (writeByte a v s).2) := by
  have l1 : 24 ≤ lineOE := by decide
  unfold writeByte
  obtain ⟨a1, -, -, -, -, a2⟩ := setAddress_run a hc
  generalize setAddress a s = s1 at *
  obtain ⟨b1, -, b3⟩ := dataOutput_lines s1
  generalize dataOutput s1 = s2 at *
  obtain ⟨c1, c2⟩ := driveData_run v s2
  generalize driveData v s2 = s3 at *
  obtain ⟨-, -, -, -, -, d6, d7, d8⟩ := pulse_run s3
  generalize pulse s3 = s4 at *
  obtain ⟨e1, e2, e3, -, e5⟩ := dataInput_lines s4
  generalize dataInput s4 = s5 at *
  have e6 : LineRun s5 { s5 with attempts := 0 } := (LineRun.refl s5).same rfl rfl rfl rfl
  obtain ⟨f1, f2, f3, f4, f5, f6, f7⟩ := verifyLoop_run v s.cfg.parRetryBudget { s5 with attempts := 0 }
  obtain ⟨f8, f9⟩ := f5 (Config.wf_budget hc)
  refine ⟨⟨f3.trans e3, ⟨by rw [f1]; exact e2.1, by rw [f2]; exact e2.2⟩, f8, f9, ?_⟩, by simpa using f4, fun h => ?_⟩
  · rw [f6]; show s5.world.par.level.getLsbD lineWE = true
    rw [e1]; exact d6
  · have h1 := (a1 _ l1).trans h
    have h2 : s2.world.par.level.getLsbD lineOE = true := by rw [b1]; exact h1
    have h3 := (c1 _ l1).trans h2
    exact ((((((a2 (.inr h)).trans (b3 h1)).trans (c2 (.inr h2))).trans (d8 h3)).trans (e5 (d7.trans h3))).trans e6).trans
      (f7 e2.2)

/-- A byte read keeps the direction of the lines; it ends with the control lines released if they were (R196, R199). -/
theorem readByte_run (a : Nat) {s : State} (hc : s.cfg.wf) :
    (readByte a s).parDir = s.parDir ∧ (readByte a s).attempts = s.attempts ∧
    (s.ReadSafe → (readByte a s).ReadSafe ∧ LineRun s (readByte a s)) := by
  have l1 : 24 ≤ lineWE := by decide
  unfold readByte
  obtain ⟨a1, a2, a3, a4, a5, a6⟩ := setAddress_run a hc
  generalize setAddress a s = s1 at *
  obtain ⟨b1, b2, b3, b4, b5, b6, b7, b8⟩ := readCycle_run s1
  generalize readCycle s1 = r at *
  refine ⟨b3.trans a4, b4.trans a5, fun ⟨h1, ⟨h2, h3⟩, h4, h5, h6⟩ => ?_⟩
  have ho : s1.world.par.outputs.extractLsb' 16 8 = 0#8 := by rw [a3]; exact h3
  exact ⟨⟨(b3.trans a4).trans h1, ⟨by rw [b1, a2]; exact h2, by rw [b2]; exact ho⟩, b5, b6,
    b7.trans ((a1 _ l1).trans h6)⟩, ((a6 (.inl h3)).trans (b8 ho)).same rfl rfl rfl rfl⟩

/-- An update that touches neither the lines, the trace, the direction nor the configuration. -/
theorem State.ReadSafe.same {s t : State} (h : s.ReadSafe) (hd : t.parDir = s.parDir) (hp : t.world.par = s.world.par) :
    t.ReadSafe := by
  unfold State.ReadSafe
  rw [hd, hp]; exact h

/-- An event that moves no line. -/
theorem State.emit_run {e : Event} (he : ∀ l o rest, neverContends l o (e :: rest) = neverContends l o rest) (s : State) :
    LineRun s (s.emit e) := ⟨rfl, [e], rfl, fun rest => by simpa using he _ _ rest⟩

theorem State.complete_run (code : BitVec 8) (s : State) : LineRun s (s.complete code) :=
  ⟨rfl, [.done code], rfl, fun rest => by simp [neverContends, State.complete, World.emit]⟩

theorem State.raise_run (e : OpError) (s : State) : LineRun s (s.raise e) := by
  have h : LineRun s ((s.recordContext e).setPhase .idle) := by
    cases e <;> exact (LineRun.refl s).same rfl rfl rfl rfl
  exact h.trans (State.complete_run _ _)

theorem State.raise_lines (e : OpError) (s : State) : (s.raise e).parDir = s.parDir ∧ (s.raise e).world.par = s.world.par ∧
    (s.raise e).attempts = s.attempts ∧ (s.raise e).cfg = s.cfg := by
  cases e <;> exact ⟨rfl, rfl, rfl, rfl⟩

theorem State.progress_run (label : ProgressLabel) (i a : Nat) (s : State) : LineRun s (s.progress label i a) := by
  unfold State.progress
  split
  · exact State.emit_run (fun _ _ _ => rfl) s
  · exact LineRun.refl s

theorem State.progress_same (label : ProgressLabel) (i a : Nat) (s : State) : (s.progress label i a).parDir = s.parDir ∧
    (s.progress label i a).world.par = s.world.par ∧ (s.progress label i a).attempts = s.attempts ∧
    (s.progress label i a).cfg = s.cfg := by
  unfold State.progress
  split <;> exact ⟨rfl, rfl, rfl, rfl⟩

/-- What every PAR operation does to the lines: the direction stays unknown or becomes input with read-safe lines; from
read-safe lines it stays out of contention and ends read-safe; `ATTEMPTS` stays within the budget (R33, R199). -/
structure LineEnds (s t : State) : Prop where
  cfg : t.cfg = s.cfg
  attempts : s.attempts ≤ s.cfg.parRetryBudget → t.attempts ≤ s.cfg.parRetryBudget
  unknown : s.parDir = .unknown → t.parDir = .unknown ∨ t.ReadSafe
  safe : s.ReadSafe → t.ReadSafe ∧ LineRun s t

theorem LineEnds.trans {s t u : State} (h : LineEnds s t) (h2 : LineEnds t u) : LineEnds s u where
  cfg := h2.cfg.trans h.cfg
  attempts := fun ha => by
    have := h2.attempts (by rw [h.cfg]; exact h.attempts ha)
    rw [h.cfg] at this; exact this
  unknown := fun hs => by
    rcases h.unknown hs with h3 | h3
    · exact h2.unknown h3
    · exact .inr (h2.safe h3).1
  safe := fun hs => ⟨(h2.safe (h.safe hs).1).1, (h.safe hs).2.trans (h2.safe (h.safe hs).1).2⟩

/-- A step that does nothing to the lines. -/
theorem LineEnds.same {s t : State} (hr : LineRun s t) (hd : t.parDir = s.parDir) (hp : t.world.par = s.world.par)
    (ha : t.attempts = s.attempts) : LineEnds s t :=
  ⟨hr.cfg, fun h => by rw [ha]; exact h, fun h => .inl (hd.trans h), fun h => ⟨h.same hd hp, hr⟩⟩

theorem writeByte_lineEnds (a : Nat) (v : Byte) {s : State} (hc : s.cfg.wf) : LineEnds s (writeByte a v s).2 := by
  obtain ⟨h1, h2, h3⟩ := writeByte_run a v hc
  exact ⟨(writeByte_step a v s).cfg, fun _ => h2, fun _ => .inr h1, fun hs => ⟨h1, h3 hs.2.2.2.1⟩⟩

theorem readByte_lineEnds (a : Nat) {s : State} (hc : s.cfg.wf) : LineEnds s (readByte a s) := by
  obtain ⟨h1, h2, h3⟩ := readByte_run a hc
  exact ⟨(readByte_step a s).cfg, fun h => by rw [h2]; exact h, fun h => .inl (h1.trans h), h3⟩

theorem State.progress_lineEnds (label : ProgressLabel) (i a : Nat) (s : State) : LineEnds s (s.progress label i a) :=
  .same (State.progress_run _ _ _ s) (State.progress_same _ _ _ s).1 (State.progress_same _ _ _ s).2.1
    (State.progress_same _ _ _ s).2.2.1

theorem State.raise_lineEnds (e : OpError) (s : State) : LineEnds s (s.raise e) :=
  .same (State.raise_run e s) (State.raise_lines e s).1 (State.raise_lines e s).2.1 (State.raise_lines e s).2.2.1

theorem State.returnOk_lineEnds (s : State) : LineEnds s s.returnOk := .same (State.complete_run _ s) rfl rfl rfl

theorem recordFailure_lineEnds (a : Nat) (x o : Byte) (s : State) : LineEnds s (recordFailure a x o s) := by
  unfold recordFailure
  dsimp only
  split <;> exact .same ((LineRun.refl s).same rfl rfl rfl rfl) rfl rfl rfl

theorem bulkReadLoop_lineEnds (start n : Nat) : ∀ (i : Nat) (s : State), s.cfg.wf → LineEnds s (bulkReadLoop start n i s) := by
  induction n with
  | zero => exact fun _ s _ => .same (LineRun.refl s) rfl rfl rfl
  | succ n ih =>
    intro i s hc
    have a1 := State.progress_lineEnds .read i (start + i) s
    have a2 := readByte_lineEnds (start + i) (s := s.progress .read i (start + i)) (by rw [a1.cfg]; exact hc)
    exact (a1.trans a2).trans (ih _ _ (by rw [(a1.trans a2).cfg]; exact hc))

theorem bulkWriteLoop_lineEnds (start : Nat) (data : List Byte) : ∀ (i : Nat) (s : State), s.cfg.wf →
    LineEnds s (bulkWriteLoop start data i s) := by
  induction data with
  | nil =>
    intro i s _
    unfold bulkWriteLoop
    split
    · exact State.raise_lineEnds _ s
    · exact State.returnOk_lineEnds s
  | cons v rest ih =>
    intro i s hc
    have a1 := State.progress_lineEnds .write i (start + i) s
    have a2 := a1.trans (writeByte_lineEnds (start + i) v (by rw [a1.cfg]; exact hc))
    unfold bulkWriteLoop
    dsimp only
    split
    · exact a2.trans (ih _ _ (by rw [a2.cfg]; exact hc))
    · rename_i observed _
      have a3 := a2.trans (recordFailure_lineEnds (start + i) v observed _)
      split
      · exact a3.trans (State.raise_lineEnds _ _)
      · have a4 : LineEnds _ (State.emit (.fail (addrOf (start + i)) v observed) _) :=
          .same (State.emit_run (fun _ _ _ => rfl) (recordFailure (start + i) v observed
            (writeByte (start + i) v (s.progress .write i (start + i))).2)) rfl rfl rfl
        exact (a3.trans a4).trans (ih _ _ (by rw [(a3.trans a4).cfg]; exact hc))

/-- `LineDir` events while output-enable is high (R193). -/
theorem setDirections_lines (base : Nat) (dir : LineDirection) (n : Nat) (s : State) (h : base + n ≤ 16) :
    (setDirections base dir n 0 s).parDir = s.parDir ∧
    (s.world.par.DataIn → (setDirections base dir n 0 s).world.par.DataIn) := by
  rw [setDirections_eq]
  refine ⟨rfl, fun ⟨h1, h2⟩ => ?_⟩
  unfold ParDevice.DataIn
  dsimp only
  rw [extract_eq] at h1 h2
  constructor
  · rw [extract_eq]; intro i hi
    rw [setLevels_other (by omega) (by omega)]; exact h1 i hi
  · rw [extract_eq]; intro i hi
    rw [setLevels_other (by omega) (by omega)]; exact h2 i hi

theorem State.lineDir_control {id1 : Nat} (hi : 24 ≤ id1 ∧ id1 < 27) (s : State) :
    s.world.par.DataIn → (s.lineDir id1 .output).world.par.DataIn := by
  rintro ⟨h1, h2⟩
  rw [extract_eq] at h1 h2
  constructor
  · rw [extract_eq]; intro i hj
    show (setLineBit s.world.par.inputs id1 _).getLsbD _ = _
    rw [setLineBit_getLsbD _ _ hi.2, if_neg (by omega)]; exact h1 i hj
  · rw [extract_eq]; intro i hj
    show (setLineBit s.world.par.outputs id1 _).getLsbD _ = _
    rw [setLineBit_getLsbD _ _ hi.2, if_neg (by omega)]; exact h2 i hj

theorem State.lineDir_high {id1 : Nat} {dir : LineDirection} {s : State} (h : s.world.par.level.getLsbD lineOE = true) :
    LineRun s (s.lineDir id1 dir) ∧ (s.lineDir id1 dir).world.par.level.getLsbD lineOE = true :=
  ⟨State.lineDir_run (contention_of_quiet (.inr h)), h⟩

/-- The control lines released, then made outputs (R193). -/
def releaseControls (s : State) : State :=
  ((((((s.lineSet lineCE true).lineSet lineOE true).lineSet lineWE true).lineDir lineCE .output).lineDir lineOE
    .output).lineDir lineWE .output)

theorem releaseControls_run (s : State) : (releaseControls s).world.par.Released ∧ (releaseControls s).parDir = s.parDir ∧
    (releaseControls s).attempts = s.attempts ∧ (s.world.par.DataIn → (releaseControls s).world.par.DataIn) ∧
    (s.world.par.DataIn → LineRun s (releaseControls s)) := by
  have hce : lineCE < 27 := by decide
  have hoe : lineOE < 27 := by decide
  have hwe : lineWE < 27 := by decide
  have d1 : ¬ lineCE = lineOE := by decide
  have d2 : ¬ lineCE = lineWE := by decide
  have d3 : ¬ lineOE = lineWE := by decide
  have e : ∀ (i : Nat) (d : LineDirection) (s : State), (s.lineDir i d).world.par.level = s.world.par.level := fun _ _ _ => rfl
  have hd : s.world.par.DataIn →
      (((s.lineSet lineCE true).lineSet lineOE true).lineSet lineWE true).world.par.DataIn := by
    rintro ⟨h1, h2⟩
    exact ⟨by rw [State.lineSet_inputs, State.lineSet_inputs, State.lineSet_inputs]; exact h1,
      by rw [State.lineSet_outputs, State.lineSet_outputs, State.lineSet_outputs]; exact h2⟩
  have hoe2 : (((s.lineSet lineCE true).lineSet lineOE true).lineSet lineWE true).world.par.level.getLsbD lineOE = true := by
    simp only [State.lineSet_level, setLineBit_getLsbD _ _ hce, setLineBit_getLsbD _ _ hoe, setLineBit_getLsbD _ _ hwe, d3, if_true,
      if_false]
  refine ⟨?_, by simp only [releaseControls, State.lineDir_parDir, State.lineSet_parDir],
    by simp only [releaseControls, State.lineDir_attempts, State.lineSet_attempts], fun h => ?_, fun h => ?_⟩
  · unfold releaseControls ParDevice.Released
    simp only [e, State.lineSet_level, setLineBit_getLsbD _ _ hce, setLineBit_getLsbD _ _ hoe, setLineBit_getLsbD _ _ hwe, d1, d2,
      d3, if_true, if_false, and_self]
  · have h1 := State.lineDir_control (id1 := lineCE) (by decide) _ (hd h)
    have h2 := State.lineDir_control (id1 := lineOE) (by decide) _ h1
    exact State.lineDir_control (id1 := lineWE) (by decide) _ h2
  · have r1 := State.lineSet_input_run lineCE true h.2
    have r2 := State.lineSet_input_run lineOE true (s := s.lineSet lineCE true) (by rw [State.lineSet_outputs]; exact h.2)
    have r3 := State.lineSet_input_run lineWE true (s := (s.lineSet lineCE true).lineSet lineOE true)
      (by rw [State.lineSet_outputs, State.lineSet_outputs]; exact h.2)
    have r := (r1.trans r2).trans r3
    unfold releaseControls
    generalize ((s.lineSet lineCE true).lineSet lineOE true).lineSet lineWE true = s1 at *
    obtain ⟨r4, h4⟩ := State.lineDir_high (id1 := lineCE) (dir := .output) hoe2
    generalize s1.lineDir lineCE .output = s2 at *
    obtain ⟨r5, h5⟩ := State.lineDir_high (id1 := lineOE) (dir := .output) h4
    generalize s2.lineDir lineOE .output = s3 at *
    exact ((r.trans r4).trans r5).trans (State.lineDir_high h5).1

/-- `PAR_INIT` from any lines ends read-safe; from read-safe lines it stays out of contention (R193, R199). -/
theorem parInit_run {s : State} (hc : s.cfg.wf) :
    LineEnds s (setDirections 0 .output s.cfg.parAddrBits 0
      (setLines 0 (fun _ => false) s.cfg.parAddrBits 0 (releaseControls (dataInput s)))).returnOk := by
  have hb := Config.wf_parAddrBits hc
  have l : 11 ≤ lineCE ∧ 11 ≤ lineOE ∧ 11 ≤ lineWE := by decide
  obtain ⟨-, a2, a3, a4, a5⟩ := dataInput_lines s
  have hcfg : (releaseControls (dataInput s)).cfg = s.cfg := by
    simp only [releaseControls, State.lineDir_cfg, State.lineSet_cfg]; exact (dataInput_step s).cfg
  generalize dataInput s = s1 at *
  obtain ⟨b1, b2, b3, b4, b5⟩ := releaseControls_run s1
  generalize releaseControls s1 = s2 at *
  obtain ⟨c1, c2, c3, c4, c5, c6⟩ := setLines_run 0 (fun _ => false) s.cfg.parAddrBits 0 s2 (by omega)
  have hcfg3 := (setLines_step 0 (fun _ => false) s.cfg.parAddrBits 0 s2).cfg
  generalize setLines 0 (fun _ => false) s.cfg.parAddrBits 0 s2 = s3 at *
  obtain ⟨d1, d2⟩ := setDirections_same 0 .output s.cfg.parAddrBits 0 s3
  obtain ⟨d3, d4⟩ := setDirections_lines 0 .output s.cfg.parAddrBits s3 (by omega)
  have d5 := setDirections_run 0 .output s.cfg.parAddrBits 0 s3
  have hcfg4 := (setDirections_step 0 .output s.cfg.parAddrBits 0 s3).cfg
  generalize setDirections 0 .output s.cfg.parAddrBits 0 s3 = s4 at *
  have hD : s3.world.par.DataIn := by
    unfold ParDevice.DataIn; rw [c2, c3]; exact b4 a2
  have hR : s3.world.par.Released := by
    unfold ParDevice.Released
    rw [c1, setLevels_other (by omega) (by omega), setLevels_other (by omega) (by omega), setLevels_other (by omega) (by omega)]
    exact b1
  have hS : s4.returnOk.ReadSafe := by
    refine ⟨d3.trans (c4.trans (b2.trans a3)), d4 hD, ?_⟩
    show s4.world.par.Released
    unfold ParDevice.Released
    rw [d1]; exact hR
  refine ⟨hcfg4.trans (hcfg3.trans hcfg), fun h => ?_, fun _ => .inr hS, fun h => ⟨hS, ?_⟩⟩
  · show s4.attempts ≤ _
    rw [d2, c5, b3, a4]; exact h
  · have r1 := (a5 h.2.2.2.1).trans (b5 a2)
    have r2 := r1.trans (c6 (.inr b1.2.1))
    exact (r2.trans (d5 hR.2.1)).trans (State.complete_run 0x00 s4)

/-- What a PAR request does to the lines (R199). -/
theorem exec_par_lines {i : Instr} {s t : State} (hc : s.cfg.wf) (hi : parRequest i = true) (h : exec i s = .next t) :
    LineEnds s t := by
  have hs0 : LineEnds s s.beginOperation := .same ((LineRun.refl s).same rfl rfl rfl rfl) rfl rfl rfl
  refine hs0.trans ?_
  have hc0 : s.beginOperation.cfg.wf := hc
  cases i <;> simp only [parRequest, Bool.false_eq_true] at hi <;>
    simp only [exec, execParInit, execParWriteByte, execParReadByte, execParBulkRead, execParBulkWrite] at h <;>
    obtain ⟨-, rfl⟩ := State.request_next h <;> generalize s.beginOperation = s0 at *
  case parInit => exact parInit_run hc0
  case parWriteByte addr arg =>
    split
    · exact State.raise_lineEnds _ s0
    · have a := writeByte_lineEnds addr.toNat (byteValue arg) hc0
      split
      · exact a.trans (State.returnOk_lineEnds _)
      · refine (a.trans ?_).trans (State.raise_lineEnds _ _)
        exact .same ((LineRun.refl _).same rfl rfl rfl rfl) rfl rfl rfl
  case parReadByte addr =>
    split
    · exact State.raise_lineEnds _ s0
    · exact (readByte_lineEnds addr.toNat hc0).trans (State.returnOk_lineEnds _)
  case parBulkRead addr arg =>
    split
    · exact State.raise_lineEnds _ s0
    · split
      · exact State.raise_lineEnds _ s0
      · exact (bulkReadLoop_lineEnds _ _ _ _ hc0).trans (State.returnOk_lineEnds _)
  case parBulkWrite addr arg data =>
    split
    · exact State.raise_lineEnds _ s0
    · split
      · exact State.raise_lineEnds _ s0
      · split
        · exact State.raise_lineEnds _ s0
        · exact bulkWriteLoop_lineEnds _ _ _ _ hc0

end Sys2Proof.Machine
end

