-- ==== Sys2Proof/Laws/SeeRequests.lean ====
section
/-! SUPPORT. The procedures of the SEE unit at the reference device outside its write cycle. -/

namespace Sys2Proof.Machine

/-- A write frame with data and its settle delay (R210, R211). -/
theorem State.writeFrame_data {a : Nat} {data : List Byte} {s : State} (h0 : s.world.see.cycleLeft = 0)
    (ha : a < s.cfg.seeCapacity) (hd : data ≠ []) :
   s.writeFrame a data = .ok { s with world := { s.world.log [.i2cW s.cfg.seeDevAddr (frameAddress a ++ data),
       .delay .settle] with
          see := { s.world.see with
            mem := seeStore s.cfg a data 0 s.world.see.mem, pointer := a, cycleLeft :=
                s.cfg.seeWriteCycle - s.cfg.tSettle }
          nor := { s.world.nor with powerUpLeft := s.world.nor.powerUpLeft - s.cfg.tSettle } } } := by
  simp [State.writeFrame, State.i2cWrite_eq, h0, hd, State.delay, World.delay, duration, SeeDevice.writeFrame,
      Nat.mod_eq_of_lt ha, World.log]

/-- An address-only frame (R210). -/
theorem State.i2cWrite_address {a : Nat} {s : State} (h0 : s.world.see.cycleLeft = 0) (ha : a < s.cfg.seeCapacity) :
   s.i2cWrite a [] = .ok { s with world := { s.world.log [.i2cW s.cfg.seeDevAddr (frameAddress a)] with
          see := { s.world.see with pointer := a } } } := by
  simp [State.i2cWrite_eq, h0, SeeDevice.writeFrame, Nat.mod_eq_of_lt ha]

/-- The bytes the device answers with (R90). -/
theorem i2cAnswer_own {c : Config} {n : Nat} {w : World} (hi : w.i2cIn = []) (hn : w.see.pointer + n ≤ c.seeCapacity) :
    w.i2cAnswer c n = (List.range n).map (fun j => w.see.mem.read (w.see.pointer + j)) ∧
        (seeReadBytes c w.see n).length = n := by
  have h : seeReadBytes c w.see n = (List.range n).map (fun j => w.see.mem.read (w.see.pointer + j)) := by
    unfold seeReadBytes; rw [Nat.min_eq_left (by omega)]
  refine ⟨?_, by simp [h]⟩
  simp [World.i2cAnswer, hi, h]

/-- A read frame's answer (R90): the device's bytes come first; those past its end are free. -/
theorem i2cAnswer_past {c : Config} {n : Nat} {w : World} (hi : w.i2cIn = []) : (w.i2cAnswer c n).length = n ∧
    ∀ j (h : j < (w.i2cAnswer c n).length), w.see.pointer + j < c.seeCapacity →
      (w.i2cAnswer c n)[j] = w.see.mem.read (w.see.pointer + j) := by
  have hl : (seeReadBytes c w.see n).length = min n (c.seeCapacity - w.see.pointer) := by simp [seeReadBytes]
  have hn : (w.i2cAnswer c n).length = n := by simp [World.i2cAnswer, hi, freeBytes, hl]
  refine ⟨hn, fun j h hb => ?_⟩
  have hj : j < (seeReadBytes c w.see n).length := by rw [hl]; omega
  simp only [World.i2cAnswer, hi, List.take_nil, List.nil_append, List.length_nil, List.drop_zero, List.getElem_take]
  rw [List.getElem_append_left hj]
  simp [seeReadBytes]

/-- A read (R210) whose bytes are the device's. -/
theorem State.readFrame_own {a n : Nat} {s : State} (h0 : s.world.see.cycleLeft = 0) (hi : s.world.i2cIn = [])
    (h1 : a < s.cfg.seeCapacity) (ha : a + n ≤ s.cfg.seeCapacity) :
   s.readFrame a n = .ok { s with dout := (List.range n).map (fun j => s.world.see.mem.read (a + j)), world :=
       { s.world.log [.i2cW s.cfg.seeDevAddr (frameAddress a), .i2cR s.cfg.seeDevAddr n ((List.range n).map
           (fun j => s.world.see.mem.read (a + j)))] with
          see := { s.world.see with pointer := a + n } } } := by
  unfold State.readFrame
  rw [State.i2cWrite_address h0 h1]
  dsimp only
  rw [World.i2cRead_eq]
  have hk := i2cAnswer_own (c := s.cfg) (n := n) (w := { s.world.log [.i2cW s.cfg.seeDevAddr (frameAddress a)] with
          see := { s.world.see with pointer := a } }) hi ha
  rw [hk.1, hk.2]
  simp [h0, World.log, hi]

/-- The bytes given from outside come before the device's own (R11, log 5). -/
theorem i2cAnswer_given {c : Config} {n : Nat} {w : World} {data rest : List Byte} (hl : data.length = n)
    (hi : w.i2cIn = data ++ rest) : w.i2cAnswer c n = data := by
  have hd : ∀ l : List Byte, (l.take n).drop w.i2cIn.length = [] := fun l =>
    List.drop_eq_nil_of_le (by rw [hi, List.length_take, List.length_append]; omega)
  rw [World.i2cAnswer, hd, hi, List.append_nil, ← hl, List.take_left]

/-- A read (R210) whose bytes are given from outside. -/
theorem State.readFrame_given {a n : Nat} {s : State} {data rest : List Byte} (h0 : s.world.see.cycleLeft = 0)
    (hl : data.length = n) (hi : s.world.i2cIn = data ++ rest) (h1 : a < s.cfg.seeCapacity)
    (ha : a + n ≤ s.cfg.seeCapacity) :
    s.readFrame a n = .ok { s with
      dout := data
      world := { s.world.log [.i2cW s.cfg.seeDevAddr (frameAddress a), .i2cR s.cfg.seeDevAddr n data] with
        see := { s.world.see with pointer := a + n }, i2cIn := rest } } := by
  have hk : n - (seeReadBytes s.cfg { s.world.see with pointer := a } n).length = 0 := by
    simp [seeReadBytes]; omega
  unfold State.readFrame
  rw [State.i2cWrite_address h0 h1]
  dsimp only
  rw [World.i2cRead_eq, if_neg (by simp [h0]), i2cAnswer_given (w := { s.world.log
    [.i2cW s.cfg.seeDevAddr (frameAddress a)] with see := { s.world.see with pointer := a } }) hl hi]
  subst hl
  simp [World.log, hi, h0] at hk ⊢
  exact hk

/-- The page loop of `SEE_BULK_ERASE` (R218) with a settle delay that covers the write cycle. -/
theorem bulkErase_spec (fill : Byte) (n : Nat) : ∀ (p : Nat) (s : State), s.cfg.wf → s.world.see.cycleLeft = 0 →
    s.world.see.mem.wf →
    s.cfg.seeWriteCycle ≤ s.cfg.tSettle → (p + n) * s.cfg.seePage ≤ s.cfg.seeCapacity →
    ∃ m, bulkEraseLoop fill n p s = .ok { s with
        world := { s.world.log ((List.range n).flatMap (fun j => erasePageEvents s.cfg fill (p + j))) with
          see := { s.world.see with mem := m, pointer := if n = 0 then s.world.see.pointer else
              (p + n - 1) * s.cfg.seePage }
          nor := { s.world.nor with powerUpLeft := s.world.nor.powerUpLeft - n * s.cfg.tSettle } } } ∧ m.wf ∧
      ∀ a, m.read a = if p * s.cfg.seePage ≤ a ∧ a < (p + n) * s.cfg.seePage then fill else s.world.see.mem.read a := by
  induction n with
  | zero =>
    intro p s hc h0 hw ht hcap
    refine ⟨s.world.see.mem, by simp [bulkEraseLoop, World.log], hw, fun a => ?_⟩
    rw [if_neg (by simp)]
  | succ n ih =>
    intro p s hc h0 hw ht hcap
    have hpos := Config.wf_seePage_pos hc
    have hpn : p + 1 + n = p + (n + 1) := by omega
    have hmul : (p + (n + 1)) * s.cfg.seePage = p * s.cfg.seePage + s.cfg.seePage + n * s.cfg.seePage := by ring
    have hlt : p * s.cfg.seePage < s.cfg.seeCapacity := by
      have : 0 ≤ n * s.cfg.seePage := Nat.zero_le _
      omega
    have hne : List.replicate s.cfg.seePage fill ≠ [] := by
      intro h; rw [List.replicate_eq_nil_iff] at h; omega
    obtain ⟨u, hu⟩ : ∃ u : State, u = if progressDue s.cfg p then s.emit (.progress .erase (addrOf
        (p * s.cfg.seePage))) else s := ⟨_, rfl⟩
    have hu2 : u = { s with world := s.world.log (progressEvents s.cfg .erase p (p * s.cfg.seePage)) } := by
      rw [hu]; unfold progressEvents; split <;> simp [State.emit, World.emit, World.log]
    have hloop : bulkEraseLoop fill (n + 1) p s = match u.writeFrame (p * s.cfg.seePage)
        (List.replicate s.cfg.seePage fill) with
      | .ok u => bulkEraseLoop fill n (p + 1) u
      | .error r => .error r := by rw [hu]; rfl
    have hcfg : u.cfg = s.cfg := by rw [hu2]
    rw [State.writeFrame_data (by rw [hu2]; exact h0) (by rw [hcfg]; exact hlt) hne] at hloop
    dsimp only at hloop
    obtain ⟨v, hv⟩ : ∃ v : State, v = { u with world := { u.world.log [.i2cW u.cfg.seeDevAddr (frameAddress
        (p * s.cfg.seePage) ++ List.replicate s.cfg.seePage fill), .delay .settle] with
          see := { u.world.see with
            mem := seeStore u.cfg (p * s.cfg.seePage) (List.replicate s.cfg.seePage fill) 0 u.world.see.mem,
                pointer := p * s.cfg.seePage, cycleLeft := u.cfg.seeWriteCycle - u.cfg.tSettle }
          nor := { u.world.nor with powerUpLeft := u.world.nor.powerUpLeft - u.cfg.tSettle } } } := ⟨_, rfl⟩
    rw [hloop]
    have hvc : v.cfg = s.cfg := by rw [hv]; exact hcfg
    have hstore := seeStore_spec s.cfg (p * s.cfg.seePage) (List.replicate s.cfg.seePage fill) 0 s.world.see.mem hw
    have hgood : (seeStore s.cfg (p * s.cfg.seePage) (List.replicate s.cfg.seePage fill) 0 s.world.see.mem).wf := by
      have : ∀ (d : List Byte) i (m : Memory), m.wf → (seeStore s.cfg (p * s.cfg.seePage) d i m).wf := by
        intro d; induction d with
        | nil => exact fun _ _ h => h
        | cons b r ih => intro i m h; exact ih _ _ (Memory.write_wf h _ _)
      exact this _ _ _ hw
    have hvm : v.world.see.mem = seeStore s.cfg (p * s.cfg.seePage)
        (List.replicate s.cfg.seePage fill) 0 s.world.see.mem := by rw [hv, hu2]; rfl
    obtain ⟨m, h1, h2, h3⟩ := ih (p + 1) v (hvc ▸ hc) (by rw [hv, hu2]; exact Nat.sub_eq_zero_of_le ht)
        (by rw [hvm]; exact hgood) (by rw [hvc]; exact ht) (by rw [hvc, hpn]; exact hcap)
    refine ⟨m, ?_, h2, ?_⟩
    · rw [← hv, h1, hv, hu2]
      have e0 : s.cfg.seeWriteCycle - s.cfg.tSettle = s.world.see.cycleLeft := by omega
      have e1 : (List.range (n + 1)).flatMap (fun j => erasePageEvents s.cfg fill (p + j)) =
          erasePageEvents s.cfg fill p ++ (List.range n).flatMap (fun j => erasePageEvents s.cfg fill (p + 1 + j)) := by
        rw [List.range_succ_eq_map, List.flatMap_cons, List.flatMap_map]
        simp only [Nat.add_zero, Nat.succ_eq_add_one]
        congr 2; funext j; congr 1; omega
      simp only [Except.ok.injEq, e1, e0]
      have e2 : (if n = 0 then p * s.cfg.seePage else (p + 1 + n - 1) * s.cfg.seePage) = (p +
          (n + 1) - 1) * s.cfg.seePage := by
        split
        · rename_i h; subst h; rfl
        · congr 1; omega
      simp only [World.log, erasePageEvents, e2]
      simp [Nat.sub_sub, Nat.add_mul, Nat.add_comm]
    · intro a
      rw [h3, hvc, hvm]
      by_cases hin : p * s.cfg.seePage ≤ a ∧ a < p * s.cfg.seePage + s.cfg.seePage
      · have hw2 : wrapInPage s.cfg.seePage (p * s.cfg.seePage) (a - p * s.cfg.seePage) = a := by
          rw [wrapInPage_eq (by rw [Nat.mul_mod_left]; omega)]; omega
        have := hstore.2 (a - p * s.cfg.seePage) (by simp; omega) (by simp)
        rw [Nat.zero_add, hw2] at this
        have hlow : ¬ ((p + 1) * s.cfg.seePage ≤ a ∧ a < (p + 1 + n) * s.cfg.seePage) := by
          rw [Nat.add_mul p 1]; omega
        rw [if_neg hlow, if_pos (by rw [hmul]; exact ⟨hin.1, by have := Nat.zero_le (n * s.cfg.seePage); omega⟩), this]
        simp
      · have := hstore.1 a (by
          intro j hj he
          simp only [List.length_replicate] at hj
          rw [Nat.zero_add, wrapInPage_eq (by rw [Nat.mul_mod_left]; omega)] at he
          omega)
        rw [this]
        have e3 : (p + 1 + n) * s.cfg.seePage = (p + (n + 1)) * s.cfg.seePage := by ring
        have e4 : (p + 1) * s.cfg.seePage = p * s.cfg.seePage + s.cfg.seePage := by ring
        rw [e3, e4]
        split <;> split <;> first | rfl | (exfalso; omega)

end Sys2Proof.Machine
end

