-- ==== Sys2Proof/Laws/Step.lean ====
section
/-! SUPPORT. What one step can be, said once: a reset, a suspended operation that goes on (or an idle block with
    nothing to do),
what comes next from the caller, run on an idle block, or a request that a reset cuts short. -/

namespace Sys2Proof.Machine

/-- The request latch and the payload buffer are all that presenting a request changes (R21, R22). -/
theorem State.present_eq (w : Wire) (s : State) : s.present w = { s with
    reqOp := (s.present w).reqOp, reqAddr := (s.present w).reqAddr, reqArg := (s.present w).reqArg
    din := (s.present w).din } := by
  cases w <;> rfl

@[simp] theorem State.present_cfg (w : Wire) (s : State) : (s.present w).cfg = s.cfg := by cases w <;> rfl
@[simp] theorem State.present_world (w : Wire) (s : State) : (s.present w).world = s.world := by cases w <;> rfl
@[simp] theorem State.present_seq (w : Wire) (s : State) : (s.present w).seq = s.seq := by cases w <;> rfl
@[simp] theorem State.present_caller (w : Wire) (s : State) : (s.present w).caller = s.caller := by cases w <;> rfl

/-- What running something from outside can be: an instruction, or an illegal request (R103). -/
theorem runWire_cases {w : Wire} {s t : State} (h : runWire w s = .next t) :
    (∃ i, decode s.cfg w = .ok i ∧ exec i (s.present w) = .next t) ∨
      (s.seq = .idle ∧ t = (s.present w).beginOperation.raise .illegalOperation) := by
  unfold runWire at h
  split at h
  · exact .inl ⟨_, ‹_›, h⟩
  · unfold rejectWire at h
    split at h
    · obtain ⟨hs, rfl⟩ := State.request_next h
      exact .inr ⟨by simpa using hs, rfl⟩
    · cases h

/-- Running something leaves the configuration and the rest of the caller's list. -/
theorem runWire_same {w : Wire} {s t : State} (h : runWire w s = .next t) : t.cfg = s.cfg ∧ t.caller = s.caller := by
  rcases runWire_cases h with ⟨i, -, h⟩ | ⟨-, rfl⟩
  · by_cases hi : isRequest i = true
    · obtain ⟨-, u, b1, b2, -⟩ := exec_request hi h
      exact ⟨by rw [b1]; simp, by rw [b2]; simp⟩
    · have hf := exec_frame (by simpa using hi) h
      rw [hf.block]
      exact ⟨by simp, by simp⟩
  · exact ⟨by simp [State.raise, State.complete, State.recordContext], by
      simp [State.raise, State.complete, State.recordContext]⟩

/-- What running a request that a reset cuts short can be: the whole operation and the reset,
    or a reset before what would
have been refused. -/
theorem runCut_cases {word : BitVec 64} {din : List Byte} {count : Nat} {s t : State}
    (h : runCut word din count s = .next t) :
    (∃ i u, runWire (.request word din) s = .next u ∧ t = State.cutShort i count s u) ∨
      ∃ i u, t = State.abandonAt i count s u := by
  unfold runCut at h
  dsimp only at h
  split at h
  · cases h
    exact .inl ⟨_, _, ‹_›, rfl⟩
  · cases h
  · split at h
    · unfold State.cutBefore at h
      split at h
      · cases h
      · cases h
        exact .inr ⟨_, _, rfl⟩
    · cases h
    · cases h

/-- What a step that answers a next state can be. -/
theorem step_cases {s t : State} (h : step s = .next t) : s.cfg.wf ∧
    ((∃ rest, s.caller = .reset :: rest ∧ t = State.takeReset { s with caller := rest }) ∨
      ((∀ rest, s.caller ≠ .reset :: rest) ∧ (s.seq ≠ .idle ∨ s.caller = []) ∧ t = resume s) ∨
      (∃ w rest, s.caller = .wire w :: rest ∧ s.seq = .idle ∧ runWire w { s with caller := rest } = .next t) ∨
      ∃ word din count rest, s.caller = .cut word din count :: rest ∧ s.seq = .idle ∧
        runCut word din count { s with caller := rest } = .next t) := by
  unfold step at h
  split at h
  · refine ⟨‹_›, ?_⟩
    split at h
    · rename_i rest hr
      cases h
      exact .inl ⟨rest, hr, rfl⟩
    · rename_i hr
      cases h
      exact .inr (.inl ⟨by simp [hr], .inr hr, rfl⟩)
    · rename_i w rest hr
      split at h
      · exact .inr (.inr (.inl ⟨w, rest, hr, ‹_›, h⟩))
      · cases h
        exact .inr (.inl ⟨by simp [hr], .inl ‹_›, rfl⟩)
    · rename_i word din count rest hr
      split at h
      · exact .inr (.inr (.inr ⟨word, din, count, rest, hr, ‹_›, h⟩))
      · cases h
        exact .inr (.inl ⟨by simp [hr], .inl ‹_›, rfl⟩)
  · cases h

/-- A request that a reset cuts short leaves every register at its reset value (R260),
    and devices in good order if the whole
operation does. -/
theorem runCut_eq {word : BitVec 64} {din : List Byte} {count : Nat} {s t : State} (h : runCut word din count s =
    .next t) :
    ∃ w : World, t = { State.reset with cfg := s.cfg, world := { w with trace := [] }, caller := s.caller } ∧
      (s.cfg.wf → WorldGood s.cfg s.world →
        (∀ u, runWire (.request word din) s = .next u → WorldGood s.cfg u.world) → WorldGood s.cfg w) := by
  rcases runCut_cases h with ⟨i, u, h2, rfl⟩ | ⟨i, u, rfl⟩
  · obtain ⟨w, e, hw⟩ := State.cutShort_eq (i := i) (count := count) (runWire_same h2).1 (runWire_same h2).2
    exact ⟨w, e, fun hc hg hu => hw hc hg (hu u h2)⟩
  · obtain ⟨w, e, hw⟩ := State.abandonAt_eq i count s u
    exact ⟨w, e, fun hc hg _ => hw hc hg⟩

/-- An idle block with nothing to run keeps its state (log 36). -/
theorem resume_idle {s : State} (hs : s.seq = .idle) : resume s = s := by
  unfold resume; rw [hs]

/-- A block that waits in a busy poll goes on polling, unless it is reset (R158, R249). -/
theorem step_resume {s : State} (hc : s.cfg.wf) (hs : s.seq ≠ .idle) (h : ∀ later, s.caller ≠ .reset :: later) :
    step s = .next (resume s) := by
  unfold step
  rw [if_pos hc]
  split
  · rename_i h2; exact absurd h2 (h _)
  · rfl
  · rw [if_neg hs]
  · rw [if_neg hs]

end Sys2Proof.Machine
end

