-- ==== Sys2Proof/Machine/Written.lean ====
section
/-! DEFINITION. The written form of a request (R116) and the pseudo-operations of the CLI collaborator (R117), which is not
part of the block (R5): what a verb expands to. Nothing in the machine reads them. -/

namespace Sys2Proof.Machine

/-- A number in hexadecimal with `0x`, in at least `width` digits (R10, R116). -/
def hexText (width n : Nat) : String :=
  "0x" ++ String.ofList
    (List.replicate (width - (Nat.toDigits 16 n).length) '0' ++ (Nat.toDigits 16 n).map Char.toUpper)

/-- A payload in square brackets (R116). -/
def payloadText (data : List Byte) : String :=
  "[" ++ ", ".intercalate (data.map (fun b => hexText 2 b.toNat)) ++ "]"

/-- The operands of a request in the order of R116: address, then length or value, then the payload. Frames have no written
form in R116; theirs is the mnemonic alone. -/
def operandText : Instr → List String
  | .norWritePage a n d => [hexText 6 a.toNat, toString n.toNat, payloadText d]
  | .norSectorErase a => [hexText 6 a.toNat]
  | .norBlockErase64k a => [hexText 6 a.toNat]
  | .norRead a n => [hexText 6 a.toNat, toString n.toNat]
  | .parWriteByte a v => [hexText 3 a.toNat, hexText 2 v.toNat]
  | .parReadByte a => [hexText 3 a.toNat]
  | .parBulkRead a n => [hexText 3 a.toNat, toString n.toNat]
  | .parBulkWrite a n d => [hexText 3 a.toNat, toString n.toNat, payloadText d]
  | .seeWriteByte a v => [hexText 4 a.toNat, hexText 2 v.toNat]
  | .seeWritePage a n d => [hexText 4 a.toNat, toString n.toNat, payloadText d]
  | .seeReadByte a => [hexText 4 a.toNat]
  | .seeReadBytes a n => [hexText 4 a.toNat, toString n.toNat]
  | .seeBulkErase v => [hexText 2 v.toNat]
  | .norInit => []
  | .norWriteEnable => []
  | .norWriteDisable => []
  | .norReadStatus1 => []
  | .norReadStatus2 => []
  | .norReadStatus3 => []
  | .norChipErase => []
  | .wpDisableProtection => []
  | .parInit => []
  | .seeInit => []
  | .cmdWren => []
  | .cmdWrdi => []
  | .cmdRdsr1 => []
  | .cmdRdsr2 => []
  | .cmdRdsr3 => []
  | .cmdWrsr1 _ => []
  | .cmdPp _ _ => []
  | .cmdSe _ => []
  | .cmdBe64 _ => []
  | .cmdCe => []
  | .cmdRdid => []
  | .cmdWake => []
  | .cmdRsten => []
  | .cmdRst => []
  | .cmdRead _ _ => []
  | .i2cAD _ _ => []
  | .i2cA _ => []
  | .i2cRN _ => []

/-- The written form of a request (R116). -/
def written (i : Instr) : String :=
  match operandText i with
  | [] => i.mnemonic
  | ops => i.mnemonic ++ " " ++ ", ".intercalate ops

/-- The three devices a CLI verb can mean (R117). -/
inductive CliDevice where
  | parallel
  | serial
  | nor
  deriving DecidableEq, Repr

/-- `read s n` (R117). -/
def cliRead (d : CliDevice) (start : Addr) (len : BitVec 32) : List Instr :=
  match d with
  | .parallel => [.parBulkRead start len]
  | .serial => [.seeReadBytes start len]
  | .nor => [.norRead start len]

/-- `write a v [a v ...]` (R117): one byte write per pair, in order. -/
def cliWrite (d : CliDevice) (pairs : List (Addr × Byte)) : List Instr :=
  pairs.map (fun p =>
    match d with
    | .parallel => .parWriteByte p.1 (p.2.setWidth 32)
    | .serial => .seeWriteByte p.1 (p.2.setWidth 32)
    | .nor => .norWritePage p.1 1 [p.2])

/-- `erase [sa]` on the two devices that can be erased (R117): with a sector address the CLI masks it down to the sector. The
serial device has no sectors and R117 gives `erase sa` for the NOR device only; that there it erases the whole device, as
`erase` alone does, is the model's choice (DESIGN CHOICE, log 32). -/
def cliErase (c : Config) (serial : Bool) (sector : Option Addr) : List Instr :=
  match serial, sector with
  | true, _ => [.seeBulkErase 0xFF]
  | false, none => [.norChipErase]
  | false, some a => [.norSectorErase (addrOf (alignDown a.toNat c.norSector))]

end Sys2Proof.Machine
end

