-- ==== Sys2Proof/Tests/Slice0.lean ====
section
/-! SUPPORT. Tests: ill-formed operands, the decoding of words written out from the spec's encodings, one-step runs with the
expected traces of `spec/95_test_vectors.md` (the vector is named at each), and states that meet the hypotheses of the
obligations. -/

namespace Sys2Proof.Tests

open Sys2Proof.Machine

/-! Well-formed instructions: one ill-formed term for each check -/

/-- A NOR device of 2^23 bytes: with the default 2^24 no 24-bit address is too wide. -/
def halfNor : Config := { Config.default with norAddrBits := 23, norCapacity := 8388608 }

theorem test_halfNor_wf : halfNor.wf := by decide
theorem test_wf_norWritePage_address : (Instr.norWritePage 0x800000 1 [0]).wf halfNor = false := by decide
theorem test_wf_norWritePage_buffer : (Instr.norWritePage 0 4 [1, 2, 3]).wf Config.default = false := by decide
theorem test_wf_norWritePage_page :
    (Instr.norWritePage 0 257 (List.replicate 257 0)).wf Config.default = false := by decide +kernel
theorem test_wf_norWritePage_full :
    (Instr.norWritePage 0xFFFFFF 256 (List.replicate 256 0)).wf Config.default = true := by
  decide +kernel
theorem test_wf_norSectorErase : (Instr.norSectorErase 0x800000).wf halfNor = false := by decide
theorem test_wf_norBlockErase64k : (Instr.norBlockErase64k 0x800000).wf halfNor = false := by decide
theorem test_wf_norRead : (Instr.norRead 0x800000 0).wf halfNor = false := by decide
theorem test_wf_parWriteByte : (Instr.parWriteByte 0x800 0x55).wf Config.default = false := by decide
theorem test_wf_parReadByte : (Instr.parReadByte 0x800).wf Config.default = false := by decide
theorem test_wf_parBulkRead : (Instr.parBulkRead 0x800 0).wf Config.default = false := by decide
theorem test_wf_parBulkWrite_address : (Instr.parBulkWrite 0x800 0 []).wf Config.default = false := by decide
theorem test_wf_parBulkWrite_buffer : (Instr.parBulkWrite 0x20 3 [0xA0, 0xA1]).wf Config.default = false := by decide
theorem test_wf_seeWriteByte : (Instr.seeWriteByte 0x8000 1).wf Config.default = false := by decide
theorem test_wf_seeWritePage_address : (Instr.seeWritePage 0x8000 2 [1, 2]).wf Config.default = false := by decide
theorem test_wf_seeWritePage_buffer : (Instr.seeWritePage 0x3F 2 [1]).wf Config.default = false := by decide
theorem test_wf_seeReadByte : (Instr.seeReadByte 0x8000).wf Config.default = false := by decide
theorem test_wf_seeReadBytes : (Instr.seeReadBytes 0x8000 1).wf Config.default = false := by decide
theorem test_wf_cmdPp_address : (Instr.cmdPp 0x800000 [0]).wf halfNor = false := by decide
theorem test_wf_cmdPp_page : (Instr.cmdPp 0 (List.replicate 257 0)).wf Config.default = false := by decide +kernel
theorem test_wf_cmdSe : (Instr.cmdSe 0x800000).wf halfNor = false := by decide
theorem test_wf_cmdBe64 : (Instr.cmdBe64 0x800000).wf halfNor = false := by decide
theorem test_wf_cmdRead_address : (Instr.cmdRead 0x800000 1).wf halfNor = false := by decide
/-- A serial EEPROM of 2^14 bytes. -/
def halfSee : Config := { Config.default with seeAddrBits := 14, seeCapacity := 16384 }
theorem test_wf_i2cAD_address : (Instr.i2cAD 0x4000 [1]).wf halfSee = false := by decide
theorem test_wf_i2cAD_empty : (Instr.i2cAD 0 []).wf Config.default = false := by decide
theorem test_wf_i2cA : (Instr.i2cA 0x4000).wf halfSee = false := by decide

/-! Decoding: words written out from R100, R102 (op in bits 63..56, address in 55..32, arg in 31..0), R108, R109 and R110 -/

/-- What the decoder reads, refusals left out. -/
def reads (w : Wire) : Option Instr := (decode Config.default w).toOption

theorem test_decode_norInit : reads (.request 0x1000000000000000 []) = some .norInit := by decide
theorem test_decode_norWriteEnable : reads (.request 0x11ABCDEF12345678 []) = some .norWriteEnable := by decide
theorem test_decode_norWriteDisable : reads (.request 0x1200000000000000 []) = some .norWriteDisable := by decide
theorem test_decode_norReadStatus1 : reads (.request 0x1300000000000000 []) = some .norReadStatus1 := by decide
theorem test_decode_norReadStatus2 : reads (.request 0x1400000000000000 []) = some .norReadStatus2 := by decide
theorem test_decode_norReadStatus3 : reads (.request 0x1500000000000000 []) = some .norReadStatus3 := by decide
theorem test_decode_norWritePage : reads (.request 0x1600100000000004 [0xDE, 0xAD, 0xBE, 0xEF]) =
    some (.norWritePage 0x001000 4 [0xDE, 0xAD, 0xBE, 0xEF]) := by decide
theorem test_decode_norSectorErase : reads (.request 0x1700123400000000 []) = some (.norSectorErase 0x001234) := by decide
theorem test_decode_norBlockErase64k : reads (.request 0x1812ABCD00000000 []) = some (.norBlockErase64k 0x12ABCD) := by
  decide
theorem test_decode_norChipErase : reads (.request 0x1900000000000000 []) = some .norChipErase := by decide
theorem test_decode_norRead : reads (.request 0x1AFFFFFE00000002 []) = some (.norRead 0xFFFFFE 2) := by decide
theorem test_decode_wpDisableProtection : reads (.request 0x2000000000000000 []) = some .wpDisableProtection := by decide
theorem test_decode_parInit : reads (.request 0x3000000000000000 []) = some .parInit := by decide
theorem test_decode_parWriteByte : reads (.request 0x310007FF000001A5 []) = some (.parWriteByte 0x7FF 0x1A5) := by decide
theorem test_decode_parReadByte : reads (.request 0x3200001000000000 []) = some (.parReadByte 0x010) := by decide
theorem test_decode_parBulkRead : reads (.request 0x330007FE00000002 []) = some (.parBulkRead 0x7FE 2) := by decide
theorem test_decode_parBulkWrite : reads (.request 0x340007FE00000002 [0x11, 0x22]) =
    some (.parBulkWrite 0x7FE 2 [0x11, 0x22]) := by decide
theorem test_decode_seeInit : reads (.request 0x4000000000000000 []) = some .seeInit := by decide
theorem test_decode_seeWriteByte : reads (.request 0x41001234000000A5 []) = some (.seeWriteByte 0x1234 0xA5) := by decide
theorem test_decode_seeWritePage : reads (.request 0x4200004000000004 [1, 2, 3, 4]) =
    some (.seeWritePage 0x0040 4 [1, 2, 3, 4]) := by decide
theorem test_decode_seeReadByte : reads (.request 0x4300123400000000 []) = some (.seeReadByte 0x1234) := by decide
theorem test_decode_seeReadBytes : reads (.request 0x4400003E00000008 []) = some (.seeReadBytes 0x003E 8) := by decide
theorem test_decode_seeBulkErase : reads (.request 0x45000000000001FF []) = some (.seeBulkErase 0x1FF) := by decide
theorem test_decode_cmdWren : reads (.spi [0x06] 0) = some .cmdWren := by decide
theorem test_decode_cmdWrdi : reads (.spi [0x04] 0) = some .cmdWrdi := by decide
theorem test_decode_cmdRdsr1 : reads (.spi [0x05] 1) = some .cmdRdsr1 := by decide
theorem test_decode_cmdRdsr2 : reads (.spi [0x35] 1) = some .cmdRdsr2 := by decide
theorem test_decode_cmdRdsr3 : reads (.spi [0x15] 1) = some .cmdRdsr3 := by decide
theorem test_decode_cmdWrsr1 : reads (.spi [0x01, 0x60] 0) = some (.cmdWrsr1 0x60) := by decide
theorem test_decode_cmdPp : reads (.spi [0x02, 0x00, 0x10, 0xFE, 0x01, 0x02] 0) = some (.cmdPp 0x0010FE [1, 2]) := by decide
theorem test_decode_cmdSe : reads (.spi [0x20, 0x00, 0x12, 0x34] 0) = some (.cmdSe 0x001234) := by decide
theorem test_decode_cmdBe64 : reads (.spi [0xD8, 0x12, 0xAB, 0xCD] 0) = some (.cmdBe64 0x12ABCD) := by decide
theorem test_decode_cmdCe : reads (.spi [0xC7] 0) = some .cmdCe := by decide
theorem test_decode_cmdRdid : reads (.spi [0x9F] 3) = some .cmdRdid := by decide
theorem test_decode_cmdWake : reads (.spi [0xAB] 0) = some .cmdWake := by decide
theorem test_decode_cmdRsten : reads (.spi [0x66] 0) = some .cmdRsten := by decide
theorem test_decode_cmdRst : reads (.spi [0x99] 0) = some .cmdRst := by decide
theorem test_decode_cmdRead : reads (.spi [0x03, 0xFF, 0xFF, 0xFE] 2) = some (.cmdRead 0xFFFFFE 2) := by decide
theorem test_decode_i2cAD : reads (.i2cWrite 0x50 [0x7F, 0xC0, 0x5A]) = some (.i2cAD 0x7FC0 [0x5A]) := by decide
theorem test_decode_i2cA : reads (.i2cWrite 0x50 [0x00, 0x3E]) = some (.i2cA 0x003E) := by decide
theorem test_decode_i2cRN : reads (.i2cRead 0x50 8) = some (.i2cRN 8) := by decide

/-- The `n bytes` of R108 and R110 may be none. -/
theorem test_decode_read_none :
    reads (.spi [0x03, 0, 0, 1] 0) = some (.cmdRead 0x000001 0) ∧ reads (.i2cRead 0x50 0) = some (.i2cRN 0) := by decide

/-- V-ENC-8 to V-ENC-11: illegal `op` values. -/
theorem test_decode_illegal :
    [0x1B00000000000000, 0x0000000000000000, 0xFFFFFFFFFFFFFFFF, 0x2100000000000000, 0x3500000000000000,
      0x4600000000000000, 0x0F00000000000000].all (fun w => reads (.request w []) = none) = true := by decide

/-- Frames that are none of R108 and R110: another length, another read count, another command or device, address bit 15. -/
theorem test_decode_no_frame :
    [Wire.spi [] 0, .spi [0x06, 0x00] 0, .spi [0x06] 1, .spi [0x05] 0, .spi [0x9F] 4, .spi [0x20, 0x00, 0x12] 0,
      .spi [0x01] 0, .spi [0x03, 0, 0] 1, .spi [0x77] 0, .i2cWrite 0x51 [0, 0], .i2cWrite 0x50 [0x80, 0],
      .i2cWrite 0x50 [0], .i2cRead 0x51 1].all (fun w => reads w = none) = true := by decide

/-- V-ENC-3 to V-ENC-7, the other way. -/
theorem test_encode_words :
    encode Config.default (.norBlockErase64k 0x12ABCD) = .request 0x1812ABCD00000000 [] ∧
    encode Config.default (.norRead 0xFFFFFE 2) = .request 0x1AFFFFFE00000002 [] ∧
    encode Config.default (.parWriteByte 0x7FF 0x1A5) = .request 0x310007FF000001A5 [] ∧
    encode Config.default (.seeBulkErase 0xFF) = .request 0x45000000000000FF [] := by decide

/-! One step. Expected traces and end states are those of `spec/95_test_vectors.md`. -/

/-- The block after reset with a request presented. -/
def issue (word : BitVec 64) (din : List Byte) (s : State) : State := { s with caller := [.wire (.request word din)] }

/-- The block after reset with a lone frame presented. -/
def put (w : Wire) (s : State) : State := { s with caller := [.wire w] }

/-- A state whose NOR device answers with these bytes. -/
def answering (bytes : List Byte) (s : State) : State := { s with world := { s.world with spiIn := bytes } }

/-- A state whose parallel device is sampled with these bytes. -/
def sampling (bytes : List Byte) (s : State) : State := { s with world := { s.world with samples := bytes } }

/-- A state whose NOR device has these bytes. -/
def withNor (m : Memory) (s : State) : State :=
  { s with world := { s.world with nor := { s.world.nor with mem := m } } }

/-- A frame of the vectors: `<out>` or `<out|in>`. -/
def frame (tx rx : List Byte) : List Event := if rx = [] then sendEvents tx else askEvents tx rx

/-- Whether one step answers a next state with this trace that passes a check. -/
def leads (s : State) (trace : List Event) (check : State → Bool) : Bool :=
  match step s with
  | .next t => decide (t.world.trace = trace) && check t
  | .fault _ => false
  | .refused _ => false

/-- The frames of a mutating command whose latch sets at once and whose final poll is busy once. -/
def skeleton (tx : List Byte) : List Event :=
  frame [0x05] [0x00] ++ frame [0x06] [] ++ frame [0x05] [0x02] ++ frame tx [] ++ frame [0x05] [0x03] ++
    frame [0x05] [0x00] ++ [.done 0x00]

/-- V-NOR-1. -/
theorem test_norWriteEnable : leads (issue 0x1100000000000000 [] State.reset) (frame [0x06] [] ++ [.done 0x00])
    (fun t => t.resLen = 0 && t.world.nor.wel) = true := by decide

/-- V-NOR-2. -/
theorem test_norWriteDisable : leads (issue 0x1200000000000000 [] State.reset) (frame [0x04] [] ++ [.done 0x00])
    (fun t => t.resLen = 0 && !t.world.nor.wel) = true := by decide

/-- V-NOR-3 to V-NOR-5. -/
theorem test_norReadStatus1 : leads (issue 0x1300000000000000 [] (answering [0x02] State.reset))
    (frame [0x05] [0x02] ++ [.done 0x00]) (fun t => t.dout = [0x02] && t.resLen = 1) = true := by decide
theorem test_norReadStatus2 : leads (issue 0x1400000000000000 [] (answering [0x00] State.reset))
    (frame [0x35] [0x00] ++ [.done 0x00]) (fun t => t.dout = [0x00]) = true := by decide
theorem test_norReadStatus3 : leads (issue 0x1500000000000000 [] (answering [0x60] State.reset))
    (frame [0x15] [0x60] ++ [.done 0x00]) (fun t => t.dout = [0x60]) = true := by decide

/-- V-NOR-6. -/
theorem test_norWritePage : leads (issue 0x1600100000000004 [0xDE, 0xAD, 0xBE, 0xEF] State.reset)
    (skeleton [0x02, 0x00, 0x10, 0x00, 0xDE, 0xAD, 0xBE, 0xEF])
    (fun t => t.world.nor.mem = [(0x1000, 0xDE), (0x1001, 0xAD), (0x1002, 0xBE), (0x1003, 0xEF)] &&
      t.phaseLog = [.writeEnableAsserted, .commandIssued, .busy, .idle]) = true := by decide

/-- V-NOR-17: the device wraps in the page. -/
theorem test_norWritePage_wraps : leads (issue 0x160010FE00000004 [0x01, 0x02, 0x03, 0x04] State.reset)
    (skeleton [0x02, 0x00, 0x10, 0xFE, 0x01, 0x02, 0x03, 0x04])
    (fun t => t.world.nor.mem = [(0x1000, 0x03), (0x1001, 0x04), (0x10FE, 0x01), (0x10FF, 0x02)]) = true := by decide

/-- P1, step 2. -/
theorem test_norSectorErase : leads
    (issue 0x1700123400000000 [] (withNor [(0xFFF, 0x56), (0x1000, 0x00), (0x1FFF, 0x12), (0x2000, 0x34)] State.reset))
    (skeleton [0x20, 0x00, 0x12, 0x34]) (fun t => t.world.nor.mem = [(0xFFF, 0x56), (0x2000, 0x34)]) = true := by decide

/-- V-NOR-13: the latch never sets. -/
theorem test_norSectorErase_latch : leads
    (issue 0x1700123400000000 [] (answering [0x1C, 0x1C, 0x1C] State.reset))
    (frame [0x05] [0x1C] ++ frame [0x06] [] ++ frame [0x05] [0x1C] ++ frame [0x06] [] ++ frame [0x05] [0x1C] ++ [.done 0x02])
    (fun t => t.resCode = 0x02 && t.resAddr = 0x001234 && t.resObserved = 0x1C && t.norPhase = .idle) = true := by decide

/-- V-NOR-11. -/
theorem test_norBlockErase64k : leads
    (issue 0x1812ABCD00000000 [] (withNor [(0x11FFFF, 1), (0x120000, 2), (0x12FFFF, 3), (0x130000, 4)] State.reset))
    (skeleton [0xD8, 0x12, 0xAB, 0xCD]) (fun t => t.world.nor.mem = [(0x11FFFF, 1), (0x130000, 4)]) = true := by decide

/-- V-NOR-10: five final polls. -/
theorem test_norChipErase : leads
    (issue 0x1900000000000000 [] (answering [0x00, 0x02, 0x03, 0x03, 0x03, 0x03, 0x00] State.reset))
    (frame [0x05] [0x00] ++ frame [0x06] [] ++ frame [0x05] [0x02] ++ frame [0xC7] [] ++ frame [0x05] [0x03] ++
      frame [0x05] [0x03] ++ frame [0x05] [0x03] ++ frame [0x05] [0x03] ++ frame [0x05] [0x00] ++ [.done 0x00])
    (fun t => t.resCode = 0x00) = true := by decide

/-- V-NOR-18. -/
theorem test_norRead : leads
    (issue 0x1A00100000000004 [] (withNor [(0x1000, 0xDE), (0x1001, 0xAD), (0x1002, 0xBE), (0x1003, 0xEF)] State.reset))
    (frame [0x05] [0x00] ++ frame [0x03, 0x00, 0x10, 0x00] [0xDE, 0xAD, 0xBE, 0xEF] ++ [.done 0x00])
    (fun t => t.dout = [0xDE, 0xAD, 0xBE, 0xEF] && t.resLen = 4) = true := by decide

/-- V-NOR-20: a range past the end. -/
theorem test_norRead_past_end : leads (issue 0x1AFFFFFF00000002 [] State.reset) [.done 0x04]
    (fun t => t.resAddr = 0xFFFFFF && t.resCode = 0x04) = true := by decide

/-- V-NOR-22. -/
theorem test_norInit : leads (issue 0x1000000000000000 [] State.reset)
    (frame [0xAB] [] ++ frame [0x66] [] ++ frame [0x99] [] ++ frame [0x05] [0x00] ++ frame [0x35] [0x00] ++
      frame [0x15] [0x00] ++ frame [0x9F] [0xEF, 0x40, 0x18] ++ [.done 0x00])
    (fun t => t.norIdent = 0xEF4018 && t.norIdentValid && t.warn = 0x00 && t.dout = [0xEF, 0x40, 0x18]) = true := by decide

/-- V-NOR-24: the identity is all zero twice. -/
theorem test_norInit_zero_identity : leads
    (issue 0x1000000000000000 [] (answering [0, 0, 0, 0, 0, 0, 0, 0, 0] State.reset))
    (frame [0xAB] [] ++ frame [0x66] [] ++ frame [0x99] [] ++ frame [0x05] [0x00] ++ frame [0x35] [0x00] ++
      frame [0x15] [0x00] ++ frame [0x9F] [0, 0, 0] ++ [.delay .idRetry] ++ frame [0x9F] [0, 0, 0] ++
      [.warn .deviceIdentityMismatch, .done 0x00])
    (fun t => t.norIdent = 0 && t.norIdentValid && t.warn = 0x01) = true := by decide

/-- A NOR device with these SR1 settings and this SR3, as in P4. -/
def protectedNor (status sr3 : Byte) (s : State) : State :=
  { s with world := { s.world with nor := { s.world.nor with status := status, sr3 := sr3 } } }

/-- V-WP-3: bits 5 and 6 are kept. -/
theorem test_wpDisableProtection : leads
    (issue 0x2000000000000000 [] (answering [0xFC, 0x02, 0x60, 0xFC, 0xFE, 0x63, 0x60] State.reset))
    (frame [0x05] [0xFC] ++ frame [0x35] [0x02] ++ frame [0x15] [0x60] ++ frame [0x05] [0xFC] ++ frame [0x06] [] ++
      frame [0x05] [0xFE] ++ frame [0x01, 0x60] [] ++ frame [0x05] [0x63] ++ frame [0x05] [0x60] ++ [.done 0x00])
    (fun t => t.dout = [0xFC, 0x02, 0x60] && t.resLen = 3) = true := by decide

/-- P4, step 1, on the reference device. -/
theorem test_wpDisableProtection_device : leads (issue 0x2000000000000000 [] (protectedNor 0x9C 0x60 State.reset))
    (frame [0x05] [0x9C] ++ frame [0x35] [0x00] ++ frame [0x15] [0x60] ++ frame [0x05] [0x9C] ++ frame [0x06] [] ++
      frame [0x05] [0x9E] ++ frame [0x01, 0x00] [] ++ frame [0x05] [0x03] ++ frame [0x05] [0x00] ++ [.done 0x00])
    (fun t => t.dout = [0x9C, 0x00, 0x60] && t.world.nor.sr1 = 0x00) = true := by decide

/-- `A<-a`, `D<-v`, a read cycle and the write sequence, as the vectors write them (11 address lines). -/
def address (a : Nat) : List Event := (List.range 11).map (fun i => .lineSet i (a.testBit i))
def cycle (v : Byte) : List Event :=
  [.lineSet 24 false, .lineSet 25 false] ++ (List.range 8).map (fun i => .lineGet (16 + i) (v.getLsbD i)) ++
    [.lineSet 25 true, .lineSet 24 true]
def writing (a : Nat) (v : Byte) : List Event :=
  address a ++ (List.range 8).map (fun i => .lineDir (16 + i) .output) ++
    (List.range 8).map (fun i => .lineSet (16 + i) (v.getLsbD i)) ++
    [.lineSet 24 false, .lineSet 26 false, .delay .writePulse, .lineSet 26 true, .lineSet 24 true] ++
    (List.range 8).map (fun i => .lineDir (16 + i) .input)

/-- V-PAR-1: the 36 line events. -/
theorem test_parInit : leads (issue 0x3000000000000000 [] State.reset)
    ((List.range 8).map (fun i => .lineDir (16 + i) .input) ++
      [.lineSet 24 true, .lineSet 25 true, .lineSet 26 true, .lineDir 24 .output, .lineDir 25 .output, .lineDir 26 .output] ++
      (List.range 11).map (fun i => .lineSet i false) ++ (List.range 11).map (fun i => .lineDir i .output) ++ [.done 0x00])
    (fun t => t.parDir = .input && t.world.trace.length = 37) = true := by decide +kernel

/-- The block after `PAR_INIT`, as far as the lines go. -/
def lined : State :=
  { State.reset with
    parDir := .input
    world := { World.initial with par := { ParDevice.initial with inputs := 0x0FF0000, outputs := 0x70007FF } } }

/-- S6. -/
theorem test_parWriteByte : leads (issue 0x310000100000003C [] (sampling [0xBC, 0xBC, 0x3C] lined))
    (writing 0x010 0x3C ++ cycle 0xBC ++ [.delay .retry] ++ cycle 0xBC ++ [.delay .retry] ++ cycle 0x3C ++ [.done 0x00])
    (fun t => t.resAttempts = 3 && t.failCount = 0 && t.parDir = .input) = true := by decide +kernel

/-- V-PAR-3. -/
theorem test_parWriteByte_fails : leads (issue 0x3100001100000055 [] (sampling [0xD5, 0xD5, 0xD5] lined))
    (writing 0x011 0x55 ++ cycle 0xD5 ++ [.delay .retry] ++ cycle 0xD5 ++ [.delay .retry] ++ cycle 0xD5 ++ [.done 0x01])
    (fun t => t.resAddr = 0x011 && t.resExpected = 0x55 && t.resObserved = 0xD5 && t.resAttempts = 3 && t.failCount = 1) =
    true := by decide +kernel

/-- V-PAR-7. -/
theorem test_parReadByte : leads (issue 0x3200001000000000 [] (sampling [0x3C] lined))
    (address 0x010 ++ cycle 0x3C ++ [.done 0x00]) (fun t => t.dout = [0x3C] && t.resLen = 1) = true := by decide +kernel

/-- V-PAR-8. -/
theorem test_parBulkRead : leads (issue 0x330007FE00000002 [] (sampling [0x11, 0x22] lined))
    ([.progress .read 0x7FE] ++ address 0x7FE ++ cycle 0x11 ++ address 0x7FF ++ cycle 0x22 ++ [.done 0x00])
    (fun t => t.dout = [0x11, 0x22] && t.resLen = 2) = true := by decide +kernel

/-- V-PAR-15: `ABORT`. -/
theorem test_parBulkWrite_abort : leads (issue 0x3400002000000003 [0xA0, 0xA1, 0xA2] (sampling [0xA0, 0, 0, 0] lined))
    ([.progress .write 0x020] ++ writing 0x020 0xA0 ++ cycle 0xA0 ++ writing 0x021 0xA1 ++ cycle 0 ++ [.delay .retry] ++
      cycle 0 ++ [.delay .retry] ++ cycle 0 ++ [.done 0x01])
    (fun t => t.resAddr = 0x021 && t.resExpected = 0xA1 && t.resObserved = 0 && t.resAttempts = 3 && t.failCount = 1) =
    true := by decide +kernel

/-- V-PAR-16: `COLLECT`. -/
theorem test_parBulkWrite_collect : leads (issue 0x3400002000000003 [0xA0, 0xA1, 0xA2]
      (sampling [0xA0, 0, 0, 0, 0xA2] { lined with cfg := { Config.default with failPolicy := .collect } }))
    ([.progress .write 0x020] ++ writing 0x020 0xA0 ++ cycle 0xA0 ++ writing 0x021 0xA1 ++ cycle 0 ++ [.delay .retry] ++
      cycle 0 ++ [.delay .retry] ++ cycle 0 ++ [.fail 0x021 0xA1 0] ++ writing 0x022 0xA2 ++ cycle 0xA2 ++ [.done 0x01])
    (fun t => t.resAddr = 0x021 && t.resObserved = 0 && t.resAttempts = 1 && t.failCount = 1) = true := by decide +kernel

/-- A state whose bus scans are answered with these lists. -/
def scanned (answers : List (List DevAddr)) (s : State) : State := { s with world := { s.world with scans := answers } }

/-- V-SEE-1. -/
theorem test_seeInit : leads (issue 0x4000000000000000 [] (scanned [[0x3C, 0x51]] State.reset))
    [.i2cScan [0x3C, 0x51], .warn .busScanWarning, .done 0x00] (fun t => t.warn = 0x02) = true := by decide
theorem test_seeInit_clears : leads (issue 0x4000000000000000 [] (scanned [[0x50]] { State.reset with warn := 0x03 }))
    [.i2cScan [0x50], .done 0x00] (fun t => t.warn = 0x01) = true := by decide

/-- V-SEE-2. -/
theorem test_seeWriteByte : leads (issue 0x41001234000000A5 [] State.reset)
    [.i2cW 0x50 [0x12, 0x34, 0xA5], .delay .settle, .done 0x00] (fun t => t.world.see.mem = [(0x1234, 0xA5)]) = true := by
  decide

/-- V-SEE-5: the page boundary. -/
theorem test_seeWritePage_crossing : leads (issue 0x4200003E00000004 [1, 2, 3, 4] State.reset) [.done 0x03]
    (fun t => t.resAddr = 0x3E && t.world.see.mem = []) = true := by decide

/-- V-SEE-6: it ends at the last byte of the page. -/
theorem test_seeWritePage : leads (issue 0x4200003C00000004 [9, 8, 7, 6] State.reset)
    [.i2cW 0x50 [0x00, 0x3C, 9, 8, 7, 6], .delay .settle, .done 0x00]
    (fun t => t.world.see.mem = [(0x3C, 9), (0x3D, 8), (0x3E, 7), (0x3F, 6)]) = true := by decide

/-- A state whose serial EEPROM has these bytes. -/
def withSee (m : Memory) (s : State) : State :=
  { s with world := { s.world with see := { s.world.see with mem := m } } }

/-- V-SEE-3. -/
theorem test_seeReadByte : leads (issue 0x4300123400000000 [] (withSee [(0x1234, 0xA5)] State.reset))
    [.i2cW 0x50 [0x12, 0x34], .i2cR 0x50 1 [0xA5], .done 0x00] (fun t => t.dout = [0xA5] && t.resLen = 1) = true := by decide

/-- V-SEE-14. -/
theorem test_seeReadBytes : leads
    (issue 0x4400003E00000008 [] (withSee [(0x40, 1), (0x41, 2), (0x42, 3), (0x43, 4)] State.reset))
    [.i2cW 0x50 [0x00, 0x3E], .i2cR 0x50 8 [0xFF, 0xFF, 1, 2, 3, 4, 0xFF, 0xFF], .done 0x00]
    (fun t => t.dout = [0xFF, 0xFF, 1, 2, 3, 4, 0xFF, 0xFF] && t.resLen = 8) = true := by decide

/-- V-SEE-16 at a device of two pages of 4 bytes: each page a frame and a settle delay, progress before page 0. -/
theorem test_seeBulkErase : leads
    (issue 0x45000000000001AA [] { State.reset with
      cfg := { Config.default with seeAddrBits := 3, seeCapacity := 8, seePage := 4 } })
    [.progress .erase 0, .i2cW 0x50 [0, 0, 0xAA, 0xAA, 0xAA, 0xAA], .delay .settle,
      .i2cW 0x50 [0, 4, 0xAA, 0xAA, 0xAA, 0xAA], .delay .settle, .done 0x00]
    (fun t => t.world.see.mem = (List.range 8).map (fun a => (a, 0xAA))) = true := by decide

/-- V-ENC-8: an illegal `op`; the context registers keep their values. -/
theorem test_illegal_operation : leads (issue 0x1BFFFFFFFFFFFFFF [] { State.reset with resAddr := 0x1234, failCount := 7 })
    [.done 0x05] (fun t => t.resCode = 0x05 && t.resAddr = 0x1234 && t.failCount = 0) = true := by decide

/-- V-NOR-28: a device that stays busy for ever; the block polls and does not end. -/
theorem test_hang : leads
    (issue 0x1900000000000000 [] { State.reset with
      world := { World.initial with nor := { NorDevice.initial with job := some ⟨.nothing, none⟩ } } })
    (frame [0x05] [0x01]) (fun t => decide (t.seq ≠ .idle) && t.norPhase = .idle) = true := by decide

/-! Lone frames at the reference device (R80 to R91). -/

/-- A state whose NOR device has its latch set. -/
def latched (s : State) : State := { s with world := { s.world with nor := { s.world.nor with wel := true } } }

theorem test_cmdWren : leads (put (.spi [0x06] 0) State.reset) (frame [0x06] []) (fun t => t.world.nor.wel) = true := by decide
theorem test_cmdWrdi : leads (put (.spi [0x04] 0) (latched State.reset)) (frame [0x04] []) (fun t => !t.world.nor.wel) =
    true := by decide
theorem test_cmdRdsr1 : leads (put (.spi [0x05] 1) (latched (protectedNor 0x9C 0 State.reset))) (frame [0x05] [0x9E])
    (fun t => t.rx = [0x9E]) = true := by decide
theorem test_cmdRdsr2 : leads (put (.spi [0x35] 1) State.reset) (frame [0x35] [0x00]) (fun t => t.rx = [0x00]) = true := by
  decide
theorem test_cmdRdsr3 : leads (put (.spi [0x15] 1) (protectedNor 0 0x60 State.reset)) (frame [0x15] [0x60])
    (fun t => t.rx = [0x60]) = true := by decide
theorem test_cmdWrsr1 : leads (put (.spi [0x01, 0x63] 0) (latched (protectedNor 0x9C 0 State.reset))) (frame [0x01, 0x63] [])
    (fun t => t.world.nor.status = 0x60 && t.world.nor.job.isSome) = true := by decide
theorem test_cmdPp : leads (put (.spi [0x02, 0, 0x10, 0, 0xDE] 0) (latched State.reset)) (frame [0x02, 0, 0x10, 0, 0xDE] [])
    (fun t => t.world.nor.job = some ⟨.program 0x1000 [0xDE], some 1⟩) = true := by decide
theorem test_cmdPp_without_latch : leads (put (.spi [0x02, 0, 0x10, 0, 0xDE] 0) State.reset) (frame [0x02, 0, 0x10, 0, 0xDE] [])
    (fun t => t.world.nor.job = none) = true := by decide
theorem test_cmdSe : leads (put (.spi [0x20, 0, 0x12, 0x34] 0) (latched State.reset)) (frame [0x20, 0, 0x12, 0x34] [])
    (fun t => t.world.nor.job = some ⟨.erase 0x1000 0x1000, some 1⟩) = true := by decide
theorem test_cmdBe64 : leads (put (.spi [0xD8, 0x12, 0xAB, 0xCD] 0) (latched State.reset)) (frame [0xD8, 0x12, 0xAB, 0xCD] [])
    (fun t => t.world.nor.job = some ⟨.erase 0x120000 0x10000, some 1⟩) = true := by decide
theorem test_cmdCe : leads (put (.spi [0xC7] 0) (latched State.reset)) (frame [0xC7] [])
    (fun t => t.world.nor.job = some ⟨.erase 0 0x1000000, some 1⟩) = true := by decide
theorem test_cmdRdid : leads (put (.spi [0x9F] 3) State.reset) (frame [0x9F] [0xEF, 0x40, 0x18])
    (fun t => t.rx = [0xEF, 0x40, 0x18]) = true := by decide
theorem test_cmdWake : leads (put (.spi [0xAB] 0) { State.reset with
      world := { World.initial with nor := { NorDevice.initial with asleep := true } } })
    (frame [0xAB] []) (fun t => !t.world.nor.asleep) = true := by decide
theorem test_cmdRsten : leads (put (.spi [0x66] 0) State.reset) (frame [0x66] []) (fun t => t.world.nor.resetArmed) =
    true := by decide
theorem test_cmdRst : leads (put (.spi [0x99] 0) (latched { State.reset with
      world := { World.initial with nor := { NorDevice.initial with resetArmed := true } } }))
    (frame [0x99] []) (fun t => !t.world.nor.wel && !t.world.nor.resetArmed) = true := by decide
theorem test_cmdRst_alone : leads (put (.spi [0x99] 0) (latched State.reset)) (frame [0x99] []) (fun t => t.world.nor.wel) =
    true := by decide
theorem test_cmdRead : leads (put (.spi [0x03, 0xFF, 0xFF, 0xFE] 2) (withNor [(0xFFFFFE, 1), (0xFFFFFF, 2)] State.reset))
    (frame [0x03, 0xFF, 0xFF, 0xFE] [1, 2]) (fun t => t.rx = [1, 2]) = true := by decide
theorem test_i2cAD : leads (put (.i2cWrite 0x50 [0x00, 0x3E, 7, 8, 9]) State.reset) [.i2cW 0x50 [0x00, 0x3E, 7, 8, 9]]
    (fun t => t.world.see.mem = [(0, 9), (0x3E, 7), (0x3F, 8)]) = true := by decide
theorem test_i2cA : leads (put (.i2cWrite 0x50 [0x7F, 0xFE]) State.reset) [.i2cW 0x50 [0x7F, 0xFE]]
    (fun t => t.world.see.pointer = 0x7FFE) = true := by decide
theorem test_i2cRN : leads (put (.i2cRead 0x50 2) (withSee [(0, 5), (1, 6)] State.reset)) [.i2cR 0x50 2 [5, 6]]
    (fun t => t.rx = [5, 6] && t.world.see.pointer = 2) = true := by decide

/-- The examples of R116. -/
theorem test_written :
    written (.norWritePage 0x001000 4 [0xDE, 0xAD, 0xBE, 0xEF]) = "NOR_WRITE_PAGE 0x001000, 4, [0xDE, 0xAD, 0xBE, 0xEF]" ∧
    written (.parWriteByte 0x010 0x3C) = "PAR_WRITE_BYTE 0x010, 0x3C" ∧ written .norInit = "NOR_INIT" := by decide

/-! States and operands that meet the hypotheses of the obligations, one theorem for each obligation that has some. -/

theorem test_meets_DecodeOfEncode :
    Config.default.wf ∧ (Instr.norWritePage 0xFFFFFF 2 [1, 2]).wf Config.default = true ∧
    (Instr.cmdRead 0xFFFFFF 0).wf Config.default = true ∧ (Instr.i2cAD 0x7FFF [1]).wf Config.default = true := by decide

theorem test_meets_FramesHaveOneMeaning :
    (∀ word din, Wire.spi [0x20, 0x00, 0x12, 0x34] 0 ≠ .request word din) ∧
    decode Config.default (.spi [0x20, 0x00, 0x12, 0x34] 0) = .ok (.cmdSe 0x001234) :=
  ⟨fun _ _ h => (by cases h), rfl⟩

theorem test_meets_StepRunsDecoded :
    (issue 0x1700123400000000 [] State.reset).cfg.wf ∧ (issue 0x1700123400000000 [] State.reset).seq = .idle ∧
    (issue 0x1700123400000000 [] State.reset).caller = .wire (.request 0x1700123400000000 []) :: [] ∧
    decode Config.default (.request 0x1700123400000000 []) = .ok (.norSectorErase 0x001234) :=
  ⟨by decide, rfl, rfl, rfl⟩

theorem test_meets_IllegalOperationRejected :
    State.reset.cfg.wf ∧ State.reset.seq = .idle ∧ State.reset.norPhase = .idle ∧
    (issue 0x1B00000000000000 [] State.reset).caller = .wire (.request 0x1B00000000000000 []) :: [] ∧
    (opField 0x1B00000000000000).toNat ∉ [0x10, 0x11, 0x12, 0x13, 0x14, 0x15, 0x16, 0x17, 0x18, 0x19, 0x1A, 0x20, 0x30,
      0x31, 0x32, 0x33, 0x34, 0x40, 0x41, 0x42, 0x43, 0x44, 0x45] := by decide

theorem test_meets_ResultPort :
    ({ State.reset with norIdentValid := true, norIdent := 0xEF4018 } : State).norIdentValid = true ∧ 0x0B < 0x0C := by decide

theorem test_meets_MalformedRejected :
    State.reset.seq = .idle ∧ State.reset.norPhase = .idle ∧
    malformed Config.default (.norRead 0xFFFFFF 2) = some (0xFFFFFF, 0x04) ∧
    malformed Config.default (.parBulkRead 0x800 0) = some (0x800, 0x04) ∧
    malformed Config.default (.seeWritePage 0x003F 2 [1, 2]) = some (0x3F, 0x03) ∧
    malformed Config.default (.seeWritePage 0x8000 2 [1, 2]) = some (0x8000, 0x04) := by decide

theorem test_meets_WellFormedNotRejected : ∃ t, isRequest .norWriteEnable = true ∧
    malformed State.reset.cfg .norWriteEnable = none ∧ exec .norWriteEnable State.reset = .next t ∧ t.seq = .idle :=
  ⟨_, rfl, rfl, rfl, rfl⟩

/-- Page writes that end at the last byte of a page, longer than a page, and the smallest that crosses (V-SEE-11). -/
theorem test_meets_CrossesPage :
    0 < 64 ∧ 0 < 1 ∧ 0x3C % 64 + 4 = 64 ∧ 64 < 65 ∧ State.reset.seq = .idle ∧ State.reset.norPhase = .idle ∧
    (0x7FBF : Addr).toNat < State.reset.cfg.seeCapacity ∧ [(1 : Byte), 2].length = (2 : BitVec 32).toNat ∧
    crosses State.reset.cfg.seePage (0x7FBF : Addr).toNat (2 : BitVec 32).toNat = true := by decide

theorem test_meets_ClearedByte : 0 < 8 ∧ 7 < 8 := by decide

/-- An idle block and one that waits in a poll, each with the reset line asserted next. -/
def resetting (q : Seq) : State := { State.reset with seq := q, caller := [.reset] }

theorem test_meets_ResetValues :
    (resetting .idle).cfg.wf ∧ (resetting .idle).caller = .reset :: [] ∧ (resetting .idle).seq = .idle ∧
    (resetting (.readPoll 0 1)).caller = .reset :: [] := by decide

/-- A write of the parallel device that the reset line cuts short while write-enable is low (event 29 of R194). -/
def cutting : State := { lined with caller := [.cut 0x310000100000003C [] 29] }

theorem test_meets_ResetValues_cut : ∃ t, cutting.cfg.wf ∧ cutting.seq = .idle ∧
    cutting.caller = .cut 0x310000100000003C [] 29 :: [] ∧ step cutting = .next t :=
  ⟨_, by decide, rfl, rfl, rfl⟩

theorem test_meets_ResetOutOfHang :
    (resetting (.readPoll 0 1)).cfg.wf ∧ (resetting (.readPoll 0 1)).seq ≠ .idle ∧
    (resetting (.readPoll 0 1)).caller = .reset :: [] ∧ (resetting (.readPoll 0 1)).seq = .readPoll 0 1 := by decide

/-- The last clauses: a sector erase that waits in its first and in its final poll, and an address outside the sector. -/
theorem test_meets_ResetOutOfHang_aimed (a : Nat) (ha : a = 0x2000) :
    (resetting (.firstPoll [0x20, 0, 0x12, 0x34] 0x1234 .finish)).seq = .firstPoll [0x20, 0, 0x12, 0x34] 0x1234 .finish ∧
    (resetting (.finalPoll [0x20, 0, 0x12, 0x34] .finish)).seq = .finalPoll [0x20, 0, 0x12, 0x34] .finish ∧
    (∀ v, decodeNor Config.default [0x20, 0, 0x12, 0x34] ≠ .ok (.wrsr1 v)) ∧
    ∀ cmd e, decodeNor Config.default [0x20, 0, 0x12, 0x34] = .ok cmd → commandEffect Config.default cmd = some e →
      (∀ p d, e = .program p d → a < alignDown p Config.default.norPage ∨
        alignDown p Config.default.norPage + Config.default.norPage ≤ a) ∧
      (∀ start len, e = .erase start len → a < start ∨ start + len ≤ a) := by
  subst ha
  refine ⟨rfl, rfl, fun v h => (by cases h), fun cmd e h1 h2 => ?_⟩
  have h3 : decodeNor Config.default [0x20, 0, 0x12, 0x34] = .ok (.se 0x001234) := rfl
  rw [h3] at h1
  cases h1
  cases h2
  exact ⟨fun _ _ h => (by cases h), fun start len h => (by
    injection h with h1 h2
    rw [← h1, ← h2]
    exact .inr (by decide +kernel))⟩

/-- Answers to a poll of no and of one busy answer. -/
theorem test_pollAnswers : PollAnswers [0x00] ∧ PollAnswers [0x03, 0x00] :=
  ⟨⟨[], 0x00, rfl, by simp, by decide⟩, ⟨[0x03], 0x00, rfl, by simp; decide, by decide⟩⟩

theorem test_latchAnswers : LatchAnswers [0x02] ∧ LatchAnswers [0x00, 0x02] :=
  ⟨.inl ⟨0x02, rfl, by decide⟩, .inr ⟨0x00, 0x02, rfl, by decide, by decide⟩⟩

/-- A block in the poll of a read, at a device that stays busy for ever. -/
def hung (w : List Input) : State :=
  { State.reset with
    seq := .readPoll 0 1
    caller := w
    world := { World.initial with nor := { NorDevice.initial with job := some ⟨.nothing, none⟩ } } }

/-- A block inside a write cycle of the serial EEPROM. -/
def cycling : State :=
  { State.reset with world := { World.initial with see := { SeeDevice.initial with cycleLeft := 1 } } }

/-- A block with this configuration. -/
def configured (c : Config) : State := { State.reset with cfg := c }

theorem test_meets_WhereTheModelStops :
    (hung []).seq ≠ .idle ∧ ¬(configured { Config.default with parRetryBudget := 0 }).cfg.wf ∧
    (cycling.cfg.wf ∧ cycling.seq = .idle ∧ cycling.world.see.cycleLeft ≠ 0) ∧
    (seeRequest (.seeWritePage 0x7FFF 1 [7]) = true ∧ Instr.seeWritePage 0x7FFF 1 [7] ≠ .seeInit ∧
      malformed cycling.cfg (.seeWritePage 0x7FFF 1 [7]) = none) ∧
    (0x7FFF : BitVec 15).toNat < cycling.cfg.seeCapacity ∧
    (configured { Config.default with tSettle := 4999 }).cfg.wf ∧ 4999 < Config.default.seeWriteCycle ∧
    Config.default.seePage < Config.default.seeCapacity ∧
    halfNor.norCapacity ≤ (0x800000 : Addr).toNat ∧ halfSee.seeCapacity ≤ (0x4000 : BitVec 15).toNat ∧
    (put (.i2cRead 0x51 1) State.reset).caller = .wire (.i2cRead 0x51 1) :: [] ∧
    decode Config.default (.i2cRead 0x51 1) = .error (.otherDevice 0x51) := by
  exact ⟨by decide, by decide, by decide, by decide, by decide, by decide, by decide, by decide, by decide, by decide,
    rfl, rfl⟩

/-- A block in this poll, with these answers. -/
def polling (q : Seq) (phase : NorPhase) (bytes : List Byte) : State :=
  { answering bytes State.reset with seq := q, norPhase := phase }

/-- Every clause; with a first poll that is busy once, a latch that sets at the second try, and an identity read twice. -/
theorem test_meets_RunningOperationGoesOn :
    (∃ t, (hung [.wire (.spi [0x06] 0)]).cfg.wf ∧ (hung [.wire (.spi [0x06] 0)]).seq ≠ .idle ∧
      (hung [.wire (.spi [0x06] 0)]).caller = .wire (.spi [0x06] 0) :: [] ∧
      Input.wire (.spi [0x06] 0) ≠ .reset ∧ step (hung [.wire (.spi [0x06] 0)]) = .next t) ∧
    State.reset.cfg.wf ∧ (∀ later, State.reset.caller ≠ .reset :: later) ∧ PollAnswers [0x03, 0x00] ∧
    LatchAnswers [0x00, 0x02] ∧ PollAnswers [0x00] ∧ latchFlag 0x1C = false ∧
    (0xEF4018 : BitVec 24) = (if (0 : BitVec 24) = 0 then 0xEF4018 else 0) ∧
    (polling (.firstPoll [0xC7] 0 .finish) .idle [0x03, 0x00, 0x00, 0x02, 0x00]).world.spiIn =
      [0x03, 0x00] ++ [0x00, 0x02] ++ [0x00] ++ [] ∧
    (polling (.firstPoll [0xC7] 0 .finish) .idle [0x03, 0x00, 0x1C, 0x1C]).world.spiIn =
      [0x03, 0x00] ++ [0x1C, 0x1C] ++ [] ∧
    (polling (.finalPoll [0xC7] .finish) .busy [0x00]).world.spiIn = [0x00] ++ [] ∧
    (polling (.firstPoll [0x01, 0x60] 0 .identify) .idle
        [0x03, 0x00, 0x00, 0x02, 0x00, 0, 0, 0, 0xEF, 0x40, 0x18]).world.spiIn =
      [0x03, 0x00] ++ [0x00, 0x02] ++ [0x00] ++ be24 0 ++ be24 0xEF4018 ++ [] ∧
    (polling (.finalPoll [0x01, 0x60] .identify) .busy [0x00, 0, 0, 0, 0xEF, 0x40, 0x18]).world.spiIn =
      [0x00] ++ be24 0 ++ be24 0xEF4018 ++ [] ∧
    (polling (.readPoll 0xFFFFFF 1) .idle [0x03, 0x00, 0x5A]).world.spiIn = [0x03, 0x00] ++ [0x5A] ++ [] ∧
    0 < [(0x5A : Byte)].length :=
  ⟨⟨_, by decide, by decide, rfl, by decide, rfl⟩, by decide, (fun _ h => by cases h), test_pollAnswers.2,
    test_latchAnswers.2, test_pollAnswers.1, by decide, by decide, rfl, rfl, rfl, rfl, rfl, rfl, by decide⟩

theorem test_meets_HangPollsForEver :
    (hung []).cfg.wf ∧ (hung []).seq ≠ .idle ∧ (hung []).caller = [] ∧ (hung []).world.spiIn = [] ∧
    (hung []).world.nor.asleep = false ∧ (hung []).world.nor.powerUpLeft = 0 ∧
    (hung []).world.nor.job = some ⟨.nothing, none⟩ := by decide

theorem test_meets_WriteEnableRequest : State.reset.cfg.wf ∧ State.reset.seq = .idle ∧ State.reset.world.nor.Ready := by decide

theorem test_meets_WriteDisableRequest : State.reset.cfg.wf ∧ State.reset.seq = .idle ∧ State.reset.world.nor.Ready := by decide

theorem test_meets_ReadStatus1Request :
    State.reset.cfg.wf ∧ State.reset.seq = .idle ∧ (answering [0x02] State.reset).world.spiIn = 0x02 :: [] ∧
    State.reset.world.spiIn = [] ∧ State.reset.world.nor.asleep = false ∧ State.reset.world.nor.powerUpLeft = 0 ∧
    State.reset.world.nor.job = none := by decide

theorem test_meets_ReadStatus23Requests :
    State.reset.cfg.wf ∧ State.reset.seq = .idle ∧ (0x35 : Byte) = State.reset.cfg.cmd.rdsr2 ∧
    (0x15 : Byte) = State.reset.cfg.cmd.rdsr3 ∧ (0x00 : Byte) = State.reset.world.nor.sr2 := by decide

theorem test_meets_MutatingSkeleton :
    (answering [0x03, 0x00, 0x02, 0x00] State.reset).cfg.wf ∧ State.reset.seq = .idle ∧ State.reset.norPhase = .idle ∧
    mutation State.reset.cfg (.norSectorErase 0xFFFFFF) = some ([0x20, 0xFF, 0xFF, 0xFF], 0xFFFFFF) ∧
    PollAnswers [0x03, 0x00] ∧ LatchAnswers [0x02] ∧ PollAnswers [0x00] ∧
    (answering [0x03, 0x00, 0x02, 0x00] State.reset).world.spiIn = [0x03, 0x00] ++ [0x02] ++ [0x00] ++ [] :=
  ⟨by decide, rfl, rfl, by decide, test_pollAnswers.2, test_latchAnswers.1, test_pollAnswers.1, rfl⟩

theorem test_meets_LatchNeverSets :
    State.reset.cfg.wf ∧ State.reset.seq = .idle ∧ State.reset.norPhase = .idle ∧
    mutation State.reset.cfg .norChipErase = some ([0xC7], 0) ∧ PollAnswers [0x00] ∧ latchFlag 0x1C = false ∧
    (answering [0x00, 0x1C, 0x1C] State.reset).world.spiIn = [0x00] ++ [0x1C, 0x1C] ++ [] :=
  ⟨by decide, rfl, rfl, by decide, test_pollAnswers.1, by decide, rfl⟩

/-- The hardware write-protect condition is present. -/
def pinned : State := { State.reset with world := { World.initial with nor := { NorDevice.initial with wpPin := true } } }

theorem test_meets_WriteProtectPin :
    pinned.cfg.wf ∧ pinned.seq = .idle ∧ pinned.norPhase = .idle ∧
    mutation pinned.cfg (.norWritePage 0 1 [7]) = some ([0x02, 0, 0, 0, 7], 0) ∧ pinned.world.spiIn = [] ∧
    pinned.world.nor.Ready ∧ pinned.world.nor.wpPin = true ∧ pinned.world.nor.wel = false := by decide

theorem test_meets_PageProgram :
    State.reset.cfg.wf ∧ State.reset.seq = .idle ∧ State.reset.norPhase = .idle ∧ State.reset.world.nor.mem.wf ∧
    State.reset.world.spiIn = [] ∧ State.reset.world.nor.Ready ∧ State.reset.world.nor.wpPin = false ∧
    State.reset.world.nor.busyPolls = some 1 ∧ (0xFFFFFF : Addr).toNat < State.reset.cfg.norCapacity ∧
    [(1 : Byte), 2].length = (2 : BitVec 32).toNat ∧ (2 : BitVec 32).toNat ≤ State.reset.cfg.norPage ∧
    [(1 : Byte), 2] ≠ [] := by decide

theorem test_meets_EmptyPageProgram :
    State.reset.cfg.wf ∧ State.reset.seq = .idle ∧ State.reset.norPhase = .idle ∧ State.reset.world.spiIn = [] ∧
    State.reset.world.nor.Ready ∧ State.reset.world.nor.wpPin = false ∧ State.reset.world.nor.busyPolls = some 1 ∧
    (0xFFFFFF : Addr).toNat < State.reset.cfg.norCapacity := by decide

theorem test_meets_Erases :
    State.reset.cfg.wf ∧ State.reset.seq = .idle ∧ State.reset.norPhase = .idle ∧ State.reset.world.nor.mem.wf ∧
    State.reset.world.spiIn = [] ∧ State.reset.world.nor.Ready ∧ State.reset.world.nor.wpPin = false ∧
    State.reset.world.nor.busyPolls = some 1 ∧
    mutation State.reset.cfg (.norSectorErase 0xFFFFFF) = some ([0x20, 0xFF, 0xFF, 0xFF], 0xFFFFFF) ∧
    0xFFF000 = (0xFFFFFF : Addr).toNat - (0xFFFFFF : Addr).toNat % State.reset.cfg.norSector ∧
    mutation State.reset.cfg (.norBlockErase64k 0xFFFFFF) = some ([0xD8, 0xFF, 0xFF, 0xFF], 0xFFFFFF) ∧
    0xFF0000 = (0xFFFFFF : Addr).toNat - (0xFFFFFF : Addr).toNat % State.reset.cfg.norBlock ∧
    mutation State.reset.cfg .norChipErase = some ([0xC7], 0) ∧ 16777216 = State.reset.cfg.norCapacity := by decide

theorem test_meets_NorReadRequest :
    State.reset.cfg.wf ∧ State.reset.seq = .idle ∧ State.reset.world.spiIn = [] ∧ State.reset.world.nor.Ready ∧
    0 < (2 : BitVec 32).toNat ∧ (0xFFFFFE : Addr).toNat + (2 : BitVec 32).toNat ≤ State.reset.cfg.norCapacity := by decide

/-- The clause of length 0 at the last address, and the other at the end of the device. -/
theorem test_meets_NorReadAnyAnswers :
    State.reset.cfg.wf ∧ State.reset.seq = .idle ∧ (0xFFFFFF : Addr).toNat < State.reset.cfg.norCapacity ∧
    (0xFFFFFF : Addr).toNat + (0 : BitVec 32).toNat ≤ State.reset.cfg.norCapacity ∧ (0 : BitVec 32).toNat = 0 ∧
    (0xFFFFFF : Addr).toNat + (1 : BitVec 32).toNat ≤ State.reset.cfg.norCapacity ∧ 0 < (1 : BitVec 32).toNat ∧
    PollAnswers [0x00] ∧ [(0x5A : Byte)].length = (1 : BitVec 32).toNat ∧
    (answering [0x00, 0x5A] State.reset).world.spiIn = [0x00] ++ [0x5A] ++ [] :=
  ⟨by decide, rfl, by decide, by decide, by decide, by decide, by decide, test_pollAnswers.1, by decide, rfl⟩

/-- A NOR device that powers up in this time. -/
def poweringUp (left : Nat) (s : State) : State :=
  { s with world := { s.world with nor := { s.world.nor with powerUpLeft := left } } }

theorem test_meets_NorInitReference :
    (State.reset.cfg.wf ∧ State.reset.seq = .idle ∧ State.reset.world.spiIn = [] ∧ State.reset.world.nor.powerUpLeft = 0 ∧
      State.reset.world.nor.job = none ∧ State.reset.world.nor.settings &&& State.reset.cfg.norProtMask = 0 ∧
      State.reset.world.nor.ident ≠ 0) ∧
    (answering [0, 0, 0] (poweringUp 1000 State.reset)).world.spiIn = [0, 0, 0] ∧
    (poweringUp 1000 State.reset).world.nor.powerUpLeft ≠ 0 ∧ 1000 ≤ Config.default.tIdRetry ∧
    (poweringUp 1000 State.reset).world.nor.asleep = false ∧ (poweringUp 1000 State.reset).world.nor.job = none ∧
    (0 : Byte) &&& State.reset.cfg.norProtMask = 0 := by decide

/-- No protection with an identity that is and that is not zero; protection cleared (V-NOR-25); a latch that never sets
(V-NOR-26). -/
theorem test_meets_NorInitAnyAnswers :
    State.reset.cfg.wf ∧ State.reset.seq = .idle ∧ State.reset.norPhase = .idle ∧
    (0xEF4018 : BitVec 24) = (if (0 : BitVec 24) = 0 then 0xEF4018 else 0) ∧
    (0x63 : Byte) &&& State.reset.cfg.norProtMask = 0 ∧ (0x04 : Byte) &&& State.reset.cfg.norProtMask ≠ 0 ∧
    (answering [0x63, 0, 0, 0xC2, 0x20, 0x18] State.reset).world.spiIn =
      [0x63, 0, 0] ++ be24 0xC22018 ++ (if (0xC22018 : BitVec 24) = 0 then be24 0 else []) ++ [] ∧
    (answering [0x63, 0, 0, 0, 0, 0, 0xEF, 0x40, 0x18] State.reset).world.spiIn =
      [0x63, 0, 0] ++ be24 0 ++ (if (0 : BitVec 24) = 0 then be24 0xEF4018 else []) ++ [] ∧
    PollAnswers [0x00] ∧ LatchAnswers [0x02] ∧ PollAnswers [0x03, 0x00] ∧ latchFlag 0x04 = false ∧
    (answering [0x04, 0, 0, 0x00, 0x02, 0x03, 0x00, 0, 0, 0, 0xEF, 0x40, 0x18] State.reset).world.spiIn =
      [0x04, 0, 0] ++ [0x00] ++ [0x02] ++ [0x03, 0x00] ++ be24 0 ++
        (if (0 : BitVec 24) = 0 then be24 0xEF4018 else []) ++ [] ∧
    (answering [0x04, 0, 0, 0x00, 0x04, 0x04] State.reset).world.spiIn = [0x04, 0, 0] ++ [0x00] ++ [0x04, 0x04] ++ [] :=
  ⟨by decide, rfl, rfl, by decide, by decide, by decide, by decide, by decide, test_pollAnswers.1, test_latchAnswers.1,
    test_pollAnswers.2, by decide, by decide, rfl⟩

theorem test_meets_DisableProtection :
    State.reset.cfg.wf ∧ State.reset.seq = .idle ∧ State.reset.norPhase = .idle ∧
    (0x63 : Byte) &&& State.reset.cfg.norProtMask = 0 ∧ (0x04 : Byte) &&& State.reset.cfg.norProtMask ≠ 0 ∧
    (answering [0x63, 0, 0] State.reset).world.spiIn = [0x63, 0, 0] ++ [] ∧
    PollAnswers [0x00] ∧ LatchAnswers [0x02] ∧ PollAnswers [0x03, 0x00] ∧
    (answering [0x04, 0, 0, 0x00, 0x02, 0x03, 0x00] State.reset).world.spiIn =
      [0x04, 0, 0] ++ [0x00] ++ [0x02] ++ [0x03, 0x00] ++ [] ∧ latchFlag 0x04 = false ∧
    (answering [0x04, 0, 0, 0x00, 0x04, 0x04] State.reset).world.spiIn = [0x04, 0, 0] ++ [0x00] ++ [0x04, 0x04] ++ [] :=
  ⟨by decide, rfl, rfl, by decide, by decide, rfl, test_pollAnswers.1, test_latchAnswers.1, test_pollAnswers.2, rfl,
    by decide, rfl⟩

theorem test_meets_AtMostOneStatusWrite : ∃ t u, State.reset.cfg.wf ∧ State.reset.seq = .idle ∧
    exec .wpDisableProtection (answering [0x63, 0, 0] State.reset) = .next t ∧
    (answering [0x63, 0, 0] State.reset).world.spiIn = 0x63 :: [0, 0] ∧ (0x63 : Byte) &&& State.reset.cfg.norProtMask = 0 ∧
    (polling (.firstPoll [0x01, 0x60] 0 .finish) .idle [0x00, 0x02, 0x00]).seq ≠ .idle ∧
    (∀ later, (polling (.firstPoll [0x01, 0x60] 0 .finish) .idle [0x00, 0x02, 0x00]).caller ≠ .reset :: later) ∧
    step (polling (.firstPoll [0x01, 0x60] 0 .finish) .idle [0x00, 0x02, 0x00]) = .next u :=
  ⟨_, _, by decide, rfl, rfl, rfl, by decide, by decide, (fun _ h => by cases h), rfl⟩

theorem test_meets_ProtectionClearedOnce :
    (protectedNor 0x9C 0x60 State.reset).cfg.wf ∧ (protectedNor 0x9C 0x60 State.reset).seq = .idle ∧
    (protectedNor 0x9C 0x60 State.reset).norPhase = .idle ∧ (protectedNor 0x9C 0x60 State.reset).world.spiIn = [] ∧
    (protectedNor 0x9C 0x60 State.reset).world.nor.Ready ∧ (protectedNor 0x9C 0x60 State.reset).world.nor.wpPin = false ∧
    (protectedNor 0x9C 0x60 State.reset).world.nor.busyPolls = some 1 ∧ Config.default.norStatusWritable = true := by decide

theorem test_meets_ParInitRequest : State.reset.cfg.wf ∧ State.reset.seq = .idle := by decide

theorem test_lined_readSafe : lined.ReadSafe := by decide

theorem test_meets_ParWriteByteSucceeds :
    lined.cfg.wf ∧ lined.seq = .idle ∧ (sampling [0xBC, 0xBC, 0x3C] lined).ReadSafe ∧
    (0x7FF : Addr).toNat < lined.cfg.parCapacity ∧ [(0xBC : Byte), 0xBC].length < lined.cfg.parRetryBudget ∧
    (0x3C : BitVec 32).setWidth 8 ∉ [(0xBC : Byte), 0xBC] ∧
    (sampling [0xBC, 0xBC, 0x3C] lined).world.samples = [0xBC, 0xBC] ++ [(0x3C : BitVec 32).setWidth 8] ++ [] := by decide

theorem test_meets_ParWriteByteFails :
    lined.cfg.wf ∧ lined.seq = .idle ∧ lined.norPhase = .idle ∧ (sampling [0xD5, 0xD5, 0xD5] lined).ReadSafe ∧
    (0x7FF : Addr).toNat < lined.cfg.parCapacity ∧ [(0xD5 : Byte), 0xD5].length + 1 = lined.cfg.parRetryBudget ∧
    (0x55 : BitVec 32).setWidth 8 ∉ [(0xD5 : Byte), 0xD5] ++ [0xD5] ∧
    (sampling [0xD5, 0xD5, 0xD5] lined).world.samples = [0xD5, 0xD5] ++ [0xD5] ++ [] := by decide

theorem test_meets_ParRoundTrip :
    lined.cfg.wf ∧ lined.seq = .idle ∧ lined.ReadSafe ∧ (0x7FF : Addr).toNat < lined.cfg.parCapacity ∧
    lined.world.samples = [] ∧ lined.world.par.cycle = none ∧ lined.world.par.cycleSamples = some 0 ∧
    lined.world.par.mem.wf := by decide

theorem test_meets_ParReadByteRequest :
    lined.cfg.wf ∧ lined.seq = .idle ∧ (sampling [0x3C] lined).ReadSafe ∧ (0x7FF : Addr).toNat < lined.cfg.parCapacity ∧
    (sampling [0x3C] lined).world.samples = 0x3C :: [] ∧ lined.world.samples = [] ∧ lined.world.par.cycle = none ∧
    lined.norPhase = .idle ∧ lined.cfg.parCapacity ≤ (0x800 : Addr).toNat := by decide

theorem test_meets_ParBulkReadRequest :
    lined.cfg.wf ∧ lined.seq = .idle ∧ lined.ReadSafe ∧ (0x7FE : Addr).toNat < lined.cfg.parCapacity ∧
    (0x7FE : Addr).toNat + (2 : BitVec 32).toNat ≤ lined.cfg.parCapacity ∧
    [(0x11 : Byte), 0x22].length = (2 : BitVec 32).toNat ∧
    (sampling [0x11, 0x22] lined).world.samples = [0x11, 0x22] ++ [] ∧ lined.world.samples = [] ∧
    lined.world.par.cycle = none := by decide

/-- A byte that matches at its third sample, and one that never does. -/
theorem test_byteRun : ByteRun 3 (0x3C, [0xBC, 0xBC, 0x3C]) ∧ ByteRun 3 (0xA1, [0, 0, 0]) :=
  ⟨.inl ⟨[0xBC, 0xBC], by decide, by decide, by decide⟩, .inr (by decide)⟩

/-- Both policies: under `COLLECT` with a byte that fails, under `ABORT` with none. -/
theorem test_meets_ParBulkWriteRuns :
    lined.cfg.wf ∧ lined.seq = .idle ∧ lined.norPhase = .idle ∧ lined.ReadSafe ∧
    (0x7FE : Addr).toNat < lined.cfg.parCapacity ∧ (0x7FE : Addr).toNat + (2 : BitVec 32).toNat ≤ lined.cfg.parCapacity ∧
    (∀ r ∈ [((0x3C : Byte), [(0xBC : Byte), 0xBC, 0x3C]), (0xA1, [0, 0, 0])], ByteRun 3 r) ∧
    ({ Config.default with failPolicy := .collect } : Config).failPolicy = .collect ∧
    (∀ r ∈ [((0x3C : Byte), [(0xBC : Byte), 0xBC, 0x3C])], runFailed r = false) ∧
    (sampling [0xBC, 0xBC, 0x3C, 0, 0, 0] lined).world.samples =
      [((0x3C : Byte), [(0xBC : Byte), 0xBC, 0x3C]), (0xA1, [0, 0, 0])].flatMap Prod.snd ++ [] ∧
    [((0x3C : Byte), [(0xBC : Byte), 0xBC, 0x3C])].find? runFailed = none ∧
    runFailed (0xA1, [0, 0, 0]) = true := by
  refine ⟨by decide, by decide, by decide, by decide, by decide, by decide, ?_, by decide, by decide, by decide, by decide,
    by decide⟩
  simp only [List.mem_cons, List.not_mem_nil, or_false, forall_eq_or_imp, forall_eq]
  exact test_byteRun

theorem test_meets_ParBulkWriteAborts :
    lined.cfg.wf ∧ lined.seq = .idle ∧ lined.norPhase = .idle ∧ lined.ReadSafe ∧
    (0x020 : Addr).toNat < lined.cfg.parCapacity ∧
    [((0x3C : Byte), [(0xBC : Byte), 0xBC, 0x3C])].length + 1 + [(0xA2 : Byte)].length = (3 : BitVec 32).toNat ∧
    (0x020 : Addr).toNat + (3 : BitVec 32).toNat ≤ lined.cfg.parCapacity ∧ lined.cfg.failPolicy = .abort ∧
    (∀ r ∈ [((0x3C : Byte), [(0xBC : Byte), 0xBC, 0x3C])] ++ [(0xA1, [0, 0, 0])], ByteRun 3 r) ∧
    (∀ r ∈ [((0x3C : Byte), [(0xBC : Byte), 0xBC, 0x3C])], runFailed r = false) ∧ runFailed (0xA1, [0, 0, 0]) = true ∧
    (sampling [0xBC, 0xBC, 0x3C, 0, 0, 0] lined).world.samples =
      ([((0x3C : Byte), [(0xBC : Byte), 0xBC, 0x3C])] ++ [(0xA1, [0, 0, 0])]).flatMap Prod.snd ++ [] := by
  refine ⟨by decide, by decide, by decide, by decide, by decide, by decide, by decide, by decide, ?_, by decide, by decide,
    by decide⟩
  simp only [List.cons_append, List.nil_append, List.mem_cons, List.not_mem_nil, or_false, forall_eq_or_imp, forall_eq]
  exact test_byteRun

theorem test_meets_ParNeverContends : ∃ t, lined.cfg.wf ∧ lined.seq = .idle ∧ parRequest (.parReadByte 0x800) = true ∧
    lined.ReadSafe ∧ exec (.parReadByte 0x800) lined = .next t :=
  ⟨_, by decide, by decide, rfl, by decide, rfl⟩

theorem test_meets_SeeInitRequest :
    State.reset.seq = .idle ∧ (scanned [[0x50]] State.reset).world.scans = [0x50] :: [] ∧ State.reset.world.scans = [] ∧
    State.reset.world.see.cycleLeft = 0 := by decide

theorem test_meets_SeeWriteByteRequest :
    State.reset.cfg.wf ∧ State.reset.seq = .idle ∧ State.reset.world.see.cycleLeft = 0 ∧ State.reset.world.see.mem.wf ∧
    (0x7FFF : Addr).toNat < State.reset.cfg.seeCapacity ∧ State.reset.norPhase = .idle ∧
    State.reset.cfg.seeCapacity ≤ (0x8000 : Addr).toNat := by decide

/-- The empty page write and one that ends at the end of a page. -/
theorem test_meets_SeeWritePageRequest :
    State.reset.cfg.wf ∧ State.reset.seq = .idle ∧ State.reset.world.see.cycleLeft = 0 ∧ State.reset.world.see.mem.wf ∧
    (0x7FFC : Addr).toNat < State.reset.cfg.seeCapacity ∧ [(1 : Byte), 2, 3, 4].length = (4 : BitVec 32).toNat ∧
    (0x7FFC : Addr).toNat % State.reset.cfg.seePage + (4 : BitVec 32).toNat ≤ State.reset.cfg.seePage ∧
    [(1 : Byte), 2, 3, 4] ≠ [] ∧ ([] : List Byte).length = (0 : BitVec 32).toNat ∧
    (0x7FFF : Addr).toNat % State.reset.cfg.seePage + (0 : BitVec 32).toNat ≤ State.reset.cfg.seePage := by decide

/-- Reads that end at the last byte, of the device's own bytes and of bytes given from outside, and one of length 0. -/
theorem test_meets_SeeReadRequests :
    State.reset.cfg.wf ∧ State.reset.seq = .idle ∧ State.reset.world.see.cycleLeft = 0 ∧ State.reset.world.i2cIn = [] ∧
    (0x7FFE : Addr).toNat < State.reset.cfg.seeCapacity ∧ (0x7FFE : Addr).toNat + 2 ≤ State.reset.cfg.seeCapacity ∧
    2 = (2 : BitVec 32).toNat ∧ (0x7FFF : Addr).toNat + 1 ≤ State.reset.cfg.seeCapacity ∧ 0 = (0 : BitVec 32).toNat ∧
    [(7 : Byte), 8].length = 2 ∧
    ({ State.reset.world with i2cIn := [7, 8, 9] } : World).i2cIn = [7, 8] ++ [9] ∧
    (((List.range 2).map (fun j => State.reset.world.see.mem.read ((0x7FFE : Addr).toNat + j))).length = 2) := by decide

theorem test_meets_SeeBulkEraseRequest :
    State.reset.cfg.wf ∧ State.reset.seq = .idle ∧ State.reset.world.see.cycleLeft = 0 ∧ State.reset.world.see.mem.wf ∧
    State.reset.cfg.seeWriteCycle ≤ State.reset.cfg.tSettle := by decide

/-- The sleeping device of the wake frame and of the second clause; the other frames meet a ready one. -/
theorem test_meets_ConditionFrames :
    State.reset.cfg.wf ∧ State.reset.seq = .idle ∧ (0x06 : Byte) = State.reset.cfg.cmd.wren ∧ State.reset.world.nor.Ready ∧
    ({ NorDevice.initial with asleep := true } : NorDevice).asleep = true ∧ (0xAB : Byte) = State.reset.cfg.cmd.wake ∧
    encode Config.default (.cmdRead 0xFFFFFF 1) = .spi [0x03, 0xFF, 0xFF, 0xFF] 1 ∧
    (Instr.cmdRead 0xFFFFFF 1).wf Config.default = true ∧ Instr.cmdRead 0xFFFFFF 1 ≠ .cmdWake ∧
    encode Config.default .cmdCe = .spi [0xC7] 0 ∧ Instr.cmdCe.wf Config.default = true := by decide

theorem test_meets_OperationFrames :
    State.reset.cfg.wf ∧ State.reset.seq = .idle ∧ State.reset.world.nor.Ready ∧ (latched State.reset).world.nor.Ready ∧
    (0xFFFFFF : Addr).toNat < State.reset.cfg.norCapacity ∧ [(7 : Byte)] ≠ [] ∧
    [(7 : Byte)].length ≤ State.reset.cfg.norPage ∧ ([0xC7] : List Byte) = [State.reset.cfg.cmd.ce] ∧
    (latched State.reset).world.nor.wel = true ∧ State.reset.world.nor.wel = false := by decide

/-- An operation that is due. -/
def due (e : NorEffect) : State :=
  { State.reset with
    world := { World.initial with nor := { NorDevice.initial with wel := true, job := some ⟨e, some 0⟩ } } }

theorem test_meets_OperationEnds :
    (due (.erase 0x1000 0x1000)).cfg.wf ∧ (due .nothing).seq = .idle ∧ (due .nothing).world.spiIn = [] ∧
    (due .nothing).world.nor.asleep = false ∧ (due .nothing).world.nor.powerUpLeft = 0 ∧ (due .nothing).world.nor.mem.wf ∧
    (due (.erase 0x1000 0x1000)).world.nor.job = some ⟨.erase 0x1000 0x1000, some 0⟩ ∧
    (due (.program 0xFFFFFF [1, 2])).world.nor.job = some ⟨.program 0xFFFFFF [1, 2], some 0⟩ ∧
    [(1 : Byte), 2].length ≤ Config.default.norPage ∧
    (due (.writeStatus 0x60)).world.nor.job = some ⟨.writeStatus 0x60, some 0⟩ := by decide

/-- An operation that is due at a device whose `BP` is 1, which protects two ranges of the configuration. -/
def guarded (e : NorEffect) : State :=
  { withNor [(0x1000, 5), (0x1004, 5), (0x1005, 5), (0x1FFF, 5)] (protectedNor 0x04 0 (due e)) with
    cfg := { Config.default with norProtected := [[], [(0x1000, 4), (0x1FFF, 1)]] } }

theorem test_protected_erase : leads (put (.spi [0x05] 1) (guarded (.erase 0x1000 0x1000))) (frame [0x05] [0x04])
    (fun t => t.world.nor.mem = [(0x1000, 5), (0x1FFF, 5)]) = true := by decide +kernel

theorem test_protected_program : leads (put (.spi [0x05] 1) (guarded (.program 0x1FFE [7, 8]))) (frame [0x05] [0x04])
    (fun t => t.world.nor.mem.read 0x1FFE = 7 && t.world.nor.mem.read 0x1FFF = 5) = true := by decide +kernel

theorem test_meets_StatusFrames :
    State.reset.cfg.wf ∧ State.reset.seq = .idle ∧ State.reset.world.spiIn = [] ∧ State.reset.world.nor.asleep = false ∧
    State.reset.world.nor.powerUpLeft = 0 ∧ (0x05 : Byte) = State.reset.cfg.cmd.rdsr1 ∧ State.reset.world.nor.job = none ∧
    (0x35 : Byte) = State.reset.cfg.cmd.rdsr2 ∧ (0x15 : Byte) = State.reset.cfg.cmd.rdsr3 ∧
    ({ NorDevice.initial with job := some ⟨.nothing, some 1⟩ } : NorDevice).job = some ⟨.nothing, some (0 + 1)⟩ ∧
    (hung []).world.nor.job = some ⟨.nothing, none⟩ ∧ (hung []).world.nor.asleep = false := by decide

theorem test_meets_DataFrames :
    State.reset.cfg.wf ∧ State.reset.seq = .idle ∧ State.reset.world.spiIn = [] ∧ State.reset.world.nor.Ready ∧
    ([0x9F] : List Byte) = [State.reset.cfg.cmd.rdid] ∧ 0 < 2 ∧
    (0xFFFFFE : Addr).toNat + 2 ≤ State.reset.cfg.norCapacity ∧ (0xFFFFFE : Addr).toNat < State.reset.cfg.norCapacity ∧
    State.reset.cfg.norCapacity < (0xFFFFFE : Addr).toNat + 3 ∧
    (poweringUp 1 State.reset).world.nor.powerUpLeft ≠ 0 ∧ (poweringUp 1 State.reset).world.nor.asleep = false ∧
    (poweringUp 1 State.reset).world.spiIn = [] := by decide

theorem test_meets_TwoWireFrames :
    State.reset.cfg.wf ∧ State.reset.seq = .idle ∧ State.reset.world.see.cycleLeft = 0 ∧ State.reset.world.see.mem.wf ∧
    (0x7FFF : BitVec 15).toNat < State.reset.cfg.seeCapacity ∧ [(7 : Byte)] ≠ [] ∧
    State.reset.cfg.seePage < (List.replicate 65 (7 : Byte)).length ∧ 65 ≤ 1 + State.reset.cfg.seePage ∧
    [(7 : Byte), 8].length = 2 ∧ ({ State.reset.world with i2cIn := [7, 8, 9] } : World).i2cIn = [7, 8] ++ [9] ∧
    State.reset.world.i2cIn = [] ∧
    State.reset.world.see.pointer + 0x8000 ≤ State.reset.cfg.seeCapacity ∧
    State.reset.cfg.seeCapacity < State.reset.world.see.pointer + 0x8001 := by decide

/-- A machine with bytes in its memories, lines in use and a write-enable request presented. -/
def busyMachine : State :=
  issue 0x1100000000000000 [] (withNor [(0xFFFFFF, 1)] (withSee [(0x7FFF, 2)] { lined with warn := 0x03 }))

theorem test_meets_MemoryInvKept : ∃ t, MemoryInv busyMachine ∧ step busyMachine = .next t :=
  ⟨_, ⟨by decide, by decide, by decide, by decide, by decide, by decide, by decide, by simp [busyMachine, issue, withNor, withSee,
    lined, World.initial, NorDevice.initial]⟩, rfl⟩

theorem test_meets_ControlInvKept : ∃ t, ControlInv busyMachine ∧ step busyMachine = .next t :=
  ⟨_, ⟨by decide, by decide, by decide, by decide, by decide⟩, rfl⟩

theorem test_meets_LineInvKept : ∃ t, LineInv busyMachine ∧ step busyMachine = .next t :=
  ⟨_, .inr (by decide), rfl⟩

theorem test_meets_TraceGrows : ∃ t u v, step (resetting .idle) = .next t ∧ (resetting .idle).Resets ∧
    step cutting = .next v ∧ cutting.Resets ∧ step busyMachine = .next u ∧ ¬busyMachine.Resets :=
  ⟨_, _, _, rfl, .inl ⟨_, rfl⟩, rfl, .inr ⟨rfl, _, _, _, _, rfl⟩, rfl, by
    rintro (⟨_, h⟩ | ⟨_, _, _, _, _, h⟩) <;> cases h⟩

/-- A request that ends, one that goes on polling, and a poll that goes on and ends. -/
theorem test_meets_DoneOnceAtTheEnd : ∃ t u v, isRequest .norWriteEnable = true ∧
    exec .norWriteEnable State.reset = .next t ∧ t.seq = .idle ∧ isRequest .norChipErase = true ∧
    exec .norChipErase { hung [] with seq := .idle } = .next u ∧ u.seq ≠ .idle ∧
    (hung []).cfg.wf ∧ (hung []).seq ≠ .idle ∧ (∀ later, (hung []).caller ≠ .reset :: later) ∧
    step (answering [0x00, 0x5A] (hung [])) = .next v ∧ v.seq = .idle :=
  ⟨_, _, _, rfl, rfl, rfl, rfl, rfl, by decide, by decide, by decide, (fun _ h => by cases h), rfl, rfl⟩

theorem test_meets_UnitsAreSeparate : ∃ t u v, exec .norWriteEnable State.reset = .next t ∧ norRequest .norWriteEnable = true ∧
    exec (.parReadByte 0x800) State.reset = .next u ∧ parRequest (.parReadByte 0x800) = true ∧
    exec .seeInit State.reset = .next v ∧ seeRequest .seeInit = true :=
  ⟨_, _, _, rfl, rfl, rfl, rfl, rfl, rfl⟩

theorem test_meets_RegistersDoNotSteer : ∃ t u, isRequest .norReadStatus1 = true ∧ State.reset.seq = .idle ∧
    ({ State.reset with resCode := 0x02, dout := [1] } : State).seq = .idle ∧
    State.reset.cfg = ({ State.reset with resCode := 0x02, dout := [1] } : State).cfg ∧
    State.reset.world = ({ State.reset with resCode := 0x02, dout := [1] } : State).world ∧
    exec .norReadStatus1 State.reset = .next t ∧
    exec .norReadStatus1 { State.reset with resCode := 0x02, dout := [1] } = .next u ∧ t.seq = .idle :=
  ⟨_, _, rfl, rfl, rfl, rfl, rfl, rfl, rfl, rfl⟩

/-! A reset in the middle of an operation. -/

/-- The devices make of all the events of an operation what the operation made of them: an erase, a page write, a byte write. -/
theorem test_replay : [issue 0x1700123400000000 [] (withNor [(0x1000, 0x00), (0x2000, 0x34)] State.reset),
      issue 0x4200003C00000004 [9, 8, 7, 6] State.reset, issue 0x310000100000003C [] (sampling [0xBC, 0x3C] lined)].all
    (fun s => match step s with
      | .next t => ({ World.replay s.cfg t.world.trace [] s.world with trace := t.world.trace } : World) == t.world
      | .fault _ => false
      | .refused _ => false) = true := by decide +kernel

/-- The write pulse has begun when the reset comes: the control lines stay low, the data lines stay outputs, the block forgets
the direction, and the other devices are as they were. -/
theorem test_cut : leads cutting [] (fun t => t.parDir = .unknown && t.reqOp = 0 &&
    t.world.par.level = 0x23C0010 && t.world.par.outputs.extractLsb' 16 8 = 0xFF && t.world.nor = cutting.world.nor &&
    t.world.see = cutting.world.see && t.caller = []) = true := by decide +kernel

/-- A reset inside a read cycle left chip-enable and output-enable low (U9): `PAR_READ_BYTE` samples the byte at its own
address, and the first sample given from outside if there is one. -/
theorem test_parReadByte_strobe_low : ([[], [0x3C]].map (fun given =>
    match step (issue 0x3200001000000000 [] (sampling given { lined with
      world := { lined.world with par := { lined.world.par with mem := [(0, 1), (0x10, 2)], level := 0x4000000, drive := 1 } } })) with
      | .next t => t.dout
      | .fault _ => []
      | .refused _ => [])) = [[2], [0x3C]] := by decide +kernel

/-- A reset inside a write pulse left chip-enable and write-enable low, and the data lines are inputs when chip-enable rises:
the device latches the address and a free byte. -/
theorem test_pulse_without_data : (World.lineSet Config.default lineCE true { lined.world with
      par := { lined.world.par with level := 0x23C0010, inputs := 0xFF0000, outputs := 0x70007FF } }).par.cycle =
    some ⟨0x10, Config.freeByte 0, some 0⟩ := rfl

/-- A page write whose first frame U5 refuses, cut before that frame: the reset is taken; cut after it: refused. -/
theorem test_cut_before_refused :
    ([0, 1].map (fun n => match step { cycling with caller := [.cut 0x4200003C00000002 [1, 2] n] } with
      | .next t => decide (t.world.see.cycleLeft = 1 && t.resCode = 0x00)
      | .fault _ => false
      | .refused r => decide (r ≠ .insideWriteCycle))) = [true, false] := by decide +kernel

/-- An erase at a device whose latch cannot set ends with `WriteProtectedError`; cut short it leaves its sector free (U6). -/
theorem test_cut_writeProtected :
    (match step { pinned with caller := [.cut 0x1700123400000000 [] 3] } with
      | .next t => decide (t.world.free = 4096)
      | .fault _ => false
      | .refused _ => false) = true := by decide +kernel

/-- What a request that the reset line cuts short leaves. -/
def cutState (s : State) (word : BitVec 64) (din : List Byte) (count : Nat) : State :=
  match step { s with caller := [.cut word din count] } with
  | .next t => t
  | .fault _ => s
  | .refused _ => s

/-- U6, R260: `NOR_INIT` at a protected device, cut at its first frames, just before and after its status write is put on the
bus (event 33), and just before and after a poll finds that write ended (event 41): SR1 is a free value, drawn from the
counter, exactly in between. -/
theorem test_cut_status :
    [3, 33, 34, 41, 42, 44].map (fun n => (cutState (protectedNor 0x9C 0 State.reset) 0x1000000000000000 [] n).world.free) =
      [0, 0, 1, 1, 0, 0] ∧
    [3, 33, 42, 44].map (fun n => (cutState (protectedNor 0x9C 0 State.reset) 0x1000000000000000 [] n).world.nor.status) =
      [0x9C, 0x9C, 0x00, 0x00] := by decide +kernel

/-- A serial byte write aims at one byte, a page write at its page, a bulk write under `ABORT` at its whole range, a request
that fails its checks at none: as many free values are drawn (two for each parallel byte). -/
theorem test_cut_aimed :
    ([(0x410012340000005A, [], 0), (0x4200123400000001, [5], 0), (0x3400001000000003, [1, 2, 3], 0),
      (0x4100FFFF0000005A, [], 0)] : List (BitVec 64 × List Byte × Nat)).map
      (fun x => (cutState lined x.1 x.2.1 x.2.2).world.free) = [1, 64, 6, 0] := by decide +kernel

/-! A word of the opcode table runs as the first instruction after reset. -/

theorem test_fetch_request :
    step (State.reset.withFetchWord 64 0x1100000000000000) = exec .norWriteEnable { State.reset with reqOp := 0x11 } := rfl
theorem test_fetch_spi : step (State.reset.withFetchWord 8 0x06) = exec .cmdWren State.reset := rfl
theorem test_fetch_address : step (State.reset.withFetchWord 16 0x1234) = exec (.i2cA 0x1234) State.reset := rfl
theorem test_fetch_read : step (State.reset.withFetchWord 0 0) = exec (.i2cRN 1) State.reset := rfl

end Sys2Proof.Tests
end

section
/-! PROOFS. `PAR_INIT` (R193) and `PAR_READ_BYTE` (R196): what the two requests do to the lines, and the statements about them. -/

namespace Sys2Proof.Machine

/-! `PAR_INIT`: its line procedure, whatever the lines and the device are in the middle of -/

/-- From `s` to `t` these events are emitted, and nothing changes but the parallel device with its lines, the samples
given from outside, and the counter of free values. -/
def LinesMoved (events : List Event) (s t : State) : Prop :=
  ∃ par k samples, t = { s with world := { s.world.log events with par := par, free := k, samples := samples } }

theorem LinesMoved.trans {e f : List Event} {s t u : State} (h : LinesMoved e s t) (h2 : LinesMoved f t u) :
    LinesMoved (e ++ f) s u := by
  obtain ⟨_, _, _, rfl⟩ := h
  obtain ⟨par, k, samples, rfl⟩ := h2
  exact ⟨par, k, samples, by simp [World.log]⟩

theorem LinesMoved.cfg {e : List Event} {s t : State} (h : LinesMoved e s t) : t.cfg = s.cfg := by
  obtain ⟨_, _, _, rfl⟩ := h
  rfl

theorem State.lineSet_moved (id1 : Nat) (b : Bool) (s : State) : LinesMoved [.lineSet id1 b] s (s.lineSet id1 b) := by
  obtain ⟨par, k, samples, h, -⟩ := State.lineSet_any id1 b s
  exact ⟨par, k, samples, h⟩

theorem State.lineDir_moved (id1 : Nat) (dir : LineDirection) (s : State) :
    LinesMoved [.lineDir id1 dir] s (s.lineDir id1 dir) := ⟨_, _, _, rfl⟩

theorem setDirections_moved (base : Nat) (dir : LineDirection) (n : Nat) (s : State) :
    LinesMoved ((List.range n).map (fun i => .lineDir (base + i) dir)) s (setDirections base dir n 0 s) :=
  ⟨_, _, _, setDirections_eq base dir n 0 s⟩

theorem releaseControls_moved (s : State) :
    LinesMoved [.lineSet 24 true, .lineSet 25 true, .lineSet 26 true, .lineDir 24 .output, .lineDir 25 .output,
      .lineDir 26 .output] s (releaseControls s) :=
  (((((State.lineSet_moved _ _ _).trans (State.lineSet_moved _ _ _)).trans (State.lineSet_moved _ _ _)).trans
    (State.lineDir_moved _ _ _)).trans (State.lineDir_moved _ _ _)).trans (State.lineDir_moved _ _ _)

/-- `SetAddress` at a deselected device (R191). -/
theorem setAddress_moved (a : Nat) {s : State} (hc : s.cfg.wf) (h : s.world.par.level.getLsbD lineCE = true) :
    LinesMoved (addressEvents s.cfg a) s (setAddress a s) := ⟨_, _, _, setAddress_eq hc h⟩

/-- `dataInput` is a run of line events, then `PAR_DIR` (R32). -/
theorem dataInput_moved (s : State) : LinesMoved (directionEvents .input) { s with parDir := .input } (dataInput s) := by
  obtain ⟨par, k, samples, h⟩ := setDirections_moved 16 .input 8 s
  exact ⟨par, k, samples, by rw [dataInput, h]; rfl⟩

/-- The line procedure of `PAR_INIT` (R193). -/
def initLines (s : State) : State :=
  setDirections 0 .output s.cfg.parAddrBits 0
    (setLines 0 (fun _ => false) s.cfg.parAddrBits 0 (releaseControls (dataInput s)))

theorem exec_parInit {s : State} (hs : s.seq = .idle) : exec .parInit s = .next (initLines s.beginOperation).returnOk := by
  unfold initLines releaseControls
  exact if_pos hs

theorem releaseControls_dataInput_cfg (s : State) : (releaseControls (dataInput s)).cfg = s.cfg :=
  ((dataInput_moved s).trans (releaseControls_moved (dataInput s))).cfg

/-- `PAR_INIT` sets its address lines as `SetAddress(0)` does (R191, R193). -/
theorem initLines_eq (s : State) :
    initLines s = setDirections 0 .output s.cfg.parAddrBits 0 (setAddress 0 (releaseControls (dataInput s))) := by
  simp only [initLines, setAddress, releaseControls_dataInput_cfg, Nat.zero_testBit]

theorem initLines_moved {s : State} (hc : s.cfg.wf) : LinesMoved (initEvents s.cfg) { s with parDir := .input } (initLines s) := by
  have hcontrols := (dataInput_moved s).trans (releaseControls_moved (dataInput s))
  have hce := (releaseControls_run (dataInput s)).1.1
  have hcfg := releaseControls_dataInput_cfg s
  rw [initLines_eq]
  generalize releaseControls (dataInput s) = t at *
  have haddr := setAddress_moved 0 (hcfg ▸ hc) hce
  have hall := (hcontrols.trans haddr).trans (setDirections_moved 0 .output s.cfg.parAddrBits _)
  simpa only [initEvents, addressEvents, hcfg, Nat.zero_testBit, Nat.zero_add] using hall

/-- The address lines stand at 0 after `PAR_INIT` (R193). -/
theorem initLines_address {s : State} (hc : s.cfg.wf) : lineAddress s.cfg (initLines s).world.par.level = 0 := by
  have hce := (releaseControls_run (dataInput s)).1.1
  have hcfg := releaseControls_dataInput_cfg s
  rw [initLines_eq, (setDirections_same ..).1]
  generalize releaseControls (dataInput s) = t at *
  rw [← hcfg] at hc ⊢
  rw [setAddress_eq hc hce]
  exact addressLevel_address hc (Config.wf_parCapacity hc) _

/-- The lines are read-safe after `PAR_INIT`, whatever they were before (R193). -/
theorem initLines_readSafe {s : State} (hc : s.cfg.wf) : (initLines s).ReadSafe := by
  obtain ⟨-, hin, hdir, -⟩ := dataInput_lines s
  obtain ⟨⟨hce, hoe, hwe⟩, hdir2, -, hin2, -⟩ := releaseControls_run (dataInput s)
  have hcfg := releaseControls_dataInput_cfg s
  have hb := Config.wf_parAddrBits hc
  rw [initLines_eq]
  generalize releaseControls (dataInput s) = t at *
  obtain ⟨hctl, hi, ho, hdir3, -⟩ := setAddress_run 0 (s := t) (hcfg ▸ hc)
  obtain ⟨hdir4, hin4⟩ := setDirections_lines 0 .output s.cfg.parAddrBits (setAddress 0 t) (by omega)
  refine ⟨hdir4.trans (hdir3.trans (hdir2.trans hdir)), hin4 ?_, ?_⟩
  · unfold ParDevice.DataIn
    rw [hi, ho]
    exact hin2 hin
  · unfold ParDevice.Released
    rw [(setDirections_same ..).1, hctl _ (by decide), hctl _ (by decide), hctl _ (by decide)]
    exact ⟨hce, hoe, hwe⟩

/-- Settles O33: R193's line procedure from any line state, then `Done`; what the lines hold is read off the procedure. -/
theorem parInitRequest : Obligations.ParInitRequest := by
  intro s hc hs
  have hc0 : s.beginOperation.cfg.wf := hc
  obtain ⟨par, k, samples, hmoved⟩ := initLines_moved hc0
  have hsafe := initLines_readSafe hc0
  have haddr := initLines_address hc0
  rw [hmoved] at hsafe haddr
  refine ⟨par, k, samples, _, exec_parInit hs, ?_, ?_, haddr⟩
  · rw [hmoved]
    simp [State.returnOk, State.complete, State.beginOperation, World.log, World.emit, hs]
  · rw [hmoved]; exact hsafe

/-! `PAR_READ_BYTE` -/

/-- A sample leaves a device with no write cycle as it is (R95). -/
theorem ParDevice.tick_idle {p : ParDevice} (c : Config) (h : p.cycle = none) : p.tick c = p := by
  unfold ParDevice.tick
  rw [h]

/-- A read finds the device's own byte: nothing given from outside, no write cycle, the data lines inputs (R96). -/
theorem sampled_memory {c : Config} {level : BitVec 27} {w : World} (h : w.samples = []) (hcycle : w.par.cycle = none)
    (hin : w.par.DataIn) : sampled c level w = w.par.mem.read (lineAddress c level) := by
  simp [sampled, h, ParDevice.tick_idle c hcycle, hcycle, dataLinesIn, hin.1]

theorem exec_parReadByte {s : State} {addr : Addr} (hs : s.seq = .idle) (ha : addr.toNat < s.cfg.parCapacity) :
    exec (.parReadByte addr) s = .next (readByte addr.toNat s.beginOperation).returnOk := by
  have hw : overWide s.beginOperation.cfg.parCapacity addr = false := overWide_eq_false ha
  simp only [exec, execParReadByte, State.request, if_pos hs, hw, Bool.false_eq_true, if_false]

theorem exec_parReadByte_overWide {s : State} {addr : Addr} (hs : s.seq = .idle) (ha : s.cfg.parCapacity ≤ addr.toNat) :
    exec (.parReadByte addr) s = .next (s.beginOperation.raise (.argument addr)) := by
  have hw : overWide s.beginOperation.cfg.parCapacity addr = true := (overWide_iff _ _).mpr ha
  simp only [exec, execParReadByte, State.request, if_pos hs, hw, if_true]

/-- The device as a byte read leaves it: one sample taken at the address (R96, R196). -/
def afterRead (c : Config) (a : Nat) (v : Byte) (p : ParDevice) : ParDevice :=
  { p.tick c with level := addressLevel c a p.level, drive := v }

/-- A `PAR_READ_BYTE` that runs, field by field (R196). -/
theorem exec_parReadByte_eq {s : State} {addr : Addr} {v : Byte} (hc : s.cfg.wf) (hs : s.seq = .idle)
    (hr : s.world.par.Released) (ha : addr.toNat < s.cfg.parCapacity)
    (hv : v = sampled s.cfg (addressLevel s.cfg addr.toNat s.world.par.level) s.world) :
    exec (.parReadByte addr) s = .next { s with
      dout := [v], failCount := 0, resLen := 1, resCode := 0x00
      world := { s.world.log (addressEvents s.cfg addr.toNat ++ sampleEvents v ++ [.done 0x00]) with
        par := afterRead s.cfg addr.toNat v s.world.par, free := s.world.free + 1, samples := s.world.samples.drop 1 } } := by
  rw [exec_parReadByte hs ha, readByte_eq (s := s.beginOperation) hc hr]
  simp [State.returnOk, State.complete, State.beginOperation, World.log, World.emit, afterRead, hs, hv]

/-- Settles O37: inside the device the read of R196 with one sample, that it ends read-safe by `exec_par_lines`; past its end
the error entry of R234. -/
theorem parReadByteRequest : Obligations.ParReadByteRequest := by
  intro s addr hc hs hsafe
  have ⟨_, hin, hreleased⟩ := hsafe
  refine ⟨fun ha => ?_, fun hp ha => ?_⟩
  · have hexec := exec_parReadByte_eq hc hs hreleased ha rfl
    have hafter := ((exec_par_lines hc rfl hexec).safe hsafe).1
    have haddr := addressLevel_address hc ha s.world.par.level
    refine ⟨_, _, _, hexec, rfl, fun _ _ h => sampled_cons h, fun h hcycle => ?_, fun hcycle => ?_, hafter, haddr⟩
    · rw [sampled_memory h hcycle hin, haddr]
    · rw [afterRead, ParDevice.tick_idle _ hcycle]
  · rw [exec_parReadByte_overWide hs ha, raise_clean s hs hp _ addr 0x04 (.inl ⟨rfl, rfl⟩)]

end Sys2Proof.Machine
end

section
/-! PROOFS. The page-boundary predicate (R212), and the page write that it rejects (R233, R239). -/

namespace Sys2Proof.Machine

/-! The predicate in its equivalent form; the rule's corner cases are read off it. -/

/-- A write crosses exactly when it runs past the end of its page; one of no bytes never does, as its address is in the page. -/
theorem crosses_iff_past_page_end {page : Nat} (a len : Nat) (hp : 0 < page) :
    crosses page a len = true ↔ page < a % page + len := by
  have hmod : a % page < page := Nat.mod_lt a hp
  rw [crosses_iff hp]
  exact ⟨And.right, fun h => ⟨by omega, h⟩⟩

theorem crosses_eq_false_iff {page : Nat} (a len : Nat) (hp : 0 < page) :
    crosses page a len = false ↔ a % page + len ≤ page := by
  rw [← Bool.not_eq_true, crosses_iff_past_page_end a len hp, Nat.not_lt]

/-! `SEE_WRITE_PAGE` -/

/-- A page write that passes the two argument checks and crosses a page raises the error of R233 before it sends a frame. -/
theorem exec_seeWritePage_crossing {s : State} {addr : Addr} {arg : BitVec 32} {data : List Byte} (hs : s.seq = .idle)
    (ha : addr.toNat < s.cfg.seeCapacity) (hlen : data.length = arg.toNat)
    (hcross : crosses s.cfg.seePage addr.toNat arg.toNat = true) :
    exec (.seeWritePage addr arg data) s = .next (s.beginOperation.raise (.pageBoundary addr)) := by
  simp only [exec, execSeeWritePage, State.requestOrRefuse, if_pos hs, State.beginOperation_cfg, overWide_eq_false ha,
    payloadMismatch_eq_false hlen, hcross, Bool.false_eq_true, if_false, if_true]

/-- Settles O9: the predicate by its equivalent form, the rejection by the error entry of R233. -/
theorem crossesPage : Obligations.CrossesPage := by
  refine ⟨fun page a len hp => ?predicate, fun s addr arg data hs hphase ha hlen hcross => ?rejection⟩
  case predicate =>
    refine ⟨?definition, ?equivalentForm, ?endsWithPage, ?longerThanPage, ?noBytes⟩
    case definition => rw [crosses, decide_eq_true_iff]
    case equivalentForm => exact fun _ => crosses_iff_past_page_end a len hp
    case endsWithPage => exact fun h => (crosses_eq_false_iff a len hp).mpr h.le
    case longerThanPage => exact fun h => (crosses_iff_past_page_end a len hp).mpr (by omega)
    case noBytes => exact (crosses_eq_false_iff a 0 hp).mpr (Nat.mod_lt a hp).le
  case rejection =>
    rw [exec_seeWritePage_crossing hs ha hlen hcross, raise_clean s hs hphase _ addr 0x03 (.inr ⟨rfl, rfl⟩)]

end Sys2Proof.Machine
end

section
/-! PROOFS. What every step keeps: the three invariants, the trace, and how an operation ends. -/

namespace Sys2Proof.Machine

/-- What a property of states has to survive to be an invariant of the machine: the request latch, a reset at whatever event
it comes, a busy poll that goes on, the rejection of an illegal request, and an instruction. What a reset leaves of the world
is in good order if the property implies good order. -/
structure Kept (P : State → Prop) : Prop where
  latch : ∀ (s : State) (caller : List Input) (w : Wire), P s → P (State.present w { s with caller := caller })
  reset : ∀ (s : State) (caller : List Input) (w : World), P s →
    ((∀ u, P u → WorldGood u.cfg u.world) → WorldGood s.cfg w) →
    P { State.reset with cfg := s.cfg, world := { w with trace := [] }, caller := caller }
  resume : ∀ s : State, s.cfg.wf → s.seq ≠ .idle → P s → P (resume s)
  reject : ∀ (s : State) (e : OpError), s.seq = .idle → P s → P (s.beginOperation.raise e)
  exec : ∀ (s t : State) (i : Instr), s.cfg.wf → s.seq = .idle → P s → exec i s = .next t → P t

theorem Kept.runWire {P : State → Prop} (hP : Kept P) {s t : State} {w : Wire} {caller : List Input} (hc : s.cfg.wf)
    (hs : s.seq = .idle) (h : P s) (hrun : runWire w { s with caller := caller } = .next t) : P t := by
  have hlatched := hP.latch s caller w h
  rcases runWire_cases hrun with ⟨i, -, hexec⟩ | ⟨-, rfl⟩
  · exact hP.exec _ t i (by simpa using hc) (by simpa using hs) hlatched hexec
  · exact hP.reject _ _ (by simpa using hs) hlatched

/-- The induction step of every invariant, over the cases of `step_cases`. -/
theorem Kept.step {P : State → Prop} (hP : Kept P) {s t : State} (h : P s) (hstep : step s = .next t) : P t := by
  obtain ⟨hc, hcases⟩ := step_cases hstep
  rcases hcases with ⟨rest, -, rfl⟩ | ⟨-, -, rfl⟩ | ⟨w, rest, -, hs, hrun⟩ | ⟨word, din, count, rest, -, hs, hrun⟩
  case inl =>
    exact hP.reset s rest _ h fun hgood => WorldGood.abandoned (s := { s with caller := rest }) hc (hgood s h)
  case inr.inl =>
    by_cases hs : s.seq = .idle
    · rwa [resume_idle hs]
    · exact hP.resume s hc hs h
  case inr.inr.inl => exact hP.runWire hc hs h hrun
  case inr.inr.inr =>
    obtain ⟨w, rfl, hw⟩ := runCut_eq hrun
    refine hP.reset s rest w h fun hgood => hw hc (hgood s h) fun u hu => ?_
    have hcfg : u.cfg = s.cfg := (runWire_same hu).1
    exact hcfg ▸ hgood u (hP.runWire hc hs h hu)

/-- An instruction is a request of one of the three units, or a lone frame (R2, R107). -/
theorem instr_cases (i : Instr) :
    norRequest i = true ∨ parRequest i = true ∨ seeRequest i = true ∨ isRequest i = false := by
  cases hi : isRequest i
  · exact .inr (.inr (.inr rfl))
  · rcases isRequest_cases hi with h | h | h
    exacts [.inl h, .inr (.inl h), .inr (.inr (.inl h))]

@[simp] theorem State.raise_world (e : OpError) (s : State) : (s.raise e).world = s.world.emit (.done e.code) := by
  cases e <;> rfl

@[simp] theorem State.raise_cfg (e : OpError) (s : State) : (s.raise e).cfg = s.cfg := by cases e <;> rfl

@[simp] theorem State.raise_parDir (e : OpError) (s : State) : (s.raise e).parDir = s.parDir := by cases e <;> rfl

/-! The memories (R61, R62) -/

theorem memoryInv_iff (s : State) : MemoryInv s ↔ WorldGood s.cfg s.world :=
  ⟨fun h => ⟨⟨h.norWf, h.norBelow, h.settings, h.jobInside⟩, ⟨h.seeWf, h.seeBelow⟩, h.parWf, h.parBelow⟩,
    fun ⟨hnor, hsee, hpar⟩ =>
      ⟨hnor.memWf, hnor.memBelow, hsee.1, hsee.2, hpar.1, hpar.2, hnor.settings, hnor.jobInside⟩⟩

theorem MemoryInv.congr {s t : State} (h : MemoryInv s) (hcfg : t.cfg = s.cfg) (hnor : t.world.nor = s.world.nor)
    (hsee : t.world.see = s.world.see) (hpar : t.world.par = s.world.par) : MemoryInv t := by
  rw [memoryInv_iff] at h ⊢
  rw [WorldGood, hcfg, hnor, hsee, hpar]
  exact h

/-- The device a NOR or WP operation reaches stays in good order, and the others are not touched. -/
theorem MemoryInv.norEnds {p : NorPhase} {n : Nat} {s t : State} (h : MemoryInv s) (hc : s.cfg.wf) (hends : NorEnds p n s t) :
    MemoryInv t := by
  obtain ⟨u, hu, hends⟩ := hends
  obtain ⟨hnor, hsee, hpar⟩ := (memoryInv_iff s).mp h
  have hgood : MemoryInv u := by
    rw [memoryInv_iff, WorldGood, hu.cfg, hu.see, hu.par]
    exact ⟨hu.good hc hnor, hsee, hpar⟩
  rcases hends with ⟨rfl | rfl, -⟩ | ⟨q, -, rfl, -⟩ <;> exact hgood.congr rfl rfl rfl rfl

theorem MemoryInv.parEnds {s t : State} (h : MemoryInv s) (hc : s.cfg.wf) (hends : ParEnds s t) : MemoryInv t := by
  obtain ⟨u, hu, hends⟩ := hends
  obtain ⟨hnor, hsee, hpar⟩ := (memoryInv_iff s).mp h
  have hgood : MemoryInv u := by
    rw [memoryInv_iff, WorldGood, hu.cfg, hu.see, hu.nor]
    exact ⟨⟨hnor.memWf, hnor.memBelow, hnor.settings, hnor.jobInside⟩, hsee, hu.good hc hpar⟩
  rcases hends with rfl | rfl <;> exact hgood.congr rfl rfl rfl rfl

theorem MemoryInv.seeStep {s t : State} (h : MemoryInv s) (hc : s.cfg.wf) (hstep : SeeStep s t) : MemoryInv t := by
  obtain ⟨hnor, hsee, hpar⟩ := (memoryInv_iff s).mp h
  rw [memoryInv_iff, WorldGood, hstep.cfg, hstep.nor, hstep.par]
  exact ⟨⟨hnor.memWf, hnor.memBelow, hnor.settings, hnor.jobInside⟩, hstep.good hc hsee, hpar⟩

theorem MemoryInv.frame {s t : State} (h : MemoryInv s) (hc : s.cfg.wf) (hstep : FrameStep s t) : MemoryInv t := by
  obtain ⟨hnor, hsee, hpar⟩ := (memoryInv_iff s).mp h
  have hcfg : t.cfg = s.cfg := by rw [hstep.block]
  rw [memoryInv_iff, WorldGood, hcfg, hstep.lines.1]
  exact ⟨hstep.nor hc hnor, hstep.see hc hsee, hpar⟩

theorem MemoryInv.reject {s : State} (h : MemoryInv s) (e : OpError) : MemoryInv (s.beginOperation.raise e) :=
  h.congr (by simp) (by simp) (by simp) (by simp)

theorem MemoryInv.exec {s t : State} {i : Instr} (h : MemoryInv s) (hc : s.cfg.wf) (hexec : exec i s = .next t) :
    MemoryInv t := by
  have hbegun : MemoryInv s.beginOperation := h.congr rfl rfl rfl rfl
  rcases instr_cases i with hi | hi | hi | hi
  · obtain ⟨-, ⟨_, -, rfl⟩ | ⟨-, _, hends⟩⟩ := exec_nor hi hexec
    exacts [h.reject _, hbegun.norEnds hc hends]
  · obtain ⟨-, ⟨_, -, rfl⟩ | ⟨-, hends⟩⟩ := exec_par hi hexec
    exacts [h.reject _, hbegun.parEnds hc hends]
  · obtain ⟨-, ⟨_, _, -, rfl⟩ | ⟨-, u, hu, rfl⟩⟩ := exec_see hi hexec
    exacts [h.reject _, (hbegun.seeStep hc hu).congr rfl rfl rfl rfl]
  · exact h.frame hc (exec_frame hi hexec)

theorem memoryInv_kept : Kept MemoryInv where
  latch _ _ _ h := h.congr (by simp) (by simp) (by simp) (by simp)
  reset _ _ _ _ hw := (memoryInv_iff _).mpr (hw fun u => (memoryInv_iff u).mp)
  resume s hc hs h := let ⟨_, hends⟩ := resume_ends s hs; h.norEnds hc hends
  reject _ e _ h := h.reject e
  exec _ _ _ hc _ h hexec := h.exec hc hexec

/-- Settles O53: good order of the memories is kept by each unit's procedures, by a lone frame and by a reset at any event. -/
theorem memoryInvKept : Obligations.MemoryInvKept := fun _ _ => memoryInv_kept.step

/-! The control state (R24, R29, R30, R33, R230) -/

/-- How an operation ends: with a code of R230, the phase idle. -/
theorem ControlInv.complete {s : State} {code : BitVec 8} (hphase : s.norPhase = .idle) (hcode : code.toNat ≤ 5)
    (hwarn : s.warn &&& 0xFC#8 = 0#8) (hattempts : s.attempts ≤ s.cfg.parRetryBudget) : ControlInv (s.complete code) :=
  ⟨hphase, hcode, hwarn, fun _ => rfl, hattempts⟩

theorem ControlInv.raise {s : State} (e : OpError) (hwarn : s.warn &&& 0xFC#8 = 0#8)
    (hattempts : s.attempts ≤ s.cfg.parRetryBudget) : ControlInv (s.raise e) := by
  have hcode : e.code.toNat ≤ 5 := by cases e <;> simp [OpError.code]
  exact .complete rfl hcode (by cases e <;> exact hwarn) (by cases e <;> exact hattempts)

theorem ControlInv.norEnds {p : NorPhase} {n : Nat} {s t : State} (hphase : s.norPhase = p) (hcode : s.resCode.toNat ≤ 5)
    (hwarn : s.warn &&& 0xFC#8 = 0#8) (hattempts : s.attempts ≤ s.cfg.parRetryBudget) (hends : NorEnds p n s t) :
    ControlInv t := by
  obtain ⟨u, hu, hends⟩ := hends
  have hbudget : u.attempts ≤ u.cfg.parRetryBudget := by rw [hu.attempts, hu.cfg]; exact hattempts
  rcases hends with ⟨rfl | rfl, hidle⟩ | ⟨q, hq, rfl, hpoll⟩
  · exact .complete (hidle hphase) (by decide) (hu.warn hwarn) hbudget
  · exact .complete (hidle hphase) (by decide) (hu.warn hwarn) hbudget
  · exact ⟨hpoll hphase, hu.results.1 ▸ hcode, hu.warn hwarn, fun h => absurd h hq, hbudget⟩

theorem ControlInv.exec {s t : State} {i : Instr} (h : ControlInv s) (hc : s.cfg.wf) (hs : s.seq = .idle)
    (hexec : exec i s = .next t) : ControlInv t := by
  have hphase : s.norPhase = .idle := by rw [h.phase, hs]; rfl
  have hraise (e : OpError) : ControlInv (s.beginOperation.raise e) := .raise e h.warnings h.attempts
  rcases instr_cases i with hi | hi | hi | hi
  · obtain ⟨-, ⟨_, -, rfl⟩ | ⟨-, _, hends⟩⟩ := exec_nor hi hexec
    exacts [hraise _, .norEnds (s := s.beginOperation) hphase h.code h.warnings h.attempts hends]
  · have hlines := exec_par_lines hc hi hexec
    obtain ⟨-, ⟨_, -, rfl⟩ | ⟨-, u, hu, hends⟩⟩ := exec_par hi hexec
    · exact hraise _
    · have hwarn : u.warn &&& 0xFC#8 = 0#8 := by rw [hu.kept.1]; exact h.warnings
      have hbudget : t.attempts ≤ t.cfg.parRetryBudget := hlines.cfg ▸ hlines.attempts h.attempts
      rcases hends with rfl | rfl <;> exact .complete (hu.phase hphase) (by decide) hwarn hbudget
  · obtain ⟨-, ⟨_, _, -, rfl⟩ | ⟨-, u, hu, rfl⟩⟩ := exec_see hi hexec
    · exact hraise _
    · have hbudget : u.attempts ≤ u.cfg.parRetryBudget := by rw [hu.attempts, hu.cfg]; exact h.attempts
      exact .complete (hu.phase.trans hphase) (by decide) (hu.warn h.warnings) hbudget
  · rw [(exec_frame hi hexec).block]
    exact ⟨h.phase, h.code, h.warnings, h.length, h.attempts⟩

theorem controlInv_kept : Kept ControlInv where
  latch s caller w h := by
    rw [State.present_eq]
    exact ⟨h.phase, h.code, h.warnings, h.length, h.attempts⟩
  reset _ _ _ _ _ := ⟨rfl, Nat.zero_le _, BitVec.zero_and, fun _ => rfl, Nat.zero_le _⟩
  resume s _ hs h := let ⟨_, hends⟩ := resume_ends s hs; .norEnds h.phase h.code h.warnings h.attempts hends
  reject _ e _ h := .raise e h.warnings h.attempts
  exec _ _ _ hc hs h hexec := h.exec hc hs hexec

/-- Settles O54: every operation ends with a code of R230 in phase idle, or waits in a poll whose phase fits. -/
theorem controlInvKept : Obligations.ControlInvKept := fun _ _ => controlInv_kept.step

/-! The lines (R190, R199) -/

theorem LineInv.congr {s t : State} (h : LineInv s) (hdir : t.parDir = s.parDir) (hpar : t.world.par = s.world.par) :
    LineInv t := by
  rcases h with h | h
  exacts [.inl (hdir.trans h), .inr (h.same hdir hpar)]

theorem LineInv.norEnds {p : NorPhase} {n : Nat} {s t : State} (h : LineInv s) (hends : NorEnds p n s t) : LineInv t := by
  obtain ⟨u, hu, ⟨rfl | rfl, -⟩ | ⟨q, -, rfl, -⟩⟩ := hends <;> exact h.congr hu.parDir hu.par

theorem LineInv.exec {s t : State} {i : Instr} (h : LineInv s) (hc : s.cfg.wf) (hexec : exec i s = .next t) :
    LineInv t := by
  have hraise (e : OpError) : LineInv (s.beginOperation.raise e) := h.congr (by simp) (by simp)
  rcases instr_cases i with hi | hi | hi | hi
  · have hbegun : LineInv s.beginOperation := h.congr rfl rfl
    obtain ⟨-, ⟨_, -, rfl⟩ | ⟨-, _, hends⟩⟩ := exec_nor hi hexec
    exacts [hraise _, hbegun.norEnds hends]
  · have hlines := exec_par_lines hc hi hexec
    rcases h with h | h
    exacts [hlines.unknown h, .inr (hlines.safe h).1]
  · obtain ⟨-, ⟨_, _, -, rfl⟩ | ⟨-, u, hu, rfl⟩⟩ := exec_see hi hexec
    exacts [hraise _, h.congr hu.parDir hu.par]
  · have hstep := exec_frame hi hexec
    exact h.congr (by rw [hstep.block]) hstep.lines.1

theorem lineInv_kept : Kept LineInv where
  latch s caller w h := h.congr (by rw [State.present_eq]) (by simp)
  reset _ _ _ _ _ := .inl rfl
  resume s _ hs h := let ⟨_, hends⟩ := resume_ends s hs; h.norEnds hends
  reject _ e _ h := h.congr (by simp) (by simp)
  exec _ _ _ hc _ h hexec := h.exec hc hexec

/-- Settles O55: a PAR operation ends read-safe or leaves the direction unknown, and nothing else touches the lines. -/
theorem lineInvKept : Obligations.LineInvKept := fun _ _ => lineInv_kept.step

/-- Settles O41: from read-safe lines every PAR operation is a run of line events out of contention that ends read-safe. -/
theorem parNeverContends : Obligations.ParNeverContends := by
  intro s t i hc _ hi hsafe hexec
  obtain ⟨hends, -, events, htrace, hrun⟩ := (exec_par_lines hc hi hexec).safe hsafe
  exact ⟨hends, events, htrace, by simpa [neverContends] using hrun []⟩

/-- Settles O56: by evaluation of the reset state. -/
theorem invariantsAtReset : Obligations.InvariantsAtReset :=
  ⟨(memoryInv_iff _).mpr ⟨⟨Memory.nil_wf, by simp [State.reset, World.initial, NorDevice.initial], by decide,
      by simp [State.reset, World.initial, NorDevice.initial]⟩,
    ⟨Memory.nil_wf, by simp [State.reset, World.initial, SeeDevice.initial]⟩,
    ⟨Memory.nil_wf, by simp [State.reset, World.initial, ParDevice.initial]⟩⟩,
  ⟨rfl, Nat.zero_le _, BitVec.zero_and, fun _ => rfl, Nat.zero_le _⟩, .inl rfl⟩

end Sys2Proof.Machine
end

section
/-! PROOFS. Encoding and decoding (R100 to R110). -/

namespace Sys2Proof

/-! Requests -/

/-- The decoder reads the three fields of a request word back, and tests `op` alone (R100, R102). -/
theorem decode_requestWord (c : Config) (op : BitVec 8) (addr : Addr) (arg : BitVec 32) (din : List Byte) {i : Instr}
    (h : ∀ word, opField word = op → addrField word = addr → argField word = arg → decodeRequest word din = .ok i) :
    decode c (.request (requestWord op addr arg) din) = .ok i :=
  h _ (opField_requestWord ..) (addrField_requestWord ..) (argField_requestWord ..)

/-! Frames on the 4-wire bus -/

/-- A command goes out and comes back unless it is a program command with more than a page (R108). -/
theorem decode_norWire {c : Config} (hc : c.wf) {cmd : NorCmd} (hp : ∀ a d, cmd = .pp a d → d.length ≤ c.norPage)
    (n : Nat) : decode c (norWire c cmd n) = frameInstr n cmd := by
  simp only [decode, norWire, decodeNor_bytes (Machine.Config.wf_nodup hc) cmd hp]

theorem decode_norWire_plain {c : Config} (hc : c.wf) {cmd : NorCmd} (hp : ∀ a d, cmd ≠ .pp a d) (n : Nat) :
    decode c (norWire c cmd n) = frameInstr n cmd :=
  decode_norWire hc (fun a d h => absurd h (hp a d)) n

theorem fixedRead_ok {want count : Nat} {i j : Instr} (h : fixedRead want count i = .ok j) : count = want ∧ j = i := by
  unfold fixedRead at h
  split at h
  · cases h
    exact ⟨‹_›, rfl⟩
  · cases h

/-- A row of the frame tables encodes as its command with the number of bytes it reads (R108). -/
theorem encode_frameInstr {c : Config} {n : Nat} {cmd : NorCmd} {i : Instr} (h : frameInstr n cmd = .ok i) :
    encode c i = norWire c cmd n := by
  cases cmd
  case read a => cases h; rfl
  all_goals
    obtain ⟨rfl, rfl⟩ := fixedRead_ok h
    rfl

/-! Frames on the 2-wire bus -/

/-- Bit 7 of the first address byte of a two-wire frame is 0 (R64, R210). -/
theorem seeAddress_high (a : BitVec 15) : ((a.setWidth 16).extractLsb' 8 8).getLsbD 7 = false := by
  simp

/-- The two address bytes of a two-wire frame give the address back (R64). -/
theorem seeAddress_bytes (a : BitVec 15) :
    ((a.setWidth 16).extractLsb' 8 8 ++ (a.setWidth 16).extractLsb' 0 8 : BitVec 16).setWidth 15 = a := by
  rw [be16_bytes, BitVec.setWidth_setWidth_of_le _ (by decide), BitVec.setWidth_eq]

theorem decodeI2cWrite_address (c : Config) (a : BitVec 15) (data : List Byte) :
    decodeI2cWrite c c.seeDevAddr (be16 (a.setWidth 16) ++ data) =
      .ok (if data = [] then .i2cA a else .i2cAD a data) := by
  simp only [decodeI2cWrite, be16, List.cons_append, List.nil_append, ne_eq, not_true_eq_false, if_false,
    seeAddress_high, seeAddress_bytes, Bool.false_eq_true]
  split <;> rfl

/-- Two address bytes whose first bit is 0 are the bytes of a 15-bit address (R64). -/
theorem be16_seeAddress {hi lo : Byte} (h : hi.getLsbD 7 = false) :
    be16 (((hi ++ lo).setWidth 15).setWidth 16) = [hi, lo] := by
  have hself : ((hi ++ lo).setWidth 15).setWidth 16 = (hi ++ lo : BitVec 16) := by
    apply BitVec.eq_of_getLsbD_eq
    intro i hi16
    rw [BitVec.getLsbD_setWidth, BitVec.getLsbD_setWidth, append8_getLsbD]
    rcases Nat.lt_or_ge i 15 with h15 | h15
    · simp [hi16, h15]
    · obtain rfl : i = 15 := by omega
      simpa using h
  rw [hself, be16_append]

theorem decodeI2cWrite_ok {c : Config} {dev : DevAddr} {bytes : List Byte} {i : Instr}
    (h : decodeI2cWrite c dev bytes = .ok i) : encode c i = .i2cWrite dev bytes := by
  unfold decodeI2cWrite at h
  split at h
  · cases h
  · rename_i hdev
    rw [ne_eq, not_not] at hdev
    subst hdev
    split at h
    · rename_i hi lo data
      split at h
      · cases h
      · rename_i hbit
        have hbytes := be16_seeAddress (lo := lo) (Bool.not_eq_true _ ▸ hbit)
        split at h
        · rename_i hdata
          cases h
          rw [encode, hbytes, hdata]
        · cases h
          rw [encode, hbytes]
          rfl
    · cases h

/-! The statements -/

/-- Settles O1: the fields of the request word, the command bytes of a frame and the two address bytes of a two-wire frame
are each read back by the decoder. -/
theorem decodeOfEncode : Obligations.DecodeOfEncode := by
  intro c i hc hi
  cases i
  case cmdPp a d =>
    have hd : d.length ≤ c.norPage := by simpa [Instr.wf] using (Bool.and_eq_true_iff.mp hi).2
    exact decode_norWire hc (fun _ _ h => by cases h; exact hd) 0
  case i2cAD a d =>
    have hd : d ≠ [] := by
      rintro rfl
      simp [Instr.wf] at hi
    exact (decodeI2cWrite_address c a d).trans (by rw [if_neg hd])
  case i2cA a => exact decodeI2cWrite_address c a []
  case i2cRN n => simp [encode, decode, decodeI2cRead]
  case cmdWren | cmdWrdi | cmdRdsr1 | cmdRdsr2 | cmdRdsr3 | cmdWrsr1 | cmdSe | cmdBe64 | cmdCe | cmdRdid | cmdWake |
      cmdRsten | cmdRst | cmdRead => exact decode_norWire_plain hc (by simp) _
  all_goals
    refine decode_requestWord c _ _ _ _ fun word hop haddr harg => ?_
    simp only [decodeRequest, hop, haddr, harg]
    rfl

/-- Settles O2: the command of a frame gives its bytes back, and so do the two address bytes of a two-wire frame. -/
theorem framesHaveOneMeaning : Obligations.FramesHaveOneMeaning := by
  intro c w i hw h
  cases w with
  | request word din => exact absurd rfl (hw word din)
  | spi tx count =>
    simp only [decode] at h
    split at h
    · rename_i cmd hcmd
      rw [encode_frameInstr h, norWire, ← (bytes_of_decodeNor hcmd).1]
    · cases h
  | i2cWrite dev bytes => exact decodeI2cWrite_ok h
  | i2cRead dev count =>
    simp only [decode, decodeI2cRead] at h
    split at h
    · cases h
    · rename_i hdev
      cases h
      rw [encode, not_not.mp hdev]

/-- Settles O3: by running the decoder. -/
theorem wordsDecode : Obligations.WordsDecode := by
  unfold Obligations.WordsDecode
  decide

end Sys2Proof
end

section
/-! PROOFS. Registers, errors and reset: where a request comes from, how it is rejected, what a reset leaves, and where the
model stops. -/

namespace Sys2Proof.Machine

/-! Where an instruction comes from -/

/-- An idle block runs what comes next from the caller (R158). -/
theorem step_wire {s : State} {w : Wire} {rest : List Input} (hc : s.cfg.wf) (hs : s.seq = .idle)
    (hcaller : s.caller = .wire w :: rest) : step s = runWire w { s with caller := rest } := by
  simp only [step, if_pos hc, hcaller, if_pos hs]

/-- Settles O4: what comes next decodes, and `runWire` runs it. -/
theorem stepRunsDecoded : Obligations.StepRunsDecoded := by
  intro s w rest i hc hs hcaller hdecode
  rw [step_wire hc hs hcaller]
  simp only [runWire, hdecode]

/-- The 233 codes that are not in R102 decode to no instruction (R103). -/
theorem decodeRequest_illegal {word : BitVec 64} (din : List Byte)
    (h : (opField word).toNat ∉ [0x10, 0x11, 0x12, 0x13, 0x14, 0x15, 0x16, 0x17, 0x18, 0x19, 0x1A, 0x20, 0x30, 0x31, 0x32, 0x33,
      0x34, 0x40, 0x41, 0x42, 0x43, 0x44, 0x45]) : decodeRequest word din = .error (.illegalOperation (opField word)) := by
  unfold decodeRequest
  split
  case h_24 => rfl
  all_goals
    rename_i hop
    exact absurd (by rw [hop]; decide) h

/-- Settles O5: the decoder tests `op` alone, and error entry writes no context register for this error (R235). -/
theorem illegalOperationRejected : Obligations.IllegalOperationRejected := by
  intro s word din rest hc hs hphase hcaller hop
  rw [step_wire hc hs hcaller]
  simp [runWire, decode, decodeRequest_illegal din hop, rejectWire, illegalRequest, State.request, State.present, hs,
    hphase, State.raise, State.recordContext, State.setPhase, State.complete, State.beginOperation, OpError.code, World.log,
    World.emit]

/-! Registers -/

/-- Settles O6: each register number selects its register. -/
theorem resultPort : Obligations.ResultPort := by
  intro s
  refine ⟨rfl, rfl, rfl, rfl, rfl, rfl, rfl, rfl, fun hvalid => ?identity, rfl, ?phase, ?direction, fun n hn => ?other⟩
  case identity => simp [State.resultPort, hvalid]
  case phase => cases h : s.norPhase <;> simp [State.resultPort, h, NorPhase.code]
  case direction => cases h : s.parDir <;> simp [State.resultPort, h, ParDir.code]
  case other =>
    unfold State.resultPort
    split
    case h_13 => rfl
    all_goals omega

/-- Settles O10: the mask bit by bit. -/
theorem clearedByte : Obligations.ClearedByte := by
  intro c s1 b hb
  simp [clearedStatus, hb]

/-! Requests that fail and pass their checks (R234, R239) -/

/-- A request of the NOR, WP or PAR unit is never refused when the block is idle (R158). -/
theorem exec_runs {i : Instr} {s : State} (hs : s.seq = .idle) (hi : norRequest i = true ∨ parRequest i = true) :
    ∃ t, exec i s = .next t := by
  cases i <;> simp only [norRequest, parRequest, Bool.false_eq_true, or_self] at hi <;> exact ⟨_, if_pos hs⟩

/-- A request of the SEE unit that fails its checks raises its error before it sends a frame. -/
theorem exec_see_malformed {i : Instr} {s : State} {a : Addr} {code : BitVec 8} (hs : s.seq = .idle)
    (hi : seeRequest i = true) (h : malformed s.cfg i = some (a, code)) :
    exec i s = .next (s.beginOperation.raise (rejection a code)) := by
  cases i <;> simp only [seeRequest, Bool.false_eq_true] at hi <;> simp only [malformed, reduceCtorEq] at h
  case seeWriteByte addr arg =>
    split at h
    · cases h
      simp [exec, execSeeWriteByte, State.requestOrRefuse, hs, (overWide_iff _ _).mpr ‹_›, rejection]
    · cases h
  case seeWritePage addr arg data =>
    simp only [exec, execSeeWritePage, State.requestOrRefuse, if_pos hs, State.beginOperation_cfg, overWide_iff,
      payloadMismatch_iff]
    split at h
    · rename_i harg
      cases h
      by_cases hwide : s.cfg.seeCapacity ≤ a.toNat
      · simp [hwide, rejection]
      · simp [hwide, harg.resolve_left hwide, rejection]
    · rename_i harg
      rw [not_or, not_not] at harg
      split at h
      · rename_i hcross
        cases h
        simp [harg, crosses, hcross, rejection]
      · cases h
  case seeReadByte addr =>
    split at h
    · cases h
      simp [exec, execSeeReadByte, State.requestOrRefuse, hs, (overWide_iff _ _).mpr ‹_›, rejection]
    · cases h
  case seeReadBytes addr arg =>
    simp only [exec, execSeeReadBytes, State.requestOrRefuse, if_pos hs, State.beginOperation_cfg, overWide_iff,
      pastEnd_iff]
    split at h
    · rename_i harg
      cases h
      by_cases hwide : s.cfg.seeCapacity ≤ a.toNat
      · simp [hwide, rejection]
      · simp [hwide, harg.resolve_left hwide, rejection]
    · cases h

/-- A lone frame is never malformed in the sense of R234. -/
theorem malformed_frame {c : Config} {i : Instr} (hi : isRequest i = false) : malformed c i = none := by
  cases i <;> simp only [isRequest, norRequest, parRequest, seeRequest, Bool.or_false, Bool.or_true,
    Bool.true_eq_false] at hi <;> rfl

theorem exec_malformed {i : Instr} {s : State} {a : Addr} {code : BitVec 8} (hs : s.seq = .idle)
    (h : malformed s.cfg i = some (a, code)) : exec i s = .next (s.beginOperation.raise (rejection a code)) := by
  rcases instr_cases i with hi | hi | hi | hi
  · obtain ⟨t, ht⟩ := exec_runs hs (.inl hi)
    obtain ⟨-, ⟨a', hm, rfl⟩ | ⟨hm, -⟩⟩ := exec_nor hi ht <;> rw [h] at hm <;> cases hm
    exact ht
  · obtain ⟨t, ht⟩ := exec_runs hs (.inr hi)
    obtain ⟨-, ⟨a', hm, rfl⟩ | ⟨hm, -⟩⟩ := exec_par hi ht <;> rw [h] at hm <;> cases hm
    exact ht
  · exact exec_see_malformed hs hi h
  · rw [malformed_frame hi] at h
    cases h

/-- The codes of a request that is rejected before any transport event (R233, R234). -/
theorem malformed_code {c : Config} {i : Instr} {a : Addr} {code : BitVec 8} (h : malformed c i = some (a, code)) :
    code = 0x04 ∨ code = 0x03 := by
  cases i <;> simp only [malformed, reduceCtorEq] at h
  case seeWritePage =>
    split at h
    · cases h; exact .inl rfl
    · split at h
      · cases h; exact .inr rfl
      · cases h
  all_goals
    split at h
    · cases h; exact .inl rfl
    · cases h

/-- Settles O7: the checks in their order, then the error entry of R240. -/
theorem malformedRejected : Obligations.MalformedRejected := by
  intro s i a code hs hphase h
  rw [exec_malformed hs h]
  refine congrArg _ (raise_clean s hs hphase _ a code ?_)
  rcases malformed_code h with rfl | rfl
  exacts [.inl ⟨rfl, rfl⟩, .inr ⟨rfl, rfl⟩]

/-- Settles O8: a request that passes the checks and has ended has one of the three codes. -/
theorem wellFormedNotRejected : Obligations.WellFormedNotRejected := by
  intro s t i hi hm hexec hidle
  obtain ⟨-, u, -, -, -, -, -, ⟨code, rfl, hcode, -⟩ | ⟨q, hq, rfl⟩⟩ := exec_request hi hexec
  exacts [hcode hm, absurd hidle hq]

/-! Reset (R41, R260) -/

theorem step_reset {s : State} {rest : List Input} (hc : s.cfg.wf) (hcaller : s.caller = .reset :: rest) :
    step s = .next (State.takeReset { s with caller := rest }) := by
  simp only [step, if_pos hc, hcaller]

theorem step_cut {s : State} {word : BitVec 64} {din : List Byte} {count : Nat} {rest : List Input} (hc : s.cfg.wf)
    (hs : s.seq = .idle) (hcaller : s.caller = .cut word din count :: rest) :
    step s = runCut word din count { s with caller := rest } := by
  simp only [step, if_pos hc, hcaller, if_pos hs]

theorem abandonedWorld_idle {s : State} (hs : s.seq = .idle) : abandonedWorld s = s.world := by
  simp only [abandonedWorld, hs]

/-- Settles O11: a reset, at rest or at any event, is the reset state but for configuration, world and caller. -/
theorem resetValues : Obligations.ResetValues := by
  intro s rest hc
  refine ⟨fun hcaller => ?_, fun t word din count hs hcaller hstep => ?_⟩
  · refine ⟨_, step_reset hc hcaller, ?_, rfl, rfl, fun hs => ?_⟩
    · simp [State.AtReset, State.takeReset, State.reset]
    · rw [State.takeReset, abandonedWorld_idle (s := { s with caller := rest }) hs]
  · rw [step_cut hc hs hcaller] at hstep
    obtain ⟨w, rfl, -⟩ := runCut_eq hstep
    simp [State.AtReset, State.reset]

/-- What the abandoned command of a poll aimed at in the NOR device: all of it from the final poll, but not SR1 from the first,
in which no status write is under way (U6, log 17). -/
theorem abandonedWorld_mutating {s : State} {tx : List Byte} {op : Addr} {after : After}
    (hs : s.seq = .firstPoll tx op after ∨ s.seq = .finalPoll tx after) :
    ∃ e, abandonedWorld s = s.world.abandonNor s.cfg e ∧ (e = frameEffect s.cfg tx ∨ e = (frameEffect s.cfg tx).unsent) ∧
      (s.seq = .firstPoll tx op after → e = (frameEffect s.cfg tx).unsent) := by
  rcases hs with hs | hs
  · exact ⟨_, by simp only [abandonedWorld, hs], .inr rfl, fun _ => rfl⟩
  · exact ⟨_, by simp only [abandonedWorld, hs], .inl rfl, by simp [hs]⟩

theorem unsent_ne_writeStatus (e : NorEffect) (v : Byte) : e.unsent ≠ .writeStatus v := by
  cases e <;> simp [NorEffect.unsent]

theorem commandEffect_writeStatus {c : Config} {cmd : NorCmd} {v : Byte} (h : commandEffect c cmd = some (.writeStatus v)) :
    cmd = .wrsr1 v := by
  cases cmd <;> simp only [commandEffect, Option.some.injEq, reduceCtorEq] at h
  case wrsr1 => cases h; rfl
  case pp => split at h <;> cases h

theorem frameEffect_writeStatus {c : Config} {tx : List Byte} {v : Byte} (h : frameEffect c tx = .writeStatus v) :
    decodeNor c tx = .ok (.wrsr1 v) := by
  obtain ⟨cmd, hcmd, heffect⟩ := frameEffect_eq h (by simp)
  rw [hcmd, commandEffect_writeStatus heffect]

/-- What is aimed at in memory is the same before and after the command frame has been sent. -/
theorem of_unsent {e f : NorEffect} (h : e.unsent = f) (hf : (∃ a d, f = .program a d) ∨ ∃ start len, f = .erase start len) :
    e = f := by
  cases e <;> rcases hf with ⟨_, _, rfl⟩ | ⟨_, _, rfl⟩ <;> simp_all [NorEffect.unsent]

/-- Settles O12: a reset is taken at any time, and what it frees in the NOR device is what `NorDevice.abandon` says. -/
theorem resetOutOfHang : Obligations.ResetOutOfHang := by
  intro s rest hc _ hcaller
  refine ⟨_, step_reset hc hcaller, rfl, rfl, ?see, ?par, fun addr n hs => ?reading, fun tx op after hs => ?mutating⟩
  case see => simp only [State.takeReset, abandonedWorld]; split <;> rfl
  case par => simp only [State.takeReset, abandonedWorld]; split <;> rfl
  case reading => simp only [State.takeReset, abandonedWorld, hs]
  case mutating =>
    obtain ⟨e, hworld, he, hunsent⟩ := abandonedWorld_mutating (s := { s with caller := rest }) hs
    have hnor : (State.takeReset { s with caller := rest }).world.nor = (s.world.nor.abandon s.cfg s.world.free e).1 := by
      rw [State.takeReset, hworld]
      rfl
    obtain ⟨mem, status, wel, job, hdevice, hjob, hstatus, hmem⟩ := s.world.nor.abandon_spec s.cfg s.world.free e
    rw [hnor, hdevice]
    refine ⟨⟨mem, status, wel, job, rfl, hjob, fun hkept => hstatus fun v hv => ?_⟩, fun a haim => ?_⟩
    · rcases hkept with hfirst | hother
      · exact unsent_ne_writeStatus _ v ((hunsent hfirst).symm.trans hv)
      · rcases he with rfl | rfl
        exacts [hother v (frameEffect_writeStatus hv), unsent_ne_writeStatus _ v hv]
    · have haimed (f : NorEffect) (hf : (∃ p d, f = .program p d) ∨ ∃ start len, f = .erase start len) (hef : e = f) :
          ∃ cmd, decodeNor s.cfg tx = .ok cmd ∧ commandEffect s.cfg cmd = some f := by
        have hframe : frameEffect s.cfg tx = f := by
          rcases he with rfl | rfl
          exacts [hef, of_unsent hef hf]
        exact frameEffect_eq hframe (by rcases hf with ⟨_, _, rfl⟩ | ⟨_, _, rfl⟩ <;> simp)
      refine hmem a (fun p d hp => ?_) (fun start len hp => ?_)
      · obtain ⟨cmd, hcmd, heffect⟩ := haimed _ (.inl ⟨p, d, rfl⟩) hp
        exact (haim cmd _ hcmd heffect).1 p d rfl
      · obtain ⟨cmd, hcmd, heffect⟩ := haimed _ (.inr ⟨start, len, rfl⟩) hp
        exact (haim cmd _ hcmd heffect).2 start len rfl

end Sys2Proof.Machine
end

section
/-! PROOFS. Where the model stops: a busy block, a bad configuration, a frame inside the write cycle of the serial EEPROM, a
lone frame to no address or of no format. -/

namespace Sys2Proof.Machine

/-- A busy block runs nothing: a request waits for its caller to present it again (R158), a lone frame would be a second
master's (R72). -/
theorem exec_running {s : State} (hs : s.seq ≠ .idle) (i : Instr) :
    exec i s = .refused (if isRequest i then .operationRunning else .busOwned) := by
  cases i
  case cmdWren | cmdWrdi | cmdRdsr1 | cmdRdsr2 | cmdRdsr3 | cmdWrsr1 | cmdPp | cmdSe | cmdBe64 | cmdCe | cmdRdid |
      cmdWake | cmdRsten | cmdRst | cmdRead | i2cAD | i2cA | i2cRN => exact if_pos hs
  all_goals exact if_neg hs

/-! The SEE unit -/

/-- What a request of the SEE unit that passes its checks runs (R214 to R218); `SEE_INIT` has no frame that could be
refused. -/
def seeProcedure (i : Instr) (s : State) : Except Refusal State :=
  match i with
  | .seeWriteByte a arg => s.writeFrame a.toNat [byteValue arg]
  | .seeWritePage a _ data => s.writeFrame a.toNat data
  | .seeReadByte a => s.readFrame a.toNat 1
  | .seeReadBytes a n => if n = 0 then .ok s else s.readFrame a.toNat n.toNat
  | .seeBulkErase arg => bulkEraseLoop (byteValue arg) (s.cfg.seeCapacity / s.cfg.seePage) 0 s
  | _ => .ok s

/-- A request of the SEE unit that passes its checks runs its procedure, and ends with code 0x00 or is refused. -/
theorem exec_see_passing {i : Instr} {s : State} (hs : s.seq = .idle) (hi : seeRequest i = true) (hinit : i ≠ .seeInit)
    (hm : malformed s.cfg i = none) :
    exec i s = match seeProcedure i s.beginOperation with
      | .ok t => .next t.returnOk
      | .error r => .refused r := by
  have hanswer (r : Except Refusal State) :
      (match andReturnOk r with
        | .ok t => Host.Outcome.next t
        | .error e => .refused e : Host.Outcome State Fault Refusal) = match r with
        | .ok t => .next t.returnOk
        | .error e => .refused e := by
    cases r <;> rfl
  cases i <;> simp only [seeRequest, Bool.false_eq_true] at hi
  case seeInit => exact absurd rfl hinit
  case seeWriteByte a arg =>
    have ha : ¬ s.cfg.seeCapacity ≤ a.toNat := by simpa [malformed] using hm
    simp only [exec, execSeeWriteByte, State.requestOrRefuse, if_pos hs, State.beginOperation_cfg, overWide_iff, if_neg ha]
    exact hanswer _
  case seeWritePage a n data =>
    obtain ⟨⟨ha, hn⟩, hcross⟩ : (¬ s.cfg.seeCapacity ≤ a.toNat ∧ ¬ data.length ≠ n.toNat) ∧
        crosses s.cfg.seePage a.toNat n.toNat = false := by
      simp only [malformed] at hm
      split at hm
      · cases hm
      · rename_i harg
        split at hm
        · cases hm
        · rename_i hcross
          exact ⟨not_or.mp harg, decide_eq_false hcross⟩
    simp only [exec, execSeeWritePage, State.requestOrRefuse, if_pos hs, State.beginOperation_cfg, overWide_iff,
      payloadMismatch_iff, if_neg ha, if_neg hn, hcross, Bool.false_eq_true, if_false]
    exact hanswer _
  case seeReadByte a =>
    have ha : ¬ s.cfg.seeCapacity ≤ a.toNat := by simpa [malformed] using hm
    simp only [exec, execSeeReadByte, State.requestOrRefuse, if_pos hs, State.beginOperation_cfg, overWide_iff, if_neg ha]
    exact hanswer _
  case seeReadBytes a n =>
    obtain ⟨ha, hn⟩ : ¬ s.cfg.seeCapacity ≤ a.toNat ∧ ¬ s.cfg.seeCapacity < a.toNat + n.toNat := by
      simp only [malformed] at hm
      split at hm
      · cases hm
      · exact not_or.mp ‹_›
    simp only [exec, execSeeReadBytes, State.requestOrRefuse, if_pos hs, State.beginOperation_cfg, overWide_iff,
      pastEnd_iff, if_neg ha, if_neg hn, seeProcedure]
    by_cases h0 : n = 0
    · simp only [if_pos h0]
    · simp only [if_neg h0]
      exact hanswer _
  case seeBulkErase arg =>
    simp only [exec, execSeeBulkErase, State.requestOrRefuse, if_pos hs]
    exact hanswer _

/-! Frames inside the write cycle (U5) -/

theorem i2cWrite_refused {s : State} (h : s.world.see.cycleLeft ≠ 0) (a : Nat) (data : List Byte) :
    s.i2cWrite a data = .error .insideWriteCycle := by
  rw [State.i2cWrite_eq, if_pos h]

theorem writeFrame_refused {s : State} (h : s.world.see.cycleLeft ≠ 0) (a : Nat) (data : List Byte) :
    s.writeFrame a data = .error .insideWriteCycle := by
  simp only [State.writeFrame, i2cWrite_refused h]

theorem readFrame_refused {s : State} (h : s.world.see.cycleLeft ≠ 0) (a n : Nat) :
    s.readFrame a n = .error .insideWriteCycle := by
  simp only [State.readFrame, i2cWrite_refused h]

/-- One page of a bulk erase: the progress event due, the page's frame, and the pages after it (R218). -/
theorem bulkEraseLoop_succ (fill : Byte) (n p : Nat) (s : State) :
    bulkEraseLoop fill (n + 1) p s =
      match (s.progress .erase p (p * s.cfg.seePage)).writeFrame (p * s.cfg.seePage)
        (List.replicate s.cfg.seePage fill) with
      | .ok u => bulkEraseLoop fill n (p + 1) u
      | .error r => .error r := rfl

theorem State.progress_see (label : ProgressLabel) (i a : Nat) (s : State) :
    (s.progress label i a).world.see = s.world.see ∧ (s.progress label i a).cfg = s.cfg := by
  rw [progress_eq]
  exact ⟨rfl, rfl⟩

theorem bulkEraseLoop_refused {s : State} (h : s.world.see.cycleLeft ≠ 0) (fill : Byte) {n : Nat} (hn : 0 < n) (p : Nat) :
    bulkEraseLoop fill n p s = .error .insideWriteCycle := by
  obtain ⟨m, rfl⟩ : ∃ m, n = m + 1 := ⟨n - 1, by omega⟩
  obtain ⟨hsee, -⟩ := s.progress_see .erase p (p * s.cfg.seePage)
  rw [bulkEraseLoop_succ, writeFrame_refused (hsee ▸ h)]

/-- A bulk erase that does not wait out the write cycle meets it at its second page (R218, U5). -/
theorem bulkEraseLoop_meets_cycle {s : State} (hc : s.cfg.wf) (hwait : s.cfg.tSettle < s.cfg.seeWriteCycle) (fill : Byte)
    {n : Nat} (hn : 1 < n) : bulkEraseLoop fill n 0 s = .error .insideWriteCycle := by
  by_cases h : s.world.see.cycleLeft = 0
  case neg => exact bulkEraseLoop_refused h fill (by omega) 0
  case pos =>
    obtain ⟨m, rfl⟩ : ∃ m, n = m + 1 := ⟨n - 1, by omega⟩
    have hpage : List.replicate s.cfg.seePage fill ≠ [] := by
      have := Config.wf_seePage_pos hc
      simp
      omega
    obtain ⟨hsee, hcfg⟩ := s.progress_see .erase 0 0
    have hcycle : (s.progress .erase 0 0).cfg.seeWriteCycle - (s.progress .erase 0 0).cfg.tSettle ≠ 0 := by
      rw [hcfg]
      omega
    rw [bulkEraseLoop_succ, Nat.zero_mul,
      State.writeFrame_data (hsee ▸ h) (hcfg ▸ Config.wf_seeCapacity hc) hpage]
    exact bulkEraseLoop_refused hcycle fill (by omega) _

theorem seePages_pos {c : Config} (hc : c.wf) : 0 < c.seeCapacity / c.seePage :=
  Nat.div_pos (Nat.le_of_dvd (Config.wf_seeCapacity hc) (Config.wf_seePage hc)) (Config.wf_seePage_pos hc)

/-- Every procedure of the SEE unit begins with a frame, but for a read of no bytes. -/
theorem seeProcedure_refused {i : Instr} {s : State} (hc : s.cfg.wf) (h : s.world.see.cycleLeft ≠ 0)
    (hi : seeRequest i = true) (hinit : i ≠ .seeInit) (hread : ∀ a, i ≠ .seeReadBytes a 0) :
    seeProcedure i s = .error .insideWriteCycle := by
  cases i <;> simp only [seeRequest, Bool.false_eq_true] at hi
  case seeInit => exact absurd rfl hinit
  case seeWriteByte => exact writeFrame_refused h _ _
  case seeWritePage => exact writeFrame_refused h _ _
  case seeReadByte => exact readFrame_refused h _ _
  case seeReadBytes a n =>
    have hn : n ≠ 0 := fun hn => hread a (by rw [hn])
    simp only [seeProcedure, if_neg hn, readFrame_refused h]
  case seeBulkErase => exact bulkEraseLoop_refused h _ (seePages_pos hc) 0

theorem i2cWriteFrame_refused {s : State} (hs : s.seq = .idle) (h : s.world.see.cycleLeft ≠ 0) {a : BitVec 15}
    (ha : a.toNat < s.cfg.seeCapacity) (data : List Byte) : i2cWriteFrame a data s = .refused .insideWriteCycle := by
  simp only [i2cWriteFrame, ne_eq, hs, not_true_eq_false, if_false, if_pos ha, i2cWrite_refused h]

theorem i2cReadFrame_refused {s : State} (hs : s.seq = .idle) (h : s.world.see.cycleLeft ≠ 0) (n : Nat) :
    i2cReadFrame n s = .refused .insideWriteCycle := by
  simp only [i2cReadFrame, ne_eq, hs, not_true_eq_false, if_false, World.i2cRead_eq, h, not_false_eq_true, if_true]

/-! Lone frames to no address, or of no format (R62, R108, R110) -/

theorem norFrame_outside {s : State} (hs : s.seq = .idle) (cmd : NorCmd) (n : Nat) {a : Addr}
    (ha : s.cfg.norCapacity ≤ a.toNat) :
    norFrame cmd n (!overWide s.cfg.norCapacity a) s = .fault .addressOutsideDevice := by
  simp [norFrame, hs, (overWide_iff _ _).mpr ha]

theorem i2cWriteFrame_outside {s : State} (hs : s.seq = .idle) {a : BitVec 15} (ha : s.cfg.seeCapacity ≤ a.toNat)
    (data : List Byte) : i2cWriteFrame a data s = .fault .addressOutsideDevice := by
  simp [i2cWriteFrame, hs, ha]

/-- No frame is an illegal operation, which only a request can be (R103). -/
theorem decodeNor_legal {c : Config} {tx : List Byte} (op : BitVec 8) :
    decodeNor c tx ≠ .error (.illegalOperation op) := by
  have hbare (rest : List Byte) (cmd : NorCmd) : bareCommand rest cmd ≠ .error (.illegalOperation op) := by
    unfold bareCommand; split <;> simp
  have haddress (rest : List Byte) (cmd : Addr → NorCmd) : addressCommand rest cmd ≠ .error (.illegalOperation op) := by
    unfold addressCommand; split <;> simp
  have hstatus (rest : List Byte) : statusCommand rest ≠ .error (.illegalOperation op) := by
    unfold statusCommand; split <;> simp
  have hprogram (rest : List Byte) : programCommand c rest ≠ .error (.illegalOperation op) := by
    unfold programCommand; split
    · split <;> simp
    · simp
  have hite {p : Prop} [Decidable p] {a b : Except DecodeError NorCmd} (ha : a ≠ .error (.illegalOperation op))
      (hb : b ≠ .error (.illegalOperation op)) : (if p then a else b) ≠ .error (.illegalOperation op) := by
    split
    exacts [ha, hb]
  cases tx with
  | nil => simp [decodeNor]
  | cons b rest =>
    exact hite (hbare _ _) <| hite (hbare _ _) <| hite (hbare _ _) <| hite (hbare _ _) <| hite (hbare _ _) <|
      hite (hstatus _) <| hite (hprogram _) <| hite (haddress _ _) <| hite (haddress _ _) <| hite (hbare _ _) <|
      hite (hbare _ _) <| hite (hbare _ _) <| hite (hbare _ _) <| hite (hbare _ _) <| hite (haddress _ _) (by simp)

theorem frameInstr_legal {n : Nat} {cmd : NorCmd} (op : BitVec 8) : frameInstr n cmd ≠ .error (.illegalOperation op) := by
  have hfixed (want : Nat) (i : Instr) : fixedRead want n i ≠ .error (.illegalOperation op) := by
    unfold fixedRead; split <;> simp
  cases cmd
  case read => simp [frameInstr]
  all_goals exact hfixed _ _

theorem decode_frame_legal {c : Config} {w : Wire} (hw : ∀ word din, w ≠ .request word din) (op : BitVec 8) :
    decode c w ≠ .error (.illegalOperation op) := by
  cases w with
  | request word din => exact absurd rfl (hw word din)
  | spi tx n =>
    intro h
    simp only [decode] at h
    split at h
    · exact frameInstr_legal op h
    · cases h
      exact decodeNor_legal op ‹_›
  | i2cWrite dev bytes =>
    simp only [decode, decodeI2cWrite]
    split
    · simp
    · split
      · split_ifs <;> simp
      · simp
  | i2cRead dev n => simp only [decode, decodeI2cRead]; split <;> simp

theorem rejectWire_frame {e : DecodeError} (h : ∀ op, e ≠ .illegalOperation op) (s : State) :
    rejectWire e s = .refused (.noSuchFrame e) := by
  cases e
  case illegalOperation op => exact absurd rfl (h op)
  all_goals rfl

/-- Settles O13: the six places where the model stops, each by the law of the operation that stops. -/
theorem whereTheModelStops : Obligations.WhereTheModelStops := by
  refine ⟨fun s i hs => exec_running hs i, fun s hc => if_neg hc, fun s i hc hs hcycle hcases => ?cycle,
    fun s arg hc hs hwait hpages => ?erase, fun s i hs hcases => ?outside, fun s w rest e hc hs hcaller hw he => ?format⟩
  case cycle =>
    rcases hcases with ⟨hi, hinit, hread, hm⟩ | ⟨a, data, rfl, ha⟩ | ⟨a, rfl, ha⟩ | ⟨n, rfl⟩
    · rw [exec_see_passing hs hi hinit hm, seeProcedure_refused (s := s.beginOperation) hc hcycle hi hinit hread]
    · exact i2cWriteFrame_refused hs hcycle ha data
    · exact i2cWriteFrame_refused hs hcycle ha []
    · exact i2cReadFrame_refused hs hcycle n
  case erase =>
    obtain ⟨k, hk⟩ := Config.wf_seePage hc
    have hpos := Config.wf_seePage_pos hc
    have hpages : 1 < s.cfg.seeCapacity / s.cfg.seePage := by
      rw [hk] at hpages ⊢
      rw [Nat.mul_div_cancel_left k hpos]
      by_contra hone
      have : s.cfg.seePage * k ≤ s.cfg.seePage * 1 := Nat.mul_le_mul_left _ (by omega)
      omega
    have hmeets : seeProcedure (.seeBulkErase arg) s.beginOperation = .error .insideWriteCycle :=
      bulkEraseLoop_meets_cycle (s := s.beginOperation) hc hwait _ hpages
    rw [exec_see_passing hs rfl (by simp) rfl, hmeets]
  case outside =>
    rcases hcases with ⟨a, ha, rfl | rfl | ⟨data, rfl⟩ | ⟨n, rfl⟩⟩ | ⟨a, ha, rfl | ⟨data, rfl⟩⟩
    · exact norFrame_outside hs _ _ ha
    · exact norFrame_outside hs _ _ ha
    · exact norFrame_outside hs _ _ ha
    · exact norFrame_outside hs _ _ ha
    · exact i2cWriteFrame_outside hs ha _
    · exact i2cWriteFrame_outside hs ha _
  case format =>
    rw [step_wire hc hs hcaller]
    simp only [runWire, he]
    exact rejectWire_frame (fun op h => decode_frame_legal hw op (h ▸ he)) _

end Sys2Proof.Machine
end

section
/-! PROOFS. The whole machine: the trace, how often `Done` is emitted, and which device a unit reaches. -/

namespace Sys2Proof.Machine

/-! The trace and `Done` (R12, R13, R25) -/

/-- How an operation, or going on with it, ends: after events without a `Done`, either ended with a code or waiting in a poll
with the code register as it was. -/
def EndsOrWaits (s t : State) : Prop :=
  ∃ u : State, (∃ events, quiet events ∧ u.world.trace = s.world.trace ++ events) ∧ u.resCode = s.resCode ∧
    ((∃ code, t = u.complete code) ∨ ∃ q, q ≠ .idle ∧ t = { u with seq := q })

theorem exec_endsOrWaits {i : Instr} {s t : State} (hi : isRequest i = true) (hexec : exec i s = .next t) :
    EndsOrWaits s t := by
  obtain ⟨-, u, -, -, -, htrace, hcode, ⟨code, ht, -⟩ | hwaits⟩ := exec_request hi hexec
  exacts [⟨u, htrace, hcode, .inl ⟨code, ht⟩⟩, ⟨u, htrace, hcode, .inr hwaits⟩]

theorem resume_endsOrWaits {s : State} (hs : s.seq ≠ .idle) : EndsOrWaits s (resume s) := by
  obtain ⟨n, u, hu, hends⟩ := resume_ends s hs
  obtain ⟨events, hquiet, htrace, -⟩ := hu.trace
  refine ⟨u, ⟨events, hquiet, htrace⟩, hu.results.1, ?_⟩
  rcases hends with ⟨hended | hended, -⟩ | ⟨q, hq, hwaits, -⟩
  exacts [.inl ⟨_, hended⟩, .inl ⟨_, hended⟩, .inr ⟨q, hq, hwaits⟩]

theorem EndsOrWaits.trace {s t : State} (h : EndsOrWaits s t) : ∃ events, t.world.trace = s.world.trace ++ events := by
  obtain ⟨u, ⟨events, -, htrace⟩, -, ⟨code, rfl⟩ | ⟨q, -, rfl⟩⟩ := h
  · exact ⟨events ++ [.done code], by simp [State.complete, htrace]⟩
  · exact ⟨events, htrace⟩

/-- Settles O58: what has ended has emitted its one `Done` last, what waits has emitted none. -/
theorem doneOnceAtTheEnd : Obligations.DoneOnceAtTheEnd := by
  intro s t h
  have hends : EndsOrWaits s t := by
    rcases h with ⟨i, hi, hexec⟩ | ⟨hc, hs, hreset, hstep⟩
    · exact exec_endsOrWaits hi hexec
    · rw [step_resume hc hs hreset] at hstep
      cases hstep
      exact resume_endsOrWaits hs
  obtain ⟨u, ⟨events, hquiet, htrace⟩, hcode, ⟨code, rfl⟩ | ⟨q, hq, rfl⟩⟩ := hends
  · exact ⟨fun _ => ⟨events, hquiet, by simp [State.complete, htrace]⟩, fun h => absurd rfl h⟩
  · exact ⟨fun h => absurd h hq, fun _ => ⟨events, hquiet, htrace, hcode⟩⟩

theorem runWire_trace {w : Wire} {s t : State} (hrun : runWire w s = .next t) :
    ∃ events, t.world.trace = s.world.trace ++ events := by
  rcases runWire_cases hrun with ⟨i, -, hexec⟩ | ⟨-, rfl⟩
  · rcases hi : isRequest i
    · obtain ⟨events, -, htrace⟩ := (exec_frame hi hexec).trace
      exact ⟨events, by simpa using htrace⟩
    · simpa using (exec_endsOrWaits hi hexec).trace
  · exact ⟨_, by simp; rfl⟩

/-- Settles O57: over the cases of `step_cases`; a reset at any event leaves an empty trace. -/
theorem traceGrows : Obligations.TraceGrows := by
  intro s t hstep
  obtain ⟨-, hcases⟩ := step_cases hstep
  rcases hcases with ⟨rest, hcaller, rfl⟩ | ⟨hreset, hwaits, rfl⟩ | ⟨w, rest, hcaller, hs, hrun⟩ |
    ⟨word, din, count, rest, hcaller, hs, hrun⟩
  case inl => exact ⟨rfl, fun _ => rfl, fun h => absurd (.inl ⟨rest, hcaller⟩) h⟩
  case inr.inl =>
    have hresets : ¬ s.Resets := by
      rintro (⟨rest, hcaller⟩ | ⟨hs, word, din, count, rest, hcaller⟩)
      · exact hreset rest hcaller
      · rcases hwaits with h | h
        exacts [h hs, by simp [hcaller] at h]
    by_cases hs : s.seq = .idle
    · rw [resume_idle hs]
      exact ⟨rfl, fun h => absurd h hresets, fun _ => ⟨[], by simp⟩⟩
    · obtain ⟨n, u, hu, hends⟩ := resume_ends s hs
      refine ⟨?_, fun h => absurd h hresets, fun _ => (resume_endsOrWaits hs).trace⟩
      rcases hends with ⟨h | h, -⟩ | ⟨q, -, h, -⟩ <;> rw [h] <;> exact hu.cfg
  case inr.inr.inl =>
    have hresets : ¬ s.Resets := by
      rintro (⟨rest, h⟩ | ⟨-, word, din, count, rest, h⟩) <;> simp [hcaller] at h
    have htrace := runWire_trace hrun
    exact ⟨(runWire_same hrun).1, fun h => absurd h hresets, fun _ => htrace⟩
  case inr.inr.inr =>
    obtain ⟨w, rfl, -⟩ := runCut_eq hrun
    exact ⟨rfl, fun _ => rfl, fun h => absurd (.inr ⟨hs, word, din, count, rest, hcaller⟩) h⟩

/-! The units and their devices (R40) -/

/-- Settles O59: what the procedures of each unit leave alone, said by `NorStep`, `ParStep` and `SeeStep`. -/
theorem unitsAreSeparate : Obligations.UnitsAreSeparate := by
  intro s t i hexec
  refine ⟨fun hi => ?nor, fun hi => ?par, fun hi => ?see⟩
  case nor =>
    obtain ⟨-, ⟨a, -, rfl⟩ | ⟨-, n, u, hu, hends⟩⟩ := exec_nor hi hexec
    · simp
    · obtain ⟨hsamples, hscans, hi2c⟩ := hu.inputs
      rcases hends with ⟨rfl | rfl, -⟩ | ⟨q, -, rfl, -⟩ <;>
        exact ⟨hu.par, hsamples, hscans, hi2c, hu.parDir, hu.see⟩
  case par =>
    obtain ⟨-, ⟨a, -, rfl⟩ | ⟨-, u, hu, hends⟩⟩ := exec_par hi hexec
    · simp [State.raise, State.recordContext, State.complete]
    · obtain ⟨hspi, hscans, hi2c⟩ := hu.inputs
      obtain ⟨hwarn, hident, -⟩ := hu.kept
      rcases hends with rfl | rfl <;> exact ⟨hspi, hi2c, hscans, hident, hwarn, hu.nor, hu.see⟩
  case see =>
    obtain ⟨-, ⟨a, code, -, rfl⟩ | ⟨-, u, hu, rfl⟩⟩ := exec_see hi hexec
    · have hident : ((s.beginOperation.raise (rejection a code)).norIdent) = s.norIdent := by
        unfold rejection
        split <;> rfl
      simp [hident]
    · exact ⟨hu.par, hu.inputs.2, hu.inputs.1, hu.parDir, hu.kept.1, hu.nor⟩

end Sys2Proof.Machine
end

section
/-! PROOFS. No register steers a request (R20, R35, R241): blocks that are alike in all but registers stay alike through every
procedure. -/

namespace Sys2Proof.Machine

/-- Two blocks with the same configuration, world, `DOUT`, position and `FAIL_COUNT`, whatever their other registers hold. -/
structure Alike (s s' : State) : Prop where
  cfg : s.cfg = s'.cfg
  world : s.world = s'.world
  dout : s.dout = s'.dout
  seq : s.seq = s'.seq
  failCount : s.failCount = s'.failCount

/-- The same answer, and blocks that are alike. -/
def AlikeResult {α : Type} (r r' : α × State) : Prop := r.1 = r'.1 ∧ Alike r.2 r'.2

/-- Both procedures answer alike blocks, or both are refused for the same reason. -/
def AlikeOutcome (r r' : Except Refusal State) : Prop :=
  (∃ t t', r = .ok t ∧ r' = .ok t' ∧ Alike t t') ∨ ∃ e, r = .error e ∧ r' = .error e

/-- Alike blocks that, if the operation has ended, have the same code and length. -/
def AlikeEnd (t t' : State) : Prop :=
  Alike t t' ∧ (t.seq = .idle → t.resCode = t'.resCode ∧ t.resLen = t'.resLen)

section

variable {s s' : State}

/-! What every operation begins and ends with -/

theorem Alike.setPhase (h : Alike s s') (p : NorPhase) : Alike (s.setPhase p) (s'.setPhase p) :=
  ⟨h.cfg, h.world, h.dout, h.seq, h.failCount⟩

theorem Alike.emit (h : Alike s s') (e : Event) : Alike (s.emit e) (s'.emit e) :=
  ⟨h.cfg, by simp [h.world], h.dout, h.seq, h.failCount⟩

theorem Alike.delay (h : Alike s s') (t : DelayName) : Alike (s.delay t) (s'.delay t) :=
  ⟨h.cfg, by simp [h.world, h.cfg], h.dout, h.seq, h.failCount⟩

theorem Alike.setDout (h : Alike s s') (l : List Byte) : Alike { s with dout := l } { s' with dout := l } :=
  ⟨h.cfg, h.world, rfl, h.seq, h.failCount⟩

theorem Alike.setFailCount (h : Alike s s') (n : BitVec 32) : Alike { s with failCount := n } { s' with failCount := n } :=
  ⟨h.cfg, h.world, h.dout, h.seq, rfl⟩

theorem Alike.complete (h : Alike s s') (code : BitVec 8) : AlikeEnd (s.complete code) (s'.complete code) :=
  ⟨⟨h.cfg, by simp [State.complete, h.world], h.dout, rfl, h.failCount⟩, fun _ => ⟨rfl, by simp [State.complete, h.dout]⟩⟩

theorem Alike.returnOk (h : Alike s s') : AlikeEnd s.returnOk s'.returnOk := h.complete 0x00

/-- Errors of the same kind end alike, whatever context they record. -/
theorem Alike.raise (h : Alike s s') {e e' : OpError} (he : e.code = e'.code) : AlikeEnd (s.raise e) (s'.raise e') := by
  have hcontext : Alike (s.recordContext e) (s'.recordContext e') := by
    cases e <;> cases e' <;> exact ⟨h.cfg, h.world, h.dout, h.seq, h.failCount⟩
  rw [State.raise, State.raise, he]
  exact (hcontext.setPhase .idle).complete _

/-- A wait in a busy poll is no end. -/
theorem Alike.suspend (h : Alike s s') {q : Seq} (hq : q ≠ .idle) : AlikeEnd { s with seq := q } { s' with seq := q } :=
  ⟨⟨h.cfg, h.world, h.dout, rfl, h.failCount⟩, fun hidle => absurd hidle hq⟩

/-! The NOR and WP units -/

theorem Alike.spi (h : Alike s s') (tx : List Byte) (n : Nat) : AlikeResult (s.spi tx n) (s'.spi tx n) := by
  refine ⟨?_, h.cfg, ?_, h.dout, h.seq, h.failCount⟩ <;> simp only [State.spi, h.world, h.cfg]

theorem Alike.spiSend (h : Alike s s') (tx : List Byte) : Alike (s.spiSend tx) (s'.spiSend tx) := (h.spi tx 0).2

theorem Alike.readStatus (h : Alike s s') (command : Byte) : AlikeResult (s.readStatus command) (s'.readStatus command) :=
  ⟨congrArg (List.headD · 0) (h.spi [command] 1).1, (h.spi [command] 1).2⟩

theorem Alike.waitNotBusy (fuel : Nat) : ∀ {s s' : State}, Alike s s' →
    AlikeResult (waitNotBusy fuel s) (waitNotBusy fuel s') := by
  induction fuel with
  | zero => exact fun h => ⟨rfl, h⟩
  | succ fuel ih =>
    intro s s' h
    obtain ⟨hbyte, hafter⟩ := h.readStatus s.cfg.cmd.rdsr1
    simp only [Machine.waitNotBusy, ← h.cfg, ← hbyte]
    split
    · exact ih hafter
    · exact ⟨rfl, hafter⟩

theorem Alike.poll (h : Alike s s') : AlikeResult s.poll s'.poll := by
  rw [State.poll, State.poll, h.world]
  exact h.waitNotBusy _

theorem Alike.ensureWriteEnabled (h : Alike s s') : AlikeResult (ensureWriteEnabled s) (ensureWriteEnabled s') := by
  obtain ⟨hbyte, hafter⟩ := ((h.setPhase .writeEnableAsserted).spiSend [s.cfg.cmd.wren]).readStatus s.cfg.cmd.rdsr1
  obtain ⟨hbyte2, hafter2⟩ := (hafter.spiSend [s.cfg.cmd.wren]).readStatus s.cfg.cmd.rdsr1
  simp only [Machine.ensureWriteEnabled, ← h.cfg, ← hbyte, ← hbyte2]
  split
  · exact ⟨rfl, hafter⟩
  · split
    · exact ⟨rfl, hafter2⟩
    · exact ⟨rfl, hafter2⟩

theorem Alike.readIdentity (h : Alike s s') : AlikeResult s.readIdentity s'.readIdentity := by
  obtain ⟨hbytes, hafter⟩ := h.spi [s.cfg.cmd.rdid] 3
  refine ⟨?_, ?_⟩ <;> simp only [State.readIdentity, ← h.cfg, hbytes]
  exact hafter

theorem Alike.storeIdentity (h : Alike s s') (id : BitVec 24) : Alike (s.storeIdentity id) (s'.storeIdentity id) := by
  have hstored : Alike { s with norIdent := id, norIdentValid := true, dout := be24 id }
      { s' with norIdent := id, norIdentValid := true, dout := be24 id } := ⟨h.cfg, h.world, rfl, h.seq, h.failCount⟩
  by_cases hid : id = s.cfg.norExpectedId
  · have hid' : id = s'.cfg.norExpectedId := h.cfg ▸ hid
    simp only [State.storeIdentity, if_pos hid, if_pos hid']
    exact hstored
  · have hid' : id ≠ s'.cfg.norExpectedId := h.cfg ▸ hid
    simp only [State.storeIdentity, if_neg hid, if_neg hid']
    refine Alike.emit ?_ _
    exact ⟨h.cfg, h.world, rfl, h.seq, h.failCount⟩

theorem Alike.identify (h : Alike s s') : AlikeEnd (identify s) (identify s') := by
  obtain ⟨hid, hafter⟩ := h.readIdentity
  obtain ⟨hid2, hafter2⟩ := (hafter.delay .idRetry).readIdentity
  simp only [Machine.identify, ← hid, ← hid2]
  split
  · exact (hafter2.storeIdentity _).returnOk
  · exact (hafter.storeIdentity _).returnOk

theorem Alike.continueAfter (h : Alike s s') (after : After) : AlikeEnd (continueAfter after s) (continueAfter after s') := by
  cases after
  exacts [h.returnOk, h.identify]

theorem Alike.finalWait (h : Alike s s') (tx : List Byte) (after : After) :
    AlikeEnd (finalWait tx after s) (finalWait tx after s') := by
  obtain ⟨hended, hafter⟩ := h.poll
  simp only [Machine.finalWait, ← hended]
  split
  · exact (hafter.setPhase .idle).continueAfter after
  · exact hafter.suspend (by simp)

theorem Alike.mutateCommand (h : Alike s s') (tx : List Byte) (op : Addr) (after : After) :
    AlikeEnd (mutateCommand tx op after s) (mutateCommand tx op after s') := by
  obtain ⟨hlatch, hafter⟩ := h.ensureWriteEnabled
  simp only [Machine.mutateCommand, ← hlatch]
  split
  · exact hafter.raise rfl
  · exact (((hafter.setPhase .commandIssued).spiSend tx).setPhase .busy).finalWait tx after

theorem Alike.mutate (h : Alike s s') (tx : List Byte) (op : Addr) (after : After) :
    AlikeEnd (mutate tx op after s) (mutate tx op after s') := by
  obtain ⟨hended, hafter⟩ := h.poll
  simp only [Machine.mutate, ← hended]
  split
  · exact hafter.mutateCommand tx op after
  · exact hafter.suspend (by simp)

theorem Alike.readMemory (h : Alike s s') (addr : Addr) (n : Nat) :
    AlikeEnd (readMemory addr n s) (readMemory addr n s') := by
  obtain ⟨hbytes, hread⟩ := h.spi (NorCmd.bytes s.cfg (.read addr)) n
  simp only [Machine.readMemory, ← h.cfg, ← hbytes]
  exact (hread.setDout _).returnOk

theorem Alike.pollAndRead (h : Alike s s') (addr : Addr) (n : Nat) :
    AlikeEnd (pollAndRead addr n s) (pollAndRead addr n s') := by
  obtain ⟨hended, hafter⟩ := h.poll
  simp only [Machine.pollAndRead, ← hended]
  split
  · exact hafter.readMemory addr n
  · exact hafter.suspend (by simp)

theorem Alike.statusOperation (h : Alike s s') (command : Byte) :
    AlikeEnd (statusOperation command s) (statusOperation command s') := by
  obtain ⟨hbyte, hafter⟩ := h.readStatus command
  simp only [Machine.statusOperation, ← hbyte]
  exact (hafter.setDout _).returnOk

theorem Alike.eraseOperation (h : Alike s s') (command : Addr → NorCmd) {region region' : Nat} (hr : region = region')
    (addr : Addr) : AlikeEnd (eraseOperation command region addr s) (eraseOperation command region' addr s') := by
  simp only [Machine.eraseOperation, ← h.cfg, ← hr]
  split
  exacts [h.raise rfl, h.mutate _ _ _]

theorem Alike.disableProtection (h : Alike s s') (after : After) :
    AlikeEnd (disableProtection after s) (disableProtection after s') := by
  obtain ⟨hbyte1, hafter1⟩ := h.readStatus s.cfg.cmd.rdsr1
  obtain ⟨hbyte2, hafter2⟩ := hafter1.readStatus s.cfg.cmd.rdsr2
  obtain ⟨hbyte3, hafter3⟩ := hafter2.readStatus s.cfg.cmd.rdsr3
  simp only [Machine.disableProtection, ← h.cfg, ← hbyte1, ← hbyte2, ← hbyte3]
  split
  · exact (hafter3.setDout _).mutate _ _ _
  · exact (hafter3.setDout _).continueAfter _

/-! The PAR unit -/

theorem Alike.lineSet (h : Alike s s') (id : Nat) (level : Bool) : Alike (s.lineSet id level) (s'.lineSet id level) :=
  ⟨h.cfg, by simp only [State.lineSet, h.world, h.cfg], h.dout, h.seq, h.failCount⟩

theorem Alike.lineDir (h : Alike s s') (id : Nat) (dir : LineDirection) : Alike (s.lineDir id dir) (s'.lineDir id dir) :=
  ⟨h.cfg, by simp only [State.lineDir, h.world], h.dout, h.seq, h.failCount⟩

theorem Alike.lineGet (h : Alike s s') (i : Nat) : AlikeResult (s.lineGet i) (s'.lineGet i) := by
  refine ⟨?_, h.cfg, ?_, h.dout, h.seq, h.failCount⟩ <;> simp only [State.lineGet, h.world]

theorem Alike.setLines (base : Nat) (bit : Nat → Bool) (n : Nat) : ∀ (first : Nat) {s s' : State}, Alike s s' →
    Alike (setLines base bit n first s) (setLines base bit n first s') := by
  induction n with
  | zero => exact fun _ _ _ h => h
  | succ n ih => exact fun first _ _ h => ih (first + 1) (h.lineSet _ _)

theorem Alike.setDirections (base : Nat) (dir : LineDirection) (n : Nat) : ∀ (first : Nat) {s s' : State}, Alike s s' →
    Alike (setDirections base dir n first s) (setDirections base dir n first s') := by
  induction n with
  | zero => exact fun _ _ _ h => h
  | succ n ih => exact fun first _ _ h => ih (first + 1) (h.lineDir _ _)

theorem Alike.setAddress (h : Alike s s') (a : Nat) : Alike (setAddress a s) (setAddress a s') := by
  rw [Machine.setAddress, Machine.setAddress, ← h.cfg]
  exact h.setLines _ _ _ _

theorem Alike.dataInput (h : Alike s s') : Alike (dataInput s) (dataInput s') :=
  have hlines := h.setDirections 16 .input 8 0
  ⟨hlines.cfg, hlines.world, hlines.dout, hlines.seq, hlines.failCount⟩

theorem Alike.dataOutput (h : Alike s s') : Alike (dataOutput s) (dataOutput s') :=
  have hlines := h.setDirections 16 .output 8 0
  ⟨hlines.cfg, hlines.world, hlines.dout, hlines.seq, hlines.failCount⟩

theorem Alike.sampleLines (n : Nat) : ∀ (first : Nat) {s s' : State}, Alike s s' →
    AlikeResult (sampleLines n first s) (sampleLines n first s') := by
  induction n with
  | zero => exact fun _ _ _ h => ⟨rfl, h⟩
  | succ n ih =>
    intro first s s' h
    obtain ⟨hbit, hafter⟩ := h.lineGet first
    obtain ⟨hrest, hlast⟩ := ih (first + 1) hafter
    exact ⟨by simp only [Machine.sampleLines, hbit, hrest], hlast⟩

theorem Alike.readCycle (h : Alike s s') : AlikeResult (readCycle s) (readCycle s') := by
  obtain ⟨hvalue, hafter⟩ := ((h.lineSet lineCE false).lineSet lineOE false).sampleLines 8 0
  exact ⟨congrArg (BitVec.ofNat 8) hvalue, (hafter.lineSet lineOE true).lineSet lineCE true⟩

/-- `ATTEMPTS` and `RES_ATTEMPTS` (R27, R33) are written, and not read. -/
theorem Alike.attempts (h : Alike s s') (n n' : Nat) (m m' : BitVec 32) :
    Alike { s with attempts := n, resAttempts := m } { s' with attempts := n', resAttempts := m' } :=
  ⟨h.cfg, h.world, h.dout, h.seq, h.failCount⟩

theorem Alike.verifyLoop (v : Byte) (left : Nat) : ∀ {s s' : State}, Alike s s' →
    AlikeResult (verifyLoop v left s) (verifyLoop v left s') := by
  induction left with
  | zero => exact fun h => ⟨rfl, h⟩
  | succ left ih =>
    intro s s' h
    obtain ⟨hvalue, hafter⟩ := (h.attempts (s.attempts + 1) (s'.attempts + 1) s.resAttempts s'.resAttempts).readCycle
    simp only [Machine.verifyLoop, ← hvalue]
    split
    · exact ⟨rfl, hafter.attempts _ _ _ _⟩
    · split
      · exact ⟨rfl, hafter.attempts _ _ _ _⟩
      · exact ih (hafter.delay .retry)

theorem Alike.pulse (h : Alike s s') : Alike (pulse s) (pulse s') :=
  ((((h.lineSet lineCE false).lineSet lineWE false).delay .writePulse).lineSet lineWE true).lineSet lineCE true

theorem Alike.writeByte (h : Alike s s') (a : Nat) (v : Byte) : AlikeResult (writeByte a v s) (writeByte a v s') := by
  have hdriven : Alike (driveData v (Machine.dataOutput (Machine.setAddress a s)))
      (driveData v (Machine.dataOutput (Machine.setAddress a s'))) :=
    (h.setAddress a).dataOutput.setLines 16 (fun i => v.getLsbD i) 8 0
  have hlatched := hdriven.pulse.dataInput
  rw [Machine.writeByte, Machine.writeByte, ← h.cfg]
  exact (hlatched.attempts 0 0 _ _).verifyLoop v _

theorem Alike.readByte (h : Alike s s') (a : Nat) : Alike (readByte a s) (readByte a s') := by
  obtain ⟨hvalue, hafter⟩ := (h.setAddress a).readCycle
  exact ⟨hafter.cfg, hafter.world, by simp only [Machine.readByte, hvalue, hafter.dout], hafter.seq, hafter.failCount⟩

theorem Alike.progress (h : Alike s s') (label : ProgressLabel) (i a : Nat) :
    Alike (s.progress label i a) (s'.progress label i a) := by
  simp only [State.progress, ← h.cfg]
  split
  exacts [h.emit _, h]

theorem Alike.bulkReadLoop (start n : Nat) : ∀ (i : Nat) {s s' : State}, Alike s s' →
    Alike (bulkReadLoop start n i s) (bulkReadLoop start n i s') := by
  induction n with
  | zero => exact fun _ _ _ h => h
  | succ n ih => exact fun i _ _ h => ih (i + 1) ((h.progress _ _ _).readByte _)

theorem Alike.recordFailure (h : Alike s s') (a : Nat) (x o : Byte) :
    Alike (recordFailure a x o s) (recordFailure a x o s') := by
  simp only [Machine.recordFailure, ← h.failCount]
  split <;> exact ⟨h.cfg, h.world, h.dout, h.seq, rfl⟩

/-- The context registers that the end of a bulk write reads (R198) go into context registers alone. -/
theorem Alike.bulkWriteLoop (start : Nat) (data : List Byte) : ∀ (i : Nat) {s s' : State}, Alike s s' →
    AlikeEnd (bulkWriteLoop start data i s) (bulkWriteLoop start data i s') := by
  induction data with
  | nil =>
    intro i s s' h
    simp only [Machine.bulkWriteLoop, ← h.failCount]
    split
    exacts [h.raise rfl, h.returnOk]
  | cons v rest ih =>
    intro i s s' h
    obtain ⟨hresult, hafter⟩ := (h.progress .write i (start + i)).writeByte (start + i) v
    simp only [Machine.bulkWriteLoop, ← hresult, ← h.cfg]
    split
    · exact ih (i + 1) hafter
    · have hrecorded := hafter.recordFailure (start + i) v ‹_›
      split
      · exact hrecorded.raise rfl
      · exact ih (i + 1) (hrecorded.emit _)

/-! The SEE unit -/

theorem Alike.i2cWrite (h : Alike s s') (a : Nat) (data : List Byte) : AlikeOutcome (s.i2cWrite a data) (s'.i2cWrite a data) := by
  rw [State.i2cWrite_eq, State.i2cWrite_eq, ← h.world, ← h.cfg]
  split
  · exact .inr ⟨_, rfl, rfl⟩
  · exact .inl ⟨_, _, rfl, rfl, rfl, rfl, h.dout, h.seq, h.failCount⟩

theorem Alike.writeFrame (h : Alike s s') (a : Nat) (data : List Byte) :
    AlikeOutcome (s.writeFrame a data) (s'.writeFrame a data) := by
  rcases h.i2cWrite a data with ⟨t, t', ht, ht', hsent⟩ | ⟨e, he, he'⟩
  · simp only [State.writeFrame, ht, ht']
    split
    · exact .inl ⟨_, _, rfl, rfl, hsent⟩
    · exact .inl ⟨_, _, rfl, rfl, hsent.delay _⟩
  · simp only [State.writeFrame, he, he']
    exact .inr ⟨_, rfl, rfl⟩

theorem Alike.readFrame (h : Alike s s') (a n : Nat) : AlikeOutcome (s.readFrame a n) (s'.readFrame a n) := by
  rcases h.i2cWrite a [] with ⟨t, t', ht, ht', hsent⟩ | ⟨e, he, he'⟩
  · have hread : t.world.i2cRead t.cfg n = t'.world.i2cRead t'.cfg n := by rw [hsent.world, hsent.cfg]
    simp only [State.readFrame, ht, ht', ← hread]
    rcases t.world.i2cRead t.cfg n with e | ⟨bytes, w⟩
    · exact .inr ⟨e, rfl, rfl⟩
    · exact .inl ⟨_, _, rfl, rfl, hsent.cfg, rfl, rfl, hsent.seq, hsent.failCount⟩
  · simp only [State.readFrame, he, he']
    exact .inr ⟨_, rfl, rfl⟩

theorem Alike.bulkEraseLoop (fill : Byte) (n : Nat) : ∀ (p : Nat) {s s' : State}, Alike s s' →
    AlikeOutcome (bulkEraseLoop fill n p s) (bulkEraseLoop fill n p s') := by
  induction n with
  | zero => exact fun _ s s' h => .inl ⟨s, s', rfl, rfl, h⟩
  | succ n ih =>
    intro p s s' h
    rw [bulkEraseLoop_succ, bulkEraseLoop_succ, ← h.cfg]
    rcases (h.progress .erase p (p * s.cfg.seePage)).writeFrame (p * s.cfg.seePage) (List.replicate s.cfg.seePage fill) with
      ⟨t, t', ht, ht', hsent⟩ | ⟨e, he, he'⟩
    · rw [ht, ht']
      exact ih (p + 1) hsent
    · rw [he, he']
      exact .inr ⟨e, rfl, rfl⟩

theorem Alike.seeProcedure (h : Alike s s') (i : Instr) : AlikeOutcome (seeProcedure i s) (seeProcedure i s') := by
  unfold Machine.seeProcedure
  split
  · exact h.writeFrame _ _
  · exact h.writeFrame _ _
  · exact h.readFrame _ _
  · split
    exacts [.inl ⟨s, s', rfl, rfl, h⟩, h.readFrame _ _]
  · rw [← h.cfg]
    exact h.bulkEraseLoop _ _ _
  · exact .inl ⟨s, s', rfl, rfl, h⟩

/-! Requests -/

/-- Alike requests whose procedures end alike. -/
theorem AlikeEnd.request {f : State → State} {t t' : State} (hf : AlikeEnd (f s.beginOperation) (f s'.beginOperation))
    (h : s.request f = .next t) (h' : s'.request f = .next t') : AlikeEnd t t' := by
  obtain ⟨-, rfl⟩ := State.request_next h
  obtain ⟨-, rfl⟩ := State.request_next h'
  exact hf

theorem Alike.exec_nor {i : Instr} {t t' : State} (h : Alike s.beginOperation s'.beginOperation) (hi : norRequest i = true)
    (ht : exec i s = .next t) (ht' : exec i s' = .next t') : AlikeEnd t t' := by
  cases i <;> simp only [norRequest, Bool.false_eq_true] at hi <;>
    simp only [exec, execNorInit, execNorWriteEnable, execNorWriteDisable, execNorReadStatus1, execNorReadStatus2,
      execNorReadStatus3, execNorWritePage, execNorSectorErase, execNorBlockErase64k, execNorChipErase, execNorRead,
      execWpDisableProtection] at ht ht' <;>
    refine AlikeEnd.request ?_ ht ht'
  case norInit =>
    have hcleared : Alike (s.beginOperation.clearWarn idMismatch) (s'.beginOperation.clearWarn idMismatch) :=
      ⟨h.cfg, h.world, h.dout, h.seq, h.failCount⟩
    rw [← h.cfg]
    exact (((hcleared.spiSend _).spiSend _).spiSend _).disableProtection _
  case norWriteEnable => rw [← h.cfg]; exact (h.spiSend _).returnOk
  case norWriteDisable => rw [← h.cfg]; exact (h.spiSend _).returnOk
  case norReadStatus1 => rw [← h.cfg]; exact h.statusOperation _
  case norReadStatus2 => rw [← h.cfg]; exact h.statusOperation _
  case norReadStatus3 => rw [← h.cfg]; exact h.statusOperation _
  case norWritePage =>
    rw [← h.cfg]
    split
    · exact h.raise rfl
    · split
      · exact h.raise rfl
      · split
        · exact h.raise rfl
        · exact h.mutate _ _ _
  case norSectorErase => exact h.eraseOperation _ (by rw [h.cfg]) _
  case norBlockErase64k => exact h.eraseOperation _ (by rw [h.cfg]) _
  case norChipErase => rw [← h.cfg]; exact h.mutate _ _ _
  case norRead =>
    rw [← h.cfg]
    split
    · exact h.raise rfl
    · split
      · exact h.raise rfl
      · split
        · exact h.returnOk
        · exact h.pollAndRead _ _
  case wpDisableProtection => exact h.disableProtection _

theorem Alike.exec_par {i : Instr} {t t' : State} (h : Alike s.beginOperation s'.beginOperation) (hi : parRequest i = true)
    (ht : exec i s = .next t) (ht' : exec i s' = .next t') : AlikeEnd t t' := by
  cases i <;> simp only [parRequest, Bool.false_eq_true] at hi <;>
    simp only [exec, execParInit, execParWriteByte, execParReadByte, execParBulkRead, execParBulkWrite] at ht ht' <;>
    refine AlikeEnd.request ?_ ht ht'
  case parInit =>
    rw [← h.cfg]
    exact (((((((h.dataInput.lineSet _ _).lineSet _ _).lineSet _ _).lineDir _ _).lineDir _ _).lineDir _ _).setLines _ _ _ _
      |>.setDirections _ _ _ _).returnOk
  case parWriteByte addr arg =>
    obtain ⟨hresult, hafter⟩ := h.writeByte addr.toNat (byteValue arg)
    rw [← h.cfg, ← hresult]
    split
    · exact h.raise rfl
    · split
      · exact hafter.returnOk
      · exact (hafter.setFailCount 1).raise rfl
  case parReadByte =>
    rw [← h.cfg]
    split
    exacts [h.raise rfl, (h.readByte _).returnOk]
  case parBulkRead =>
    rw [← h.cfg]
    split
    · exact h.raise rfl
    · split
      exacts [h.raise rfl, (h.bulkReadLoop _ _ _).returnOk]
  case parBulkWrite =>
    rw [← h.cfg]
    split
    · exact h.raise rfl
    · split
      · exact h.raise rfl
      · split
        exacts [h.raise rfl, h.bulkWriteLoop _ _ _]

theorem Alike.exec_seeInit {t t' : State} (h : Alike s.beginOperation s'.beginOperation) (ht : exec .seeInit s = .next t)
    (ht' : exec .seeInit s' = .next t') : AlikeEnd t t' := by
  simp only [exec, execSeeInit] at ht ht'
  refine AlikeEnd.request ?_ ht ht'
  have hscan : (s'.beginOperation.clearWarn scanAbsent).world.i2cScan (s'.beginOperation.clearWarn scanAbsent).cfg =
      (s.beginOperation.clearWarn scanAbsent).world.i2cScan (s.beginOperation.clearWarn scanAbsent).cfg :=
    congrArg₂ (fun w c => World.i2cScan c w) h.world.symm h.cfg.symm
  rw [← h.cfg, hscan]
  split
  · exact Alike.returnOk ⟨h.cfg, rfl, h.dout, h.seq, h.failCount⟩
  · refine Alike.returnOk (Alike.emit ?_ _)
    exact ⟨h.cfg, rfl, h.dout, h.seq, h.failCount⟩

theorem Alike.exec_see {i : Instr} {t t' : State} (h : Alike s.beginOperation s'.beginOperation) (hs : s.seq = .idle)
    (hs' : s'.seq = .idle) (hi : seeRequest i = true) (ht : exec i s = .next t) (ht' : exec i s' = .next t') :
    AlikeEnd t t' := by
  by_cases hinit : i = .seeInit
  · subst hinit
    exact h.exec_seeInit ht ht'
  · rcases hm : malformed s.cfg i with _ | ⟨a, code⟩
    · have hm' : malformed s'.cfg i = none := by
        rw [← hm]
        exact congrArg (malformed · i) h.cfg.symm
      rw [exec_see_passing hs hi hinit hm] at ht
      rw [exec_see_passing hs' hi hinit hm'] at ht'
      rcases h.seeProcedure i with ⟨u, u', hu, hu', hends⟩ | ⟨e, he, -⟩
      · rw [hu] at ht
        rw [hu'] at ht'
        cases ht
        cases ht'
        exact hends.returnOk
      · rw [he] at ht
        cases ht
    · have hm' : malformed s'.cfg i = some (a, code) := by
        rw [← hm]
        exact congrArg (malformed · i) h.cfg.symm
      rw [exec_malformed hs hm] at ht
      rw [exec_malformed hs' hm'] at ht'
      cases ht
      cases ht'
      exact h.raise rfl

end

/-- Settles O60: alike idle blocks begin alike, and every procedure keeps them alike. -/
theorem registersDoNotSteer : Obligations.RegistersDoNotSteer := by
  intro s s' t t' i hi hs hs' hcfg hworld ht ht'
  have hbegun : Alike s.beginOperation s'.beginOperation := ⟨hcfg, hworld, rfl, hs.trans hs'.symm, rfl⟩
  have hends : AlikeEnd t t' := by
    rcases isRequest_cases hi with hi | hi | hi
    exacts [hbegun.exec_nor hi ht ht', hbegun.exec_par hi ht ht', hbegun.exec_see hs hs' hi ht ht']
  obtain ⟨halike, hresult⟩ := hends
  exact ⟨halike.world, halike.dout, halike.seq, halike.failCount, hresult⟩

end Sys2Proof.Machine
end

section
/-! PROOFS. The requests of the NOR unit but `NOR_INIT`: the latch and status operations (R146 to R150), the mutating
requests (R151 to R154) and `NOR_READ` (R157). -/

namespace Sys2Proof.Machine

theorem State.request_idle {s : State} (hs : s.seq = .idle) (f : State → State) : s.request f = .next (f s.beginOperation) :=
  if_pos hs

/-! The latch and status operations -/

theorem exec_writeEnable {s : State} (hs : s.seq = .idle) :
    exec .norWriteEnable s = .next (s.beginOperation.spiSend (NorCmd.wren.bytes s.beginOperation.cfg)).returnOk := by
  rw [exec, execNorWriteEnable, State.request_idle hs]; rfl

theorem exec_writeDisable {s : State} (hs : s.seq = .idle) :
    exec .norWriteDisable s = .next (s.beginOperation.spiSend (NorCmd.wrdi.bytes s.beginOperation.cfg)).returnOk := by
  rw [exec, execNorWriteDisable, State.request_idle hs]; rfl

/-- Settles O16, by what a latch frame does to any device (`send_latch`). -/
theorem writeEnableRequest : Obligations.WriteEnableRequest := by
  intro s hc hs
  obtain ⟨nor, k, hsend, hnor, hready⟩ := send_latch s.beginOperation hc .wren (.inl rfl)
  refine ⟨nor, k, ?_, hnor, hready⟩
  rw [exec_writeEnable hs, hsend]
  simp [State.returnOk, State.complete, State.beginOperation, World.log, World.emit, NorCmd.bytes, hs]

/-- Settles O17, by what a latch frame does to any device (`send_latch`). -/
theorem writeDisableRequest : Obligations.WriteDisableRequest := by
  intro s hc hs
  obtain ⟨nor, k, hsend, hnor, hready⟩ := send_latch s.beginOperation hc .wrdi (.inr rfl)
  refine ⟨nor, k, ?_, hnor, hready⟩
  rw [exec_writeDisable hs, hsend]
  simp [State.returnOk, State.complete, State.beginOperation, World.log, World.emit, NorCmd.bytes, hs]

/-- A status operation at an idle block: one read of the register, and the byte it gave is the result (R148 to R150). -/
theorem statusOperation_any {s : State} (hs : s.seq = .idle) (command : Byte) :
    ∃ b nor k, statusOperation command s.beginOperation = { s with
        dout := [b], failCount := 0, resLen := 1, resCode := 0x00
        world := { s.world.log (askEvents [command] [b] ++ [.done 0x00]) with
          nor := nor, free := k, spiIn := s.world.spiIn.drop 1 } } ∧
      (∀ a rest, s.world.spiIn = a :: rest → b = a) ∧
      (s.world.spiIn = [] → b = ((s.world.nor.answer s.cfg s.world.free [command] 1).1).headD 0) ∧
      nor = ((s.world.nor.answer s.cfg s.world.free [command] 1).2.1.react s.cfg
        (s.world.nor.answer s.cfg s.world.free [command] 1).2.2 [command]).1 := by
  obtain ⟨b, nor, k, hread, hgiven, hown, hnor⟩ := State.readStatus_any command s.beginOperation
  refine ⟨b, nor, k, ?_, hgiven, hown, hnor⟩
  rw [statusOperation, hread]
  simp [State.returnOk, State.complete, State.beginOperation, World.log, World.emit, hs]

/-- A device that differs in the reset-enable alone, with its own reset-enable named. -/
theorem NorDevice.armed_only {d e : NorDevice} {r : Bool} (h : e = { d with resetArmed := r }) :
    e = { d with resetArmed := e.resetArmed } := by
  subst h; rfl

/-- A status read without an operation in progress, and one of SR2 or SR3 at any time, moves no operation on (R70, R82). -/
theorem answer_status_device {c : Config} {d : NorDevice} (hc : c.wf) {cmd : NorCmd}
    (h : cmd = .rdsr1 ∧ d.job = none ∨ cmd = .rdsr2 ∨ cmd = .rdsr3) (k : Nat) :
    (d.answer c k (cmd.bytes c) 1).2.1 = d := by
  have hdecode : decodeNor c (cmd.bytes c) = .ok cmd :=
    decodeNor_plain hc _ (by rcases h with ⟨rfl, -⟩ | rfl | rfl <;> simp)
  unfold NorDevice.answer
  rw [hdecode]
  rcases h with ⟨rfl, hjob⟩ | rfl | rfl
  · simp only [NorDevice.tick, hjob]
    repeat' split
    all_goals rfl
  · simp only [reduceCtorEq, if_false]
    repeat' split
    all_goals rfl
  · simp only [reduceCtorEq, if_false]
    repeat' split
    all_goals rfl

/-- An awake and powered device answers an SR2 or SR3 read with the register, busy or not (R36). -/
theorem answer_status23 {c : Config} {d : NorDevice} (hc : c.wf) (hawake : d.asleep = false) (hup : d.powerUpLeft = 0)
    (k : Nat) :
    (d.answer c k [c.cmd.rdsr2] 1).1 = [d.sr2] ∧ (d.answer c k [c.cmd.rdsr3] 1).1 = [d.sr3] := by
  have h2 : decodeNor c [c.cmd.rdsr2] = .ok .rdsr2 := decodeNor_plain hc .rdsr2 (by simp)
  have h3 : decodeNor c [c.cmd.rdsr3] = .ok .rdsr3 := decodeNor_plain hc .rdsr3 (by simp)
  constructor
  · simpa [NorDevice.answer, h2, hawake, hup] using congrArg Prod.fst (padFree_self [d.sr2] k)
  · simpa [NorDevice.answer, h3, hawake, hup] using congrArg Prod.fst (padFree_self [d.sr3] k)

/-- Settles O18: the status operation at any device, with the answer of an awake one and the reaction of an idle one. -/
theorem readStatus1Request : Obligations.ReadStatus1Request := by
  intro s hc hs
  obtain ⟨b, nor, k, hexec, hgiven, hown, hnor⟩ := statusOperation_any hs s.cfg.cmd.rdsr1
  refine ⟨b, nor, k, ?_, hgiven, fun hi hawake hup => ?_, fun hjob => ?_⟩
  · rw [exec, execNorReadStatus1, State.request_idle hs]
    exact congrArg _ hexec
  · obtain ⟨r, hreact⟩ := react_status (d := (s.world.nor.tick s.cfg s.world.free).1)
      (k := (s.world.nor.tick s.cfg s.world.free).2) hc (.inl rfl : NorCmd.rdsr1 = .rdsr1 ∨ _)
    rw [hown hi, hnor, NorDevice.answer_rdsr1 hc hawake hup]
    exact (congrArg NorDevice.sr1 hreact).symm
  · obtain ⟨r, hreact⟩ := react_status (d := s.world.nor)
      (k := (s.world.nor.answer s.cfg s.world.free [s.cfg.cmd.rdsr1] 1).2.2) hc (.inl rfl : NorCmd.rdsr1 = .rdsr1 ∨ _)
    have hsame : (s.world.nor.answer s.cfg s.world.free [s.cfg.cmd.rdsr1] 1).2.1 = s.world.nor :=
      answer_status_device hc (.inl ⟨rfl, hjob⟩) s.world.free
    rw [hnor, hsame]
    exact NorDevice.armed_only hreact

/-- Settles O19: the status operation at any device; an SR2 or SR3 read moves no operation on. -/
theorem readStatus23Requests : Obligations.ReadStatus23Requests := by
  intro s i command own hc hs hi
  have hcmd : ∃ cmd : NorCmd, (cmd = .rdsr2 ∨ cmd = .rdsr3) ∧ cmd.bytes s.cfg = [command] := by
    rcases hi with ⟨-, rfl, -⟩ | ⟨-, rfl, -⟩
    · exact ⟨.rdsr2, .inl rfl, rfl⟩
    · exact ⟨.rdsr3, .inr rfl, rfl⟩
  obtain ⟨cmd, hcmd, hbytes⟩ := hcmd
  obtain ⟨b, nor, k, hexec, hgiven, hown, hnor⟩ := statusOperation_any hs command
  refine ⟨b, nor, k, ?_, hgiven, fun hin hawake hup => ?_, ?_⟩
  · rcases hi with ⟨rfl, rfl, -⟩ | ⟨rfl, rfl, -⟩
    · rw [exec, execNorReadStatus2, State.request_idle hs]
      exact congrArg _ hexec
    · rw [exec, execNorReadStatus3, State.request_idle hs]
      exact congrArg _ hexec
  · have ⟨h2, h3⟩ := answer_status23 hc hawake hup s.world.free
    rcases hi with ⟨-, rfl, rfl⟩ | ⟨-, rfl, rfl⟩
    · rw [hown hin, h2, List.headD_cons]
    · rw [hown hin, h3, List.headD_cons]
  · have hsame := answer_status_device (d := s.world.nor) hc (.inr hcmd) s.world.free
    obtain ⟨r, hreact⟩ := react_status (d := s.world.nor)
      (k := (s.world.nor.answer s.cfg s.world.free [command] 1).2.2) hc (.inr hcmd)
    rw [hbytes] at hsame hreact
    rw [hnor, hsame]
    exact NorDevice.armed_only hreact

/-! The skeleton of the mutating requests (R145) -/

/-- Settles O20, by the skeleton whose answers all come from outside (`mutate_answered`). -/
theorem mutatingSkeleton : Obligations.MutatingSkeleton := by
  intro s i tx a first latch final rest hc hs hp hm h1 h2 h3 hin
  obtain ⟨nor, k, hmutate⟩ := mutate_answered (tx := tx) (opAddr := a) (after := .finish) (s := s.beginOperation) h1 h2 h3 hp hin
  refine ⟨nor, k, ?_⟩
  rw [exec_mutation hs hm, hmutate]
  simp [continueAfter, State.returnOk, State.complete, State.beginOperation, World.log, World.emit, hs]

/-- Settles O21, by the skeleton whose latch checks both read a clear latch (`mutate_refused`). -/
theorem latchNeverSets : Obligations.LatchNeverSets := by
  intro s i tx a first rest l1 l2 hc hs hp hm h1 hl1 hl2 hin
  obtain ⟨nor, k, hmutate⟩ := mutate_refused (tx := tx) (opAddr := a) (after := .finish) (s := s.beginOperation) h1 hl1 hl2 hp hin
  refine ⟨nor, k, ?_⟩
  rw [exec_mutation hs hm, hmutate]
  simp [State.complete, State.beginOperation, World.log, World.emit, hs]

/-- Settles O22, by the skeleton at a device whose pin keeps the latch clear (`mutate_pin`). -/
theorem writeProtectPin : Obligations.WriteProtectPin := by
  intro s i tx a hc hs hp hm hin hready hpin hlatch
  rw [exec_mutation hs hm, mutate_pin (s := s.beginOperation) hc hin hready hpin hlatch hp]
  simp [State.complete, State.beginOperation, World.log, World.emit, hs]

/-! The mutating requests at the reference device -/

/-- A mutating request whose command an awake, idle and unprotected device accepts (R81, R82, R145): the whole skeleton, and
the effect of the operation at its end. -/
theorem exec_mutation_ready {s : State} {i : Instr} {tx : List Byte} {a : Addr} {cmd : NorCmd} {e : NorEffect} {n : Nat}
    (hc : s.cfg.wf) (hs : s.seq = .idle) (hp : s.norPhase = .idle) (hin : s.world.spiIn = []) (hready : s.world.nor.Ready)
    (hpin : s.world.nor.wpPin = false) (hm : mutation s.cfg i = some (tx, a)) (hcmd : decodeNor s.cfg tx = .ok cmd)
    (haccept : NorDevice.perform s.cfg { s.world.nor with wel := true, resetArmed := false } s.world.free cmd =
      ({ s.world.nor with wel := true, resetArmed := false, job := some ⟨e, some n⟩ }, s.world.free)) :
    exec i s = .next { s with
      dout := [], failCount := 0, resLen := 0, resCode := 0x00
      phaseLog := s.phaseLog ++ [.writeEnableAsserted, .commandIssued, .busy, .idle]
      world := { s.world.log (mutateEvents s.cfg [s.world.nor.sr1] [s.world.nor.settings ||| 0x02] tx
          (List.replicate n (s.world.nor.settings ||| 0x03) ++ [s.world.nor.settings]) ++ [.done 0x00]) with
        nor := { s.world.nor with
          mem := (s.world.nor.applyEffect s.cfg s.world.free e).1.mem, wel := false, resetArmed := false }
        free := (s.world.nor.applyEffect s.cfg s.world.free e).2 } } := by
  rw [exec_mutation hs hm, mutate_ready (s := s.beginOperation) (e := e) (n := n) (st := s.world.nor.status) hc hin hready hpin
    hp hcmd haccept]
  simp [continueAfter, State.returnOk, State.complete, State.beginOperation, World.log, World.emit, NorDevice.settings, hs]

/-- Settles O23: the request by `exec_mutation_ready`, what the memory holds by `programBytes_spec`. -/
theorem pageProgram : Obligations.PageProgram := by
  intro s addr arg data n hc hs hp hmem hin hready hpin hpolls haddr hlen hpage hdata
  have hm : mutation s.cfg (.norWritePage addr arg data) = some (s.cfg.cmd.pp :: (be24 addr ++ data), addr) :=
    if_pos ⟨haddr, hlen, hpage⟩
  have hcmd : decodeNor s.cfg (s.cfg.cmd.pp :: (be24 addr ++ data)) = .ok (.pp addr data) :=
    decodeNor_bytes (Config.wf_nodup hc) (.pp addr data) (by rintro _ _ ⟨⟩; omega)
  have haccept : NorDevice.perform s.cfg { s.world.nor with wel := true, resetArmed := false } s.world.free (.pp addr data) =
      ({ s.world.nor with wel := true, resetArmed := false, job := some ⟨.program addr.toNat data, some n⟩ },
        s.world.free) := by
    rw [← hpolls, NorDevice.perform, if_neg hdata, Nat.mod_eq_of_lt haddr]
    rfl
  have hspec := programBytes_spec s.cfg (s.world.nor.protectedRanges s.cfg) addr.toNat data 0 s.world.nor.mem s.world.free hmem
    (by omega)
  simp only [Nat.zero_add] at hspec
  exact ⟨_, _, exec_mutation_ready hc hs hp hin hready hpin hm hcmd haccept, hspec.2, hspec.1⟩

/-- The command of an erase request, the region it erases, and that the command is decoded from the request's frame
(R86, R152 to R154). -/
theorem mutation_erase {c : Config} {i : Instr} {tx : List Byte} {a : Addr} {start len : Nat} (hc : c.wf)
    (hm : mutation c i = some (tx, a))
    (hi : i = .norSectorErase a ∧ start = a.toNat - a.toNat % c.norSector ∧ len = c.norSector ∨
      i = .norBlockErase64k a ∧ start = a.toNat - a.toNat % c.norBlock ∧ len = c.norBlock ∨
      i = .norChipErase ∧ start = 0 ∧ len = c.norCapacity) :
    ∃ cmd, decodeNor c tx = .ok cmd ∧ ∀ (d : NorDevice) (k : Nat),
      d.perform c k cmd = NorDevice.accept { d with resetArmed := false } k (.erase start len) := by
  have hregion (region : Nat) (ha : a.toNat < c.norCapacity) :
      alignDown ((eraseAddress c region a).toNat % c.norCapacity) region = a.toNat - a.toNat % region := by
    rw [Nat.mod_eq_of_lt (eraseAddress_lt ha), eraseAddress_region]
    rfl
  rcases hi with ⟨rfl, rfl, rfl⟩ | ⟨rfl, rfl, rfl⟩ | ⟨rfl, rfl, rfl⟩
  · simp only [mutation, Option.ite_none_right_eq_some, Option.some.injEq, Prod.mk.injEq, and_true] at hm
    obtain ⟨ha, rfl⟩ := hm
    refine ⟨.se (eraseAddress c c.norSector a), decodeNor_plain hc (.se (eraseAddress c c.norSector a)) (by simp), fun d k => ?_⟩
    rw [NorDevice.perform, hregion _ ha]
  · simp only [mutation, Option.ite_none_right_eq_some, Option.some.injEq, Prod.mk.injEq, and_true] at hm
    obtain ⟨ha, rfl⟩ := hm
    refine ⟨.be64 (eraseAddress c c.norBlock a), decodeNor_plain hc (.be64 (eraseAddress c c.norBlock a)) (by simp), fun d k => ?_⟩
    rw [NorDevice.perform, hregion _ ha]
  · simp only [mutation, Option.some.injEq, Prod.mk.injEq] at hm
    obtain ⟨rfl, -⟩ := hm
    exact ⟨.ce, decodeNor_plain hc .ce (by simp), fun d k => rfl⟩

/-- Settles O25: the request by `exec_mutation_ready`, what the memory holds by `read_eraseRegion`. -/
theorem erases : Obligations.Erases := by
  intro s i tx a start len n hc hs hp hmem hin hready hpin hpolls hm hi
  obtain ⟨cmd, hcmd, hperform⟩ := mutation_erase hc hm hi
  have haccept : NorDevice.perform s.cfg { s.world.nor with wel := true, resetArmed := false } s.world.free cmd =
      ({ s.world.nor with wel := true, resetArmed := false, job := some ⟨.erase start len, some n⟩ }, s.world.free) := by
    rw [← hpolls, hperform]
    rfl
  exact ⟨_, exec_mutation_ready hc hs hp hin hready hpin hm hcmd haccept,
    read_eraseRegion s.cfg (s.world.nor.protectedRanges s.cfg) start len s.world.nor.mem⟩

/-! `NOR_WRITE_PAGE` without payload (U8) -/

/-- The skeleton at an awake, idle and unprotected device, from what its final poll finds (R145). -/
theorem mutate_ready_of {tx : List Byte} {opAddr : Addr} {after : After} {s : State} {cmd : NorCmd} {final : List Byte}
    {nor : NorDevice} {k : Nat} (hc : s.cfg.wf) (hin : s.world.spiIn = []) (hready : s.world.nor.Ready)
    (hpin : s.world.nor.wpPin = false) (hp : s.norPhase = .idle) (hcmd : decodeNor s.cfg tx = .ok cmd)
    (hfinal : ∀ v : State, v.cfg = s.cfg → v.world.spiIn = [] →
      (v.world.nor, v.world.free) =
        NorDevice.perform s.cfg { s.world.nor with wel := true, resetArmed := false } s.world.free cmd →
      v.poll = (true, { v with
        world := { v.world.log (statusEvents s.cfg final) with nor := nor, free := k } })) :
    mutate tx opAddr after s = continueAfter after { s with
      phaseLog := s.phaseLog ++ [.writeEnableAsserted, .commandIssued, .busy, .idle]
      world := { s.world.log (mutateEvents s.cfg [s.world.nor.sr1] [s.world.nor.settings ||| 0x02#8] tx final) with
        nor := nor, free := k } } := by
  have hlatch := ensureWriteEnabled_ready (s := { s with
    world := { s.world.log (statusEvents s.cfg [s.world.nor.sr1]) with
      nor := { s.world.nor with resetArmed := false } } }) hc hin hready hpin
  refine (mutate_of (State.poll_ready hc hin hready) hlatch (State.spiSend_ready hready hcmd) (hfinal _ rfl hin rfl)).trans ?_
  congr 1
  simp [State.setPhase, hp, World.log, mutateEvents, NorDevice.settings]

/-- The answers to a busy poll of a device that does nothing, or nothing but to be busy for a while (U8). -/
theorem State.poll_nothing {d : NorDevice} {n : Nat} (hawake : d.asleep = false) (hup : d.powerUpLeft = 0)
    (hjob : d.job = none ∨ d.job = some ⟨.nothing, some n⟩) :
    ∃ final wel, PollAnswers final ∧ ∀ s : State, s.cfg.wf → s.world.spiIn = [] → s.world.nor = d →
      s.poll = (true, { s with
        world := { s.world.log (statusEvents s.cfg final) with
          nor := { d with job := none, wel := wel, resetArmed := false } } }) := by
  rcases hjob with hjob | hjob
  · refine ⟨[d.sr1], d.wel, ⟨[], _, rfl, by simp, busyFlag_idle hjob⟩, fun s hc hin hd => ?_⟩
    subst hd
    rw [State.poll_ready hc hin ⟨hawake, hup, hjob⟩]
    simp only [hjob]
  · refine ⟨List.replicate n d.sr1 ++ [d.settings], false, ⟨_, _, rfl, fun b hb => ?_, busyFlag_settings _⟩,
      fun s hc hin hd => ?_⟩
    · rw [List.eq_of_mem_replicate hb]
      exact busyFlag_busy (by simp [hjob])
    · subst hd
      exact State.poll_busy hc hin hawake hup hjob

/-- An awake and idle device with the latch set does nothing with an address-only program frame, but may be busy (U8). -/
theorem perform_emptyProgram (c : Config) (d : NorDevice) (k : Nat) (a : Addr) :
    ∃ wel job, NorDevice.perform c { d with wel := true, resetArmed := false } k (.pp a []) =
        ({ d with wel := wel, resetArmed := false, job := job }, k + 2) ∧
      (job = none ∨ job = some ⟨.nothing, d.busyPolls⟩) := by
  refine ⟨_, _, rfl, ?_⟩
  split
  · exact .inr rfl
  · exact .inl rfl

/-- Settles O24: the free choice of the device (`perform_emptyProgram`) decides what the final poll reads. -/
theorem emptyPageProgram : Obligations.EmptyPageProgram := by
  intro s addr n hc hs hp hin hready hpin hpolls haddr
  have hm : mutation s.cfg (.norWritePage addr 0 []) = some (s.cfg.cmd.pp :: be24 addr, addr) := by
    simp [mutation, haddr]
  have hcmd : decodeNor s.cfg (s.cfg.cmd.pp :: be24 addr) = .ok (.pp addr []) := by
    simpa [NorCmd.bytes] using decodeNor_bytes (Config.wf_nodup hc) (.pp addr []) (by rintro _ _ ⟨⟩; simp)
  obtain ⟨hawake, hup, hjob⟩ := hready
  obtain ⟨wel, job, hperform, hwait⟩ := perform_emptyProgram s.cfg s.world.nor s.world.free addr
  obtain ⟨final, wel', hfinal, hpoll⟩ := State.poll_nothing (n := n)
    (d := { s.world.nor with wel := wel, resetArmed := false, job := job }) hawake hup (hpolls ▸ hwait)
  refine ⟨final, wel', s.world.free + 2, hfinal, ?_⟩
  rw [exec_mutation hs hm, mutate_ready_of (s := s.beginOperation) (final := final)
    (nor := { s.world.nor with wel := wel', resetArmed := false }) (k := s.world.free + 2) hc hin ⟨hawake, hup, hjob⟩ hpin hp hcmd
    (fun v hcfg hv hdev => ?_)]
  · simp [continueAfter, State.returnOk, State.complete, State.beginOperation, World.log, World.emit, hs]
  · obtain ⟨hnor, hfree⟩ := Prod.mk.inj (hdev.trans hperform)
    rw [hpoll v (hcfg ▸ hc) hv hnor, hcfg]
    simp only [World.log, hfree, hjob]

/-! `NOR_READ` (R157) -/

theorem exec_norRead {s : State} {addr : Addr} {arg : BitVec 32} (hs : s.seq = .idle) (h0 : 0 < arg.toNat)
    (hend : addr.toNat + arg.toNat ≤ s.cfg.norCapacity) :
    exec (.norRead addr arg) s = .next (pollAndRead addr arg.toNat s.beginOperation) := by
  have harg : arg ≠ 0 := by rintro rfl; exact absurd h0 (by simp)
  simp only [exec, execNorRead, State.request_idle hs, State.beginOperation_cfg,
    overWide_eq_false (show addr.toNat < s.cfg.norCapacity by omega), pastEnd_eq_false hend, harg, Bool.false_eq_true, if_false]

theorem exec_norRead_nothing {s : State} {addr : Addr} (hs : s.seq = .idle) (ha : addr.toNat < s.cfg.norCapacity) :
    exec (.norRead addr 0) s = .next s.beginOperation.returnOk := by
  simp only [exec, execNorRead, State.request_idle hs, State.beginOperation_cfg, overWide_eq_false ha,
    pastEnd_eq_false (n := 0) (show addr.toNat + (0 : BitVec 32).toNat ≤ s.cfg.norCapacity from ha.le), Bool.false_eq_true,
    if_false, if_true]

/-- Settles O26, by the poll and the read frame at an idle device (`State.poll_ready`, `State.spi_read`). -/
theorem norReadRequest : Obligations.NorReadRequest := by
  intro s addr arg hc hs hin hready h0 hend
  have hread := State.spi_read (s := { s.beginOperation with
    world := { s.world.log (statusEvents s.cfg [s.world.nor.sr1]) with
      nor := { s.world.nor with resetArmed := false } } }) hc hin hready h0 hend
  rw [exec_norRead hs h0 hend, pollAndRead_of (State.poll_ready (s := s.beginOperation) hc hin hready) hread]
  simp [State.returnOk, State.complete, State.beginOperation, World.log, World.emit, hs]

/-- The poll of `NOR_READ` and its read frame, at any device whose answers are given from outside (R143, R157). -/
theorem pollAndRead_answered {s : State} {addr : Addr} {first data rest : List Byte} (h1 : PollAnswers first)
    (h0 : 0 < data.length) (hin : s.world.spiIn = first ++ data ++ rest) :
    ∃ nor k, pollAndRead addr data.length s = State.returnOk { s with
      dout := data
      world := { s.world.log (statusEvents s.cfg first ++ askEvents (s.cfg.cmd.read :: be24 addr) data) with
        nor := nor, free := k, spiIn := rest } } := by
  obtain ⟨nor1, k1, hpoll⟩ := State.poll_answered (s := s) (rest := data ++ rest) h1 (by rw [hin, List.append_assoc])
  obtain ⟨nor2, k2, hread⟩ := State.spi_answered (NorCmd.bytes s.cfg (.read addr)) (data := data) (rest := rest)
    (s := { s with world := { s.world.log (statusEvents s.cfg first) with
      nor := nor1, free := k1, spiIn := data ++ rest } }) (List.ne_nil_of_length_pos h0) rfl
  refine ⟨nor2, k2, ?_⟩
  rw [pollAndRead_of hpoll hread]
  simp [World.log, NorCmd.bytes]

/-- Settles O27: a read of no bytes ends at once, any other is `pollAndRead_answered`. -/
theorem norReadAnyAnswers : Obligations.NorReadAnyAnswers := by
  intro s addr arg first data rest hc hs ha hend
  refine ⟨fun h0 => ?_, fun h0 h1 hlen hin => ?_⟩
  · obtain rfl : arg = 0 := BitVec.eq_of_toNat_eq h0
    rw [exec_norRead_nothing hs ha]
    simp [State.returnOk, State.complete, State.beginOperation, World.log, World.emit, hs]
  · obtain ⟨nor, k, hread⟩ := pollAndRead_answered (s := s.beginOperation) (addr := addr) h1 (hlen ▸ h0) hin
    refine ⟨nor, k, ?_⟩
    rw [exec_norRead hs h0 hend, ← hlen, hread]
    simp [State.returnOk, State.complete, State.beginOperation, World.log, World.emit, hs, hlen]

end Sys2Proof.Machine
end

section
/-! PROOFS. An operation that waits in a busy poll: how it goes on (R143, R158, R249), and the device that never ends its
operation. -/

namespace Sys2Proof.Machine

theorem run_succ {s t : State} (h : step s = .next t) (k : Nat) :
    Host.Core.run Sys2Proof.core (k + 1) s = Host.Core.run Sys2Proof.core k t := by
  simp only [Host.Core.run, show Sys2Proof.core.step s = .next t from h]

/-- Settles O15, by induction on the number of steps; one step is one poll (`resume_stuck`). -/
theorem hangPollsForEver : Obligations.HangPollsForEver := by
  intro s e k hc hs hcaller hin hawake hup hjob
  induction k generalizing s with
  | zero => simp [Host.Core.run, statusEvents, World.log]
  | succ k ih =>
    have hstep : step s = .next { s with world := s.world.log (statusEvents s.cfg [s.world.nor.sr1]) } := by
      rw [← resume_stuck hc hs hin hawake hup hjob]
      exact step_resume hc hs (by simp [hcaller])
    have hrest := ih { s with world := s.world.log (statusEvents s.cfg [s.world.nor.sr1]) } hc hs hcaller hin hawake hup hjob
    refine ((run_succ hstep k).trans hrest).trans ?_
    rw [List.replicate_succ, statusEvents_cons]
    simp [World.log, statusEvents, NorDevice.sr1]

/-- Going on with an operation takes nothing from the caller and leaves the request latch (R21, R158). -/
theorem resume_request {s : State} (hs : s.seq ≠ .idle) :
    (resume s).caller = s.caller ∧ (resume s).reqOp = s.reqOp ∧ (resume s).reqAddr = s.reqAddr ∧
      (resume s).reqArg = s.reqArg ∧ (resume s).din = s.din := by
  obtain ⟨n, u, hu, hends⟩ := resume_ends s hs
  have hsame := And.intro hu.caller hu.request
  rcases hends with ⟨hended | hended, -⟩ | ⟨q, -, hwaits, -⟩
  · rw [hended]; exact hsame
  · rw [hended]; exact hsame
  · rw [hwaits]; exact hsame

section
variable {s : State} {tx : List Byte} {op : Addr} {first latch final rest : List Byte} {id1 id2 id : BitVec 24}

/-- The final poll that ends (R143, R145), at any device. -/
theorem finalWait_answered {after : After} (h1 : PollAnswers final) (hp : s.norPhase = .busy)
    (hin : s.world.spiIn = final ++ rest) :
    ∃ nor k, finalWait tx after s = continueAfter after { s with
      norPhase := .idle, phaseLog := s.phaseLog ++ [.idle]
      world := { s.world.log (statusEvents s.cfg final) with nor := nor, free := k, spiIn := rest } } := by
  obtain ⟨nor, k, hpoll⟩ := State.poll_answered h1 hin
  refine ⟨nor, k, ?_⟩
  rw [finalWait_of hpoll]
  simp [State.setPhase, hp]

/-- The skeleton of an operation that then reads the identity (R145, R155, R156), at any device. -/
theorem mutate_identify (hid : id = if id1 = 0 then id2 else id1) (h1 : PollAnswers first) (h2 : LatchAnswers latch)
    (h3 : PollAnswers final) (hp : s.norPhase = .idle)
    (hin : s.world.spiIn = first ++ latch ++ final ++ be24 id1 ++ (if id1 = 0 then be24 id2 else []) ++ rest) :
    ∃ nor k, mutate tx op .identify s = { s with
      seq := .idle, dout := be24 id, resLen := 3, resCode := 0x00, norIdent := id, norIdentValid := true
      phaseLog := s.phaseLog ++ [.writeEnableAsserted, .commandIssued, .busy, .idle]
      warn := s.warn ||| (if id = s.cfg.norExpectedId then 0#8 else 0x01#8)
      world := { s.world.log (mutateEvents s.cfg first latch tx final ++ identityEvents s.cfg id1 id2 ++
          (if id = s.cfg.norExpectedId then [] else [.warn .deviceIdentityMismatch]) ++ [.done 0x00]) with
        nor := nor, free := k, spiIn := rest
        see := { s.world.see with
          cycleLeft := s.world.see.cycleLeft - (if id1 = 0 then s.cfg.tIdRetry else 0) } } } := by
  obtain ⟨nor1, k1, hmutate⟩ := mutate_answered (tx := tx) (opAddr := op) (after := .identify)
    (rest := be24 id1 ++ ((if id1 = 0 then be24 id2 else []) ++ rest)) h1 h2 h3 hp (by rw [hin]; simp only [List.append_assoc])
  obtain ⟨nor2, k2, hidentify⟩ := identify_answered (id1 := id1) (id2 := id2) (rest := rest) hid
    (s := { s with
      phaseLog := s.phaseLog ++ [.writeEnableAsserted, .commandIssued, .busy, .idle]
      world := { s.world.log (mutateEvents s.cfg first latch tx final) with
        nor := nor1, free := k1, spiIn := be24 id1 ++ ((if id1 = 0 then be24 id2 else []) ++ rest) } }) rfl
  refine ⟨nor2, k2, ?_⟩
  rw [hmutate, continueAfter, hidentify]
  simp only [World.log, List.append_assoc]

/-- The final poll of an operation that then reads the identity. -/
theorem finalPoll_identify (hid : id = if id1 = 0 then id2 else id1) (h1 : PollAnswers final) (hp : s.norPhase = .busy)
    (hin : s.world.spiIn = final ++ be24 id1 ++ (if id1 = 0 then be24 id2 else []) ++ rest) :
    ∃ nor k, finalWait tx .identify s = { s with
      seq := .idle, dout := be24 id, resLen := 3, resCode := 0x00, norIdent := id, norIdentValid := true
      norPhase := .idle, phaseLog := s.phaseLog ++ [.idle]
      warn := s.warn ||| (if id = s.cfg.norExpectedId then 0#8 else 0x01#8)
      world := { s.world.log (statusEvents s.cfg final ++ identityEvents s.cfg id1 id2 ++
          (if id = s.cfg.norExpectedId then [] else [.warn .deviceIdentityMismatch]) ++ [.done 0x00]) with
        nor := nor, free := k, spiIn := rest
        see := { s.world.see with
          cycleLeft := s.world.see.cycleLeft - (if id1 = 0 then s.cfg.tIdRetry else 0) } } } := by
  obtain ⟨nor1, k1, hwait⟩ := finalWait_answered (tx := tx) (after := .identify)
    (rest := be24 id1 ++ ((if id1 = 0 then be24 id2 else []) ++ rest)) h1 hp (by rw [hin]; simp only [List.append_assoc])
  obtain ⟨nor2, k2, hidentify⟩ := identify_answered (id1 := id1) (id2 := id2) (rest := rest) hid
    (s := { s with
      norPhase := .idle, phaseLog := s.phaseLog ++ [.idle]
      world := { s.world.log (statusEvents s.cfg final) with
        nor := nor1, free := k1, spiIn := be24 id1 ++ ((if id1 = 0 then be24 id2 else []) ++ rest) } }) rfl
  refine ⟨nor2, k2, ?_⟩
  rw [hwait, continueAfter, hidentify]
  simp only [World.log, List.append_assoc]

end

/-- Settles O14: the step is `resume`, and each position goes on by the law of its procedure for answers from outside. -/
theorem runningOperationGoesOn : Obligations.RunningOperationGoesOn := by
  refine ⟨fun s t x rest hc hs hcaller hx hstep => ?_, ?_⟩
  · rw [step_resume hc hs (fun later h => hx (List.cons.inj (hcaller.symm.trans h)).1)] at hstep
    cases hstep
    exact resume_request hs
  intro s tx op first latch final data rest l1 l2 id1 id2 id hc hreset h1 h2 h3 hl1 hl2 hid
  have hgo : s.seq ≠ .idle → step s = .next (resume s) := fun hs => step_resume hc hs hreset
  refine ⟨?firstPoll, ?latchRefused, ?finalPoll, ?firstPollInit, ?finalPollInit, ?readPoll⟩
  case firstPoll =>
    intro hs hp hin
    obtain ⟨nor, k, hmutate⟩ := mutate_answered (tx := tx) (opAddr := op) (after := .finish) h1 h2 h3 hp hin
    refine ⟨nor, k, ?_⟩
    rw [hgo (by simp [hs])]
    simp only [resume, hs, hmutate]
    simp [continueAfter, State.returnOk, State.complete, World.log, World.emit]
  case latchRefused =>
    intro after hs hp hin
    obtain ⟨nor, k, hmutate⟩ := mutate_refused (tx := tx) (opAddr := op) (after := after) h1 hl1 hl2 hp hin
    refine ⟨nor, k, ?_⟩
    rw [hgo (by simp [hs])]
    simp only [resume, hs, hmutate]
    simp [State.complete, World.log, World.emit]
  case finalPoll =>
    intro hs hp hin
    obtain ⟨nor, k, hwait⟩ := finalWait_answered (tx := tx) (after := .finish) h3 hp hin
    refine ⟨nor, k, ?_⟩
    rw [hgo (by simp [hs])]
    simp only [resume, hs, hwait]
    simp [continueAfter, State.returnOk, State.complete, World.log, World.emit]
  case firstPollInit =>
    intro hs hp hin
    obtain ⟨nor, k, hmutate⟩ := mutate_identify (tx := tx) (op := op) hid h1 h2 h3 hp hin
    refine ⟨nor, k, ?_⟩
    rw [hgo (by simp [hs])]
    simp only [resume, hs, hmutate]
  case finalPollInit =>
    intro hs hp hin
    obtain ⟨nor, k, hwait⟩ := finalPoll_identify (tx := tx) hid h3 hp hin
    refine ⟨nor, k, ?_⟩
    rw [hgo (by simp [hs])]
    simp only [resume, hs, hwait]
  case readPoll =>
    intro hs h0 hin
    obtain ⟨nor, k, hread⟩ := pollAndRead_answered (addr := op) h1 h0 hin
    refine ⟨nor, k, ?_⟩
    rw [hgo (by simp [hs])]
    simp only [resume, hs, hread]
    simp [State.returnOk, State.complete, World.log, World.emit]

end Sys2Proof.Machine
end

section
/-! PROOFS. The protection step (R181 to R183) and `NOR_INIT` (R156). -/

namespace Sys2Proof.Machine

/-! The protection step at any device -/

theorem protectedStatus_eq_false {c : Config} {b : Byte} (h : b &&& c.norProtMask = 0) : protectedStatus c b = false := by
  rw [← Bool.not_eq_true, protectedStatus_iff, not_not]
  exact h

section
variable {s : State} {s1 s2 s3 : Byte} {first latch final rest : List Byte} (after : After)

/-- The protection step that finds no protection writes nothing (R181). -/
theorem disableProtection_unprotected (h : s1 &&& s.cfg.norProtMask = 0) (hin : s.world.spiIn = [s1, s2, s3] ++ rest) :
    ∃ nor k, disableProtection after s = continueAfter after { s with
      dout := [s1, s2, s3]
      world := { s.world.log (inspectEvents s.cfg s1 s2 s3) with nor := nor, free := k, spiIn := rest } } := by
  obtain ⟨nor, k, t, rfl, hstep⟩ := inspect_answered hin after
  exact ⟨nor, k, by rw [hstep, protectedStatus_eq_false h]; rfl⟩

/-- The protection step that writes the cleared byte (R181, R183). -/
theorem disableProtection_written (h : s1 &&& s.cfg.norProtMask ≠ 0) (hp : s.norPhase = .idle) (h1 : PollAnswers first)
    (h2 : LatchAnswers latch) (h3 : PollAnswers final) (hin : s.world.spiIn = [s1, s2, s3] ++ (first ++ latch ++ final ++ rest)) :
    ∃ nor k, disableProtection after s = continueAfter after { s with
      dout := [s1, s2, s3]
      phaseLog := s.phaseLog ++ [.writeEnableAsserted, .commandIssued, .busy, .idle]
      world := { s.world.log (inspectEvents s.cfg s1 s2 s3 ++
          mutateEvents s.cfg first latch [s.cfg.cmd.wrsr1, s1 &&& ~~~s.cfg.norProtMask] final) with
        nor := nor, free := k, spiIn := rest } } := by
  obtain ⟨nor1, k1, t, rfl, hstep⟩ := inspect_answered hin after
  obtain ⟨nor2, k2, hmutate⟩ := mutate_answered (tx := [s.cfg.cmd.wrsr1, s1 &&& ~~~s.cfg.norProtMask]) (opAddr := 0)
    (after := after) (s := { s with
      dout := [s1, s2, s3]
      world := { s.world.log (inspectEvents s.cfg s1 s2 s3) with
        nor := nor1, free := k1, spiIn := first ++ latch ++ final ++ rest } }) h1 h2 h3 hp rfl
  refine ⟨nor2, k2, ?_⟩
  rw [hstep, (protectedStatus_iff _ _).mpr h, if_pos rfl]
  refine hmutate.trans ?_
  simp only [World.log, List.append_assoc]

/-- The protection step whose write-enable is not taken (R144, R232). -/
theorem disableProtection_refused {l1 l2 : Byte} (h : s1 &&& s.cfg.norProtMask ≠ 0) (hp : s.norPhase = .idle)
    (h1 : PollAnswers first) (hl1 : latchFlag l1 = false) (hl2 : latchFlag l2 = false)
    (hin : s.world.spiIn = [s1, s2, s3] ++ (first ++ [l1, l2] ++ rest)) :
    ∃ nor k, disableProtection after s = State.complete 0x02 { s with
      dout := [s1, s2, s3], resAddr := 0, resObserved := l2
      phaseLog := s.phaseLog ++ [.writeEnableAsserted, .idle]
      world := { s.world.log (inspectEvents s.cfg s1 s2 s3 ++ statusEvents s.cfg first ++ latchEvents s.cfg [l1, l2]) with
        nor := nor, free := k, spiIn := rest } } := by
  obtain ⟨nor1, k1, t, rfl, hstep⟩ := inspect_answered hin after
  obtain ⟨nor2, k2, hmutate⟩ := mutate_refused (tx := [s.cfg.cmd.wrsr1, s1 &&& ~~~s.cfg.norProtMask]) (opAddr := 0)
    (after := after) (s := { s with
      dout := [s1, s2, s3]
      world := { s.world.log (inspectEvents s.cfg s1 s2 s3) with
        nor := nor1, free := k1, spiIn := first ++ [l1, l2] ++ rest } }) h1 hl1 hl2 hp rfl
  refine ⟨nor2, k2, ?_⟩
  rw [hstep, (protectedStatus_iff _ _).mpr h, if_pos rfl]
  refine hmutate.trans ?_
  simp only [World.log, List.append_assoc]

end

theorem exec_wpDisableProtection {s : State} (hs : s.seq = .idle) :
    exec .wpDisableProtection s = .next (disableProtection .finish s.beginOperation) := by
  rw [exec, execWpDisableProtection, State.request_idle hs]

/-- Settles O30, by the three ways the protection step can go. -/
theorem disableProtectionRequest : Obligations.DisableProtection := by
  intro s s1 s2 s3 first latch final rest l1 l2 hc hs hp
  refine ⟨fun hprot hin => ?unprotected, fun hprot h1 h2 h3 hin => ?written, fun hprot h1 hl1 hl2 hin => ?refused⟩
  case unprotected =>
    obtain ⟨nor, k, hstep⟩ := disableProtection_unprotected (s := s.beginOperation) .finish hprot hin
    refine ⟨nor, k, ?_⟩
    rw [exec_wpDisableProtection hs, hstep]
    simp [continueAfter, State.returnOk, State.complete, State.beginOperation, World.log, World.emit, hs]
  case written =>
    obtain ⟨nor, k, hstep⟩ := disableProtection_written (s := s.beginOperation) (rest := rest) .finish hprot hp h1 h2 h3
      (by simpa using hin)
    refine ⟨nor, k, ?_⟩
    rw [exec_wpDisableProtection hs, hstep]
    simp [continueAfter, State.returnOk, State.complete, State.beginOperation, World.log, World.emit, hs]
  case refused =>
    obtain ⟨nor, k, hstep⟩ := disableProtection_refused (s := s.beginOperation) (rest := rest) .finish hprot hp h1 hl1 hl2
      (by simpa using hin)
    refine ⟨nor, k, ?_⟩
    rw [exec_wpDisableProtection hs, hstep]
    simp [State.complete, State.beginOperation, World.log, World.emit, hs]

/-! `NOR_INIT` at any device -/

/-- The block when `NOR_INIT` comes to its protection step: the warning cleared, the three first frames sent (R156). -/
def State.woken (s : State) : State :=
  ((((s.clearWarn idMismatch).spiSend [s.cfg.cmd.wake]).spiSend [s.cfg.cmd.rsten]).spiSend [s.cfg.cmd.rst])

theorem exec_norInit {s : State} (hs : s.seq = .idle) :
    exec .norInit s = .next (disableProtection .identify s.beginOperation.woken) := by
  rw [exec, execNorInit, State.request_idle hs]
  rfl

theorem woken_any (s : State) :
    ∃ nor k, s.woken = { s with
      warn := s.warn &&& ~~~0x01#8
      world := { s.world.log (wakeEvents s.cfg) with nor := nor, free := k } } := wake_any s

/-- Settles O29, by the three ways the protection step can go, and the identity read by `identify_answered`. -/
theorem norInitAnyAnswers : Obligations.NorInitAnyAnswers := by
  intro s s1 s2 s3 first latch final rest l1 l2 id1 id2 id hc hs hid
  obtain ⟨nor0, k0, hwoken⟩ := woken_any s.beginOperation
  refine ⟨fun hprot hin => ?unprotected, fun hprot hp h1 h2 h3 hin => ?written, fun hprot hp h1 hl1 hl2 hin => ?refused⟩
  case unprotected =>
    obtain ⟨nor1, k1, hstep⟩ := disableProtection_unprotected (s := s.beginOperation.woken) (s1 := s1) (s2 := s2) (s3 := s3)
      (rest := be24 id1 ++ ((if id1 = 0 then be24 id2 else []) ++ rest)) .identify (by rw [hwoken]; exact hprot)
      (by rw [hwoken]; simpa [State.beginOperation] using hin)
    rw [hwoken] at hstep
    obtain ⟨nor, k, hidentify⟩ := identify_answered (id1 := id1) (id2 := id2) (rest := rest) hid
      (s := { s.beginOperation with
        warn := s.warn &&& ~~~0x01#8, dout := [s1, s2, s3]
        world := { (s.world.log (wakeEvents s.cfg)).log (inspectEvents s.cfg s1 s2 s3) with
          nor := nor1, free := k1, spiIn := be24 id1 ++ ((if id1 = 0 then be24 id2 else []) ++ rest) } }) rfl
    refine ⟨nor, k, ?_⟩
    rw [exec_norInit hs, hwoken, hstep]
    refine (congrArg _ hidentify).trans ?_
    simp only [State.beginOperation, World.log, List.append_assoc, hs]
  case written =>
    obtain ⟨nor1, k1, hstep⟩ := disableProtection_written (s := s.beginOperation.woken) (s1 := s1) (s2 := s2) (s3 := s3)
      (rest := be24 id1 ++ ((if id1 = 0 then be24 id2 else []) ++ rest)) .identify (by rw [hwoken]; exact hprot)
      (by rw [hwoken]; exact hp) h1 h2 h3 (by rw [hwoken]; simpa [State.beginOperation] using hin)
    rw [hwoken] at hstep
    obtain ⟨nor, k, hidentify⟩ := identify_answered (id1 := id1) (id2 := id2) (rest := rest) hid
      (s := { s.beginOperation with
        warn := s.warn &&& ~~~0x01#8, dout := [s1, s2, s3]
        phaseLog := s.phaseLog ++ [.writeEnableAsserted, .commandIssued, .busy, .idle]
        world := { (s.world.log (wakeEvents s.cfg)).log (inspectEvents s.cfg s1 s2 s3 ++
            mutateEvents s.cfg first latch [s.cfg.cmd.wrsr1, s1 &&& ~~~s.cfg.norProtMask] final) with
          nor := nor1, free := k1, spiIn := be24 id1 ++ ((if id1 = 0 then be24 id2 else []) ++ rest) } }) rfl
    refine ⟨nor, k, ?_⟩
    rw [exec_norInit hs, hwoken, hstep]
    refine (congrArg _ hidentify).trans ?_
    simp only [State.beginOperation, World.log, List.append_assoc, hs]
  case refused =>
    obtain ⟨nor, k, hstep⟩ := disableProtection_refused (s := s.beginOperation.woken) (s1 := s1) (s2 := s2) (s3 := s3)
      (rest := rest) .identify (by rw [hwoken]; exact hprot) (by rw [hwoken]; exact hp) h1 hl1 hl2
      (by rw [hwoken]; simpa [State.beginOperation] using hin)
    rw [hwoken] at hstep
    refine ⟨nor, k, ?_⟩
    rw [exec_norInit hs, hwoken, hstep]
    simp [State.complete, State.beginOperation, World.log, World.emit, hs]

/-! `NOR_INIT` at the reference device -/

/-- The wake command at an idle device: it is awake, and nothing else changes but the reset-enable (R89). -/
theorem react_wake {c : Config} {d : NorDevice} (hc : c.wf) (hup : d.powerUpLeft = 0) (hjob : d.job = none) (k : Nat) :
    ∃ r, d.react c k [c.cmd.wake] = ({ d with asleep := false, resetArmed := r }, k) := by
  have hdecode : decodeNor c [c.cmd.wake] = .ok .wake := decodeNor_plain hc .wake (by simp)
  cases hasleep : d.asleep with
  | true => exact ⟨d.resetArmed, by simp [NorDevice.react, hdecode, hasleep]⟩
  | false => exact ⟨false, by rw [NorDevice.react_ready ⟨hasleep, hup, hjob⟩ hdecode, NorDevice.perform, ← hasleep]⟩

/-- The reset command after the reset-enable command at an awake and idle device: the latch is clear (R89). -/
theorem react_reset {c : Config} {d : NorDevice} (hc : c.wf) (hready : d.Ready) (k : Nat) :
    d.react c k [c.cmd.rsten] = ({ d with resetArmed := true }, k) ∧
      NorDevice.react c { d with resetArmed := true } k [c.cmd.rst] = ({ d with wel := false, resetArmed := false }, k) := by
  have hrsten : decodeNor c [c.cmd.rsten] = .ok .rsten := decodeNor_plain hc .rsten (by simp)
  have hrst : decodeNor c [c.cmd.rst] = .ok .rst := decodeNor_plain hc .rst (by simp)
  refine ⟨NorDevice.react_ready hready hrsten k, ?_⟩
  rw [NorDevice.react_ready (d := { d with resetArmed := true }) hready hrst, NorDevice.perform, if_pos rfl]
  simp [NorDevice.powerOn, hready.2.2]

/-- The three first frames of `NOR_INIT` at a powered and idle device, awake or asleep (R89, R156). -/
theorem woken_ready {s : State} (hc : s.cfg.wf) (hup : s.world.nor.powerUpLeft = 0) (hjob : s.world.nor.job = none) :
    s.woken = { s with
      warn := s.warn &&& ~~~0x01#8
      world := { s.world.log (wakeEvents s.cfg) with
        nor := { s.world.nor with asleep := false, wel := false, resetArmed := false } } } := by
  obtain ⟨r, hwake⟩ := react_wake hc hup hjob s.world.free
  have ⟨hrsten, hrst⟩ := react_reset (d := { s.world.nor with asleep := false, resetArmed := r }) hc ⟨rfl, hup, hjob⟩ s.world.free
  simp [State.woken, State.clearWarn, State.spiSend_eq, hwake, hrsten, hrst, World.log, wakeEvents, idMismatch]

/-- What `NOR_INIT` ends with once it has the identity (R156, R236). -/
theorem storeIdentity_returnOk (id : BitVec 24) (s : State) :
    (s.storeIdentity id).returnOk = { s with
      seq := .idle, dout := be24 id, resLen := 3, resCode := 0x00, norIdent := id, norIdentValid := true
      warn := s.warn ||| (if id = s.cfg.norExpectedId then 0#8 else 0x01#8)
      world := s.world.log
        ((if id = s.cfg.norExpectedId then [] else [.warn .deviceIdentityMismatch]) ++ [.done 0x00]) } := by
  by_cases h : id = s.cfg.norExpectedId
  · simp [State.storeIdentity, State.returnOk, State.complete, World.log, World.emit, h, be24]
  · simp [State.storeIdentity, State.returnOk, State.complete, World.log, World.emit, h, be24, State.setWarn, State.emit, idMismatch]

/-- From its protection step on, `NOR_INIT` at an awake and idle device that is not protected (R156). -/
theorem protectionAndIdentity_ready {s : State} (hc : s.cfg.wf) (hin : s.world.spiIn = []) (hready : s.world.nor.Ready)
    (hlatch : s.world.nor.wel = false) (hprot : s.world.nor.settings &&& s.cfg.norProtMask = 0) (hident : s.world.nor.ident ≠ 0) :
    disableProtection .identify s = { s with
      seq := .idle, dout := be24 s.world.nor.ident, resLen := 3, resCode := 0x00
      norIdent := s.world.nor.ident, norIdentValid := true
      warn := s.warn ||| (if s.world.nor.ident = s.cfg.norExpectedId then 0#8 else 0x01#8)
      world := { s.world.log (inspectEvents s.cfg s.world.nor.settings s.world.nor.sr2 s.world.nor.sr3 ++
          askEvents [s.cfg.cmd.rdid] (be24 s.world.nor.ident) ++
          (if s.world.nor.ident = s.cfg.norExpectedId then [] else [.warn .deviceIdentityMismatch]) ++ [.done 0x00]) with
        nor := { s.world.nor with resetArmed := false } } } := by
  have hsr1 : s.world.nor.sr1 = s.world.nor.settings := by
    rw [NorDevice.sr1_idle hready.2.2, hlatch]
    simp
  obtain ⟨t, ht, hstep⟩ := inspect_ready hc hin hready
  have hidentify := identify_ready (s := t) (by rw [ht]; exact hc) (by rw [ht]; exact hin) (by rw [ht]; exact hready)
    (by rw [ht]; exact hident)
  rw [hstep, hsr1, protectedStatus_eq_false hprot, if_neg Bool.false_ne_true, continueAfter, hidentify,
    storeIdentity_returnOk, ht]
  simp only [World.log, List.append_assoc, hsr1]

/-- The identity read of an awake and idle device (R155). -/
theorem readIdentity_ready {s : State} (hc : s.cfg.wf) (hin : s.world.spiIn = []) (hready : s.world.nor.Ready) :
    s.readIdentity = (s.world.nor.ident, { s with
      world := { s.world.log (askEvents [s.cfg.cmd.rdid] (be24 s.world.nor.ident)) with
        nor := { s.world.nor with resetArmed := false } } }) := by
  simp only [State.readIdentity, State.spi_rdid hc hin hready]
  simp [be24, ofBe24_bytes]

/-- The identity a device that has not yet powered up shows at the second read, after the delay (R89). -/
def lateIdentity (c : Config) (d : NorDevice) : BitVec 24 := if d.powerUpLeft ≤ c.tIdRetry then d.ident else 0

/-- The second identity read, after the delay (R156), at a device that had not powered up before it. -/
theorem readIdentity_late {s : State} (hc : s.cfg.wf) (hin : s.world.spiIn = []) (hawake : s.world.nor.asleep = false)
    (hjob : s.world.nor.job = none) :
    ∃ armed, (s.delay .idRetry).readIdentity = (lateIdentity s.cfg s.world.nor, { s with
      world := { s.world.log ([.delay .idRetry] ++ askEvents [s.cfg.cmd.rdid] (be24 (lateIdentity s.cfg s.world.nor))) with
        nor := { s.world.nor with powerUpLeft := s.world.nor.powerUpLeft - s.cfg.tIdRetry, resetArmed := armed }
        see := { s.world.see with cycleLeft := s.world.see.cycleLeft - s.cfg.tIdRetry } } }) := by
  by_cases hlate : s.world.nor.powerUpLeft ≤ s.cfg.tIdRetry
  · have hup : (s.delay .idRetry).world.nor.powerUpLeft = 0 := Nat.sub_eq_zero_of_le hlate
    refine ⟨false, ?_⟩
    rw [readIdentity_ready (s := s.delay .idRetry) hc hin ⟨hawake, hup, hjob⟩, lateIdentity, if_pos hlate]
    simp [State.delay, World.delay, World.log, duration]
  · have hup : (s.delay .idRetry).world.nor.powerUpLeft ≠ 0 := Nat.sub_ne_zero_of_lt (Nat.lt_of_not_le hlate)
    refine ⟨s.world.nor.resetArmed, ?_⟩
    rw [rdid_poweringUp (s := s.delay .idRetry) hc hawake hup hin, lateIdentity, if_neg hlate]
    simp [State.delay, World.delay, World.log, duration]

/-- From its protection step on, `NOR_INIT` at a device that has not yet powered up, with status answers given from outside
that show no protection (R89, R156). -/
theorem protectionAndIdentity_poweringUp {s : State} {s1 s2 s3 : Byte} (hc : s.cfg.wf) (hin : s.world.spiIn = [s1, s2, s3])
    (hawake : s.world.nor.asleep = false) (hup : s.world.nor.powerUpLeft ≠ 0) (hjob : s.world.nor.job = none)
    (hprot : s1 &&& s.cfg.norProtMask = 0) :
    ∃ armed k, disableProtection .identify s = { s with
      seq := .idle, dout := be24 (lateIdentity s.cfg s.world.nor), resLen := 3, resCode := 0x00
      norIdent := lateIdentity s.cfg s.world.nor, norIdentValid := true
      warn := s.warn ||| (if lateIdentity s.cfg s.world.nor = s.cfg.norExpectedId then 0#8 else 0x01#8)
      world := { s.world.log (inspectEvents s.cfg s1 s2 s3 ++ askEvents [s.cfg.cmd.rdid] (be24 0) ++ [.delay .idRetry] ++
          askEvents [s.cfg.cmd.rdid] (be24 (lateIdentity s.cfg s.world.nor)) ++
          (if lateIdentity s.cfg s.world.nor = s.cfg.norExpectedId then [] else [.warn .deviceIdentityMismatch]) ++
          [.done 0x00]) with
        nor := { s.world.nor with powerUpLeft := s.world.nor.powerUpLeft - s.cfg.tIdRetry, resetArmed := armed }
        free := k, spiIn := []
        see := { s.world.see with cycleLeft := s.world.see.cycleLeft - s.cfg.tIdRetry } } } := by
  obtain ⟨k, hinspect⟩ := inspect_poweringUp hc hawake hup hin (protectedStatus_eq_false hprot) .identify
  have hfirst := rdid_poweringUp (s := { s with
    dout := [s1, s2, s3]
    world := { s.world.log (inspectEvents s.cfg s1 s2 s3) with free := k, spiIn := [] } }) hc hawake hup rfl
  obtain ⟨armed, hsecond⟩ := readIdentity_late (s := { s with
    dout := [s1, s2, s3]
    world := { (s.world.log (inspectEvents s.cfg s1 s2 s3)).log (askEvents [s.cfg.cmd.rdid] (be24 0)) with
      free := k, spiIn := [] } }) hc rfl hawake hjob
  refine ⟨armed, k, ?_⟩
  rw [hinspect, continueAfter, identify, hfirst]
  refine (congrArg (fun r : BitVec 24 × State => (r.2.storeIdentity r.1).returnOk) hsecond).trans ?_
  rw [storeIdentity_returnOk]
  simp [World.log]

/-- Settles O28: the three first frames (`woken_ready`, `wake_poweringUp`), then the protection step and the identity. -/
theorem norInitReference : Obligations.NorInitReference := by
  intro s hc hs hjob
  refine ⟨fun hin hup hprot hident => ?powered, fun s1 s2 s3 hin hup hawake hprot => ?poweringUp⟩
  case powered =>
    have hwoken := woken_ready (s := s.beginOperation) hc hup hjob
    have hrest := protectionAndIdentity_ready (s := s.beginOperation.woken) (by rw [hwoken]; exact hc) (by rw [hwoken]; exact hin)
      (by rw [hwoken]; exact ⟨rfl, hup, hjob⟩) (by rw [hwoken]) (by rw [hwoken]; exact hprot) (by rw [hwoken]; exact hident)
    rw [exec_norInit hs, hrest, hwoken]
    simp [State.beginOperation, World.log, NorDevice.settings, hs]
  case poweringUp =>
    obtain ⟨wel, armed, k, hwake⟩ := wake_poweringUp (t := s.beginOperation.clearWarn idMismatch) hc hawake hup hjob
    have hwoken : s.beginOperation.woken = _ := hwake
    obtain ⟨armed', k', hrest⟩ := protectionAndIdentity_poweringUp (s := s.beginOperation.woken) (s1 := s1) (s2 := s2) (s3 := s3)
      (by rw [hwoken]; exact hc) (by rw [hwoken]; exact hin) (by rw [hwoken]; exact hawake) (by rw [hwoken]; exact hup)
      (by rw [hwoken]; exact hjob) (by rw [hwoken]; exact hprot)
    refine ⟨_, wel, armed', k', rfl, ?_⟩
    rw [exec_norInit hs, hrest, hwoken]
    simp [State.beginOperation, State.clearWarn, idMismatch, World.log, lateIdentity, hs]

end Sys2Proof.Machine
end

section
/-! PROOFS. How many status writes clear the protection (R182). -/

namespace Sys2Proof.Machine

/-! Counting the status writes of one call -/

/-- Between two states the block sends some status writes, and these and the ones it has left are at most `n`. -/
def SendsAtMost (n : Nat) (s t : State) : Prop :=
  ∃ events, t.world.trace = s.world.trace ++ events ∧
    (events.filter (sends s.cfg.cmd.wrsr1)).length + commandsLeft t.seq ≤ n

theorem NorEnds.sendsAtMost {p : NorPhase} {n : Nat} {s t : State} (h : NorEnds p n s t) (hc : s.cfg.wf)
    (hleft : commandsLeft t.seq = 0) : SendsAtMost n s t := by
  obtain ⟨u, hu, hends⟩ := h
  obtain ⟨events, -, htrace, hcount⟩ := hu.trace
  have hcount := hcount hc
  rcases hends with ⟨rfl | rfl, -⟩ | ⟨q, -, rfl, -⟩
  · exact ⟨events ++ [.done 0x00], by simp [State.complete, htrace], by rw [hleft]; simpa [sends] using hcount⟩
  · exact ⟨events ++ [.done 0x02], by simp [State.complete, htrace], by rw [hleft]; simpa [sends] using hcount⟩
  · exact ⟨events, htrace, by omega⟩

theorem SendsAtMost.after {n : Nat} {s t u : State} (h : NorStep 0 s t) (hc : s.cfg.wf) (h2 : SendsAtMost n t u) :
    SendsAtMost n s u := by
  obtain ⟨events, -, htrace, hcount⟩ := h.trace
  obtain ⟨events2, htrace2, hcount2⟩ := h2
  have hcount := hcount hc
  rw [h.cfg] at hcount2
  refine ⟨events ++ events2, by rw [htrace2, htrace, List.append_assoc], ?_⟩
  rw [List.filter_append, List.length_append]
  omega

theorem SendsAtMost.mono {n m : Nat} {s t : State} (h : SendsAtMost n s t) (hn : n ≤ m) : SendsAtMost m s t := by
  obtain ⟨events, htrace, hcount⟩ := h
  exact ⟨events, htrace, hcount.trans hn⟩

theorem statusWrites_le (c : Config) (tx : List Byte) : statusWrites c tx ≤ 1 := by
  unfold statusWrites
  split <;> decide

/-- The skeleton sends its command once, or waits in its first poll and has it left to send (R145). -/
theorem mutate_sendsAtMost (tx : List Byte) (op : Addr) (after : After) {s : State} (hc : s.cfg.wf) :
    SendsAtMost 1 s (mutate tx op after s) := by
  unfold mutate
  have hpoll := State.poll_step s
  split
  · refine SendsAtMost.after hpoll hc ?_
    exact ((mutateCommand_ends tx op after s.poll.2 .idle).sendsAtMost (hpoll.cfg ▸ hc) (mutateCommand_left ..)).mono
      (statusWrites_le _ _)
  · obtain ⟨events, -, htrace, hcount⟩ := hpoll.trace
    exact ⟨events, htrace, by have := hcount hc; simp only [commandsLeft]; omega⟩

/-- Going on with an operation sends no more than it had left to send. -/
theorem resume_sendsAtMost {s : State} (hc : s.cfg.wf) (hs : s.seq ≠ .idle) :
    SendsAtMost (commandsLeft s.seq) s (resume s) := by
  unfold resume
  cases hq : s.seq with
  | idle => exact absurd hq hs
  | firstPoll tx op after => exact mutate_sendsAtMost tx op after hc
  | finalPoll tx after => exact (finalWait_ends tx after s).sendsAtMost hc (finalWait_left ..)
  | readPoll addr count =>
    refine (pollAndRead_ends addr count s).sendsAtMost hc ?_
    unfold pollAndRead
    split <;> rfl

/-- The protection step after its status reads, which send no status write (R181). -/
theorem disableProtection_cases (after : After) (s : State) :
    ∃ t, NorStep 0 s t ∧ ∃ b, b = (s.readStatus s.cfg.cmd.rdsr1).1 ∧
      disableProtection after s = if protectedStatus s.cfg b then
        mutate (NorCmd.bytes s.cfg (.wrsr1 (clearedStatus s.cfg b))) 0 after t else continueAfter after t :=
  ⟨_, (((State.rdsr1_step s).trans (State.rdsr2_step _)).trans (State.rdsr3_step _)).trans (State.dout_step _ _), _, rfl, rfl⟩

/-- Settles O31: a call by `disableProtection_cases`, going on with it by `resume_sendsAtMost`. -/
theorem atMostOneStatusWrite : Obligations.AtMostOneStatusWrite := by
  refine ⟨fun s t hc hs hexec => ?call, fun s t hc hs hreset hstep => ?goingOn⟩
  case call =>
    rw [exec_wpDisableProtection hs] at hexec
    cases hexec
    obtain ⟨u, hu, b, hb, hcall⟩ := disableProtection_cases .finish s.beginOperation
    have hc' : s.beginOperation.cfg.wf := hc
    rw [hcall]
    by_cases hprot : b &&& s.cfg.norProtMask = 0
    · have hnone : protectedStatus s.beginOperation.cfg b = false := protectedStatus_eq_false hprot
      obtain ⟨events, htrace, hcount⟩ := SendsAtMost.after hu hc'
        ((continueAfter_ends .finish u).sendsAtMost (hu.cfg ▸ hc') rfl)
      have hnil : events.filter (sends s.cfg.cmd.wrsr1) = [] := List.eq_nil_of_length_eq_zero (by
        have : (events.filter (sends s.cfg.cmd.wrsr1)).length + 0 ≤ 0 := hcount
        omega)
      rw [hnone]
      exact ⟨events, htrace, by rw [hnil]; exact Nat.zero_le 1, fun _ _ _ _ => ⟨hnil, rfl⟩⟩
    · have hsome : protectedStatus s.beginOperation.cfg b = true := (protectedStatus_iff _ _).mpr hprot
      obtain ⟨events, htrace, hcount⟩ := SendsAtMost.after hu hc'
        (mutate_sendsAtMost (NorCmd.bytes s.beginOperation.cfg (.wrsr1 (clearedStatus s.beginOperation.cfg b))) 0 .finish
          (hu.cfg ▸ hc'))
      rw [hsome]
      refine ⟨events, htrace, hcount, fun b' rest hin hprot' => ?_⟩
      obtain ⟨nor, k, hread⟩ := State.readStatus_answered s.cfg.cmd.rdsr1 (s := s.beginOperation) hin
      have hb' : b = b' := by
        rw [hb]
        exact congrArg Prod.fst hread
      exact absurd (hb' ▸ hprot') hprot
  case goingOn =>
    rw [step_resume hc hs hreset] at hstep
    cases hstep
    exact resume_sendsAtMost hc hs

/-! Two calls at the reference device -/

section
variable {s : State}

/-- A call at an awake and idle device that is not protected (R181). -/
theorem exec_wp_unprotected (hc : s.cfg.wf) (hs : s.seq = .idle) (hin : s.world.spiIn = []) (hready : s.world.nor.Ready)
    (hprot : s.world.nor.sr1 &&& s.cfg.norProtMask = 0) :
    exec .wpDisableProtection s = .next { s with
      dout := [s.world.nor.sr1, s.world.nor.sr2, s.world.nor.sr3], failCount := 0, resLen := 3, resCode := 0x00
      world := { s.world.log (inspectEvents s.cfg s.world.nor.sr1 s.world.nor.sr2 s.world.nor.sr3 ++ [.done 0x00]) with
        nor := { s.world.nor with resetArmed := false } } } := by
  obtain ⟨t, rfl, hstep⟩ := inspect_ready (s := s.beginOperation) hc hin hready
  have hnone : protectedStatus s.beginOperation.cfg s.beginOperation.world.nor.sr1 = false := protectedStatus_eq_false hprot
  rw [exec_wpDisableProtection hs, hstep, hnone]
  simp [continueAfter, State.returnOk, State.complete, State.beginOperation, World.log, World.emit, hs]

/-- A call at an awake and idle device that is protected, takes the write-enable and honours the status write (R181, R183). -/
theorem exec_wp_protected {n : Nat} (hc : s.cfg.wf) (hs : s.seq = .idle) (hp : s.norPhase = .idle) (hin : s.world.spiIn = [])
    (hready : s.world.nor.Ready) (hpin : s.world.nor.wpPin = false) (hpolls : s.world.nor.busyPolls = some n)
    (hwritable : s.cfg.norStatusWritable = true) (hprot : s.world.nor.sr1 &&& s.cfg.norProtMask ≠ 0) :
    ∃ final, exec .wpDisableProtection s = .next { s with
      dout := [s.world.nor.sr1, s.world.nor.sr2, s.world.nor.sr3], failCount := 0, resLen := 3, resCode := 0x00
      phaseLog := s.phaseLog ++ [.writeEnableAsserted, .commandIssued, .busy, .idle]
      world := { s.world.log (inspectEvents s.cfg s.world.nor.sr1 s.world.nor.sr2 s.world.nor.sr3 ++
          mutateEvents s.cfg [s.world.nor.sr1] [s.world.nor.settings ||| 0x02#8]
            [s.cfg.cmd.wrsr1, clearedStatus s.cfg s.world.nor.sr1] final ++ [.done 0x00]) with
        nor := { s.world.nor with
          status := clearedStatus s.cfg s.world.nor.sr1 &&& 0xFC#8, wel := false, resetArmed := false } } } := by
  obtain ⟨t, ht, hstep⟩ := inspect_ready (s := s.beginOperation) hc hin hready
  have hsome : protectedStatus s.beginOperation.cfg s.beginOperation.world.nor.sr1 = true := (protectedStatus_iff _ _).mpr hprot
  have hcmd : decodeNor s.cfg [s.cfg.cmd.wrsr1, clearedStatus s.cfg s.world.nor.sr1] =
      .ok (.wrsr1 (clearedStatus s.cfg s.world.nor.sr1)) :=
    decodeNor_plain hc (.wrsr1 (clearedStatus s.cfg s.world.nor.sr1)) (by simp)
  have haccept : NorDevice.perform s.cfg { s.world.nor with wel := true, resetArmed := false } s.world.free
      (.wrsr1 (clearedStatus s.cfg s.world.nor.sr1)) =
        ({ s.world.nor with
          wel := true, resetArmed := false, status := clearedStatus s.cfg s.world.nor.sr1 &&& 0xFC#8
          job := some ⟨.writeStatus (clearedStatus s.cfg s.world.nor.sr1), some n⟩ }, s.world.free) := by
    rw [← hpolls, NorDevice.perform, NorDevice.acceptStatus, if_pos rfl, if_pos hwritable]
  have hmutate := mutate_ready (s := t) (opAddr := 0) (after := .finish) (by rw [ht]; exact hc) (by rw [ht]; exact hin)
    (by rw [ht]; exact hready) (by rw [ht]; exact hpin) (by rw [ht]; exact hp) (by rw [ht]; exact hcmd) (by rw [ht]; exact haccept)
  have htx : NorCmd.bytes s.beginOperation.cfg (.wrsr1 (clearedStatus s.beginOperation.cfg s.beginOperation.world.nor.sr1)) =
      [s.cfg.cmd.wrsr1, clearedStatus s.cfg s.world.nor.sr1] := rfl
  refine ⟨List.replicate n ((clearedStatus s.cfg s.world.nor.sr1 &&& 0xFC#8 &&& 0xFC#8) ||| 0x03#8) ++
    [clearedStatus s.cfg s.world.nor.sr1 &&& 0xFC#8 &&& 0xFC#8], ?_⟩
  rw [exec_wpDisableProtection hs, hstep, hsome, if_pos rfl, htx, hmutate, ht]
  simp only [continueAfter, State.returnOk, State.complete, State.beginOperation, World.log, World.emit, NorDevice.applyEffect, hs,
    List.append_assoc]
  rfl

end

theorem filter_inspect_done {c : Config} (hc : c.wf) (a1 a2 a3 : Byte) (code : BitVec 8) :
    (inspectEvents c a1 a2 a3 ++ [Event.done code]).filter (sends c.cmd.wrsr1) = [] := by
  obtain ⟨h1, h2, h3, -⟩ := Config.wf_distinct hc
  rw [List.filter_append, filter_inspect c _ h1 h2 h3]
  rfl

theorem filter_mutate_le {c : Config} (hc : c.wf) (first latch final : List Byte) (value : Byte) :
    ((mutateEvents c first latch [c.cmd.wrsr1, value] final).filter (sends c.cmd.wrsr1)).length ≤ 1 := by
  obtain ⟨h1, -, -, h4, -⟩ := Config.wf_distinct hc
  simp [mutateEvents, filter_status c _ h1, filter_latch c _ h1 h4, sendEvents, sends]

/-- What a call leaves that has cleared the protection, as far as a second call meets it (R182). -/
structure ProtectionCleared (s t : State) : Prop where
  cfg : t.cfg = s.cfg
  seq : t.seq = .idle
  answers : t.world.spiIn = []
  ready : t.world.nor.Ready
  unprotected : t.world.nor.sr1 &&& s.cfg.norProtMask = 0
  code : t.resCode = 0x00
  settings : t.world.nor.settings = s.world.nor.settings &&& ~~~s.cfg.norProtMask
  memory : t.world.nor.mem = s.world.nor.mem
  sent : ∃ events, t.world.trace = s.world.trace ++ events ∧ (events.filter (sends s.cfg.cmd.wrsr1)).length ≤ 1

/-- SR1 of an idle device: the settings, and the latch in bit 1. -/
theorem sr1_idle_cases {d : NorDevice} (hjob : d.job = none) :
    ∃ w, (w = 2#8 ∨ w = 0#8) ∧ d.sr1 = (d.status &&& 0xFC#8) ||| w :=
  ⟨if d.wel then 2#8 else 0#8, by cases d.wel <;> simp, NorDevice.sr1_idle hjob⟩

theorem wp_clears_unprotected {s : State} (hc : s.cfg.wf) (hs : s.seq = .idle) (hin : s.world.spiIn = [])
    (hready : s.world.nor.Ready) (hprot : s.world.nor.sr1 &&& s.cfg.norProtMask = 0) :
    ∃ t, exec .wpDisableProtection s = .next t ∧ ProtectionCleared s t := by
  have hsettings : s.world.nor.settings &&& s.cfg.norProtMask = 0 := by
    rw [NorDevice.sr1_idle hready.2.2] at hprot
    exact or_and_zero _ _ _ hprot
  refine ⟨_, exec_wp_unprotected hc hs hin hready hprot, rfl, hs, hin, hready, hprot, rfl, (and_clear _ _ hsettings).symm, rfl,
    _, rfl, ?_⟩
  rw [filter_inspect_done hc]
  exact Nat.zero_le 1

theorem wp_clears_protected {s : State} {n : Nat} (hc : s.cfg.wf) (hs : s.seq = .idle) (hp : s.norPhase = .idle)
    (hin : s.world.spiIn = []) (hready : s.world.nor.Ready) (hpin : s.world.nor.wpPin = false)
    (hpolls : s.world.nor.busyPolls = some n) (hwritable : s.cfg.norStatusWritable = true)
    (hprot : s.world.nor.sr1 &&& s.cfg.norProtMask ≠ 0) :
    ∃ t, exec .wpDisableProtection s = .next t ∧ ProtectionCleared s t := by
  obtain ⟨final, hexec⟩ := exec_wp_protected hc hs hp hin hready hpin hpolls hwritable hprot
  obtain ⟨w, hw, hsr1⟩ := sr1_idle_cases hready.2.2
  have hsettings : clearedStatus s.cfg s.world.nor.sr1 &&& 0xFC#8 &&& 0xFC#8 = s.world.nor.settings &&& ~~~s.cfg.norProtMask := by
    rw [clearedStatus, hsr1]
    exact clear_settings _ _ _ hw
  refine ⟨_, hexec, rfl, hs, hin, hready, ?_, rfl, hsettings, rfl, _, rfl, ?_⟩
  · rw [NorDevice.sr1_idle (by exact hready.2.2)]
    have hzero := cleared_zero s.world.nor.settings s.cfg.norProtMask
    rw [← hsettings] at hzero
    simpa [NorDevice.settings] using hzero
  · have hone := filter_mutate_le hc [s.world.nor.sr1] [s.world.nor.settings ||| 0x02#8] final (clearedStatus s.cfg s.world.nor.sr1)
    obtain ⟨h1, h2, h3, -⟩ := Config.wf_distinct hc
    rw [List.append_assoc, List.filter_append, filter_inspect _ _ h1 h2 h3, List.nil_append, List.filter_append, List.length_append]
    simpa [sends] using hone

/-- Settles O32: the first call leaves an unprotected device (`ProtectionCleared`), at which the second sends nothing. -/
theorem protectionClearedOnce : Obligations.ProtectionClearedOnce := by
  intro s n hc hs hp hin hready hpin hpolls hwritable
  have hfirst : ∃ t, exec .wpDisableProtection s = .next t ∧ ProtectionCleared s t := by
    by_cases hprot : s.world.nor.sr1 &&& s.cfg.norProtMask = 0
    · exact wp_clears_unprotected hc hs hin hready hprot
    · exact wp_clears_protected hc hs hp hin hready hpin hpolls hwritable hprot
  obtain ⟨t, hexec, h⟩ := hfirst
  obtain ⟨e1, htrace, hsent⟩ := h.sent
  have hct : t.cfg.wf := h.cfg ▸ hc
  refine ⟨t, _, e1, _, hexec, exec_wp_unprotected hct h.seq h.answers h.ready (h.cfg ▸ h.unprotected), h.code, rfl,
    h.settings, rfl, h.memory, htrace, rfl, hsent, ?_⟩
  rw [← h.cfg]
  exact filter_inspect_done hct _ _ _ _

end Sys2Proof.Machine
end

section
/-! PROOFS. The lone frames on the 4-wire bus (R81 to R89, R108). -/

namespace Sys2Proof.Machine

/-- A well-formed row of the frame tables is executed as the frame of its command (R107, R108). -/
theorem exec_frameInstr {s : State} {n : Nat} {cmd : NorCmd} {i : Instr} (h : frameInstr n cmd = .ok i)
    (hwf : i.wf s.cfg = true) : exec i s = norFrame cmd n true s := by
  have hinside {a : Addr} (ha : a.toNat < s.cfg.norCapacity) : (!overWide s.cfg.norCapacity a) = true := by
    rw [overWide_eq_false ha, Bool.not_false]
  cases cmd
  case read a =>
    cases h
    rw [exec, execCmdRead, hinside (of_decide_eq_true hwf)]
  case pp a data =>
    obtain ⟨rfl, rfl⟩ := fixedRead_ok h
    simp only [Instr.wf, Bool.and_eq_true, decide_eq_true_eq] at hwf
    rw [exec, execCmdPp, hinside hwf.1]
  case se a =>
    obtain ⟨rfl, rfl⟩ := fixedRead_ok h
    rw [exec, execCmdSe, hinside (of_decide_eq_true hwf)]
  case be64 a =>
    obtain ⟨rfl, rfl⟩ := fixedRead_ok h
    rw [exec, execCmdBe64, hinside (of_decide_eq_true hwf)]
  all_goals
    obtain ⟨rfl, rfl⟩ := fixedRead_ok h
    rfl

/-- A frame of an idle block: what `SpiFrame` does, and the bytes it read (R141). -/
theorem norFrame_idle {s : State} (hs : s.seq = .idle) (cmd : NorCmd) (n : Nat) :
    norFrame cmd n true s = .next { (s.spi (cmd.bytes s.cfg) n).2 with rx := (s.spi (cmd.bytes s.cfg) n).1 } := by
  simp only [norFrame, hs, ne_eq, not_true_eq_false, if_false, if_true]

/-- A frame that reads nothing at an awake, powered and idle device, by what the device does with the command (R80). -/
theorem exec_sendFrame {s : State} {cmd : NorCmd} {i : Instr} {tx : List Byte} (hc : s.cfg.wf) (hs : s.seq = .idle)
    (hready : s.world.nor.Ready) (hi : frameInstr 0 cmd = .ok i) (hwf : i.wf s.cfg = true)
    (hpage : ∀ a d, cmd = .pp a d → d.length ≤ s.cfg.norPage) (htx : cmd.bytes s.cfg = tx) {nor : NorDevice} {k : Nat}
    (hperform : s.world.nor.perform s.cfg s.world.free cmd = (nor, k)) :
    exec i s = .next { s with
      rx := [], world := { s.world.log (sendEvents tx) with nor := nor, free := k } } := by
  rw [exec_frameInstr hi hwf, norFrame_send hs hready (decodeNor_bytes (Config.wf_nodup hc) cmd hpage), hperform, htx]

theorem decode_spi {c : Config} {tx : List Byte} {n : Nat} {i : Instr} (h : decode c (.spi tx n) = .ok i) :
    ∃ cmd, decodeNor c tx = .ok cmd ∧ frameInstr n cmd = .ok i := by
  simp only [decode] at h
  split at h
  next cmd hcmd => exact ⟨cmd, hcmd, h⟩
  next => cases h

/-! The frames that set or clear a condition -/

/-- The wake frame at a sleeping device (R89). -/
theorem exec_cmdWake_asleep {s : State} (hc : s.cfg.wf) (hs : s.seq = .idle) (hasleep : s.world.nor.asleep = true) :
    exec .cmdWake s = .next { s with
      rx := [], world := { s.world.log (sendEvents [s.cfg.cmd.wake]) with nor := { s.world.nor with asleep := false } } } := by
  have hdecode : decodeNor s.cfg (NorCmd.wake.bytes s.cfg) = .ok .wake := decodeNor_plain hc .wake (by simp)
  have hreact : s.world.nor.react s.cfg s.world.free (NorCmd.wake.bytes s.cfg) =
      ({ s.world.nor with asleep := false }, s.world.free) := by
    simp [NorDevice.react, hdecode, hasleep]
  rw [exec, execCmdWake, norFrame_idle hs]
  simp only [State.spi, World.spiFrame_send, hreact]
  rfl

/-- The reset command at an awake and idle device clears the latch, if the reset-enable came before it (R89). -/
theorem perform_rst (c : Config) {d : NorDevice} (k : Nat) (hjob : d.job = none) :
    d.perform c k .rst = ({ d with wel := d.wel && !d.resetArmed, resetArmed := false }, k) := by
  obtain ⟨mem, status, wel, sr2, sr3, ident, asleep, powerUpLeft, job, armed, wpPin, busyPolls⟩ := d
  obtain rfl : job = none := hjob
  cases armed with
  | true => simp [NorDevice.perform, NorDevice.powerOn]
  | false => simp [NorDevice.perform]

/-- Settles O47: at an awake device the frames by `exec_sendFrame`, at a sleeping one by `State.spi_asleep`. -/
theorem conditionFrames : Obligations.ConditionFrames := by
  refine ⟨fun s i command nor hc hs hi => ?conditions, fun s i tx n hc hs hasleep henc hwf hwake => ?ignored⟩
  case conditions =>
    rcases hi with ⟨rfl, rfl, hready, rfl⟩ | ⟨rfl, rfl, hready, rfl⟩ | ⟨rfl, rfl, hready, rfl⟩ | ⟨rfl, rfl, hready, rfl⟩ |
      ⟨rfl, rfl, hready, rfl⟩ | ⟨rfl, rfl, hasleep, rfl⟩
    · refine exec_sendFrame (cmd := .wren) hc hs hready rfl rfl (by simp) rfl ?_
      cases h : s.world.nor.wpPin <;> simp [NorDevice.perform, h]
    · exact exec_sendFrame (cmd := .wrdi) hc hs hready rfl rfl (by simp) rfl rfl
    · exact exec_sendFrame (cmd := .rsten) hc hs hready rfl rfl (by simp) rfl rfl
    · exact exec_sendFrame (cmd := .rst) hc hs hready rfl rfl (by simp) rfl (perform_rst _ _ hready.2.2)
    · exact exec_sendFrame (cmd := .wake) hc hs hready rfl rfl (by simp) rfl rfl
    · exact exec_cmdWake_asleep hc hs hasleep
  case ignored =>
    have hi : decode s.cfg (.spi tx n) = .ok i := henc ▸ decodeOfEncode s.cfg i hc hwf
    obtain ⟨cmd, hdecode, hframe⟩ := decode_spi hi
    have htx : cmd.bytes s.cfg = tx := by
      rw [encode_frameInstr hframe] at henc
      exact (Wire.spi.inj henc).1
    have hcmd : cmd ≠ .wake := by
      rintro rfl
      exact hwake (fixedRead_ok hframe).2
    obtain ⟨data, k, hlen, hspi⟩ := State.spi_asleep n hdecode hasleep hcmd
    refine ⟨data, k, hlen, ?_⟩
    rw [exec_frameInstr hframe hwf, norFrame_idle hs, htx, hspi]

/-! The frames that begin an operation -/

/-- The device after a frame that begins an operation if the latch is set (R81, R82). -/
def NorDevice.begun (d : NorDevice) (e : NorEffect) (status : Byte) : NorDevice :=
  if d.wel then { d with job := some ⟨e, d.busyPolls⟩, status := status, resetArmed := false }
  else { d with resetArmed := false }

theorem accept_begun (d : NorDevice) (k : Nat) (e : NorEffect) :
    NorDevice.accept { d with resetArmed := false } k e = (d.begun e d.status, k) := by
  unfold NorDevice.accept NorDevice.begun
  split <;> rfl

theorem acceptStatus_begun (c : Config) (d : NorDevice) (k : Nat) (v : Byte) :
    NorDevice.acceptStatus c { d with resetArmed := false } k v =
      (d.begun (.writeStatus v) (if c.norStatusWritable then v &&& 0xFC else d.status), k) := by
  unfold NorDevice.acceptStatus NorDevice.begun
  split <;> rfl

/-- An address-only program frame at an idle device: with the latch set everything but memory and settings is free (U8). -/
theorem acceptEmpty_cases (d : NorDevice) (k : Nat) (hjob : d.job = none) :
    ∃ job wel k', (job = none ∨ job = some ⟨.nothing, d.busyPolls⟩) ∧ (d.wel = false → job = none ∧ wel = false) ∧
      NorDevice.acceptEmpty { d with resetArmed := false } k =
        ({ d with job := job, wel := wel, resetArmed := false }, k') := by
  cases hwel : d.wel with
  | true =>
    refine ⟨if Config.freeBit k then some ⟨.nothing, d.busyPolls⟩ else none, Config.freeBit (k + 1), k + 2, ?_, by simp,
      if_pos rfl⟩
    split
    · exact .inr rfl
    · exact .inl rfl
  | false =>
    refine ⟨none, false, k, .inl rfl, fun _ => ⟨rfl, rfl⟩, ?_⟩
    simp [NorDevice.acceptEmpty, hjob]

/-- Settles O48: each frame by `exec_sendFrame`, and what the device does with its command by the laws above. -/
theorem operationFrames : Obligations.OperationFrames := by
  intro s hc hs hready
  refine ⟨fun i tx e status hi => ?_, fun a ha => ?_⟩
  · have hself (a : Addr) (ha : a.toNat < s.cfg.norCapacity) : a.toNat % s.cfg.norCapacity = a.toNat := Nat.mod_eq_of_lt ha
    have hcommand : ∃ cmd, frameInstr 0 cmd = .ok i ∧ i.wf s.cfg = true ∧ (∀ a d, cmd = .pp a d → d.length ≤ s.cfg.norPage) ∧
        cmd.bytes s.cfg = tx ∧ s.world.nor.perform s.cfg s.world.free cmd = (s.world.nor.begun e status, s.world.free) := by
      rcases hi with ⟨a, data, rfl, ha, hdata, hpage, rfl, rfl, rfl⟩ | ⟨a, rfl, ha, rfl, rfl, rfl⟩ |
        ⟨a, rfl, ha, rfl, rfl, rfl⟩ | ⟨rfl, rfl, rfl, rfl⟩ | ⟨v, rfl, rfl, rfl, rfl⟩
      · refine ⟨.pp a data, rfl, by simp [Instr.wf, ha, hpage], by rintro _ _ ⟨⟩; exact hpage, rfl, ?_⟩
        rw [NorDevice.perform, if_neg hdata, hself a ha, accept_begun]
      · refine ⟨.se a, rfl, by simp [Instr.wf, ha], by simp, rfl, ?_⟩
        rw [NorDevice.perform, hself a ha, accept_begun]
        rfl
      · refine ⟨.be64 a, rfl, by simp [Instr.wf, ha], by simp, rfl, ?_⟩
        rw [NorDevice.perform, hself a ha, accept_begun]
        rfl
      · refine ⟨.ce, rfl, rfl, by simp, rfl, ?_⟩
        rw [NorDevice.perform, accept_begun]
      · refine ⟨.wrsr1 v, rfl, rfl, by simp, rfl, ?_⟩
        rw [NorDevice.perform, acceptStatus_begun]
    obtain ⟨cmd, hframe, hwf, hpage, htx, hperform⟩ := hcommand
    exact exec_sendFrame hc hs hready hframe hwf hpage htx hperform
  · obtain ⟨job, wel, k, hjob, hlatch, haccept⟩ := acceptEmpty_cases s.world.nor s.world.free hready.2.2
    refine ⟨job, wel, k, hjob, hlatch, ?_⟩
    exact exec_sendFrame (cmd := .pp a []) hc hs hready rfl (by simp [Instr.wf, ha]) (by rintro _ _ ⟨⟩; simp)
      (by simp [NorCmd.bytes]) haccept

/-! The frames that read -/

/-- Settles O49: the SR1 read that ends the operation (`State.readStatus_due`), and what its effect does to memory. -/
theorem operationEnds : Obligations.OperationEnds := by
  intro s e hc hs hin hawake hup hjob hmem hpage
  refine ⟨(s.world.nor.applyEffect s.cfg s.world.free e).1.mem, (s.world.nor.applyEffect s.cfg s.world.free e).2,
    ?frame, ?program, ?erase, ?other⟩
  case frame =>
    rw [exec, execCmdRdsr1, norFrame_idle hs]
    rw [NorCmd.bytes, State.spi_status, State.readStatus_due hc hin hawake hup hjob]
  case program =>
    rintro p data rfl
    have hspec := programBytes_spec s.cfg (s.world.nor.protectedRanges s.cfg) p data 0 s.world.nor.mem s.world.free hmem
      (by have := hpage p data rfl; omega)
    simp only [Nat.zero_add] at hspec
    exact ⟨hspec.2, hspec.1⟩
  case erase =>
    rintro start len rfl
    exact read_eraseRegion s.cfg (s.world.nor.protectedRanges s.cfg) start len s.world.nor.mem
  case other =>
    rintro (⟨v, rfl⟩ | rfl) <;> rfl

/-- A status frame, from what the status read of its register gives (R142). -/
theorem exec_statusFrame {s t : State} {i : Instr} {cmd : NorCmd} {command own : Byte} (hs : s.seq = .idle)
    (hi : frameInstr 1 cmd = .ok i) (hwf : i.wf s.cfg = true) (hcmd : cmd.bytes s.cfg = [command])
    (hread : s.readStatus command = (own, t)) : exec i s = .next { t with rx := [own] } := by
  rw [exec_frameInstr hi hwf, norFrame_idle hs, hcmd, State.spi_status, hread]

/-- SR2 and SR3 as an awake and powered device answers them, busy or not (R36). -/
theorem readStatus23 {s : State} {cmd : NorCmd} {command own : Byte} (hc : s.cfg.wf) (hin : s.world.spiIn = [])
    (hawake : s.world.nor.asleep = false) (hup : s.world.nor.powerUpLeft = 0) (hcmd : cmd.bytes s.cfg = [command])
    (h : cmd = .rdsr2 ∧ own = s.world.nor.sr2 ∨ cmd = .rdsr3 ∧ own = s.world.nor.sr3) :
    s.readStatus command = (own, { s with
      world := { s.world.log (askEvents [command] [own]) with
        nor := if s.world.nor.job = none then { s.world.nor with resetArmed := false } else s.world.nor } }) := by
  have hdecode : decodeNor s.cfg [command] = .ok cmd := by
    rw [← hcmd]
    exact decodeNor_plain hc cmd (by rcases h with ⟨rfl, -⟩ | ⟨rfl, -⟩ <;> simp)
  have hanswer : s.world.nor.answer s.cfg s.world.free [command] 1 = ([own], s.world.nor, s.world.free) := by
    have hpad := padFree_self [own] s.world.free
    rcases h with ⟨rfl, rfl⟩ | ⟨rfl, rfl⟩
    · simpa [NorDevice.answer, hdecode, hawake, hup, Prod.ext_iff] using hpad
    · simpa [NorDevice.answer, hdecode, hawake, hup, Prod.ext_iff] using hpad
  have hreact : s.world.nor.react s.cfg s.world.free [command] =
      (if s.world.nor.job = none then { s.world.nor with resetArmed := false } else s.world.nor, s.world.free) := by
    by_cases hjob : s.world.nor.job = none
    · rw [NorDevice.react_ready ⟨hawake, hup, hjob⟩ hdecode, if_pos hjob]
      rcases h with ⟨rfl, -⟩ | ⟨rfl, -⟩ <;> rfl
    · rw [if_neg hjob]
      rcases h with ⟨rfl, -⟩ | ⟨rfl, -⟩ <;>
        simp [NorDevice.react, NorDevice.disturb, commandEffect, hdecode, hawake, hup, Option.isSome_iff_ne_none, hjob]
  simp [State.readStatus, State.spi, World.spiFrame, hin, hanswer, hreact, World.log, askEvents]

/-- SR1 of a busy device: the settings, bit 0, and the latch in bit 1 (R36). -/
theorem sr1_busy {d : NorDevice} (hjob : d.job ≠ none) :
    d.sr1 = d.settings ||| (if d.wel then 0x03 else 0x01) := by
  rw [NorDevice.sr1, if_pos (Option.isSome_iff_ne_none.mpr hjob), BitVec.or_assoc]
  cases d.wel <;> rfl

/-- Settles O50, by the status read for each of the device's conditions. -/
theorem statusFrames : Obligations.StatusFrames := by
  intro s i command own nor hc hs hin hawake hup hi
  rcases hi with ⟨rfl, rfl, hjob, rfl, rfl⟩ | ⟨e, n, rfl, rfl, hjob, rfl, rfl⟩ | ⟨e, rfl, rfl, hjob, rfl, rfl⟩ |
    ⟨⟨rfl, rfl, rfl⟩ | ⟨rfl, rfl, rfl⟩, rfl⟩
  · rw [exec_statusFrame (cmd := .rdsr1) hs rfl rfl rfl (State.readStatus_ready hc hin ⟨hawake, hup, hjob⟩),
      NorDevice.sr1_idle hjob]
    rfl
  · rw [exec_statusFrame (cmd := .rdsr1) hs rfl rfl rfl (State.readStatus_busy hc hin hawake hup hjob), sr1_busy (by simp [hjob])]
  · rw [exec_statusFrame (cmd := .rdsr1) hs rfl rfl rfl (State.readStatus_stuck hc hin hawake hup hjob), sr1_busy (by simp [hjob])]
    rfl
  · exact exec_statusFrame (cmd := .rdsr2) hs rfl rfl rfl (readStatus23 hc hin hawake hup rfl (.inl ⟨rfl, rfl⟩))
  · exact exec_statusFrame (cmd := .rdsr3) hs rfl rfl rfl (readStatus23 hc hin hawake hup rfl (.inr ⟨rfl, rfl⟩))

/-- A frame that reads, from what its `SpiFrame` gives (R141). -/
theorem exec_readFrame {s t : State} {i : Instr} {cmd : NorCmd} {n : Nat} {data : List Byte} (hs : s.seq = .idle)
    (hi : frameInstr n cmd = .ok i) (hwf : i.wf s.cfg = true) (hspi : s.spi (cmd.bytes s.cfg) n = (data, t)) :
    exec i s = .next { t with rx := data } := by
  rw [exec_frameInstr hi hwf, norFrame_idle hs, hspi]

/-- The identity frame at a device that has not yet powered up (R89). -/
theorem spi_rdid_poweringUp {s : State} (hc : s.cfg.wf) (hin : s.world.spiIn = []) (hawake : s.world.nor.asleep = false)
    (hup : s.world.nor.powerUpLeft ≠ 0) :
    s.spi [s.cfg.cmd.rdid] 3 = ([0, 0, 0], { s with world := s.world.log (askEvents [s.cfg.cmd.rdid] [0, 0, 0]) }) := by
  have hdecode : decodeNor s.cfg [s.cfg.cmd.rdid] = .ok .rdid := decodeNor_plain hc .rdid (by simp)
  obtain ⟨k, hspi⟩ := spi_poweringUp (n := 3) (by decide) hdecode (by simp) hawake hup
  have hstate := congrArg Prod.snd (rdid_poweringUp hc hawake hup hin)
  rw [show (be24 0 : List Byte) = [0, 0, 0] by decide] at hstate
  refine Prod.ext ?_ hstate
  have hpad : (padFree [0, 0, 0] 3 s.world.free).1 = [0, 0, 0] := congrArg Prod.fst (padFree_self [0, 0, 0] s.world.free)
  rw [hspi, hin, if_pos rfl]
  exact hpad

/-- Settles O51, by the frames at an idle device; the read of no bytes is a frame that sends. -/
theorem dataFrames : Obligations.DataFrames := by
  refine ⟨fun s hc hs hin hready => ⟨fun i tx data hi => ?inside, fun a ha => ?nothing, fun a n ha hpast => ?past⟩,
    fun s hc hs hin hawake hup => ?poweringUp⟩
  case inside =>
    rcases hi with ⟨rfl, rfl, rfl⟩ | ⟨a, n, rfl, h0, hend, rfl, rfl⟩
    · exact exec_readFrame (cmd := .rdid) hs rfl rfl (State.spi_rdid hc hin hready)
    · exact exec_readFrame (cmd := .read a) hs rfl (decide_eq_true (show a.toNat < s.cfg.norCapacity by omega))
        (State.spi_read hc hin hready h0 hend)
  case nothing =>
    exact exec_sendFrame (cmd := .read a) hc hs hready rfl (decide_eq_true ha) (by simp) rfl rfl
  case past =>
    obtain ⟨data, k, hspi, hlen, hdata⟩ := State.spi_read_past (a := a) (n := n) hc hin hready (by omega)
    exact ⟨data, k, exec_readFrame (cmd := .read a) hs rfl (decide_eq_true ha) hspi, hlen, hdata⟩
  case poweringUp =>
    exact exec_readFrame (cmd := .rdid) hs rfl rfl (spi_rdid_poweringUp hc hin hawake hup)

end Sys2Proof.Machine
end

section
/-! PROOFS. The requests of the SEE unit (R210 to R218), and the lone frames on the 2-wire bus (R90, R91, R110). -/

namespace Sys2Proof.Machine

/-! `SEE_INIT` -/

theorem exec_seeInit {s : State} (hs : s.seq = .idle) :
    exec .seeInit s = .next { s with
      dout := [], failCount := 0, resLen := 0, resCode := 0x00
      warn := (s.warn &&& ~~~0x02#8) ||| (if s.cfg.seeDevAddr ∈ s.world.scanAnswer s.cfg then 0#8 else 0x02#8)
      world := { s.world.log ([.i2cScan (s.world.scanAnswer s.cfg)] ++
          (if s.cfg.seeDevAddr ∈ s.world.scanAnswer s.cfg then [] else [.warn .busScanWarning]) ++ [.done 0x00]) with
        scans := s.world.scans.drop 1, free := s.world.free + 1 } } := by
  rw [exec, execSeeInit, State.request_idle hs]
  by_cases hfound : s.cfg.seeDevAddr ∈ s.world.scanAnswer s.cfg
  · simp [World.i2cScan, hfound, State.clearWarn, State.returnOk, State.complete, State.beginOperation, World.log, World.emit,
      scanAbsent, hs]
  · simp [World.i2cScan, hfound, State.clearWarn, State.setWarn, State.emit, State.returnOk, State.complete, State.beginOperation,
      World.log, World.emit, scanAbsent, hs]

/-- Settles O42: the scan's answer is the one given from outside, else the device's (`World.scanAnswer`). -/
theorem seeInitRequest : Obligations.SeeInitRequest := by
  intro s hs
  refine ⟨_, _, exec_seeInit hs, fun answer rest h => ?_, fun h hcycle => ?_⟩
  · rw [World.scanAnswer, h]
  · rw [World.scanAnswer, h]
    simp [hcycle]

/-! The requests that write -/

/-- A request of the SEE unit that passes its checks, from what its procedure does. -/
theorem exec_see_ok {i : Instr} {s t : State} (hs : s.seq = .idle) (hi : seeRequest i = true) (hinit : i ≠ .seeInit)
    (hm : malformed s.cfg i = none) (hprocedure : seeProcedure i s.beginOperation = .ok t) :
    exec i s = .next t.returnOk := by
  rw [exec_see_passing hs hi hinit hm, hprocedure]

/-- A request that writes one frame with data (R211, R214, R215), at the reference device outside its write cycle. -/
theorem exec_see_write {i : Instr} {s : State} {a : Nat} {data : List Byte} (hs : s.seq = .idle) (hi : seeRequest i = true)
    (hinit : i ≠ .seeInit) (hm : malformed s.cfg i = none)
    (hprocedure : seeProcedure i s.beginOperation = s.beginOperation.writeFrame a data) (hcycle : s.world.see.cycleLeft = 0)
    (ha : a < s.cfg.seeCapacity) (hdata : data ≠ []) :
    exec i s = .next { s with
      dout := [], failCount := 0, resLen := 0, resCode := 0x00
      world := { s.world.log [.i2cW s.cfg.seeDevAddr (frameAddress a ++ data), .delay .settle, .done 0x00] with
        see := { s.world.see with
          mem := seeStore s.cfg a data 0 s.world.see.mem, pointer := a, cycleLeft := s.cfg.seeWriteCycle - s.cfg.tSettle }
        nor := { s.world.nor with powerUpLeft := s.world.nor.powerUpLeft - s.cfg.tSettle } } } := by
  rw [exec_see_ok hs hi hinit hm (hprocedure.trans (State.writeFrame_data (s := s.beginOperation) hcycle ha hdata))]
  simp [State.returnOk, State.complete, State.beginOperation, World.log, World.emit, hs]

/-- A payload that fits in its page is stored byte by byte from the address upward, and nothing else is (R91). -/
theorem seeStore_inPage {c : Config} {a : Nat} {data : List Byte} {m : Memory} (hm : m.wf)
    (hpage : a % c.seePage + data.length ≤ c.seePage) :
    (∀ j (h : j < data.length), (seeStore c a data 0 m).read (a + j) = data[j]) ∧
      ∀ x, (x < a ∨ a + data.length ≤ x) → (seeStore c a data 0 m).read x = m.read x := by
  have hwrap (j : Nat) (hj : j < data.length) : wrapInPage c.seePage a (0 + j) = a + j := by
    rw [Nat.zero_add]
    exact wrapInPage_eq (by omega)
  obtain ⟨hother, hstored⟩ := seeStore_spec c a data 0 m hm
  refine ⟨fun j hj => ?_, fun x hx => hother x fun j hj => ?_⟩
  · rw [← hwrap j hj]
    exact hstored j hj (by omega)
  · rw [hwrap j hj]
    omega

/-- Settles O43, by the write frame of one byte; a wide address is rejected (`exec_malformed`). -/
theorem seeWriteByteRequest : Obligations.SeeWriteByteRequest := by
  intro s addr arg hc hs
  refine ⟨fun hcycle hmem ha => ?written, fun hp ha => ?rejected⟩
  case written =>
    have hmod : addr.toNat % s.cfg.seePage < s.cfg.seePage := Nat.mod_lt _ (Config.wf_seePage_pos hc)
    obtain ⟨hstored, hother⟩ := seeStore_inPage (c := s.cfg) (a := addr.toNat) (data := [byteValue arg]) hmem hmod
    refine ⟨_, exec_see_write (i := .seeWriteByte addr arg) hs rfl (by simp) (if_neg (by omega)) rfl hcycle ha (by simp), fun x => ?_⟩
    by_cases hx : x = addr.toNat
    · subst hx
      rw [if_pos rfl]
      exact hstored 0 Nat.one_pos
    · rw [if_neg hx]
      exact hother x (by rw [List.length_singleton]; omega)
  case rejected =>
    have hm : malformed s.cfg (.seeWriteByte addr arg) = some (addr, 0x04) := if_pos ha
    rw [exec_malformed hs hm]
    exact congrArg _ (raise_clean s hs hp _ addr 0x04 (.inl ⟨rfl, rfl⟩))

/-- A page write inside its page passes the checks (R212, R234). -/
theorem seeWritePage_passes {c : Config} {addr : Addr} {arg : BitVec 32} {data : List Byte} (hc : c.wf)
    (ha : addr.toNat < c.seeCapacity) (hlen : data.length = arg.toNat) (hpage : addr.toNat % c.seePage + arg.toNat ≤ c.seePage) :
    malformed c (.seeWritePage addr arg data) = none := by
  have hcross := of_decide_eq_false ((crosses_eq_false_iff addr.toNat arg.toNat (Config.wf_seePage_pos hc)).mpr hpage)
  rw [malformed, if_neg (by omega), if_neg hcross]

/-- A write frame without data has no settle delay (R211). -/
theorem writeFrame_address {a : Nat} {s : State} (hcycle : s.world.see.cycleLeft = 0) (ha : a < s.cfg.seeCapacity) :
    s.writeFrame a [] = .ok { s with
      world := { s.world.log [.i2cW s.cfg.seeDevAddr (frameAddress a)] with see := { s.world.see with pointer := a } } } := by
  rw [State.writeFrame, State.i2cWrite_address hcycle ha]
  rfl

/-- Settles O44, by the write frame with data, or the address-only frame. -/
theorem seeWritePageRequest : Obligations.SeeWritePageRequest := by
  intro s addr arg data hc hs hcycle hmem ha hlen hpage
  have hpass := seeWritePage_passes hc ha hlen hpage
  refine ⟨fun hempty => ?addressOnly, fun hdata => ?stored⟩
  case addressOnly =>
    subst hempty
    rw [exec_see_ok (i := .seeWritePage addr arg []) hs rfl (by simp) hpass (writeFrame_address hcycle ha)]
    simp [State.returnOk, State.complete, State.beginOperation, World.log, World.emit, hs]
  case stored =>
    exact ⟨_, exec_see_write hs rfl (by simp) hpass rfl hcycle ha hdata, seeStore_inPage hmem (hlen ▸ hpage)⟩

/-! The requests that read -/

/-- A read (R210) at the reference device outside its write cycle: the bytes given from outside, or else the device's. -/
theorem readFrame_eq {s : State} {a n : Nat} {data rest : List Byte} (hcycle : s.world.see.cycleLeft = 0)
    (ha : a < s.cfg.seeCapacity) (hend : a + n ≤ s.cfg.seeCapacity) (hlen : data.length = n)
    (hdata : s.world.i2cIn = data ++ rest ∨
      s.world.i2cIn = [] ∧ rest = [] ∧ data = (List.range n).map (fun j => s.world.see.mem.read (a + j))) :
    s.readFrame a n = .ok { s with
      dout := data
      world := { s.world.log [.i2cW s.cfg.seeDevAddr (frameAddress a), .i2cR s.cfg.seeDevAddr n data] with
        see := { s.world.see with pointer := a + n }, i2cIn := rest } } := by
  rcases hdata with hgiven | ⟨hnone, rfl, rfl⟩
  · exact State.readFrame_given hcycle hlen hgiven ha hend
  · rw [State.readFrame_own hcycle hnone ha hend]
    simp [World.log, hnone]

/-- Settles O45: a read of no bytes has no frame, any other is `readFrame_eq`. -/
theorem seeReadRequests : Obligations.SeeReadRequests := by
  intro s i addr n hc hs hcycle ha hend hi
  refine ⟨fun h0 => ?nothing, fun data rest h0 hlen hdata => ?read⟩
  case nothing =>
    obtain ⟨arg, rfl, harg⟩ : ∃ arg : BitVec 32, i = .seeReadBytes addr arg ∧ n = arg.toNat := by
      rcases hi with ⟨-, h1⟩ | h
      · omega
      · exact h
    obtain rfl : arg = 0 := BitVec.eq_of_toNat_eq (by rw [← harg, h0]; rfl)
    rw [exec_see_ok (i := .seeReadBytes addr 0) (t := s.beginOperation) hs rfl (by simp) (if_neg (by simp; omega)) rfl]
    simp [State.returnOk, State.complete, State.beginOperation, World.log, World.emit, hs]
  case read =>
    have hframe := readFrame_eq (s := s.beginOperation) hcycle ha hend hlen hdata
    have hexec : exec i s = .next (State.returnOk { s.beginOperation with
        dout := data
        world := { s.world.log [.i2cW s.cfg.seeDevAddr (frameAddress addr.toNat), .i2cR s.cfg.seeDevAddr n data] with
          see := { s.world.see with pointer := addr.toNat + n }, i2cIn := rest } }) := by
      rcases hi with ⟨rfl, rfl⟩ | ⟨arg, rfl, rfl⟩
      · exact exec_see_ok hs rfl (by simp) (if_neg (by omega)) hframe
      · refine exec_see_ok hs rfl (by simp) (if_neg (by omega)) ?_
        have harg : arg ≠ 0 := by rintro rfl; exact absurd h0 (by simp)
        rw [seeProcedure, if_neg harg, hframe]
        rfl
    rw [hexec]
    simp [State.returnOk, State.complete, State.beginOperation, World.log, World.emit, hs, hlen]

/-! `SEE_BULK_ERASE` -/

/-- Settles O46, by the page loop over the whole device (`bulkErase_spec`). -/
theorem seeBulkEraseRequest : Obligations.SeeBulkEraseRequest := by
  intro s arg hc hs hcycle hmem hsettle
  have hpages := seePages_pos hc
  have hwhole : s.cfg.seeCapacity / s.cfg.seePage * s.cfg.seePage = s.cfg.seeCapacity := Nat.div_mul_cancel (Config.wf_seePage hc)
  obtain ⟨m, hloop, -, hread⟩ := bulkErase_spec (byteValue arg) (s.cfg.seeCapacity / s.cfg.seePage) 0 s.beginOperation hc hcycle hmem
    hsettle (by simp [hwhole])
  have hlast : (s.cfg.seeCapacity / s.cfg.seePage - 1) * s.cfg.seePage = s.cfg.seeCapacity - s.cfg.seePage := by
    rw [Nat.sub_mul, hwhole, Nat.one_mul]
  simp only [if_neg hpages.ne', State.beginOperation_cfg, Nat.zero_add, hlast] at hloop
  have hprocedure : seeProcedure (.seeBulkErase arg) s.beginOperation = _ := hloop
  refine ⟨m, ?_, fun a ha => ?_, fun a ha => ?_⟩
  · rw [exec_see_ok hs rfl (by simp) rfl hprocedure]
    simp [State.returnOk, State.complete, State.beginOperation, World.log, World.emit, hs, byteValue]
  · rw [hread, if_pos (by simpa [hwhole] using ha)]
    rfl
  · rw [hread, if_neg (by simpa [hwhole] using ha)]
    rfl

/-! The lone frames -/

theorem exec_i2cWrite {s t : State} {addr : BitVec 15} {data : List Byte} (hs : s.seq = .idle) (ha : addr.toNat < s.cfg.seeCapacity)
    (hwrite : s.i2cWrite addr.toNat data = .ok t) : i2cWriteFrame addr data s = .next { t with rx := [] } := by
  simp only [i2cWriteFrame, hs, ha, hwrite, ne_eq, not_true_eq_false, if_false, if_true]

/-- A read frame outside the write cycle (R90, R110). -/
theorem exec_i2cRN {s : State} {n : Nat} (hs : s.seq = .idle) (hcycle : s.world.see.cycleLeft = 0) :
    exec (.i2cRN n) s = .next { s with
      rx := s.world.i2cAnswer s.cfg n
      world := { s.world.log [.i2cR s.cfg.seeDevAddr n (s.world.i2cAnswer s.cfg n)] with
        see := { s.world.see with pointer := s.world.see.pointer + n }
        free := s.world.free + (n - (seeReadBytes s.cfg s.world.see n).length), i2cIn := s.world.i2cIn.drop n } } := by
  simp only [exec, execI2cRN, i2cReadFrame, hs, World.i2cRead_eq, hcycle, ne_eq, not_true_eq_false, if_false]

/-- Settles O52: the write frames by `State.i2cWrite_eq`, the read frames by what they are answered with. -/
theorem twoWireFrames : Obligations.TwoWireFrames := by
  intro s hc hs hcycle hmem
  refine ⟨fun addr ha => ?address, fun addr data ha hdata => ?data, fun n data rest hlen hin => ?given, fun n hin hend => ?own,
    fun n hin hpast => ?past⟩
  case address =>
    exact exec_i2cWrite hs ha (State.i2cWrite_address hcycle ha)
  case data =>
    obtain ⟨hother, hstored⟩ := seeStore_spec s.cfg addr.toNat data 0 s.world.see.mem hmem
    simp only [Nat.zero_add] at hother hstored
    have hwrite := State.i2cWrite_eq addr.toNat data s
    rw [if_neg (by simp [hcycle]), SeeDevice.writeFrame, if_neg hdata, Nat.mod_eq_of_lt ha] at hwrite
    exact ⟨_, exec_i2cWrite hs ha hwrite, hstored, hother⟩
  case given =>
    have hread := exec_i2cRN (n := n) hs hcycle
    rw [i2cAnswer_given hlen hin, hin, ← hlen, List.drop_left] at hread
    exact ⟨_, hlen ▸ hread⟩
  case own =>
    obtain ⟨hanswer, hlength⟩ := i2cAnswer_own (w := s.world) hin hend
    rw [exec_i2cRN hs hcycle, hanswer, hlength]
    simp [World.log, hin]
  case past =>
    obtain ⟨hlength, hbytes⟩ := i2cAnswer_past (c := s.cfg) (n := n) (w := s.world) hin
    have hread := exec_i2cRN (n := n) hs hcycle
    rw [show s.world.i2cIn.drop n = s.world.i2cIn by rw [hin, List.drop_nil]] at hread
    exact ⟨_, _, hread, hlength, hbytes⟩

end Sys2Proof.Machine
end

section
/-! PROOFS. The requests of the PAR unit that write a byte, or many bytes (R194 to R198). -/

namespace Sys2Proof.Machine

/-! `PAR_WRITE_BYTE` -/

theorem exec_parWriteByte {s t : State} {addr : Addr} {arg : BitVec 32} (hs : s.seq = .idle) (ha : addr.toNat < s.cfg.parCapacity)
    (hwrite : writeByte addr.toNat (byteValue arg) s.beginOperation = (none, t)) :
    exec (.parWriteByte addr arg) s = .next t.returnOk := by
  have hw : overWide s.beginOperation.cfg.parCapacity addr = false := overWide_eq_false ha
  simp only [exec, execParWriteByte, State.request_idle hs, hw, Bool.false_eq_true, if_false, hwrite]

theorem exec_parWriteByte_fails {s t : State} {addr : Addr} {arg : BitVec 32} {observed : Byte} (hs : s.seq = .idle)
    (ha : addr.toNat < s.cfg.parCapacity)
    (hwrite : writeByte addr.toNat (byteValue arg) s.beginOperation = (some observed, t)) :
    exec (.parWriteByte addr arg) s =
      .next (State.raise (.verifyFailure addr (byteValue arg) observed) { t with failCount := 1 }) := by
  have hw : overWide s.beginOperation.cfg.parCapacity addr = false := overWide_eq_false ha
  simp only [exec, execParWriteByte, State.request_idle hs, hw, Bool.false_eq_true, if_false, hwrite]

/-- Settles O34, by the byte write whose samples end with the byte (`writeByte_match`). -/
theorem parWriteByteSucceeds : Obligations.ParWriteByteSucceeds := by
  intro s addr arg bad rest hc hs hsafe ha hbudget hbad hin
  obtain ⟨hdir, -, hreleased⟩ := hsafe
  obtain ⟨par, k, hwrite, hreleased', hdata', haddr, hwritten, -⟩ :=
    writeByte_match (s := s.beginOperation) (v := byteValue arg) hc hreleased ha hbudget hbad hin
  refine ⟨par, k, _, exec_parWriteByte hs ha hwrite, ?_, ⟨rfl, hdata', hreleased'⟩, haddr, hwritten⟩
  simp [State.returnOk, State.complete, State.beginOperation, World.log, World.emit, byteValue, hs, hdir]

/-- Settles O35, by the byte write whose samples never match (`writeByte_fail`) and the error entry of R240. -/
theorem parWriteByteFails : Obligations.ParWriteByteFails := by
  intro s addr arg bad rest last hc hs hp hsafe ha hbudget hbad hin
  obtain ⟨hdir, -, hreleased⟩ := hsafe
  obtain ⟨par, k, hwrite, hreleased', hdata', hwritten, -⟩ :=
    writeByte_fail (s := s.beginOperation) (v := byteValue arg) hc hreleased ha hbudget hbad hin
  refine ⟨par, k, _, exec_parWriteByte_fails hs ha hwrite, ?_, ⟨rfl, hdata', hreleased'⟩, hwritten⟩
  simp [State.raise, State.recordContext, State.setPhase, State.complete, State.beginOperation, World.log, World.emit,
    OpError.code, byteValue, hs, hp, hdir]

/-- The first sample of a device whose write cycle is due: the cycle ends, and the byte written is the one read (R95, R96). -/
theorem sampled_due {c : Config} {w : World} {a : Nat} {v : Byte} (hin : w.samples = []) (ha : a < c.parCapacity)
    (hdata : w.par.DataIn) (haddr : lineAddress c w.par.level = a) (hcycle : w.par.cycle = some ⟨a, v, some 0⟩)
    (hmem : w.par.mem.wf) :
    w.par.tick c = { w.par with mem := w.par.mem.write a v, cycle := none } ∧ sampled c w.par.level w = v := by
  have htick : w.par.tick c = { w.par with mem := w.par.mem.write a v, cycle := none } := by
    rw [ParDevice.tick, hcycle]
    simp only [Nat.mod_eq_of_lt ha]
  refine ⟨htick, ?_⟩
  simp only [sampled, hin, htick, haddr, dataLinesIn, hdata.1, List.headD_nil, Option.isNone_none, beq_self_eq_true, Bool.and_self,
    if_true]
  exact Memory.read_write_same hmem a v

theorem Config.wf_parRetryBudget {c : Config} (hc : c.wf) : 0 < c.parRetryBudget := hc.2.2.2.2.2.2.2.1

theorem verifyLoop_first {v : Byte} {left : Nat} {s t : State} (h : readCycle { s with attempts := s.attempts + 1 } = (v, t)) :
    verifyLoop v (left + 1) s = (none, { t with resAttempts := BitVec.ofNat 32 t.attempts }) := by
  simp only [verifyLoop, h, if_true]

/-- A byte write at a device whose write cycle ends before the first sample: that sample matches, and the byte is stored
(R95, R194, R195). -/
theorem writeByte_due {s : State} {a : Nat} {v : Byte} (hc : s.cfg.wf) (hreleased : s.world.par.Released)
    (ha : a < s.cfg.parCapacity) (hin : s.world.samples = []) (hidle : s.world.par.cycle = none)
    (hcycle : s.world.par.cycleSamples = some 0) (hmem : s.world.par.mem.wf) :
    ∃ t, writeByte a v s = (none, t) ∧ t.resAttempts = 1 ∧ t.ReadSafe ∧ t.world.samples = [] ∧ t.world.par.cycle = none ∧
      t.world.par.mem = s.world.par.mem.write a v := by
  obtain ⟨par, k, hdrive, hrel, hdata, haddr, hsamples, hlatched, hkept, -⟩ := driveByte_eq v hc hreleased ha
  have hmem' : par.mem = s.world.par.mem := hkept hidle
  have hlatched' : par.cycle = some ⟨a, v, some 0⟩ := by rw [hlatched, hcycle]
  obtain ⟨left, hleft⟩ : ∃ left, s.cfg.parRetryBudget = left + 1 := ⟨_, (Nat.succ_pred_eq_of_pos (Config.wf_parRetryBudget hc)).symm⟩
  obtain ⟨u, hu⟩ : ∃ u : State, u = { dataInput (pulse (driveData v (dataOutput (setAddress a s)))) with attempts := 0 } := ⟨_, rfl⟩
  have hpar : u.world.par = par := by rw [hu, hdrive]
  have hsamples' : u.world.samples = [] := by rw [hu, hdrive]; exact hin
  have hcfg : u.cfg = s.cfg := by rw [hu, hdrive]
  have ⟨htick, hread⟩ := sampled_due (c := u.cfg) (w := u.world) (a := a) (v := v) hsamples' (hcfg ▸ ha) (hpar ▸ hdata)
    (by rw [hcfg, hpar]; exact haddr) (hpar ▸ hlatched') (by rw [hpar, hmem']; exact hmem)
  have hcycle := readCycle_eq (s := { u with attempts := u.attempts + 1 }) (hcfg ▸ hc) (by rw [hpar]; exact hrel)
  rw [hread, htick] at hcycle
  have hwrite : writeByte a v s = verifyLoop v (left + 1) u := by rw [writeByte, hleft, hu]
  rw [hwrite, verifyLoop_first hcycle]
  refine ⟨_, rfl, ?_, ⟨?_, ?_, ?_⟩, ?_, rfl, ?_⟩
  · rw [hu]; rfl
  · rw [hu, hdrive]
  · rw [← hpar] at hdata; exact hdata
  · rw [← hpar] at hrel; exact hrel
  · exact congrArg (List.drop 1) hsamples'
  · show u.world.par.mem.write a v = _
    rw [hpar, hmem']

/-- Settles O36: the write by `writeByte_due`, the byte read back by `parReadByteRequest`. -/
theorem parRoundTrip : Obligations.ParRoundTrip := by
  intro s addr arg hc hs hsafe ha hin hidle hcycle hmem
  obtain ⟨t, hwrite, hattempts, hsafe', hin', hidle', hmem'⟩ :=
    writeByte_due (s := s.beginOperation) (v := byteValue arg) hc hsafe.2.2 ha hin hidle hcycle hmem
  have hstep : ParStep s.beginOperation t := by
    have h := writeByte_step addr.toNat (byteValue arg) s.beginOperation
    rwa [hwrite] at h
  have hcfg : t.cfg = s.cfg := hstep.cfg
  obtain ⟨v, par, u, hread, rfl, -, hv, hsame, -⟩ :=
    (parReadByteRequest t.returnOk addr (hcfg ▸ hc) rfl hsafe').1 (hcfg ▸ ha)
  have hstored : ∀ a, t.world.par.mem.read a = if a = addr.toNat then byteValue arg else s.world.par.mem.read a := fun a => by
    rw [hmem']
    exact Memory.read_write hmem _ _ _
  refine ⟨t.returnOk, _, exec_parWriteByte hs ha hwrite, rfl, hattempts, hidle', hstored, hread, rfl, ?_, fun a => ?_⟩
  · have hbyte : v = t.world.par.mem.read addr.toNat := hv hin' hidle'
    rw [hbyte, hstored, if_pos rfl]
    rfl
  · exact congrArg (fun m => Memory.read m a) (hsame hidle')

/-! `PAR_BULK_READ` -/

/-- Settles O38, by the loop over all its bytes (`bulkReadLoop_eq`). -/
theorem parBulkReadRequest : Obligations.ParBulkReadRequest := by
  intro s addr arg hc hs hsafe ha hend
  obtain ⟨hdir, hdata, hreleased⟩ := hsafe
  obtain ⟨values, par, hlen, hloop, hreleased', hdata', hgiven, hown, hsame⟩ :=
    bulkReadLoop_eq addr.toNat arg.toNat 0 s.beginOperation hc hreleased hdata hend
  have hexec : exec (.parBulkRead addr arg) s = .next (bulkReadLoop addr.toNat arg.toNat 0 s.beginOperation).returnOk := by
    simp only [exec, execParBulkRead, State.request_idle hs, State.beginOperation_cfg, overWide_eq_false ha, pastEnd_eq_false hend,
      Bool.false_eq_true, if_false]
  rw [hloop] at hexec
  refine ⟨values, par, _, hlen, hexec, ?_, hgiven, hown, hsame, ⟨hdir, hdata', hreleased'⟩⟩
  simp [State.returnOk, State.complete, State.beginOperation, World.log, World.emit, hs, hlen]

/-! `PAR_BULK_WRITE` -/

theorem exec_parBulkWrite {s : State} {addr : Addr} {arg : BitVec 32} {data : List Byte} (hs : s.seq = .idle)
    (ha : addr.toNat < s.cfg.parCapacity) (hlen : data.length = arg.toNat) (hend : addr.toNat + arg.toNat ≤ s.cfg.parCapacity) :
    exec (.parBulkWrite addr arg data) s = .next (bulkWriteLoop addr.toNat data 0 s.beginOperation) := by
  simp only [exec, execParBulkWrite, State.request_idle hs, State.beginOperation_cfg, overWide_eq_false ha,
    payloadMismatch_eq_false hlen, pastEnd_eq_false hend, Bool.false_eq_true, if_false]

/-- The end of the loop (R198): the operation fails if any byte did; the registers hold the first that did already. -/
theorem bulkWriteLoop_end (start i : Nat) (u : State) :
    ∃ phase log, bulkWriteLoop start [] i u =
      State.complete (if u.failCount = 0 then 0x00 else 0x01) { u with norPhase := phase, phaseLog := log } := by
  unfold bulkWriteLoop
  by_cases h : u.failCount = 0
  · rw [if_neg (not_not.mpr h), if_pos h]
    exact ⟨u.norPhase, u.phaseLog, rfl⟩
  · rw [if_pos h, if_neg h]
    exact ⟨_, _, rfl⟩

/-- Settles O39, by the loop over all its bytes (`bulkWriteLoop_runs`) and its end. -/
theorem parBulkWriteRuns : Obligations.ParBulkWriteRuns := by
  intro s addr arg runs rest hc hs hp hsafe ha hlen hend hruns hpolicy hin
  obtain ⟨hdir, hdata, hreleased⟩ := hsafe
  have hsmall : runs.length < 2 ^ 32 := hlen ▸ arg.isLt
  have hcap : addr.toNat + 0 + runs.length ≤ s.cfg.parCapacity := by omega
  obtain ⟨u, hloop, hstep, htrace, hsamples, hreleased', hdata', hdir', hdout, hcount, hkept, hfirst, hattempts, htouched⟩ :=
    bulkWriteLoop_runs addr.toNat rest runs 0 0 s.beginOperation hc hreleased hdata hdir hcap hruns hpolicy rfl
      (by omega) hin
  obtain ⟨phase, log, hend'⟩ := bulkWriteLoop_end addr.toNat (0 + runs.length) u
  have hexec := exec_parBulkWrite (data := runs.map (·.1)) hs ha (by simpa using hlen) hend
  rw [hloop, hend'] at hexec
  rw [Nat.zero_add] at hcount
  refine ⟨_, _, hexec, rfl, hcount, hdout, ?_, rfl, hsamples, ⟨hdir', hdata', hreleased'⟩, hattempts, ?_, fun hnone => ?none,
    fun j hj hfail hbefore => ?some⟩
  · show BitVec.ofNat 32 u.dout.length = 0
    rw [hdout]
    rfl
  · rw [← hlen]
    exact htouched.1
  case none =>
    obtain ⟨haddr, hexpected, hobserved⟩ := hkept (.inr hnone)
    have hzero : u.failCount = 0 := by
      rw [hcount, List.filter_eq_nil_iff.mpr (List.find?_eq_none.mp hnone)]
      rfl
    rw [if_pos hzero]
    exact ⟨rfl, congrArg (· ++ _) htrace, haddr, hexpected, hobserved⟩
  case some =>
    have hpos : 0 < (runs.filter runFailed).length := List.length_pos_of_mem (List.mem_filter.mpr ⟨List.getElem_mem hj, hfail⟩)
    have hle : (runs.filter runFailed).length ≤ runs.length := List.length_filter_le _ _
    have hsome : u.failCount ≠ 0 := by
      rw [hcount]
      intro h
      have hzero := congrArg BitVec.toNat h
      rw [BitVec.toNat_ofNat, Nat.mod_eq_of_lt (by omega)] at hzero
      exact absurd hzero hpos.ne'
    rw [if_neg hsome]
    obtain ⟨haddr, hexpected, hobserved⟩ := hfirst rfl j hj hfail hbefore
    exact ⟨rfl, congrArg (· ++ _) htrace, haddr, hexpected, hobserved⟩

/-- Settles O40, by the loop up to the byte that fails (`bulkWriteLoop_abort`) and the error entry of R240. -/
theorem parBulkWriteAborts : Obligations.ParBulkWriteAborts := by
  intro s addr arg good f later rest hc hs hp hsafe ha hlen hend hpolicy hruns hgood hfail hin
  obtain ⟨hdir, hdata, hreleased⟩ := hsafe
  have hcap : addr.toNat + 0 + good.length + 1 ≤ s.cfg.parCapacity := by omega
  obtain ⟨u, hloop, hcount, hdout, hattempts, hsamples, hreleased', hdata', hdir', htrace, htouched⟩ :=
    bulkWriteLoop_abort addr.toNat f later rest good 0 s.beginOperation hc hreleased hdata hdir hcap hpolicy hruns hgood
      hfail rfl hp hin
  have hexec := exec_parBulkWrite (data := good.map (·.1) ++ f.1 :: later) hs ha (by simp; omega) hend
  rw [hloop] at hexec
  refine ⟨_, hexec, rfl, hcount, hdout, ?_, rfl, rfl, rfl, rfl, hattempts, hsamples, ⟨hdir', hdata', hreleased'⟩, htouched.1,
    congrArg (· ++ _) htrace⟩
  show BitVec.ofNat 32 u.dout.length = 0
  rw [hdout]
  rfl

end Sys2Proof.Machine
end
